-- ==== Sys2Proof/Word.lean ====
section
/-! DEFINITION. The words of the core: 32-bit words and bytes (00_scope R8, 20_memory R77). -/

namespace Sys2Proof

/-- A 32-bit word: an index, a count, a level, a command word or an operand (R8). -/
abbrev Word := BitVec 32

/-- One byte of the frame buffer or of a data stream (R77 (b)). -/
abbrev Byte := BitVec 8

end Sys2Proof
end

