-- ==== Sys2Proof/Config.lean ====
section
/-! DEFINITION. What an instance of the core fixes (00_scope R6) and the free value every open choice of the
spec is drawn from (10_state R52, log 6). -/

namespace Sys2Proof

/-- `XING`: how an observer's view of a cell may lag (20_memory R88, R89). -/
inductive Xing where
  | lagging
  | sc
deriving DecidableEq, Repr

/-- `ENDIAN`: the byte order of a cell seen as four bytes (20_memory R75); no operation reads it. -/
inductive Endian where
  | little
  | big
deriving DecidableEq, Repr

/-- `TIMEBASE`: what a timeout operand counts from (30_encoding R115); no rule reads it. -/
inductive TimeBase where
  | relative
  | absolute
deriving DecidableEq, Repr

/-- A reset value of a threshold (00_scope R6): the symbolic `N` (the capacity), or a number. -/
inductive ResetLevel where
  | capacity
  | level (n : Word)
deriving DecidableEq, Repr

/-- The parameters of one instance (00_scope R6). They are data that State carries and no step writes (log 4), so a
statement about every state is a statement about every instance. -/
structure Params where
  /-- `NREADERS`, the number of reader endpoints. -/
  nReaders : Nat
  /-- `ERR_EIO`. -/
  errEio : Word
  /-- `ERR_EOVERFLOW`. -/
  errEoverflow : Word
  endian : Endian
  timeBase : TimeBase
  /-- `W_LLA_RESET`. -/
  wLlaReset : ResetLevel
  /-- `W_HLT_RESET`. -/
  wHltReset : ResetLevel
  /-- `R_LLT_RESET`. -/
  rLltReset : ResetLevel
  /-- `R_HLA_RESET`. -/
  rHlaReset : ResetLevel
  xing : Xing
  /-- `FOREIGN`: a foreign peer, and with it `PORT_X`, exists. -/
  foreign : Bool
  /-- The block was built with a `FRONT` cell (parameter `THR` of R6, 42_fifo R201). -/
  frontBuilt : Bool
  /-- Byte address of the supplied `REAR` cell on the platform (20_memory R71, R76). -/
  rearAddr : Nat
  /-- Byte address of the supplied `FRONT` cell on the platform. -/
  frontAddr : Nat
deriving DecidableEq, Repr

/-- The spec's defaults (R6). It gives none for `timeBase`, `frontBuilt`, `rearAddr`, `frontAddr`:
DESIGN CHOICE (log 4), unsafe. -/
def Params.default : Params where
  nReaders := 2
  errEio := BitVec.ofInt 32 (-5)
  errEoverflow := BitVec.ofInt 32 (-75)
  endian := .little
  timeBase := .relative
  wLlaReset := .level 0
  wHltReset := .level 0
  rLltReset := .capacity
  rHlaReset := .capacity
  xing := .lagging
  foreign := false
  frontBuilt := true
  rearAddr := 0
  frontAddr := 4

/-- The bounds R6 puts on the parameters: at least one reader, and two error values that are negative and differ. -/
def Params.legal (p : Params) : Bool :=
  decide (1 ≤ p.nReaders) && p.errEio.msb && p.errEoverflow.msb && p.errEio != p.errEoverflow

/-- The free value behind every choice the spec leaves open (R52: a lag, a woken agent, an unwritten or racing byte, a
copy order, a default turn), applied to the count of draws taken so far. It has no body: nothing is known of it
(log 6). -/
opaque Config.draw : Nat → Nat

/-- The count a response gives for a transfer of `n` frames that the signed field `RET` cannot hold, `n ≥ 2³¹`: the spec
states no value there, but 00_scope R11 keeps it non-negative, so 31 bits are free (log 21). It has no body. -/
opaque Config.wideCount : Nat → BitVec 31

end Sys2Proof
end

