-- ==== Sys2Proof/Syntax.lean ====
section
/-! DEFINITION. The 33 operations of the opcode map (30_encoding R118), one constructor per row, and the
pseudo-operations of R124. -/

namespace Sys2Proof

/-- The cell select (40_index_cell R145): 0 is `REAR`, 1 is `FRONT`. -/
inductive CellSel where
  | rear
  | front
deriving DecidableEq, Repr

/-- A timeout operand (30_encoding R115): absent is the null timeout (`TV = 0`), present carries `B`
(`TV = 1`; zero is the zero-field timeout). -/
abbrev Timeout := Option Word

/-- One constructor per row of the opcode table, its arguments the operands the row reads (30_encoding R118). -/
inductive Instr where
  | idxInit (c : CellSel)
  | idxLdaq (c : CellSel)
  | idxStrl (c : CellSel) (value : Word)
  | idxCas (c : CellSel) (expected desired : Word)
  | idxWait (c : CellSel) (expected : Word) (tmo : Timeout)
  | idxWake1 (c : CellSel)
  | idxWakeall (c : CellSel)
  | baseNp2 (n : Word)
  | baseSlot (raw : Word)
  | baseSum (index k : Word)
  | baseDiff (rear front : Word) (rdr lv : Bool)
  | baseBack (rear : Word)
  | fifoInit (n size : Word) (thr ext : Bool)
  | csrRd (sel : BitVec 8)
  | wAttach
  | wObtain (count : Word) (tmo : Timeout)
  | wRelease (k : Word)
  | wWrite (count : Word) (tmo : Timeout)
  | wSethlt (level : Word)
  | wSetlla (level : Word)
  | wSeteff (e : Word)
  | rAttach (sel : BitVec 8) (thr : Bool)
  | rObtain (sel : BitVec 8) (count : Word) (tmo : Timeout) (lv : Bool)
  | rRelease (sel : BitVec 8) (k : Word)
  | rRead (sel : BitVec 8) (count : Word) (tmo : Timeout) (lv : Bool)
  | rSetllt (sel : BitVec 8) (level : Word)
  | rSethla (sel : BitVec 8) (level : Word)
  | xgEnc (binary : Word)
  | xgDec (gray : Word)
  | bufLdb (off : Word)
  | bufStb (off : Word) (value : Byte)
  | fenceAcq
  | fenceRel
deriving DecidableEq, Repr

/-- The pseudo-operations (30_encoding R124, 45_provider R280, R281). The reader's forms carry their reader number. -/
inductive Pseudo where
  | pObtainW (count : Word) (tmo : Timeout)
  | pReleaseW (k : Word)
  | pObtainR (i : BitVec 8) (count : Word) (tmo : Timeout)
  | pReleaseR (i : BitVec 8) (k : Word)
  | wPoll (count : Word)
  | rPoll (i : BitVec 8) (count : Word)
  | wCopyin (off : Word) (bytes : List Byte)
  | rCopyout (off : Word) (n : Nat)
deriving DecidableEq, Repr

end Sys2Proof
end

