-- ==== Sys2Proof/WellFormed.lean ====
section
/-! DEFINITION. Well-formed instructions: the one bound that the types of Syntax do not carry already. -/

namespace Sys2Proof

/-- The register numbers of `CSR.RD` (10_state R53). -/
def csrNumbers : List (BitVec 8) :=
  [0x00, 0x01, 0x02, 0x03, 0x04, 0x05,
   0x10, 0x11, 0x12, 0x13, 0x14, 0x15,
   0x20, 0x21, 0x22, 0x23, 0x24, 0x25]

/-- An instruction is well-formed when its register number, if it has one, is a number of R53 (30_encoding R120). Every
other operand may hold any value of its type: R114 takes `A` and `B` whole, and a reader select is compared with the
port at execution (R118). -/
def Instr.wellFormed : Instr → Bool
  | .csrRd sel => csrNumbers.contains sel
  | _ => true

end Sys2Proof
end

