-- ==== Sys2Proof/Decode.lean ====
section
/-! DEFINITION. The decoder of a 96-bit command, total and refusing by name, and the encoder
(30_encoding R111 to R122). -/

namespace Sys2Proof

/-- The fields of a command word (30_encoding R112). -/
structure CwFields where
  unit : BitVec 4
  func : BitVec 4
  sel : BitVec 8
  flg : BitVec 8
  rsv : BitVec 8
deriving DecidableEq, Repr

/-- Why a command word is illegal (30_encoding R120); every one of them is answered `REFUSED`. -/
inductive DecodeError where
  /-- `UNIT` is 8 to 15. -/
  | reservedUnit
  /-- `FUNC` is not listed for the `UNIT`. -/
  | unlistedFunc
  /-- `RSV ≠ 0`. -/
  | reservedBits
  /-- A flag bit that the row does not list is 1. -/
  | unlistedFlag
  /-- `SEL ≠ 0` in a row whose `SEL` is 0. -/
  | selectNotZero
  /-- `SEL > 1` in a cell row. -/
  | noSuchCell
deriving DecidableEq, Repr

/-- Cut a command word into its fields (R112). -/
def cwFields (cw : Word) : CwFields where
  unit := cw.extractLsb' 28 4
  func := cw.extractLsb' 24 4
  sel := cw.extractLsb' 16 8
  flg := cw.extractLsb' 8 8
  rsv := cw.extractLsb' 0 8

/-- Flag bits within `FLG` (R113): bit 8 of the command word is bit 0 here. -/
def flagTV : BitVec 8 := 0x01
def flagLV : BitVec 8 := 0x02
def flagTHR : BitVec 8 := 0x04
def flagRDR : BitVec 8 := 0x08
def flagEXT : BitVec 8 := 0x10

/-- Is the flag set in `FLG`? -/
def CwFields.has (f : CwFields) (flag : BitVec 8) : Bool := f.flg &&& flag != 0

/-- The timeout operand of format `AT` (R115). -/
def CwFields.timeout (f : CwFields) (b : Word) : Timeout := if f.has flagTV then some b else none

/-- The cell of a cell row (R145). -/
def CwFields.cell (f : CwFields) : CellSel := if f.sel = 0 then .rear else .front

/-- A row whose `SEL` is free, with its listed flags (R118). -/
def CwFields.anyRow (f : CwFields) (flags : BitVec 8) (i : Instr) : Except DecodeError Instr :=
  if f.flg &&& ~~~flags ≠ 0 then .error .unlistedFlag else .ok i

/-- A row whose `SEL` is 0. -/
def CwFields.zeroRow (f : CwFields) (flags : BitVec 8) (i : Instr) : Except DecodeError Instr :=
  if f.sel ≠ 0 then .error .selectNotZero else f.anyRow flags i

/-- A row whose `SEL[7:1]` is 0. -/
def CwFields.cellRow (f : CwFields) (flags : BitVec 8) (i : CellSel → Instr) : Except DecodeError Instr :=
  if f.sel.toNat > 1 then .error .noSuchCell else f.anyRow flags (i f.cell)

/-- Unit 0, `IDX`. -/
def decodeIdx (f : CwFields) (a b : Word) : Except DecodeError Instr :=
  match f.func.toNat with
  | 0 => f.cellRow 0 .idxInit
  | 1 => f.cellRow 0 .idxLdaq
  | 2 => f.cellRow 0 (.idxStrl · a)
  | 3 => f.cellRow 0 (.idxCas · a b)
  | 4 => f.cellRow flagTV (.idxWait · a (f.timeout b))
  | 5 => f.cellRow 0 .idxWake1
  | 6 => f.cellRow 0 .idxWakeall
  | _ => .error .unlistedFunc

/-- Unit 1, `BASE`. -/
def decodeBase (f : CwFields) (a b : Word) : Except DecodeError Instr :=
  match f.func.toNat with
  | 0 => f.zeroRow 0 (.baseNp2 a)
  | 1 => f.zeroRow 0 (.baseSlot a)
  | 2 => f.zeroRow 0 (.baseSum a b)
  | 3 => f.zeroRow (flagLV ||| flagRDR) (.baseDiff a b (f.has flagRDR) (f.has flagLV))
  | 4 => f.zeroRow 0 (.baseBack a)
  | _ => .error .unlistedFunc

/-- Unit 2, `FIFO`. The register number of `CSR.RD` is checked at execution (42_fifo R204, log 25). -/
def decodeFifo (f : CwFields) (a b : Word) : Except DecodeError Instr :=
  match f.func.toNat with
  | 0 => f.zeroRow (flagTHR ||| flagEXT) (.fifoInit a b (f.has flagTHR) (f.has flagEXT))
  | 1 => f.anyRow 0 (.csrRd f.sel)
  | _ => .error .unlistedFunc

/-- Unit 3, `WR`. -/
def decodeWriter (f : CwFields) (a b : Word) : Except DecodeError Instr :=
  match f.func.toNat with
  | 0 => f.zeroRow 0 .wAttach
  | 1 => f.zeroRow flagTV (.wObtain a (f.timeout b))
  | 2 => f.zeroRow 0 (.wRelease a)
  | 3 => f.zeroRow flagTV (.wWrite a (f.timeout b))
  | 4 => f.zeroRow 0 (.wSethlt a)
  | 5 => f.zeroRow 0 (.wSetlla a)
  | 6 => f.zeroRow 0 (.wSeteff a)
  | _ => .error .unlistedFunc

/-- Unit 4, `RD`. -/
def decodeReader (f : CwFields) (a b : Word) : Except DecodeError Instr :=
  match f.func.toNat with
  | 0 => f.anyRow flagTHR (.rAttach f.sel (f.has flagTHR))
  | 1 => f.anyRow (flagTV ||| flagLV) (.rObtain f.sel a (f.timeout b) (f.has flagLV))
  | 2 => f.anyRow 0 (.rRelease f.sel a)
  | 3 => f.anyRow (flagTV ||| flagLV) (.rRead f.sel a (f.timeout b) (f.has flagLV))
  | 4 => f.anyRow 0 (.rSetllt f.sel a)
  | 5 => f.anyRow 0 (.rSethla f.sel a)
  | _ => .error .unlistedFunc

/-- Unit 5, `XG`. -/
def decodeXg (f : CwFields) (a : Word) : Except DecodeError Instr :=
  match f.func.toNat with
  | 0 => f.zeroRow 0 (.xgEnc a)
  | 1 => f.zeroRow 0 (.xgDec a)
  | _ => .error .unlistedFunc

/-- Unit 6, `BUF`. `BUF.STB` reads the low byte of `B` and ignores the rest (R114). -/
def decodeBuf (f : CwFields) (a b : Word) : Except DecodeError Instr :=
  match f.func.toNat with
  | 0 => f.zeroRow 0 (.bufLdb a)
  | 1 => f.zeroRow 0 (.bufStb a (b.setWidth 8))
  | _ => .error .unlistedFunc

/-- Unit 7, `FEN`. -/
def decodeFence (f : CwFields) : Except DecodeError Instr :=
  match f.func.toNat with
  | 0 => f.zeroRow 0 .fenceAcq
  | 1 => f.zeroRow 0 .fenceRel
  | _ => .error .unlistedFunc

/-- The decoder (R118, R120): the instruction of the command with word `cw` and operands `a`, `b`, or why the word is
illegal. -/
def decode (cw a b : Word) : Except DecodeError Instr :=
  let f := cwFields cw
  if f.rsv ≠ 0 then .error .reservedBits
  else match f.unit.toNat with
    | 0 => decodeIdx f a b
    | 1 => decodeBase f a b
    | 2 => decodeFifo f a b
    | 3 => decodeWriter f a b
    | 4 => decodeReader f a b
    | 5 => decodeXg f a
    | 6 => decodeBuf f a b
    | 7 => decodeFence f
    | _ => .error .reservedUnit

/-! ### The command beat -/

/-- A command beat of 96 bits: the command word and its two operands (R111). -/
structure Beat96 where
  cw : Word
  a : Word := 0
  b : Word := 0
deriving DecidableEq, Repr

/-- The beat as one value, `{CW, A, B}` (R111): the first part stands in the high bits (00_scope R8), so `CW` is bits 95:64. -/
def Beat96.bits (x : Beat96) : BitVec 96 := x.cw ++ x.a ++ x.b

/-- The beat from its 96 bits. -/
def Beat96.ofBits (v : BitVec 96) : Beat96 := ⟨v.extractLsb' 64 32, v.extractLsb' 32 32, v.extractLsb' 0 32⟩

/-- The beat from the first `nbits` bits of a number in the numbering of the opcode TABLE, in which bit 0 is the least
significant bit of the first word, and later words count on: `CW` from bit 0, `A` from 32, `B` from 64; bits from `nbits` on
are 0. It is not the order of `Beat96.bits`, and no rule reads it (log 36). -/
def Beat96.ofTable (nbits w : Nat) : Beat96 :=
  let v := BitVec.ofNat 96 (w % 2 ^ nbits)
  ⟨v.extractLsb' 0 32, v.extractLsb' 32 32, v.extractLsb' 64 32⟩

/-- The decoder on a command in the numbering of the opcode table. -/
def decodeTableWord (nbits w : Nat) : Option Instr :=
  let x := Beat96.ofTable nbits w
  match decode x.cw x.a x.b with
  | .ok i => some i
  | .error _ => none

/-! ### The encoder -/

/-- A command word from its fields (R112); `RSV` is 0. -/
def packCw (unit func : BitVec 4) (sel flg : BitVec 8) : Word :=
  unit ++ func ++ sel ++ flg ++ (0 : BitVec 8)

/-- The cell select as `SEL` (R145). -/
def CellSel.sel : CellSel → BitVec 8
  | .rear => 0
  | .front => 1

/-- A flag bit, if set. -/
def flagIf (on : Bool) (flag : BitVec 8) : BitVec 8 := if on then flag else 0

/-- `TV` of a timeout operand (R115). -/
def tmoFlag (t : Timeout) : BitVec 8 := flagIf t.isSome flagTV

/-- `B` of a timeout operand; the assembler emits 0 for the null timeout (R111). -/
def tmoWord (t : Timeout) : Word := t.getD 0

/-- The command of an instruction (R118); operands it does not read are 0. -/
def encode : Instr → Beat96
  | .idxInit c => ⟨packCw 0 0 c.sel 0, 0, 0⟩
  | .idxLdaq c => ⟨packCw 0 1 c.sel 0, 0, 0⟩
  | .idxStrl c v => ⟨packCw 0 2 c.sel 0, v, 0⟩
  | .idxCas c e d => ⟨packCw 0 3 c.sel 0, e, d⟩
  | .idxWait c e t => ⟨packCw 0 4 c.sel (tmoFlag t), e, tmoWord t⟩
  | .idxWake1 c => ⟨packCw 0 5 c.sel 0, 0, 0⟩
  | .idxWakeall c => ⟨packCw 0 6 c.sel 0, 0, 0⟩
  | .baseNp2 n => ⟨packCw 1 0 0 0, n, 0⟩
  | .baseSlot x => ⟨packCw 1 1 0 0, x, 0⟩
  | .baseSum x k => ⟨packCw 1 2 0 0, x, k⟩
  | .baseDiff r f rdr lv => ⟨packCw 1 3 0 (flagIf rdr flagRDR ||| flagIf lv flagLV), r, f⟩
  | .baseBack r => ⟨packCw 1 4 0 0, r, 0⟩
  | .fifoInit n s thr ext => ⟨packCw 2 0 0 (flagIf thr flagTHR ||| flagIf ext flagEXT), n, s⟩
  | .csrRd sel => ⟨packCw 2 1 sel 0, 0, 0⟩
  | .wAttach => ⟨packCw 3 0 0 0, 0, 0⟩
  | .wObtain n t => ⟨packCw 3 1 0 (tmoFlag t), n, tmoWord t⟩
  | .wRelease k => ⟨packCw 3 2 0 0, k, 0⟩
  | .wWrite n t => ⟨packCw 3 3 0 (tmoFlag t), n, tmoWord t⟩
  | .wSethlt l => ⟨packCw 3 4 0 0, l, 0⟩
  | .wSetlla l => ⟨packCw 3 5 0 0, l, 0⟩
  | .wSeteff e => ⟨packCw 3 6 0 0, e, 0⟩
  | .rAttach i thr => ⟨packCw 4 0 i (flagIf thr flagTHR), 0, 0⟩
  | .rObtain i n t lv => ⟨packCw 4 1 i (tmoFlag t ||| flagIf lv flagLV), n, tmoWord t⟩
  | .rRelease i k => ⟨packCw 4 2 i 0, k, 0⟩
  | .rRead i n t lv => ⟨packCw 4 3 i (tmoFlag t ||| flagIf lv flagLV), n, tmoWord t⟩
  | .rSetllt i l => ⟨packCw 4 4 i 0, l, 0⟩
  | .rSethla i l => ⟨packCw 4 5 i 0, l, 0⟩
  | .xgEnc v => ⟨packCw 5 0 0 0, v, 0⟩
  | .xgDec g => ⟨packCw 5 1 0 0, g, 0⟩
  | .bufLdb off => ⟨packCw 6 0 0 0, off, 0⟩
  | .bufStb off v => ⟨packCw 6 1 0 0, off, v.setWidth 32⟩
  | .fenceAcq => ⟨packCw 7 0 0 0, 0, 0⟩
  | .fenceRel => ⟨packCw 7 1 0 0, 0, 0⟩

/-- The two columns of the opcode map (R118) that select a row: a command word `w` selects the row whose `mask` and
`value` satisfy `w & mask = value`. -/
structure OpRow where
  mask : Word
  value : Word
deriving DecidableEq, Repr

/-- The opcode map (R118), in the table's order. -/
def opRows : List OpRow :=
  [⟨0xFFFEFFFF, 0x00000000⟩, ⟨0xFFFEFFFF, 0x01000000⟩, ⟨0xFFFEFFFF, 0x02000000⟩, ⟨0xFFFEFFFF, 0x03000000⟩,
   ⟨0xFFFEFEFF, 0x04000000⟩, ⟨0xFFFEFFFF, 0x05000000⟩, ⟨0xFFFEFFFF, 0x06000000⟩]
  ++ [⟨0xFFFFFFFF, 0x10000000⟩, ⟨0xFFFFFFFF, 0x11000000⟩, ⟨0xFFFFFFFF, 0x12000000⟩, ⟨0xFFFFF5FF, 0x13000000⟩,
   ⟨0xFFFFFFFF, 0x14000000⟩, ⟨0xFFFFEBFF, 0x20000000⟩, ⟨0xFF00FFFF, 0x21000000⟩]
  ++ [⟨0xFFFFFFFF, 0x30000000⟩, ⟨0xFFFFFEFF, 0x31000000⟩, ⟨0xFFFFFFFF, 0x32000000⟩, ⟨0xFFFFFEFF, 0x33000000⟩,
   ⟨0xFFFFFFFF, 0x34000000⟩, ⟨0xFFFFFFFF, 0x35000000⟩, ⟨0xFFFFFFFF, 0x36000000⟩]
  ++ [⟨0xFF00FBFF, 0x40000000⟩, ⟨0xFF00FCFF, 0x41000000⟩, ⟨0xFF00FFFF, 0x42000000⟩, ⟨0xFF00FCFF, 0x43000000⟩,
   ⟨0xFF00FFFF, 0x44000000⟩, ⟨0xFF00FFFF, 0x45000000⟩]
  ++ [⟨0xFFFFFFFF, 0x50000000⟩, ⟨0xFFFFFFFF, 0x51000000⟩, ⟨0xFFFFFFFF, 0x60000000⟩, ⟨0xFFFFFFFF, 0x61000000⟩,
   ⟨0xFFFFFFFF, 0x70000000⟩, ⟨0xFFFFFFFF, 0x71000000⟩]

/-- Does the command word select the row? -/
def OpRow.selects (r : OpRow) (w : Word) : Bool := w &&& r.mask == r.value

/-- The number of an operation's row in the opcode map (R118). -/
def Instr.row : Instr → Nat
  | .idxInit _ => 0
  | .idxLdaq _ => 1
  | .idxStrl _ _ => 2
  | .idxCas _ _ _ => 3
  | .idxWait _ _ _ => 4
  | .idxWake1 _ => 5
  | .idxWakeall _ => 6
  | .baseNp2 _ => 7
  | .baseSlot _ => 8
  | .baseSum _ _ => 9
  | .baseDiff _ _ _ _ => 10
  | .baseBack _ => 11
  | .fifoInit _ _ _ _ => 12
  | .csrRd _ => 13
  | .wAttach => 14
  | .wObtain _ _ => 15
  | .wRelease _ => 16
  | .wWrite _ _ => 17
  | .wSethlt _ => 18
  | .wSetlla _ => 19
  | .wSeteff _ => 20
  | .rAttach _ _ => 21
  | .rObtain _ _ _ _ => 22
  | .rRelease _ _ => 23
  | .rRead _ _ _ _ => 24
  | .rSetllt _ _ => 25
  | .rSethla _ _ => 26
  | .xgEnc _ => 27
  | .xgDec _ => 28
  | .bufLdb _ => 29
  | .bufStb _ _ => 30
  | .fenceAcq => 31
  | .fenceRel => 32

/-! ### Pseudo-operations -/

/-- The commands an assembler puts in place of a pseudo-operation (30_encoding R124, 45_provider R280, R281). An offset of
`W.COPYIN` or `R.COPYOUT` that passes 2³² − 1 wraps: R124 writes `off+1` and does not say (log 38, DESIGN CHOICE). -/
def Pseudo.expand : Pseudo → List Instr
  | .pObtainW n t => [.wObtain n t]
  | .pReleaseW k => [.wRelease k]
  | .pObtainR i n t => [.rObtain i n t false]
  | .pReleaseR i k => [.rRelease i k]
  | .wPoll n => [.wObtain n none]
  | .rPoll i n => [.rObtain i n none false]
  | .wCopyin off bytes => bytes.zipIdx.map fun p => .bufStb (off + BitVec.ofNat 32 p.2) p.1
  | .rCopyout off n => (List.range n).map fun j => .bufLdb (off + BitVec.ofNat 32 j)

/-! ### Assembler text (30_encoding R123) -/

/-- A number in decimal. -/
def asmNum (w : Word) : String := toString w.toNat

/-- The timeout operand: `none`, or a number of ticks (0 is the zero-field timeout). -/
def asmTmo : Timeout → String
  | none => "none"
  | some b => asmNum b

/-- A cell name. -/
def asmCell : CellSel → String
  | .rear => "rear"
  | .front => "front"

/-- A keyword, if its flag is set. -/
def asmKey (on : Bool) (k : String) : String := if on then ", " ++ k else ""

/-- The name of a register of `CSR.RD` (10_state R53), or its number. -/
def asmCsr (sel : BitVec 8) : String :=
  match sel.toNat with
  | 0x00 => "CFG_N" | 0x01 => "CFG_S" | 0x02 => "CFG_P" | 0x03 => "CFG_F" | 0x04 => "CFG_CTL" | 0x05 => "CFG_NRD"
  | 0x10 => "W_LR" | 0x11 => "W_EFF" | 0x12 => "W_LLA" | 0x13 => "W_HLT" | 0x14 => "W_OBT" | 0x15 => "W_STS"
  | 0x20 => "R_LF" | 0x21 => "R_HLA" | 0x22 => "R_LLT" | 0x23 => "R_OBT" | 0x24 => "R_STS" | 0x25 => "R_LOST"
  | n => toString n

/-- One line of assembler text, without its port (R123). -/
def Instr.asm : Instr → String
  | .idxInit c => "IDX.INIT " ++ asmCell c
  | .idxLdaq c => "IDX.LDAQ " ++ asmCell c
  | .idxStrl c v => "IDX.STRL " ++ asmCell c ++ ", " ++ asmNum v
  | .idxCas c e d => "IDX.CAS " ++ asmCell c ++ ", " ++ asmNum e ++ ", " ++ asmNum d
  | .idxWait c e t => "IDX.WAIT " ++ asmCell c ++ ", " ++ asmNum e ++ ", " ++ asmTmo t
  | .idxWake1 c => "IDX.WAKE1 " ++ asmCell c
  | .idxWakeall c => "IDX.WAKEALL " ++ asmCell c
  | .baseNp2 n => "BASE.NP2 " ++ asmNum n
  | .baseSlot x => "BASE.SLOT " ++ asmNum x
  | .baseSum x k => "BASE.SUM " ++ asmNum x ++ ", " ++ asmNum k
  | .baseDiff r f rdr lv => "BASE.DIFF " ++ asmNum r ++ ", " ++ asmNum f ++ asmKey rdr "rdr" ++ asmKey lv "lost"
  | .baseBack r => "BASE.BACK " ++ asmNum r
  | .fifoInit n s thr ext => "FIFO.INIT " ++ asmNum n ++ ", " ++ asmNum s ++ asmKey thr "thr" ++ asmKey ext "ext"
  | .csrRd sel => "CSR.RD " ++ asmCsr sel
  | .wAttach => "W.ATTACH"
  | .wObtain n t => "W.OBTAIN " ++ asmNum n ++ ", " ++ asmTmo t
  | .wRelease k => "W.RELEASE " ++ asmNum k
  | .wWrite n t => "W.WRITE " ++ asmNum n ++ ", " ++ asmTmo t
  | .wSethlt l => "W.SETHLT " ++ asmNum l
  | .wSetlla l => "W.SETLLA " ++ asmNum l
  | .wSeteff e => "W.SETEFF " ++ asmNum e
  | .rAttach _ thr => if thr then "R.ATTACH thr" else "R.ATTACH"
  | .rObtain _ n t lv => "R.OBTAIN " ++ asmNum n ++ ", " ++ asmTmo t ++ asmKey lv "lost"
  | .rRelease _ k => "R.RELEASE " ++ asmNum k
  | .rRead _ n t lv => "R.READ " ++ asmNum n ++ ", " ++ asmTmo t ++ asmKey lv "lost"
  | .rSetllt _ l => "R.SETLLT " ++ asmNum l
  | .rSethla _ l => "R.SETHLA " ++ asmNum l
  | .xgEnc v => "XG.ENC " ++ asmNum v
  | .xgDec g => "XG.DEC " ++ asmNum g
  | .bufLdb off => "BUF.LDB " ++ asmNum off
  | .bufStb off v => "BUF.STB " ++ asmNum off ++ ", " ++ toString v.toNat
  | .fenceAcq => "FENCE.ACQ"
  | .fenceRel => "FENCE.REL"

end Sys2Proof
end

