-- ==== Sys2Proof/Machine/State.lean ====
section
/-! DEFINITION. The state of the core as plain data, its faults and refusals, and the power-up state. -/

namespace Sys2Proof.Machine

open Sys2Proof

/-- Why the machine stops. Both stand for a command the core cannot be given at all (30_encoding R110); no command that a
port accepts ends in a fault. -/
inductive Fault where
  /-- Raised by `step` when a command waits on a port the core does not have: a reader number from `NREADERS` on, or
  `PORT_X` with `FOREIGN = 0` (R110, log 13). Safe: no hardware goes on from there. -/
  | absentPort
  /-- Raised by `exec` when it is asked to run a command on the port of an agent that is BUSY or PARKED; R110 says
  that such a port does not accept a command (log 14). Safe: `step` never asks for it. -/
  | portNotReady
deriving DecidableEq, Repr

/-- Why an instruction has no meaning. -/
inductive Refusal where
  /-- Raised by `exec` for an instruction that is not modelled yet; no instruction is left so. Safe. -/
  | notModelled (mnemonic : String)
deriving DecidableEq, Repr

/-- The agents, each with one command port (00_scope R10, 30_encoding R110). -/
inductive Agent where
  | host
  | writer
  | reader (i : Nat)
  | peer
deriving DecidableEq, Repr

/-! ### The frame buffer and the order of its accesses -/

/-- The frame buffer as (offset, byte) pairs, offsets strictly rising; a byte nothing has written is not listed and
holds no value (10_state R23, log 8). -/
abbrev Memory := List Host.Cell

/-- How many buffer writes of each writing agent an access comes after (20_memory R84). Stores of cells are not counted: R88 alone
says which value of a cell a load returns (log 37). -/
structure Seen where
  writer : Nat := 0
  peer : Nat := 0
deriving DecidableEq, Repr

/-- What happens before an agent's next access (20_memory R82 to R84): `seen` what it may rely on, `acq` what its loads
of cells have read and an acquire fence adds, `rel` what its next plain store of a cell hands over (R87, log 24). -/
structure View where
  seen : Seen := {}
  acq : Seen := {}
  rel : Seen := {}
deriving DecidableEq, Repr

/-- One write of a buffer byte: by the foreign peer or by the writer, and what happens before the writer's next access,
the write itself included (20_memory R84, log 9). -/
structure BufWrite where
  off : Nat
  value : Byte
  byPeer : Bool
  seen : Seen
deriving DecidableEq, Repr

/-! ### The index cells -/

/-- One store into a cell: the value, and what it hands over to an observer (20_memory R82). -/
structure Pub where
  value : Word
  seen : Seen := {}
deriving DecidableEq, Repr

/-- A shared index cell with its publication history `HIST[c]` (10_state R21, R22, R49): `base` is `HIST[c][0]` and
`pubs` the stores since, oldest first. -/
structure Cell where
  base : Word := 0
  pubs : List Pub := []
deriving DecidableEq, Repr

/-- What an agent holds about the cells it observes: `POS[o][c]` for each cell (10_state R50), and its view of the
buffer's order. -/
structure Observer where
  posRear : Nat := 0
  posFront : Nat := 0
  view : View := {}
deriving DecidableEq, Repr

/-! ### Configuration registers -/

/-- The stored configuration registers (10_state R24 to R27); `CFG_P` and `CFG_F` are derived from `n`, `PRIV` is
hardwired. -/
structure CfgRegs where
  n : Word := 0
  size : Word := 0
  valid : Bool := false
  thr : Bool := false
  ext : Bool := false
deriving DecidableEq, Repr

/-! ### Operations in progress -/

/-- A fragment of the buffer: byte offset and byte length (30_encoding R126); unset is (0, 0). -/
structure Frag where
  off : Word := 0
  len : Word := 0
deriving DecidableEq, Repr

/-- Which of the three multi-step operations of an endpoint is in progress. -/
inductive Op where
  | obtain
  | release
  /-- `W.WRITE` or `R.READ`. -/
  | transfer
deriving DecidableEq, Repr

/-- The atomic step an operation takes next (00_scope R10). -/
inductive Point where
  /-- Load the peer's cell, find the fill, and grant, fail or go to wait (43_writer R222, 44_reader R252). -/
  | load
  /-- Compare-and-park on the peer's cell, expecting the value loaded (40_index_cell R148). -/
  | wait (expected : Word)
  /-- The reader's store of `FRONT` at a resynchronisation that lost `lost` frames (44_reader R255). -/
  | resync (lost : Nat)
  /-- Copy one of the bytes whose numbers within the grant are left (20_memory R74). -/
  | copy (left : List Nat)
  /-- Advance the local index and publish it (43_writer R225, 44_reader R256). -/
  | publish
  /-- Load the peer's cell afresh for the trigger. -/
  | fresh
  /-- Wake the agents parked on the own cell; the trigger saw `fill`. -/
  | wake (fill : Nat)
deriving DecidableEq, Repr

/-- An endpoint's operation in progress. -/
structure Task where
  op : Op
  /-- Operand `A`. -/
  count : Word
  tmo : Timeout
  /-- Flag `LV` (reader only). -/
  lv : Bool := false
  /-- The bytes offered on `DIN` (`W.WRITE`). -/
  din : List Byte := []
  /-- The bytes produced for `DOUT[i]` so far, by their number in the stream (`R.READ`). -/
  dout : Memory := []
  /-- Frames transferred by the passes completed. -/
  done : Nat := 0
  /-- Frames of the present grant, or of the release. -/
  grant : Nat := 0
  f0 : Frag := {}
  f1 : Frag := {}
  point : Point
deriving DecidableEq, Repr

/-- What the wait adapter holds of a parked agent (40_index_cell R148, R149): the cell, the value it expects, its timer
(60_exceptions R305; it does not count, log 23), and, once a wake released it, what the waking agent hands over. -/
structure Park where
  cell : CellSel
  expected : Word
  timer : Word
  woken : Option Seen := none
deriving DecidableEq, Repr

/-- The phase `PH` of an endpoint (10_state R45), with what it holds there. -/
inductive Phase where
  | detached
  | idle
  | busy (t : Task)
  | parked (t : Task) (p : Park)
deriving DecidableEq, Repr

/-! ### The endpoints -/

/-- The writer's registers (10_state R29 to R35). -/
structure Writer where
  lr : Word := 0
  eff : Word := 0
  armed : Bool := true
  lla : Word := 0
  hlt : Word := 0
  obt : Word := 0
  att : Bool := false
  ph : Phase := .detached
  exp : Bool := false
  obs : Observer := {}
deriving DecidableEq, Repr

/-- One reader's registers (10_state R36 to R43). -/
structure Reader where
  lf : Word := 0
  thr : Bool := false
  armed : Bool := true
  hla : Word := 0
  llt : Word := 0
  obt : Word := 0
  lost : Word := 0
  att : Bool := false
  ph : Phase := .detached
  exp : Bool := false
  obs : Observer := {}
deriving DecidableEq, Repr

/-- The foreign peer: it has no registers, but may be parked in `IDX.WAIT` (40_index_cell R148). -/
structure Peer where
  wait : Option Park := none
  obs : Observer := {}
deriving DecidableEq, Repr

/-! ### Ports and the environment -/

/-- A command presented on a port, with the bytes offered on `DIN` (30_encoding R111, R125). -/
structure Command where
  port : Agent
  cmd : Beat96
  din : List Byte := []
deriving DecidableEq, Repr

/-- A response (30_encoding R116) with the bytes of `DOUT[i]` (R125); a field an operation does not produce is 0. -/
structure Response where
  /-- `ST`: false is `DONE`, true is `REFUSED`. -/
  refused : Bool := false
  ret : Word := 0
  val : Word := 0
  lost : Word := 0
  f0 : Frag := {}
  f1 : Frag := {}
  dout : List Byte := []
deriving DecidableEq, Repr

/-- A response on the port it went to. -/
structure Answer where
  port : Agent
  resp : Response
deriving DecidableEq, Repr

/-- Why a parked agent un-parks, when no wake released it (40_index_cell R149 (b) to (d)). -/
inductive Cause where
  | timeout
  | spurious
  | changed
deriving DecidableEq, Repr

/-- One turn of the schedule (10_state R52): which agent moves, how many further atomic steps it takes before another
agent may move, and, should it be parked, which event un-parks it. -/
structure Turn where
  who : Agent
  burst : Nat
  cause : Cause
deriving DecidableEq, Repr

/-- The command being executed: its port, the bytes offered with it, and how many atomic steps after the first the
schedule lets it take at once (log 7). -/
structure Beat where
  port : Agent := .host
  din : List Byte := []
  burst : Nat := 0
deriving DecidableEq, Repr

/-- The whole machine. -/
structure State where
  par : Params
  cfg : CfgRegs
  rear : Cell
  front : Cell
  buf : Memory
  writes : List BufWrite
  w : Writer
  readers : List Reader
  peer : Peer
  /-- `WQ[REAR]` (10_state R48). -/
  wqRear : List Agent
  /-- `WQ[FRONT]`. -/
  wqFront : List Agent
  beat : Beat
  inbox : List Command
  out : List Answer
  sched : List Turn
  choices : List Nat
  draws : Nat
deriving DecidableEq, Repr

/-- The power-up state (10_state R54, 70_reset R330), with the default parameters: `VALID = 0`, every endpoint DETACHED, both
parked sets empty, nothing presented and nothing answered (log 1). The cells (log 2) and the endpoint registers (log 3)
hold values the spec does not give: DESIGN CHOICE, unsafe. -/
def State.reset : State where
  par := Params.default
  cfg := {}
  rear := {}
  front := {}
  buf := []
  writes := []
  w := {}
  readers := [{}, {}]
  peer := {}
  wqRear := []
  wqFront := []
  beat := {}
  inbox := []
  out := []
  sched := []
  choices := []
  draws := 0

end Sys2Proof.Machine
end

