-- ==== Sys2Proof/Machine/Arith.lean ====
section
/-! DEFINITION. Index arithmetic modulo 2³² with slot translation modulo `N` (41_base_arith), the Gray code
(40_index_cell R156, R157) and the occupancy classes (42_fifo R207), as functions of the operands and the configuration. -/

namespace Sys2Proof.Machine

/-- The exponent of `next_pow2(n)`: the least `q` with `2^q ≥ n` (R170). -/
def pow2Exp (n : Nat) : Nat := if n ≤ 1 then 0 else Nat.log2 (n - 1) + 1

/-- `next_pow2(n)` (R170). -/
def nextPow2 (n : Nat) : Nat := 2 ^ pow2Exp n

/-- `N` as a number. -/
def CfgRegs.cap (c : CfgRegs) : Nat := c.n.toNat

/-- `p = log2(P)` (00_scope R7). -/
def CfgRegs.pexp (c : CfgRegs) : Nat := pow2Exp c.cap

/-- `P = next_pow2(N)` (R7). -/
def CfgRegs.pow (c : CfgRegs) : Nat := nextPow2 c.cap

/-- `F = P − N` (R7). -/
def CfgRegs.fudge (c : CfgRegs) : Nat := c.pow - c.cap

/-- The size of the buffer in bytes, `N·s` (20_memory R70). -/
def CfgRegs.bytes (c : CfgRegs) : Nat := c.cap * c.size.toNat

/-- `MASK = P − 1` (R7). -/
def CfgRegs.mask (c : CfgRegs) : Word := BitVec.ofNat 32 c.pow - 1

/-- `SLOT(x) = x & MASK` (R171). -/
def CfgRegs.slot (c : CfgRegs) (x : Word) : Word := x &&& c.mask

/-- The slot field as a number. -/
def CfgRegs.slotNat (c : CfgRegs) (x : Word) : Nat := (c.slot x).toNat

/-- A raw index is well-formed iff its slot field is below `N` (R169). -/
def CfgRegs.wellFormed (c : CfgRegs) (x : Word) : Bool := decide (c.slotNat x < c.cap)

/-- `SUM(x, k)` for `k ≤ N` (R172); none is the I/O error of an ill-formed index (R173). -/
def CfgRegs.sum (c : CfgRegs) (x : Word) (k : Nat) : Option Word :=
  if c.wellFormed x then
    some (x + BitVec.ofNat 32 (if c.slotNat x + k ≥ c.cap then k + c.fudge else k))
  else none

/-- The outcome of `DIFF` (R175): the fill, the I/O error, or an overflow with the frames lost. -/
inductive DiffResult where
  | ok (frames : Nat)
  | eio
  | overflow (lost : Nat)
deriving DecidableEq, Repr

/-- The `P`-boundaries between `front` and `rear`, line (3) of R175. -/
def CfgRegs.sweeps (c : CfgRegs) (rear front : Word) : Nat :=
  (((rear >>> c.pexp) - (front >>> c.pexp)) &&& BitVec.ofNat 32 (2 ^ (32 - c.pexp) - 1)).toNat

/-- The raw delta, signed, line (2) of R175. -/
def rawDelta (rear front : Word) : Int := (rear - front).toInt

/-- The frames between `front` and `rear`, on mathematical integers, line (3) of R175. -/
def CfgRegs.frames (c : CfgRegs) (rear front : Word) : Int :=
  rawDelta rear front - (c.sweeps rear front : Int) * c.fudge

/-- `DIFF(rear, front, who)` (R175, R176), in the order of its tests; `reader` says that the caller is a reader. -/
def CfgRegs.diff (c : CfgRegs) (rear front : Word) (reader : Bool) : DiffResult :=
  if !c.wellFormed rear || !c.wellFormed front then .eio
  else if rawDelta rear front < 0 then .eio
  else if c.frames rear front > c.cap then
    if reader then .overflow (min (c.frames rear front - c.cap) (2 ^ 31 - 1)).toNat else .eio
  else .ok (c.frames rear front).toNat

/-- `BACK(x)` (R178): one `P` back; none is the I/O error of an ill-formed index. -/
def CfgRegs.back (c : CfgRegs) (x : Word) : Option Word :=
  if c.wellFormed x then some (x - BitVec.ofNat 32 c.pow) else none

/-- `CFG_P` as a register (10_state R26): 0 before the first `FIFO.INIT`. -/
def CfgRegs.powReg (c : CfgRegs) : Word := if c.n = 0 then 0 else BitVec.ofNat 32 c.pow

/-- `CFG_F` as a register (10_state R26). -/
def CfgRegs.fudgeReg (c : CfgRegs) : Word := if c.n = 0 then 0 else BitVec.ofNat 32 c.fudge

/-- The bounds of a constructed configuration (42_fifo R201, 10_state R24, R25). -/
def CfgRegs.legal (c : CfgRegs) : Bool :=
  decide (1 ≤ c.cap) && decide (1 ≤ c.size.toNat) && decide (c.bytes ≤ 2 ^ 31 - 1) && decide (c.cap ≤ 2 ^ 30)

/-- The occupancy classes (42_fifo R207). -/
inductive Occupancy where
  | empty
  | part
  | full
  | overrun
  | corrupt
deriving DecidableEq, Repr

/-- The occupancy class an observer sees (R207): `cap` is `W_EFF` for the writer's view and `N` for a reader's. -/
def CfgRegs.occupancy (c : CfgRegs) (cap : Nat) (rear front : Word) (reader : Bool) : Occupancy :=
  match c.diff rear front reader with
  | .eio => .corrupt
  | .overflow _ => .overrun
  | .ok f => if f = 0 then .empty else if f < cap then .part else .full

/-- `XG.ENC` (40_index_cell R156). -/
def grayEnc (v : Word) : Word := v ^^^ (v >>> 1)

/-- One round of `XG.DEC`. -/
def grayRound (v : Word) (k : Nat) : Word := v ^^^ (v >>> k)

/-- `XG.DEC` (R157). -/
def grayDec (g : Word) : Word := grayRound (grayRound (grayRound (grayRound (grayRound g 1) 2) 4) 8) 16

end Sys2Proof.Machine
end

