-- ==== Sys2Proof/Machine/Ops.lean ====
section
/-! DEFINITION. The named operations every meaning is written over: the frame buffer, draws, the index cells with their
lag and their ordering, the wait adapter, and the three ways a command ends (done, error, refused). -/

namespace Sys2Proof.Machine

open Sys2Proof

/-! ### Bytes by key -/

/-- The canonical form: keys strictly rising. What is not listed holds no value, so no entry can equal it. -/
abbrev Memory.wf (m : Memory) : Prop := m.Pairwise fun x y => x.1 < y.1

/-- The byte at a key, if one was written. -/
def Memory.find : Memory → Nat → Option Byte
  | [], _ => none
  | (b, v) :: r, a => if a = b then some v else Memory.find r a

/-- Write one byte. -/
def Memory.put : Memory → Nat → Byte → Memory
  | [], a, v => [(a, v)]
  | (b, y) :: r, a, v =>
    if a < b then (a, v) :: (b, y) :: r
    else if a = b then (a, v) :: r
    else (b, y) :: Memory.put r a v

/-! ### Draws -/

/-- The next draw: one the environment has fixed, else the free value at the count of draws (log 6). -/
def State.draw (s : State) : Nat × State :=
  match s.choices with
  | c :: cs => (c, { s with choices := cs })
  | [] => (Config.draw s.draws, { s with draws := s.draws + 1 })

/-- One of `n` possibilities; no draw where there is at most one. -/
def State.pick (n : Nat) (s : State) : Nat × State :=
  if n ≤ 1 then (0, s) else (s.draw.1 % n, s.draw.2)

/-- Any byte (20_memory R85). -/
def State.freeByte (s : State) : Byte × State := (BitVec.ofNat 8 s.draw.1, s.draw.2)

/-! ### Parts of the state by name -/

/-- Reader `i`'s registers, if the instance has that reader. -/
def State.reader? (s : State) (i : Nat) : Option Reader := s.readers[i]?

/-- Reader `i`'s registers. -/
def State.rd (s : State) (i : Nat) : Reader := (s.readers[i]?).getD {}

/-- Replace reader `i`'s registers. -/
def State.setRd (s : State) (i : Nat) (r : Reader) : State := { s with readers := s.readers.set i r }

/-- The cell selected (40_index_cell R145). -/
def State.cell (s : State) : CellSel → Cell
  | .rear => s.rear
  | .front => s.front

/-- Replace a cell. -/
def State.setCell (s : State) (c : CellSel) (x : Cell) : State :=
  match c with
  | .rear => { s with rear := x }
  | .front => { s with front := x }

/-- `HIST[c]` as values, oldest first (10_state R49). -/
def Cell.hist (x : Cell) : List Word := x.base :: x.pubs.map Pub.value

/-- The index of the newest value of `HIST[c]`. -/
def Cell.newest (x : Cell) : Nat := x.pubs.length

/-- `HIST[c][j]`. -/
def Cell.valueAt (x : Cell) (j : Nat) : Word := x.hist.getD j x.base

/-- The current value: the last element of `HIST[c]`. -/
def Cell.current (x : Cell) : Word := x.valueAt x.newest

/-- Append a store to `HIST[c]`. -/
def Cell.push (x : Cell) (p : Pub) : Cell := { x with pubs := x.pubs ++ [p] }

/-- A cell whose history restarts with one value. -/
def Cell.restart (v : Word) : Cell := { base := v, pubs := [] }

/-- The word on the crossing's owner side (40_index_cell R159). -/
def Cell.crossing (x : Cell) : Word := grayEnc x.current

/-- A cell seen as four bytes, lowest address first (20_memory R75). -/
def Cell.asBytes (e : Endian) (x : Cell) : List Byte :=
  let low := (List.range 4).map fun k => (x.current >>> (8 * k)).setWidth 8
  match e with
  | .little => low
  | .big => low.reverse

/-- What an agent holds about the cells; the host observes none. -/
def State.obs (s : State) : Agent → Observer
  | .host => {}
  | .writer => s.w.obs
  | .reader i => (s.rd i).obs
  | .peer => s.peer.obs

/-- Replace it. -/
def State.setObs (s : State) (o : Agent) (x : Observer) : State :=
  match o with
  | .host => s
  | .writer => { s with w := { s.w with obs := x } }
  | .reader i => s.setRd i { s.rd i with obs := x }
  | .peer => { s with peer := { s.peer with obs := x } }

/-- `POS[o][c]` (10_state R50). -/
def Observer.pos (x : Observer) : CellSel → Nat
  | .rear => x.posRear
  | .front => x.posFront

/-- Set `POS[o][c]`. -/
def Observer.setPos (x : Observer) (c : CellSel) (j : Nat) : Observer :=
  match c with
  | .rear => { x with posRear := j }
  | .front => { x with posFront := j }

/-- Replace an agent's view. -/
def Observer.setView (x : Observer) (v : View) : Observer := { x with view := v }

/-! ### Order (20_memory R82 to R85, R87) -/

/-- What happens before, from two sides. -/
def Seen.join (a b : Seen) : Seen := ⟨max a.writer b.writer, max a.peer b.peer⟩

/-- The count for one writing agent. -/
def Seen.count (a : Seen) (byPeer : Bool) : Nat := if byPeer then a.peer else a.writer

/-- One more write of one's own. -/
def Seen.bump (a : Seen) (byPeer : Bool) : Seen :=
  if byPeer then { a with peer := a.peer + 1 } else { a with writer := a.writer + 1 }

/-- What the stores `HIST[c][1]` to `HIST[c][j]` hand over (R83). -/
def Cell.handsOver (x : Cell) (j : Nat) : Seen := (x.pubs.take j).foldl (fun a p => a.join p.seen) {}

/-- `FENCE.ACQ` (R87, 40_index_cell R153): what earlier loads read is ordered before every later access. -/
def View.fenceAcq (v : View) : View := { v with seen := v.seen.join v.acq }

/-- `FENCE.REL` (R154): every earlier access is ordered before every later store. -/
def View.fenceRel (v : View) : View := { v with rel := v.seen }

/-- The plain load `LD`: it reads what the stores hand over, but orders nothing yet (R87). -/
def View.ld (v : View) (x : Seen) : View := { v with acq := v.acq.join x }

/-- An acquiring read of what `x` hands over. -/
def View.acquire (v : View) (x : Seen) : View := (v.ld x).fenceAcq

/-- The number of a write among the writes of its agent. -/
def BufWrite.idx (x : BufWrite) : Nat := x.seen.count x.byPeer

/-- Does the write happen before an access that comes after `v`? -/
def BufWrite.knownTo (x : BufWrite) (v : Seen) : Bool := decide (x.idx ≤ v.count x.byPeer)

/-- Is `x` another write, and ordered after `y`, by `hb`? -/
def BufWrite.supersedes (x y : BufWrite) : Bool :=
  y.knownTo x.seen && !(x.byPeer == y.byPeer && x.idx == y.idx)

/-- The writes of a byte that a read after `v` may return (R84, R85): not superseded by a write the reader knows. Two writes it
knows that are unordered between themselves both stay, where R84 and R85 state no value (log 39, DESIGN CHOICE). -/
def readable (ws : List BufWrite) (off : Nat) (v : Seen) : List BufWrite :=
  (ws.filter (·.off = off)).filter fun y => !(ws.any fun x => x.off == off && x.knownTo v && x.supersedes y)

/-- Has some write of the byte happened before the read? If none has, the read may also return any value (R85). -/
def knownByte (ws : List BufWrite) (off : Nat) (v : Seen) : Bool := ws.any fun x => x.off == off && x.knownTo v

/-- The newest value of a byte, where a read after `v` is ordered after every write of it, and these among themselves (R84);
none where two of them are unordered (log 39). -/
def State.settledByte (s : State) (off : Nat) (v : Seen) : Option Byte :=
  if knownByte s.writes off v && decide ((readable s.writes off v).length ≤ 1) then s.buf.find off else none

/-- A byte drawn among the values of the writes `ws`, and, where none of them is sure to have happened, any value too
(R85). -/
def State.drawByte (ws : List BufWrite) (known : Bool) (s : State) : Byte × State :=
  let p := s.pick (ws.length + if known then 0 else 1)
  match ws[p.1]? with
  | some w => (w.value, p.2)
  | none => p.2.freeByte

/-- Read one byte of the buffer as agent `o` (20_memory R84, R85, 10_state R23): the newest byte where the read is ordered
after every write of it; else a draw among the writes that R85 allows, and any value where no write happened before. A read
after two writes that are unordered between themselves draws among them (log 39, DESIGN CHOICE). -/
def State.loadByte (o : Agent) (off : Nat) (s : State) : Byte × State :=
  match s.settledByte off (s.obs o).view.seen with
  | some b => (b, s)
  | none => s.drawByte (readable s.writes off (s.obs o).view.seen) (knownByte s.writes off (s.obs o).view.seen)

/-- Write one byte of the buffer as the writer or the foreign peer (R206, 43_writer R227). -/
def State.storeByte (o : Agent) (off : Nat) (b : Byte) (s : State) : State :=
  let byPeer := o == .peer
  let x := s.obs o
  let seen := x.view.seen.bump byPeer
  let s := s.setObs o (x.setView { x.view with seen := seen })
  { s with buf := s.buf.put off b, writes := s.writes ++ [⟨off, b, byPeer, seen⟩] }

/-! ### The index cells (40_index_cell) -/

/-- A position of `HIST[c]` that a lagging observation of `o` may take (20_memory R88), or the newest under `XING = sc`
(R89). Only the observer's own position of this cell bounds it: what an acquiring load of the other cell has made visible (R82,
R83) does not (log 37). -/
def State.lagPos (o : Agent) (c : CellSel) (s : State) : Nat × State :=
  let newest := (s.cell c).newest
  if s.par.xing = .sc then (newest, s)
  else
    let pos := (s.obs o).pos c
    let k := s.pick (newest + 1 - pos)
    (min (pos + k.1) newest, k.2)

/-- `LDAQ(c)` by `o` (R142, 20_memory R88): the load, then the acquire fence (20_memory R87). -/
def State.ldaq (o : Agent) (c : CellSel) (s : State) : Word × State :=
  let j := s.lagPos o c
  let x := j.2.obs o
  ((s.cell c).valueAt j.1,
   j.2.setObs o ((x.setPos c j.1).setView (x.view.acquire ((s.cell c).handsOver j.1))))

/-- `STRL(c, v)` by `o` (R143): the release fence, then the store (20_memory R87). -/
def State.strl (o : Agent) (c : CellSel) (v : Word) (s : State) : State :=
  let x := s.obs o
  let view := x.view.fenceRel
  (s.setObs o (x.setView view)).setCell c ((s.cell c).push ⟨v, view.rel⟩)

/-- An atomic acquiring read of the current value, not a lagging view (R144, R148): `POS[o][c]` moves to the newest. -/
def State.readNow (o : Agent) (c : CellSel) (s : State) : State :=
  let x := s.obs o
  s.setObs o ((x.setPos c (s.cell c).newest).setView
    (x.view.acquire ((s.cell c).handsOver (s.cell c).newest)))

/-- The same read when the comparer parks: its position is set when it un-parks (R148, R149, log 27). -/
def State.readParking (o : Agent) (c : CellSel) (s : State) : State :=
  let x := s.obs o
  s.setObs o (x.setView (x.view.acquire ((s.cell c).handsOver (s.cell c).newest)))

/-! ### The wait adapter (40_index_cell R148 to R152) -/

/-- `WQ[c]`. -/
def State.wq (s : State) : CellSel → List Agent
  | .rear => s.wqRear
  | .front => s.wqFront

/-- Replace `WQ[c]`. -/
def State.setWq (s : State) (c : CellSel) (q : List Agent) : State :=
  match c with
  | .rear => { s with wqRear := q }
  | .front => { s with wqFront := q }

/-- Insert an agent into `WQ[c]`; a set holds it once. -/
def State.enqueue (o : Agent) (c : CellSel) (s : State) : State :=
  s.setWq c (if (s.wq c).contains o then s.wq c else s.wq c ++ [o])

/-- Remove an agent from `WQ[c]`. -/
def State.dequeue (o : Agent) (c : CellSel) (s : State) : State := s.setWq c ((s.wq c).filter (· != o))

/-- Record that a wake released a phase's owner. -/
def Phase.wakeUp (v : Seen) : Phase → Phase
  | .parked t p => .parked t { p with woken := some v }
  | ph => ph

/-- Record in `o` that a wake released it, with what the waking agent hands over (20_memory R84 (iii)). -/
def State.release (v : Seen) (s : State) (o : Agent) : State :=
  match o with
  | .host => s
  | .writer => { s with w := { s.w with ph := s.w.ph.wakeUp v } }
  | .reader i => s.setRd i { s.rd i with ph := (s.rd i).ph.wakeUp v }
  | .peer => { s with peer := { s.peer with wait := s.peer.wait.map fun p => { p with woken := some v } } }

/-- `WAKE(c, 1)` by `o` (R150): any one member of `WQ[c]` is released; nothing where it is empty. -/
def State.wakeOne (o : Agent) (c : CellSel) (s : State) : State :=
  if h : (s.wq c) = [] then s
  else
    let k := s.pick (s.wq c).length
    let who := (s.wq c).getD k.1 ((s.wq c).head h)
    (k.2.dequeue who c).release (s.obs o).view.seen who

/-- `WAKE(c, ALL)` by `o` (R151): every member is released. -/
def State.wakeAll (o : Agent) (c : CellSel) (s : State) : State :=
  ((s.wq c).foldl (State.release (s.obs o).view.seen) s).setWq c []

/-- The wake of the own cell by a trigger step (R152): of `FRONT` always one, of `REAR` one when `NREADERS = 1`, else all. -/
def State.wakeOwn (o : Agent) (c : CellSel) (s : State) : State :=
  if c = .front ∨ s.par.nReaders = 1 then s.wakeOne o c else s.wakeAll o c

/-- Is the un-park step enabled for this cause (R149)? Always for an agent that a wake released, and for a timeout and a
spurious return; for a value change only when the cell differs from the value expected. -/
def State.unparkEnabled (s : State) (p : Park) (cause : Cause) : Bool :=
  p.woken.isSome || decide (cause ≠ .changed) || decide ((s.cell p.cell).current ≠ p.expected)

/-- Does the `WAIT` return `TIMEDOUT`? Only by the timeout event of an agent that no wake released (R149, log 20). -/
def Park.timedOut (p : Park) (cause : Cause) : Bool := p.woken.isNone && decide (cause = .timeout)

/-- The un-park step's common part (R149): out of the parked set, a position rule R88 allows, and what the waking agent
hands over. -/
def State.unpark (o : Agent) (p : Park) (s : State) : State :=
  let j := (s.dequeue o p.cell).lagPos o p.cell
  let x := j.2.obs o
  j.2.setObs o ((x.setPos p.cell j.1).setView { x.view with seen := x.view.seen.join (p.woken.getD {}) })

/-! ### How a command ends (30_encoding R116, 60_exceptions) -/

/-- Give the response of the command on a port. -/
def State.answer (o : Agent) (r : Response) (s : State) : State := { s with out := s.out ++ [⟨o, r⟩] }

/-- `REFUSED` (R296): every other field is 0 and no state changes. -/
def State.refuse (s : State) : State := s.answer s.beat.port { refused := true }

/-- The error kinds that surface as a negative `RET` (R290). -/
inductive ErrKind where
  | eio
  | eoverflow
deriving DecidableEq, Repr

/-- The return value of an error kind (R290). -/
def errCode (p : Params) : ErrKind → Word
  | .eio => p.errEio
  | .eoverflow => p.errEoverflow

/-- What stands for taking an exception (R300): the response carries the error kind, and the loss where the operation
reports one; nothing is saved, no mode changes, there is no vector. What stands for the return (R301) is that the
endpoint is `IDLE` again, so that its next command is the continuation (`endWriter`, `endReader`). -/
def Response.error (p : Params) (k : ErrKind) (lost : Word := 0) : Response := { ret := errCode p k, lost := lost }

/-- The response of a frame count (R116): never negative (00_scope R11). A count that a signed word cannot hold is a free
value of 31 bits (log 21). -/
def Response.frames (n : Nat) : Response :=
  { ret := if n < 2 ^ 31 then BitVec.ofNat 32 n else (Config.wideCount n).setWidth 32 }

/-- End the writer's operation (10_state R46): the response, and `BUSY -> IDLE`. -/
def State.endWriter (r : Response) (s : State) : State :=
  { s with w := { s.w with ph := .idle } }.answer .writer r

/-- End reader `i`'s operation. -/
def State.endReader (i : Nat) (r : Response) (s : State) : State :=
  (s.setRd i { s.rd i with ph := .idle }).answer (.reader i) r

/-! ### Who may issue a command now (30_encoding R110, R119, 60_exceptions R299) -/

/-- Is the endpoint not bound to the FIFO? -/
def Phase.isDetached : Phase → Bool
  | .detached => true
  | _ => false

/-- Is an operation between its first step and its response, not parked? -/
def Phase.isBusy : Phase → Bool
  | .busy _ => true
  | _ => false

/-- Is the operation inside `WAIT`? -/
def Phase.isParked : Phase → Bool
  | .parked _ _ => true
  | _ => false

/-- Does a command port accept a command: its endpoint is neither BUSY nor PARKED (R110)? -/
def Phase.accepts : Phase → Bool
  | .detached => true
  | .idle => true
  | _ => false

/-- Does the agent's port exist in this instance (R110)? -/
def State.hasPort (s : State) : Agent → Bool
  | .host => true
  | .writer => true
  | .reader i => decide (i < s.readers.length)
  | .peer => s.par.foreign

/-- Does the agent's port accept a command now (R110)? -/
def State.ready (s : State) : Agent → Bool
  | .host => true
  | .writer => s.w.ph.accepts
  | .reader i => (s.rd i).ph.accepts
  | .peer => s.peer.wait.isNone

/-- Run a command: its effect where it is legal, else `REFUSED`. The tests of R299's group (1) are one condition, since
every refusal has the same response and changes nothing. -/
def State.command (s : State) (legal : Bool) (effect : State → State) : Host.Outcome State Fault Refusal :=
  if s.ready s.beat.port then .next (if legal then effect s else s.refuse) else .fault .portNotReady

/-- Give the response of a single-step command on the port it came from. -/
def State.reply (s : State) (r : Response) : State := s.answer s.beat.port r

/-- The port is the writer's, the FIFO is constructed and the writer is attached (43_writer R220). -/
def State.writerMay (s : State) : Bool :=
  decide (s.beat.port = .writer) && s.cfg.valid && !s.w.ph.isDetached

/-- The port is the one of the reader selected, the FIFO is constructed and that reader is attached (44_reader R250). -/
def State.readerMay (s : State) (i : Nat) : Bool :=
  decide (s.beat.port = .reader i) && s.cfg.valid && decide (i < s.readers.length) && !(s.rd i).ph.isDetached

/-- The port is the foreign peer's, the FIFO is constructed and the cell exists (40_index_cell R145, 30_encoding R119). -/
def State.peerMay (s : State) (c : CellSel) : Bool :=
  decide (s.beat.port = .peer) && s.cfg.valid && (c == .rear || s.cfg.thr)

end Sys2Proof.Machine
end

