-- ==== Sys2Proof/Machine/Flags.lean ====
section
/-! DEFINITION. The status flags `W_ARMED` and `R_ARMED[i]` (10_state R44) with the two hysteresis machines that write them,
and the status and control words as registers. -/

namespace Sys2Proof.Machine

/-- Does the writer's trigger step wake (43_writer R226, R231)? -/
def writerWakes (armed : Bool) (hlt : Word) (fill : Nat) : Bool := armed && decide (hlt.toNat ≤ fill)

/-- `W_ARMED` after the writer's trigger step: the trigger test first, then the arm test (R226, R231). -/
def writerArmed (armed : Bool) (hlt lla : Word) (fill : Nat) : Bool :=
  decide (fill ≤ lla.toNat) || (armed && !writerWakes armed hlt fill)

/-- Does the reader's trigger step wake (44_reader R257, R261)? -/
def readerWakes (armed : Bool) (llt : Word) (fill : Nat) : Bool := armed && decide (fill ≤ llt.toNat)

/-- `R_ARMED` after the reader's trigger step (R257, R261). -/
def readerArmed (armed : Bool) (llt hla : Word) (fill : Nat) : Bool :=
  decide (hla.toNat ≤ fill) || (armed && !readerWakes armed llt fill)

/-- A bit as a word, at a place. -/
def bitAt (b : Bool) (k : Nat) : Word := if b then BitVec.ofNat 32 (2 ^ k) else 0

/-- `PH` (10_state R45). -/
def Phase.code : Phase → Nat
  | .detached => 0
  | .idle => 1
  | .busy _ => 2
  | .parked _ _ => 3

/-- `CFG_CTL` (10_state R27): `VALID`, `THR`, `PRIV` hardwired 1, `EXT`. -/
def CfgRegs.ctl (c : CfgRegs) : Word :=
  bitAt c.valid 0 ||| bitAt c.thr 1 ||| bitAt true 2 ||| bitAt c.ext 3

/-- `W_STS` (10_state R35). -/
def Writer.sts (w : Writer) : Word :=
  bitAt w.armed 0 ||| bitAt w.att 1 ||| BitVec.ofNat 32 (w.ph.code * 4) ||| bitAt w.exp 4

/-- `R_STS[i]` (10_state R43). -/
def Reader.sts (r : Reader) : Word :=
  bitAt r.armed 0 ||| bitAt r.att 1 ||| bitAt r.thr 2 ||| BitVec.ofNat 32 (r.ph.code * 8) ||| bitAt r.exp 5

end Sys2Proof.Machine
end

