-- ==== Sys2Proof/Machine/Operands.lean ====
section
/-! DEFINITION. Every operand form: timeouts, register numbers, clamped levels, and the fragments and byte offsets of a
grant. -/

namespace Sys2Proof.Machine

open Sys2Proof

/-- Does the timeout operand permit blocking (30_encoding R115)? Only a supplied, non-zero timeout does. -/
def blocking : Timeout → Bool
  | none => false
  | some b => b != 0

/-- The ticks handed to the timer (60_exceptions R305). -/
def ticks (t : Timeout) : Word := t.getD 0

/-- The smaller of two words as numbers. -/
def wmin (a b : Word) : Word := if a.toNat ≤ b.toNat then a else b

/-- The larger of two words as numbers. -/
def wmax (a b : Word) : Word := if a.toNat ≤ b.toNat then b else a

/-- A reset level as a number of frames of a FIFO of `n` frames, before it is clamped (00_scope R6, 42_fifo R200). -/
def resetLevel (l : ResetLevel) (n : Word) : Word :=
  match l with
  | .capacity => n
  | .level x => x

/-! ### Registers (10_state R53) -/

/-- A configuration register, readable on every port. -/
def State.cfgReg (s : State) (sel : BitVec 8) : Option Word :=
  match sel.toNat with
  | 0x00 => some s.cfg.n
  | 0x01 => some s.cfg.size
  | 0x02 => some s.cfg.powReg
  | 0x03 => some s.cfg.fudgeReg
  | 0x04 => some s.cfg.ctl
  | 0x05 => some (BitVec.ofNat 32 s.par.nReaders)
  | _ => none

/-- A writer register. -/
def Writer.reg (w : Writer) (sel : BitVec 8) : Option Word :=
  match sel.toNat with
  | 0x10 => some w.lr
  | 0x11 => some w.eff
  | 0x12 => some w.lla
  | 0x13 => some w.hlt
  | 0x14 => some w.obt
  | 0x15 => some w.sts
  | _ => none

/-- A reader register. -/
def Reader.reg (r : Reader) (sel : BitVec 8) : Option Word :=
  match sel.toNat with
  | 0x20 => some r.lf
  | 0x21 => some r.hla
  | 0x22 => some r.llt
  | 0x23 => some r.obt
  | 0x24 => some r.sts
  | 0x25 => some r.lost
  | _ => none

/-- The register that `CSR.RD` reads on a port (42_fifo R204, 30_encoding R119): the configuration on any port; `W_*` on
`PORT_W` and `R_*` on the reader's own port, once constructed. None is a refusal. -/
def State.readReg (s : State) (port : Agent) (sel : BitVec 8) : Option Word :=
  match s.cfgReg sel with
  | some v => some v
  | none =>
    if s.cfg.valid then
      match port with
      | .writer => s.w.reg sel
      | .reader i => if i < s.readers.length then (s.rd i).reg sel else none
      | _ => none
    else none

/-! ### Fragments (43_writer R223, 44_reader R253) -/

/-- Frames of a grant up to the end of the buffer: `first`. -/
def CfgRegs.first (c : CfgRegs) (x : Word) (g : Nat) : Nat := min g (c.cap - c.slotNat x)

/-- The first fragment of a grant of `g` frames from `x`, `first` of them up to the end of the buffer: it starts at the slot
of `x`. -/
def CfgRegs.headFrag (c : CfgRegs) (x : Word) (g first : Nat) : Frag :=
  if 0 < g then
    { off := BitVec.ofNat 32 (c.slotNat x * c.size.toNat), len := BitVec.ofNat 32 (first * c.size.toNat) }
  else {}

/-- The second fragment: the frames left, from the start of the buffer. -/
def CfgRegs.tailFrag (c : CfgRegs) (g first : Nat) : Frag :=
  if 0 < g - first then { off := 0, len := BitVec.ofNat 32 ((g - first) * c.size.toNat) } else {}

/-- `F0` of a grant of `g` frames from `x`. -/
def CfgRegs.frag0 (c : CfgRegs) (x : Word) (g : Nat) : Frag := c.headFrag x g (c.first x g)

/-- `F1` of a grant of `g` frames from `x`. -/
def CfgRegs.frag1 (c : CfgRegs) (x : Word) (g : Nat) : Frag := c.tailFrag g (c.first x g)

/-- `first` of a grant that the writer's obtain makes: for a slot up to `N` it is the rule's; for a slot above `N`, where the
rule's `N − sl` is negative and no number of frames, it is a free value of at most `g` (log 12). -/
def State.firstPart (s : State) (x : Word) (g : Nat) : Nat × State :=
  if s.cfg.slotNat x ≤ s.cfg.cap then (s.cfg.first x g, s) else s.pick (g + 1)

/-- The fragments of a grant of `g` frames from `x` (R223, 30_encoding R126): `F0` at the slot of `x`, `F1` at 0, whole
frames, `g` together. -/
def State.fragments (s : State) (x : Word) (g : Nat) : (Frag × Frag) × State :=
  let k := s.firstPart x g
  ((s.cfg.headFrag x g k.1, s.cfg.tailFrag g k.1), k.2)

/-- The buffer offset of byte `j` of a grant: `F0` first, then `F1` (43_writer R227, 44_reader R258). -/
def Task.byteOff (t : Task) (j : Nat) : Nat :=
  if j < t.f0.len.toNat then t.f0.off.toNat + j else t.f1.off.toNat + (j - t.f0.len.toNat)

/-- Frames still wanted in this pass: `A` for an obtain, `A − done` for a transfer (R227, R258). -/
def Task.want (t : Task) : Nat :=
  match t.op with
  | .transfer => t.count.toNat - t.done
  | _ => t.count.toNat

end Sys2Proof.Machine
end

