-- ==== Sys2Proof/Machine/Base.lean ====
section
/-! DEFINITION. The index arithmetic as commands, `BASE.*` (41_base_arith): pure functions of the operands and the
configuration, on any port. -/

namespace Sys2Proof.Machine

open Sys2Proof

/-- `BASE.NP2` (R170): accepted before construction; 0 and more than 2³¹ are refused. -/
def execBaseNp2 (n : Word) (s : State) : Host.Outcome State Fault Refusal :=
  s.command (decide (1 ≤ n.toNat) && decide (n.toNat ≤ 2 ^ 31)) fun s =>
    s.reply { val := BitVec.ofNat 32 (nextPow2 n.toNat) }

/-- `BASE.SLOT` (R171): no check of well-formedness. -/
def execBaseSlot (raw : Word) (s : State) : Host.Outcome State Fault Refusal :=
  s.command s.cfg.valid fun s => s.reply { val := s.cfg.slot raw }

/-- The response of `BASE.SUM` and `BASE.BACK`: the word, or `EIO` (R173, R178). -/
def State.wordOrEio (s : State) : Option Word → Response
  | some v => { val := v }
  | none => .error s.par .eio

/-- `BASE.SUM` (R172): `k > N` is refused before the slot is tested (90_conflicts C15). -/
def execBaseSum (index k : Word) (s : State) : Host.Outcome State Fault Refusal :=
  s.command (s.cfg.valid && decide (k.toNat ≤ s.cfg.cap)) fun s => s.reply (s.wordOrEio (s.cfg.sum index k.toNat))

/-- The response of `BASE.DIFF` (R175): the fill, `EIO`, or `EOVERFLOW` with the loss where `LV = 1`. -/
def State.diffResponse (s : State) (lv : Bool) : DiffResult → Response
  | .ok f => .frames f
  | .eio => .error s.par .eio
  | .overflow lost => .error s.par .eoverflow (if lv then BitVec.ofNat 32 lost else 0)

/-- `BASE.DIFF` (R175). -/
def execBaseDiff (rear front : Word) (rdr lv : Bool) (s : State) : Host.Outcome State Fault Refusal :=
  s.command s.cfg.valid fun s => s.reply (s.diffResponse lv (s.cfg.diff rear front rdr))

/-- `BASE.BACK` (R178). -/
def execBaseBack (rear : Word) (s : State) : Host.Outcome State Fault Refusal :=
  s.command s.cfg.valid fun s => s.reply (s.wordOrEio (s.cfg.back rear))

end Sys2Proof.Machine
end

