-- ==== Sys2Proof/Machine/Buffer.lean ====
section
/-! DEFINITION. The host's direct access to the frame buffer: `BUF.LDB`, `BUF.STB` (42_fifo R205, R206). No grant is
checked (70_reset R337). -/

namespace Sys2Proof.Machine

open Sys2Proof

/-- May the port load a byte (R205)? `PORT_W` and `PORT_R[i]` with their endpoint attached, and `PORT_X`. -/
def State.mayLoadByte (s : State) : Bool :=
  match s.beat.port with
  | .host => false
  | .writer => !s.w.ph.isDetached
  | .reader i => decide (i < s.readers.length) && !(s.rd i).ph.isDetached
  | .peer => true

/-- May the port store a byte (R206)? `PORT_W` and `PORT_X`, with the writer attached (log 17). -/
def State.mayStoreByte (s : State) : Bool :=
  (decide (s.beat.port = .writer) || decide (s.beat.port = .peer)) && !s.w.ph.isDetached

/-- `BUF.LDB` (R205): a plain load; a byte nothing has written, or one under a race, is a draw. -/
def execBufLdb (off : Word) (s : State) : Host.Outcome State Fault Refusal :=
  s.command (s.mayLoadByte && s.cfg.valid && decide (off.toNat < s.cfg.bytes)) fun s =>
    let b := s.loadByte s.beat.port off.toNat
    b.2.reply { val := b.1.setWidth 32 }

/-- `BUF.STB` (R206): a plain store. -/
def execBufStb (off : Word) (value : Byte) (s : State) : Host.Outcome State Fault Refusal :=
  s.command (s.mayStoreByte && s.cfg.valid && decide (off.toNat < s.cfg.bytes)) fun s =>
    (s.storeByte s.beat.port off.toNat value).reply {}

end Sys2Proof.Machine
end

