-- ==== Sys2Proof/Machine/Fence.lean ====
section
/-! DEFINITION. The fence adapter as commands: `FENCE.ACQ`, `FENCE.REL` (40_index_cell R153, R154). -/

namespace Sys2Proof.Machine

open Sys2Proof

/-- May the port fence (R153)? Every port but the host's, once constructed. -/
def State.mayFence (s : State) : Bool := decide (s.beat.port ≠ .host) && s.cfg.valid

/-- Apply a fence to the order of the issuing agent's accesses. -/
def State.fence (f : View → View) (s : State) : State :=
  let x := s.obs s.beat.port
  s.setObs s.beat.port (x.setView (f x.view))

/-- `FENCE.ACQ` (R153): it changes no register and returns 0. -/
def execFenceAcq (s : State) : Host.Outcome State Fault Refusal :=
  s.command s.mayFence fun s => (s.fence View.fenceAcq).reply {}

/-- `FENCE.REL` (R154): it changes no register and returns 0. -/
def execFenceRel (s : State) : Host.Outcome State Fault Refusal :=
  s.command s.mayFence fun s => (s.fence View.fenceRel).reply {}

end Sys2Proof.Machine
end

