-- ==== Sys2Proof/Machine/Index.lean ====
section
/-! DEFINITION. The index cell operations `IDX.*` (40_index_cell R141 to R151). All but `IDX.INIT` come from the foreign
peer's port only (30_encoding R119). -/

namespace Sys2Proof.Machine

open Sys2Proof

/-- Every observer's position of a cell goes back to the start of its history (R141). -/
def State.restartPos (c : CellSel) (s : State) : State :=
  { s with
    w := { s.w with obs := s.w.obs.setPos c 0 }
    readers := s.readers.map fun r => { r with obs := r.obs.setPos c 0 }
    peer := { s.peer with obs := s.peer.obs.setPos c 0 } }

/-- May the host initialise the cell (R141)? `FRONT` must exist: built, and, once constructed, chosen by `THR` (log 15). -/
def State.mayInitCell (s : State) (c : CellSel) : Bool :=
  decide (s.beat.port = .host) && (c == .rear || (s.par.frontBuilt && (!s.cfg.valid || s.cfg.thr)))

/-- `IDX.INIT` (R141): the cell is 0, its history and every position restart; `WQ[c]` is not touched. -/
def execIdxInit (c : CellSel) (s : State) : Host.Outcome State Fault Refusal :=
  s.command (s.mayInitCell c) fun s => ((s.setCell c (Cell.restart 0)).restartPos c).reply {}

/-- `IDX.LDAQ` (R142). -/
def execIdxLdaq (c : CellSel) (s : State) : Host.Outcome State Fault Refusal :=
  s.command (s.peerMay c) fun s => (s.ldaq .peer c).2.reply { val := (s.ldaq .peer c).1 }

/-- `IDX.STRL` (R143). -/
def execIdxStrl (c : CellSel) (value : Word) (s : State) : Host.Outcome State Fault Refusal :=
  s.command (s.peerMay c) fun s => (s.strl .peer c value).reply {}

/-- The effect of `IDX.CAS` (R144): one atomic step on the current value. -/
def State.cas (c : CellSel) (expected desired : Word) (s : State) : State :=
  let cur := (s.cell c).current
  let s := s.readNow .peer c
  if cur = expected then
    let s := s.strl .peer c desired
    (s.setObs .peer (s.peer.obs.setPos c (s.cell c).newest)).reply { ret := 1, val := cur }
  else s.reply { ret := 0, val := cur }

/-- `IDX.CAS` (R144): acquire always, and release on success. -/
def execIdxCas (c : CellSel) (expected desired : Word) (s : State) : Host.Outcome State Fault Refusal :=
  s.command (s.peerMay c) fun s => s.cas c expected desired

/-- The effect of `IDX.WAIT` (R148): at once `TIMEDOUT` without a blocking timeout, at once `OTHER` where the cell differs,
else the peer parks and answers when it un-parks. -/
def State.waitPeer (c : CellSel) (expected : Word) (tmo : Timeout) (s : State) : State :=
  if blocking tmo = false then s.reply { ret := 1 }
  else if (s.cell c).current ≠ expected then (s.readNow .peer c).reply { ret := 0 }
  else
    let s := (s.readParking .peer c).enqueue .peer c
    { s with peer := { s.peer with wait := some { cell := c, expected := expected, timer := ticks tmo } } }

/-- `IDX.WAIT` (R148). -/
def execIdxWait (c : CellSel) (expected : Word) (tmo : Timeout) (s : State) : Host.Outcome State Fault Refusal :=
  s.command (s.peerMay c) fun s => s.waitPeer c expected tmo

/-- The parked peer's un-park step (R149): it answers 1 for `TIMEDOUT` and 0 for every other return. -/
def State.unparkPeer (p : Park) (cause : Cause) (s : State) : State :=
  let s := s.unpark .peer p
  { s with peer := { s.peer with wait := none } }.answer .peer { ret := if p.timedOut cause then 1 else 0 }

/-- `IDX.WAKE1` (R150). -/
def execIdxWake1 (c : CellSel) (s : State) : Host.Outcome State Fault Refusal :=
  s.command (s.peerMay c) fun s => (s.wakeOne .peer c).reply {}

/-- `IDX.WAKEALL` (R151). -/
def execIdxWakeall (c : CellSel) (s : State) : Host.Outcome State Fault Refusal :=
  s.command (s.peerMay c) fun s => (s.wakeAll .peer c).reply {}

end Sys2Proof.Machine
end

