-- ==== Sys2Proof/Machine/Fifo.lean ====
section
/-! DEFINITION. Construction and register read-out: `FIFO.INIT`, `CSR.RD` (42_fifo R200 to R204). -/

namespace Sys2Proof.Machine

open Sys2Proof

/-- Are the cells the caller supplies naturally aligned (20_memory R76)? `FRONT` is supplied only with `THR` (log 32). -/
def Params.cellsAligned (p : Sys2Proof.Params) (thr : Bool) : Bool :=
  decide (p.rearAddr % 4 = 0) && (!thr || decide (p.frontAddr % 4 = 0))

/-- May the FIFO be constructed (R201, R203)? -/
def State.mayConstruct (s : State) (n size : Word) (thr ext : Bool) : Bool :=
  decide (s.beat.port = .host)
    && CfgRegs.legal { n := n, size := size }
    && (!ext || Params.cellsAligned s.par thr)
    && (!thr || s.par.frontBuilt)
    && s.w.ph.accepts && s.readers.all (·.ph.accepts)

/-- The writer's registers after `FIFO.INIT` (R200, 10_state R54), the levels clamped into their ranges. -/
def Writer.constructed (w : Writer) (p : Sys2Proof.Params) (n : Word) : Writer :=
  let hlt := wmin (resetLevel p.wHltReset n) n
  { lr := 0, eff := n, armed := true, lla := wmin (resetLevel p.wLlaReset n) hlt, hlt := hlt, obt := 0,
    att := false, ph := .detached, exp := false, obs := w.obs }

/-- A reader's registers after `FIFO.INIT` (R200, 10_state R54). -/
def Reader.constructed (r : Reader) (p : Sys2Proof.Params) (n : Word) : Reader :=
  let hla := wmin (resetLevel p.rHlaReset n) n
  { lf := 0, thr := false, armed := true, hla := hla, llt := wmin (resetLevel p.rLltReset n) hla, obt := 0, lost := 0,
    att := false, ph := .detached, exp := false, obs := r.obs }

/-- A cell after `FIFO.INIT`: zeroed, or with the value found, and a history of one value (R200, R202). -/
def Cell.constructed (x : Cell) (zero : Bool) : Cell := Cell.restart (if zero then 0 else x.current)

/-- The state after an accepted `FIFO.INIT` (R200, 10_state R54): what survives is `BUF`, the order of its writes (log 28),
the parameters, and, with `EXT`, the cells. -/
def State.constructed (s : State) (n size : Word) (thr ext : Bool) : State :=
  ({ s with
    cfg := { n := n, size := size, valid := true, thr := thr, ext := ext }
    rear := s.rear.constructed (!ext)
    front := s.front.constructed (!ext && thr)
    w := s.w.constructed s.par n
    readers := s.readers.map fun (r : Reader) => r.constructed s.par n
    wqRear := []
    wqFront := [] }.restartPos .rear).restartPos .front

/-- `FIFO.INIT` (R200). -/
def execFifoInit (n size : Word) (thr ext : Bool) (s : State) : Host.Outcome State Fault Refusal :=
  s.command (s.mayConstruct n size thr ext) fun s => (s.constructed n size thr ext).reply {}

/-- `CSR.RD` (R204): no side effect; an unknown number, or a register of another port, is refused. -/
def execCsrRd (sel : BitVec 8) (s : State) : Host.Outcome State Fault Refusal :=
  s.command (s.readReg s.beat.port sel).isSome fun s => s.reply { val := (s.readReg s.beat.port sel).getD 0 }

end Sys2Proof.Machine
end

