-- ==== Sys2Proof/Machine/Gray.lean ====
section
/-! DEFINITION. The Gray transport as commands: `XG.ENC`, `XG.DEC` (40_index_cell R156, R157), on any port, in any state. -/

namespace Sys2Proof.Machine

open Sys2Proof

/-- `XG.ENC` (R156). -/
def execXgEnc (binary : Word) (s : State) : Host.Outcome State Fault Refusal :=
  s.command true fun s => s.reply { val := grayEnc binary }

/-- `XG.DEC` (R157). -/
def execXgDec (gray : Word) (s : State) : Host.Outcome State Fault Refusal :=
  s.command true fun s => s.reply { val := grayDec gray }

end Sys2Proof.Machine
end

