-- ==== Sys2Proof/Machine/Writer.lean ====
section
/-! DEFINITION. The writer endpoint: the atomic steps of its operations, and the meanings of `W.*` (43_writer). -/

namespace Sys2Proof.Machine

open Sys2Proof

/-! ### The atomic steps of an operation in progress -/

/-- The writer's operation goes on at `t`. -/
def State.goWriter (t : Task) (s : State) : State := { s with w := { s.w with ph := .busy t } }

/-- The response of a finished `W.OBTAIN` or `W.WRITE` that granted `g` frames in its last pass (R222, R227). -/
def State.grantWriter (t : Task) (g : Nat) (s : State) : State :=
  let s := { s with w := { s.w with obt := BitVec.ofNat 32 g } }
  let f := s.fragments s.w.lr g
  match t.op with
  | .transfer =>
    if g = 0 then s.endWriter (.frames t.done)
    else f.2.goWriter
      { t with grant := g, f0 := f.1.1, f1 := f.1.2, point := .copy (List.range (g * s.cfg.size.toNat)) }
  | _ => f.2.endWriter { ret := BitVec.ofNat 32 g, f0 := f.1.1, f1 := f.1.2 }

/-- An obtain that failed with `EIO` (R222): the error, or the frames already published (R227). -/
def State.failWriter (t : Task) (s : State) : State :=
  s.endWriter (if t.op = .transfer ∧ 0 < t.done then .frames t.done else .error s.par .eio)

/-- Load the throttling front and grant, fail, or go to wait (R222). -/
def State.loadWriter (t : Task) (s : State) : State :=
  if s.cfg.thr then
    let l := s.ldaq .writer .front
    match s.cfg.diff s.w.lr l.1 false with
    | .ok fill =>
      if s.w.eff.toNat - fill = 0 ∧ blocking t.tmo ∧ s.w.exp = false then
        l.2.goWriter { t with point := .wait l.1 }
      else l.2.grantWriter t (min t.want (s.w.eff.toNat - fill))
    | _ => l.2.failWriter t
  else s.grantWriter t (min t.want s.cfg.cap)

/-- Compare-and-park on `FRONT` (R224, 40_index_cell R148). -/
def State.waitWriter (t : Task) (e : Word) (s : State) : State :=
  if s.front.current ≠ e then (s.readNow .writer .front).goWriter { t with point := .load }
  else
    let s := (s.readParking .writer .front).enqueue .writer .front
    { s with w := { s.w with ph := .parked t { cell := .front, expected := e, timer := ticks t.tmo } } }

/-- Store byte `j` of the grant (R227); a byte `DIN` does not offer is a free value (log 11). An offset that does not
exist is not written (20_memory R70, log 12). -/
def State.copyByteWriter (t : Task) (j : Nat) (s : State) : State :=
  let b := match t.din[t.done * s.cfg.size.toNat + j]? with
    | some v => (v, s)
    | none => s.freeByte
  if t.byteOff j < s.cfg.bytes then b.2.storeByte .writer (t.byteOff j) b.1 else b.2

/-- Where a copy goes on: at the bytes left, or at the release. -/
def afterCopy (left : List Nat) : Point := if left.isEmpty then .publish else .copy left

/-- Copy one of the bytes left, any one (20_memory R74). -/
def State.copyWriter (t : Task) (left : List Nat) (s : State) : State :=
  let k := s.pick left.length
  match left[k.1]? with
  | some j => (k.2.copyByteWriter t j).goWriter { t with point := afterCopy (left.eraseIdx k.1) }
  | none => k.2.goWriter { t with point := .publish }

/-- The end of a release, with or without `EIO` (R225), and the end of a pass of `W.WRITE` (R227). A pass leaves
`W_OBT = 0` (R227, 45_provider R282), also where `SUM` failed and `W.RELEASE` would leave the batch as it was (log 35). -/
def State.releasedWriter (t : Task) (failed : Bool) (s : State) : State :=
  match t.op with
  | .transfer =>
    let done := t.done + t.grant
    let s := { s with w := { s.w with obt := 0 } }
    if failed ∨ done = t.count.toNat ∨ blocking t.tmo = false ∨ s.w.exp = true then s.endWriter (.frames done)
    else s.goWriter { t with done := done, grant := 0, point := .load }
  | _ => s.endWriter (if failed then .error s.par .eio else {})

/-- Advance `W_LR` and publish it in `REAR` (R225). -/
def State.publishWriter (t : Task) (s : State) : State :=
  match s.cfg.sum s.w.lr t.grant with
  | none => s.releasedWriter t true
  | some nr =>
    let s := { s with w := { s.w with lr := nr, obt := s.w.obt - BitVec.ofNat 32 t.grant } }.strl .writer .rear nr
    if s.cfg.thr then s.goWriter { t with point := .fresh } else s.releasedWriter t false

/-- Set `W_ARMED` as the trigger step leaves it (R226). -/
def State.armWriter (fill : Nat) (s : State) : State :=
  { s with w := { s.w with armed := writerArmed s.w.armed s.w.hlt s.w.lla fill } }

/-- The trigger's fresh load of `FRONT` (R225); an `EIO` skips the trigger. -/
def State.freshWriter (t : Task) (s : State) : State :=
  let l := s.ldaq .writer .front
  match s.cfg.diff s.w.lr l.1 false with
  | .ok fill =>
    if writerWakes s.w.armed s.w.hlt fill then l.2.goWriter { t with point := .wake fill }
    else (l.2.armWriter fill).releasedWriter t false
  | _ => l.2.releasedWriter t true

/-- The trigger's wake of `REAR` (R226). -/
def State.wakeWriter (t : Task) (fill : Nat) (s : State) : State :=
  ((s.wakeOwn .writer .rear).armWriter fill).releasedWriter t false

/-- The next atomic step of the writer's operation. The writer never stands at `resync`, which is the reader's. -/
def State.stepWriter (s : State) : State :=
  match s.w.ph with
  | .busy t =>
    match t.point with
    | .load => s.loadWriter t
    | .wait e => s.waitWriter t e
    | .copy left => s.copyWriter t left
    | .publish => s.publishWriter t
    | .fresh => s.freshWriter t
    | .wake fill => s.wakeWriter t fill
    | .resync _ => s
  | _ => s

/-- Up to `n` atomic steps of the writer, until its response or until it parks. -/
def State.runWriter : Nat → State → State
  | 0, s => s
  | n + 1, s => if s.w.ph.isBusy then State.runWriter n s.stepWriter else s

/-- Accept an operation of the writer (R220: `PH <- BUSY`, `EXP <- 0`) and take its first atomic step, and as many more as
the schedule allows (log 7). -/
def State.startWriter (t : Task) (s : State) : State :=
  ({ s with w := { s.w with exp := false, ph := .busy t } }).runWriter (s.beat.burst + 1)

/-- A single-step operation of the writer: accepted, its effect on the writer's registers, answered 0. -/
def State.quickWriter (f : Writer → Writer) (s : State) : State :=
  ({ s with w := { f s.w with exp := false } }).endWriter {}

/-- A parked writer's un-park step (40_index_cell R149): `PH <- BUSY`, the latch on a timeout, and the retry. -/
def State.unparkWriter (t : Task) (p : Park) (cause : Cause) (s : State) : State :=
  let s := s.unpark .writer p
  { s with w := { s.w with ph := .busy { t with point := .load }, exp := s.w.exp || p.timedOut cause } }

/-! ### The meanings -/

/-- `W.ATTACH` (R221). -/
def execWAttach (s : State) : Host.Outcome State Fault Refusal :=
  s.command (decide (s.beat.port = .writer) && s.cfg.valid && !s.w.att) fun s =>
    let l := s.ldaq .writer .rear
    ({ l.2 with w := { l.2.w with lr := l.1, obt := 0, att := true, exp := false } }).endWriter {}

/-- `W.OBTAIN` (R222): the outstanding batch is abandoned (45_provider R283), then the first pass. -/
def execWObtain (count : Word) (tmo : Timeout) (s : State) : Host.Outcome State Fault Refusal :=
  s.command s.writerMay fun s =>
    ({ s with w := { s.w with obt := 0 } }).startWriter { op := .obtain, count := count, tmo := tmo, point := .load }

/-- `W.RELEASE` (R225); more than was obtained is refused (45_provider R282). -/
def execWRelease (k : Word) (s : State) : Host.Outcome State Fault Refusal :=
  s.command (s.writerMay && decide (k.toNat ≤ s.w.obt.toNat)) fun s =>
    s.startWriter { op := .release, count := k, tmo := none, grant := k.toNat, point := .publish }

/-- `W.WRITE` (R227): a loop of obtain, copy and release. -/
def execWWrite (count : Word) (tmo : Timeout) (s : State) : Host.Outcome State Fault Refusal :=
  s.command s.writerMay fun s =>
    ({ s with w := { s.w with obt := 0 } }).startWriter
      { op := .transfer, count := count, tmo := tmo, din := s.beat.din, point := .load }

/-- `W.SETHLT` (R228). -/
def execWSethlt (level : Word) (s : State) : Host.Outcome State Fault Refusal :=
  s.command s.writerMay fun s =>
    s.quickWriter fun w => { w with hlt := wmin level s.cfg.n, lla := wmin w.lla (wmin level s.cfg.n) }

/-- `W.SETLLA` (R229). -/
def execWSetlla (level : Word) (s : State) : Host.Outcome State Fault Refusal :=
  s.command s.writerMay fun s => s.quickWriter fun w => { w with lla := wmin level w.hlt }

/-- `W.SETEFF` (R230). -/
def execWSeteff (e : Word) (s : State) : Host.Outcome State Fault Refusal :=
  s.command s.writerMay fun s => s.quickWriter fun w => { w with eff := wmax 1 (wmin e s.cfg.n) }

end Sys2Proof.Machine
end

