-- ==== Sys2Proof/Machine/Reader.lean ====
section
/-! DEFINITION. The reader endpoints: the atomic steps of their operations, and the meanings of `R.*` (44_reader). -/

namespace Sys2Proof.Machine

open Sys2Proof

/-! ### The atomic steps of an operation in progress -/

/-- Reader `i`'s operation goes on at `t`. -/
def State.goReader (i : Nat) (t : Task) (s : State) : State := s.setRd i { s.rd i with ph := .busy t }

/-- The bytes produced on `DOUT[i]`, in the order of the stream (30_encoding R125). -/
def Task.stream (t : Task) : List Byte := t.dout.map Prod.snd

/-- The response of an `R.READ` of `n` frames (R258). -/
def Task.readDone (t : Task) (n : Nat) : Response := { Response.frames n with dout := t.stream }

/-- Grant `g` frames: the response of `R.OBTAIN` (R252), or the copy of `R.READ` (R258). -/
def State.grantReader (i : Nat) (t : Task) (g : Nat) (s : State) : State :=
  let x := (s.rd i).lf
  let s := s.setRd i { s.rd i with obt := BitVec.ofNat 32 g }
  match t.op with
  | .transfer =>
    if g = 0 then s.endReader i (t.readDone t.done)
    else s.goReader i { t with
      grant := g, f0 := s.cfg.frag0 x g, f1 := s.cfg.frag1 x g,
      point := .copy (List.range (g * s.cfg.size.toNat)) }
  | _ => s.endReader i { ret := BitVec.ofNat 32 g, f0 := s.cfg.frag0 x g, f1 := s.cfg.frag1 x g }

/-- An obtain that failed (R252): the error, with the loss where `LV = 1`, or the frames already consumed (R258). -/
def State.failReader (i : Nat) (t : Task) (k : ErrKind) (lost : Nat) (s : State) : State :=
  s.endReader i
    (if t.op = .transfer ∧ 0 < t.done then t.readDone t.done
     else .error s.par k (if t.lv then BitVec.ofNat 32 lost else 0))

/-- Load `REAR` and grant, fail, resynchronise, or go to wait (R252, R255). -/
def State.loadReader (i : Nat) (t : Task) (s : State) : State :=
  let l := s.ldaq (.reader i) .rear
  let r := l.2.rd i
  match s.cfg.diff l.1 r.lf true with
  | .eio => l.2.failReader i t .eio 0
  | .overflow lost =>
    let s := l.2.setRd i { r with lf := (l.2.cfg.back l.1).getD r.lf, lost := BitVec.ofNat 32 lost }
    if r.thr then s.goReader i { t with point := .resync lost } else s.failReader i t .eoverflow lost
  | .ok fill =>
    if fill = 0 ∧ blocking t.tmo ∧ r.exp = false then l.2.goReader i { t with point := .wait l.1 }
    else l.2.grantReader i t (min t.want fill)

/-- The throttling reader publishes its resynchronised front (R255). -/
def State.resyncReader (i : Nat) (t : Task) (lost : Nat) (s : State) : State :=
  (s.strl (.reader i) .front (s.rd i).lf).failReader i t .eoverflow lost

/-- Compare-and-park on `REAR` (R254, 40_index_cell R148). -/
def State.waitReader (i : Nat) (t : Task) (e : Word) (s : State) : State :=
  if s.rear.current ≠ e then (s.readNow (.reader i) .rear).goReader i { t with point := .load }
  else
    let s := (s.readParking (.reader i) .rear).enqueue (.reader i) .rear
    s.setRd i { s.rd i with ph := .parked t { cell := .rear, expected := e, timer := ticks t.tmo } }

/-- Copy one of the bytes left, any one, to its place in the stream (R258, 20_memory R74). -/
def State.copyReader (i : Nat) (t : Task) (left : List Nat) (s : State) : State :=
  let k := s.pick left.length
  match left[k.1]? with
  | some j =>
    let b := k.2.loadByte (.reader i) (t.byteOff j)
    b.2.goReader i { t with
      dout := t.dout.put (t.done * s.cfg.size.toNat + j) b.1, point := afterCopy (left.eraseIdx k.1) }
  | none => k.2.goReader i { t with point := .publish }

/-- The end of a release, with or without `EIO` (R256), and the end of a pass of `R.READ` (R258), which leaves `R_OBT = 0`
(R258, 45_provider R282, log 35). -/
def State.releasedReader (i : Nat) (t : Task) (failed : Bool) (s : State) : State :=
  match t.op with
  | .transfer =>
    let done := t.done + t.grant
    let s := s.setRd i { s.rd i with obt := 0 }
    if failed ∨ done = t.count.toNat ∨ blocking t.tmo = false ∨ (s.rd i).exp = true then
      s.endReader i (t.readDone done)
    else
      (s.setRd i { s.rd i with lost := 0 }).goReader i { t with done := done, grant := 0, point := .load }
  | _ => s.endReader i (if failed then .error s.par .eio else {})

/-- Advance `R_LF`; the throttling reader publishes it in `FRONT` (R256). -/
def State.publishReader (i : Nat) (t : Task) (s : State) : State :=
  let r := s.rd i
  match s.cfg.sum r.lf t.grant with
  | none => s.releasedReader i t true
  | some nf =>
    let s := s.setRd i { r with lf := nf, obt := r.obt - BitVec.ofNat 32 t.grant }
    if r.thr then (s.strl (.reader i) .front nf).goReader i { t with point := .fresh }
    else s.releasedReader i t false

/-- Set `R_ARMED` as the trigger step leaves it (R257). -/
def State.armReader (i : Nat) (fill : Nat) (s : State) : State :=
  let r := s.rd i
  s.setRd i { r with armed := readerArmed r.armed r.llt r.hla fill }

/-- The trigger's fresh load of `REAR` (R256); an `EIO` is reported, an overflow is not, and both skip the trigger. -/
def State.freshReader (i : Nat) (t : Task) (s : State) : State :=
  let l := s.ldaq (.reader i) .rear
  let r := l.2.rd i
  match s.cfg.diff l.1 r.lf true with
  | .eio => l.2.releasedReader i t true
  | .overflow _ => l.2.releasedReader i t false
  | .ok fill =>
    if readerWakes r.armed r.llt fill then l.2.goReader i { t with point := .wake fill }
    else (l.2.armReader i fill).releasedReader i t false

/-- The trigger's wake of `FRONT` (R257). -/
def State.wakeReader (i : Nat) (t : Task) (fill : Nat) (s : State) : State :=
  ((s.wakeOwn (.reader i) .front).armReader i fill).releasedReader i t false

/-- The next atomic step of reader `i`'s operation. -/
def State.stepReader (i : Nat) (s : State) : State :=
  match (s.rd i).ph with
  | .busy t =>
    match t.point with
    | .load => s.loadReader i t
    | .wait e => s.waitReader i t e
    | .resync lost => s.resyncReader i t lost
    | .copy left => s.copyReader i t left
    | .publish => s.publishReader i t
    | .fresh => s.freshReader i t
    | .wake fill => s.wakeReader i t fill
  | _ => s

/-- Up to `n` atomic steps of reader `i`, until its response or until it parks. -/
def State.runReader (i : Nat) : Nat → State → State
  | 0, s => s
  | n + 1, s => if (s.rd i).ph.isBusy then State.runReader i n (s.stepReader i) else s

/-- Accept an operation of reader `i` (R250: `PH <- BUSY`, `EXP <- 0`) and take its first atomic step, and as many more
as the schedule allows (log 7). -/
def State.startReader (i : Nat) (t : Task) (s : State) : State :=
  (s.setRd i { s.rd i with exp := false, ph := .busy t }).runReader i (s.beat.burst + 1)

/-- A single-step operation of reader `i`: accepted, its effect on the reader's registers, answered 0. -/
def State.quickReader (i : Nat) (f : Reader → Reader) (s : State) : State :=
  (s.setRd i { f (s.rd i) with exp := false }).endReader i {}

/-- A parked reader's un-park step (40_index_cell R149). -/
def State.unparkReader (i : Nat) (t : Task) (p : Park) (cause : Cause) (s : State) : State :=
  let s := s.unpark (.reader i) p
  let r := s.rd i
  s.setRd i { r with ph := .busy { t with point := .load }, exp := r.exp || p.timedOut cause }

/-- The registers that an obtain clears at its entry (R252, 45_provider R282). -/
def State.clearReader (i : Nat) (s : State) : State := s.setRd i { s.rd i with obt := 0, lost := 0 }

/-! ### The meanings -/

/-- No reader but `i` throttles the writer (R251). -/
def State.noOtherThrottles (s : State) (i : Nat) : Bool :=
  (List.range s.readers.length).all fun j => j == i || !(s.rd j).thr

/-- May reader `i` attach (R251)? -/
def State.mayAttach (s : State) (i : Nat) (thr : Bool) : Bool :=
  decide (s.beat.port = .reader i) && s.cfg.valid && decide (i < s.readers.length) && !(s.rd i).att
    && (!thr || (s.cfg.thr && s.noOtherThrottles i))

/-- `R.ATTACH` (R251): a throttling reader adopts the shared front, another starts at the rear it observes. -/
def execRAttach (sel : BitVec 8) (thr : Bool) (s : State) : Host.Outcome State Fault Refusal :=
  s.command (s.mayAttach sel.toNat thr) fun s =>
    let l := s.ldaq (.reader sel.toNat) (if thr then .front else .rear)
    (l.2.setRd sel.toNat { l.2.rd sel.toNat with
      lf := l.1, thr := thr, obt := 0, lost := 0, att := true, exp := false }).endReader sel.toNat {}

/-- `R.OBTAIN` (R252): the outstanding batch is abandoned (45_provider R283), then the first pass. -/
def execRObtain (sel : BitVec 8) (count : Word) (tmo : Timeout) (lv : Bool) (s : State) :
    Host.Outcome State Fault Refusal :=
  s.command (s.readerMay sel.toNat) fun s =>
    (s.clearReader sel.toNat).startReader sel.toNat
      { op := .obtain, count := count, tmo := tmo, lv := lv, point := .load }

/-- `R.RELEASE` (R256); more than was obtained is refused (45_provider R282). -/
def execRRelease (sel : BitVec 8) (k : Word) (s : State) : Host.Outcome State Fault Refusal :=
  s.command (s.readerMay sel.toNat && decide (k.toNat ≤ (s.rd sel.toNat).obt.toNat)) fun s =>
    s.startReader sel.toNat { op := .release, count := k, tmo := none, grant := k.toNat, point := .publish }

/-- `R.READ` (R258): a loop of obtain, copy and release. -/
def execRRead (sel : BitVec 8) (count : Word) (tmo : Timeout) (lv : Bool) (s : State) :
    Host.Outcome State Fault Refusal :=
  s.command (s.readerMay sel.toNat) fun s =>
    (s.clearReader sel.toNat).startReader sel.toNat
      { op := .transfer, count := count, tmo := tmo, lv := lv, point := .load }

/-- `R.SETLLT` (R259). -/
def execRSetllt (sel : BitVec 8) (level : Word) (s : State) : Host.Outcome State Fault Refusal :=
  s.command (s.readerMay sel.toNat) fun s =>
    s.quickReader sel.toNat fun r =>
      { r with llt := wmin level s.cfg.n, hla := wmax r.hla (wmin level s.cfg.n) }

/-- `R.SETHLA` (R260). -/
def execRSethla (sel : BitVec 8) (level : Word) (s : State) : Host.Outcome State Fault Refusal :=
  s.command (s.readerMay sel.toNat) fun s =>
    s.quickReader sel.toNat fun r => { r with hla := wmax (wmin level s.cfg.n) r.llt }

end Sys2Proof.Machine
end

