-- ==== Sys2Proof/Machine/Dispatch.lean ====
section
/-! DEFINITION. One arm per operation of the opcode map (30_encoding R118). -/

namespace Sys2Proof.Machine

open Sys2Proof

def exec (i : Instr) (s : State) : Host.Outcome State Fault Refusal :=
  match i with
  | .idxInit c => Sys2Proof.Machine.execIdxInit c s
  | .idxLdaq c => Sys2Proof.Machine.execIdxLdaq c s
  | .idxStrl c value => Sys2Proof.Machine.execIdxStrl c value s
  | .idxCas c expected desired => Sys2Proof.Machine.execIdxCas c expected desired s
  | .idxWait c expected tmo => Sys2Proof.Machine.execIdxWait c expected tmo s
  | .idxWake1 c => Sys2Proof.Machine.execIdxWake1 c s
  | .idxWakeall c => Sys2Proof.Machine.execIdxWakeall c s
  | .baseNp2 n => Sys2Proof.Machine.execBaseNp2 n s
  | .baseSlot raw => Sys2Proof.Machine.execBaseSlot raw s
  | .baseSum index k => Sys2Proof.Machine.execBaseSum index k s
  | .baseDiff rear front rdr lv => Sys2Proof.Machine.execBaseDiff rear front rdr lv s
  | .baseBack rear => Sys2Proof.Machine.execBaseBack rear s
  | .fifoInit n size thr ext => Sys2Proof.Machine.execFifoInit n size thr ext s
  | .csrRd sel => Sys2Proof.Machine.execCsrRd sel s
  | .wAttach => Sys2Proof.Machine.execWAttach s
  | .wObtain count tmo => Sys2Proof.Machine.execWObtain count tmo s
  | .wRelease k => Sys2Proof.Machine.execWRelease k s
  | .wWrite count tmo => Sys2Proof.Machine.execWWrite count tmo s
  | .wSethlt level => Sys2Proof.Machine.execWSethlt level s
  | .wSetlla level => Sys2Proof.Machine.execWSetlla level s
  | .wSeteff e => Sys2Proof.Machine.execWSeteff e s
  | .rAttach sel thr => Sys2Proof.Machine.execRAttach sel thr s
  | .rObtain sel count tmo lv => Sys2Proof.Machine.execRObtain sel count tmo lv s
  | .rRelease sel k => Sys2Proof.Machine.execRRelease sel k s
  | .rRead sel count tmo lv => Sys2Proof.Machine.execRRead sel count tmo lv s
  | .rSetllt sel level => Sys2Proof.Machine.execRSetllt sel level s
  | .rSethla sel level => Sys2Proof.Machine.execRSethla sel level s
  | .xgEnc binary => Sys2Proof.Machine.execXgEnc binary s
  | .xgDec gray => Sys2Proof.Machine.execXgDec gray s
  | .bufLdb off => Sys2Proof.Machine.execBufLdb off s
  | .bufStb off value => Sys2Proof.Machine.execBufStb off value s
  | .fenceAcq => Sys2Proof.Machine.execFenceAcq s
  | .fenceRel => Sys2Proof.Machine.execFenceRel s

end Sys2Proof.Machine
end

