-- ==== Sys2Proof/Machine/Turns.lean ====
section
/-! DEFINITION. What a turn of the schedule does: an agent un-parks, goes on with its operation, or has its next command
accepted (00_scope R10, 30_encoding R110). -/

namespace Sys2Proof.Machine

open Sys2Proof

/-- The next command on a port and the commands left, in order (R110). -/
def takeCommand (o : Agent) : List Command → Option (Command × List Command)
  | [] => none
  | c :: cs =>
    if c.port = o then some (c, cs)
    else match takeCommand o cs with
      | some (d, ds) => some (d, c :: ds)
      | none => none

/-- Has the agent a step to take: an operation in progress, a wait, or a command on its port? -/
def State.enabled (s : State) (o : Agent) : Bool := !s.ready o || (takeCommand o s.inbox).isSome

/-- Every port a command may stand on, and every agent with an operation in progress. -/
def State.agents (s : State) : List Agent :=
  [.host, .writer, .peer] ++ (List.range s.readers.length).map .reader

/-- The agents that have a step to take. -/
def State.enabledAgents (s : State) : List Agent := s.agents.filter s.enabled

/-- A cause by number. -/
def causeOf : Nat → Cause
  | 0 => .timeout
  | 1 => .spurious
  | _ => .changed

/-- The next turn: one the environment has fixed; else any agent that has a step to take, any burst and any cause, each a
draw (10_state R52, log 5); none where no agent has a step to take. -/
def State.nextTurn (s : State) : Option (Turn × State) :=
  match s.sched with
  | t :: ts => some (t, { s with sched := ts })
  | [] =>
    match s.enabledAgents with
    | [] => none
    | o :: os =>
      let k := s.pick (os.length + 1)
      let b := k.2.draw
      let c := b.2.pick 3
      some ({ who := (o :: os).getD k.1 o, burst := b.1, cause := causeOf c.1 }, c.2)

/-- Accept the next command on a port: decode it and run it, with the bytes offered and the burst of the turn. An illegal
command word is refused (30_encoding R120). -/
def State.accept (s : State) (c : Command) (rest : List Command) (burst : Nat) : Host.Outcome State Fault Refusal :=
  let s := { s with inbox := rest, beat := { port := c.port, din := c.din, burst := burst } }
  match decode c.cmd.cw c.cmd.a c.cmd.b with
  | .ok i => exec i s
  | .error _ => .next s.refuse

/-- The agent's port is ready: its next command, if there is one, is accepted. -/
def State.acceptNext (s : State) (o : Agent) (burst : Nat) : Host.Outcome State Fault Refusal :=
  match takeCommand o s.inbox with
  | none => .next s
  | some (c, rest) => if s.hasPort o then s.accept c rest burst else .fault .absentPort

/-- The turn of the writer. -/
def State.turnWriter (s : State) (t : Turn) : Host.Outcome State Fault Refusal :=
  match s.w.ph with
  | .busy _ => .next (s.runWriter (t.burst + 1))
  | .parked k p =>
    if s.unparkEnabled p t.cause then .next ((s.unparkWriter k p t.cause).runWriter t.burst) else .next s
  | _ => s.acceptNext .writer t.burst

/-- The turn of reader `i`. -/
def State.turnReader (s : State) (i : Nat) (t : Turn) : Host.Outcome State Fault Refusal :=
  match (s.rd i).ph with
  | .busy _ => .next (s.runReader i (t.burst + 1))
  | .parked k p =>
    if s.unparkEnabled p t.cause then .next ((s.unparkReader i k p t.cause).runReader i t.burst) else .next s
  | _ => s.acceptNext (.reader i) t.burst

/-- The turn of the foreign peer. -/
def State.turnPeer (s : State) (t : Turn) : Host.Outcome State Fault Refusal :=
  match s.peer.wait with
  | some p => if s.unparkEnabled p t.cause then .next (s.unparkPeer p t.cause) else .next s
  | none => s.acceptNext .peer t.burst

/-- One turn (log 5): an agent with nothing to do leaves the state as it is. -/
def State.turn (s : State) (t : Turn) : Host.Outcome State Fault Refusal :=
  match t.who with
  | .host => s.acceptNext .host t.burst
  | .writer => s.turnWriter t
  | .reader i => s.turnReader i t
  | .peer => s.turnPeer t

/-- The port to present a command on when none is given: one that 30_encoding R119 offers the operation on (log 30). -/
def homePort (s : State) : Instr → Agent
  | .idxInit _ => .host
  | .idxLdaq _ => .peer
  | .idxStrl _ _ => .peer
  | .idxCas _ _ _ => .peer
  | .idxWait _ _ _ => .peer
  | .idxWake1 _ => .peer
  | .idxWakeall _ => .peer
  | .baseNp2 _ => .host
  | .baseSlot _ => .host
  | .baseSum _ _ => .host
  | .baseDiff _ _ _ _ => .host
  | .baseBack _ => .host
  | .fifoInit _ _ _ _ => .host
  | .csrRd sel => if sel.toNat < 0x10 then .host else if sel.toNat < 0x20 then .writer else .reader 0
  | .wAttach => .writer
  | .wObtain _ _ => .writer
  | .wRelease _ => .writer
  | .wWrite _ _ => .writer
  | .wSethlt _ => .writer
  | .wSetlla _ => .writer
  | .wSeteff _ => .writer
  | .rAttach sel _ => .reader (if sel.toNat < s.readers.length then sel.toNat else 0)
  | .rObtain sel _ _ _ => .reader (if sel.toNat < s.readers.length then sel.toNat else 0)
  | .rRelease sel _ => .reader (if sel.toNat < s.readers.length then sel.toNat else 0)
  | .rRead sel _ _ _ => .reader (if sel.toNat < s.readers.length then sel.toNat else 0)
  | .rSetllt sel _ => .reader (if sel.toNat < s.readers.length then sel.toNat else 0)
  | .rSethla sel _ => .reader (if sel.toNat < s.readers.length then sel.toNat else 0)
  | .xgEnc _ => .host
  | .xgDec _ => .host
  | .bufLdb _ => .writer
  | .bufStb _ _ => .writer
  | .fenceAcq => .writer
  | .fenceRel => .writer

/-- A burst no operation outlasts: a transfer is at most 2³² frames of at most 2³¹ bytes each, and a few steps a pass. -/
def wholeBurst : Nat := 2 ^ 64

end Sys2Proof.Machine
end

