-- ==== Sys2Proof/Machine/Step.lean ====
section
/-! DEFINITION. One step of the machine, and the arrival of one command. -/

namespace Sys2Proof.Machine

open Sys2Proof

/-- One step: the next turn of the schedule. With no turn fixed and no agent that has a step to take, the core waits and
the state stays as it is (70_reset R348). -/
def step (s : State) : Host.Outcome State Fault Refusal :=
  match s.nextTurn with
  | none => .next s
  | some (t, s) => s.turn t

/-- `s` with a command presented first on its port, and the next turn given to that port, uninterrupted (log 30). `w` is
numbered as the opcode table numbers it (log 36). `PORT_X` exists only with `FOREIGN = 1`, so a command that only that port
is offered sets it. -/
def State.withFetchWord (s : State) (nbits w : Nat) : State :=
  let cmd := Beat96.ofTable nbits w
  let port := match decode cmd.cw cmd.a cmd.b with
    | .ok i => homePort s i
    | .error _ => .host
  { s with
    par := if port = .peer then { s.par with foreign := true } else s.par
    inbox := { port := port, cmd := cmd } :: s.inbox
    sched := { who := port, burst := wholeBurst, cause := .timeout } :: s.sched }

end Sys2Proof.Machine
end

