-- ==== Sys2Proof/Safety.lean ====
section
/-! DEFINITION. The terms of the claims: what a sound state is (10_state R55), what a refusal leaves, how a command reaches
`exec`, and the illegal command words (30_encoding R120) said without the decoder. -/

namespace Sys2Proof

open Sys2Proof.Machine

/-! ### Operations and their ports -/

/-- The ports that a row of the opcode map is offered on (30_encoding R119). -/
def Instr.offeredOn : Instr → Agent → Prop
  | .fifoInit _ _ _ _, o => o = .host
  | .idxInit _, o => o = .host
  | .idxLdaq _, o => o = .peer
  | .idxStrl _ _, o => o = .peer
  | .idxCas _ _ _, o => o = .peer
  | .idxWait _ _ _, o => o = .peer
  | .idxWake1 _, o => o = .peer
  | .idxWakeall _, o => o = .peer
  | .wAttach, o => o = .writer
  | .wObtain _ _, o => o = .writer
  | .wRelease _, o => o = .writer
  | .wWrite _ _, o => o = .writer
  | .wSethlt _, o => o = .writer
  | .wSetlla _, o => o = .writer
  | .wSeteff _, o => o = .writer
  | .rAttach i _, o => o = .reader i.toNat
  | .rObtain i _ _ _, o => o = .reader i.toNat
  | .rRelease i _, o => o = .reader i.toNat
  | .rRead i _ _ _, o => o = .reader i.toNat
  | .rSetllt i _, o => o = .reader i.toNat
  | .rSethla i _, o => o = .reader i.toNat
  | .csrRd n, o => n.toNat < 0x10 ∨ (n.toNat < 0x20 ∧ o = .writer) ∨ (0x20 ≤ n.toNat ∧ ∃ i, o = .reader i)
  | .bufStb _ _, o => o = .writer ∨ o = .peer
  | .bufLdb _, o => o ≠ .host
  | .baseNp2 _, _ => True
  | .baseSlot _, _ => True
  | .baseSum _ _, _ => True
  | .baseDiff _ _ _ _, _ => True
  | .baseBack _, _ => True
  | .xgEnc _, _ => True
  | .xgDec _, _ => True
  | .fenceAcq, o => o ≠ .host
  | .fenceRel, o => o ≠ .host

/-- The operations accepted before the first `FIFO.INIT` (10_state R54): all but these need a FIFO. -/
def Instr.needsFifo : Instr → Bool
  | .fifoInit _ _ _ _ => false
  | .idxInit _ => false
  | .csrRd n => decide (n.toNat ≥ 0x10)
  | .baseNp2 _ => false
  | .xgEnc _ => false
  | .xgDec _ => false
  | _ => true

/-! ### Which operands an operation reads (30_encoding R111, R115) -/

/-- Does the operation read `A`? -/
def Instr.readsA : Instr → Bool
  | .idxInit _ => false
  | .idxLdaq _ => false
  | .idxWake1 _ => false
  | .idxWakeall _ => false
  | .csrRd _ => false
  | .wAttach => false
  | .rAttach _ _ => false
  | .fenceAcq => false
  | .fenceRel => false
  | _ => true

/-- Does the operation read `B`? A null timeout does not. -/
def Instr.readsB : Instr → Bool
  | .idxCas _ _ _ => true
  | .baseSum _ _ => true
  | .baseDiff _ _ _ _ => true
  | .fifoInit _ _ _ _ => true
  | .bufStb _ _ => true
  | .idxWait _ _ t => t.isSome
  | .wObtain _ t => t.isSome
  | .wWrite _ t => t.isSome
  | .rObtain _ _ t _ => t.isSome
  | .rRead _ _ t _ => t.isSome
  | _ => false

end Sys2Proof

namespace Sys2Proof.Machine

open Sys2Proof

/-! ### Sound states -/

/-- R55 (5), (6) and 43_writer R228 to R230 for the writer of a FIFO of `n` frames. -/
abbrev Writer.levels (w : Writer) (n : Nat) : Prop :=
  1 ≤ w.eff.toNat ∧ w.eff.toNat ≤ n ∧ w.lla.toNat ≤ w.hlt.toNat ∧ w.hlt.toNat ≤ n ∧ w.obt.toNat ≤ n

/-- R55 (5), (6) and 44_reader R259, R260 for a reader. -/
abbrev Reader.levels (r : Reader) (n : Nat) : Prop :=
  r.llt.toNat ≤ r.hla.toNat ∧ r.hla.toNat ≤ n ∧ r.obt.toNat ≤ n

/-- The frames an operation is about to release; they belong to the batch outstanding. -/
def Phase.pending : Phase → Nat
  | .busy t =>
    match t.point with
    | .copy _ => t.grant
    | .publish => t.grant
    | _ => 0
  | _ => 0

/-- The registers of a constructed FIFO stay in their ranges (R55 (5), (6), R24, R25). -/
abbrev State.levelsInv (s : State) : Prop :=
  s.cfg.valid = true →
    s.cfg.legal = true ∧ s.w.levels s.cfg.cap ∧ s.w.ph.pending ≤ s.w.obt.toNat ∧
    ∀ r ∈ s.readers, r.levels s.cfg.cap ∧ r.ph.pending ≤ r.obt.toNat

/-- The reader has moved its front back and not yet published it (44_reader R255). -/
def Phase.resyncing : Phase → Bool
  | .busy t =>
    match t.point with
    | .resync _ => true
    | _ => false
  | _ => false

/-- An endpoint is attached exactly when it is not DETACHED (R45, R46); only a throttling reader comes to publish a
resynchronised front (44_reader R255). -/
abbrev State.attachInv (s : State) : Prop :=
  s.w.att = !s.w.ph.isDetached ∧ ∀ r ∈ s.readers, r.att = !r.ph.isDetached ∧ (r.ph.resyncing = true → r.thr = true)

/-- At most one reader throttles, it is attached, and only where the `FRONT` cell exists (R37). -/
abbrev State.throttleInv (s : State) : Prop :=
  s.cfg.valid = true →
    (∀ r ∈ s.readers, r.thr = true → r.att = true ∧ s.cfg.thr = true) ∧
    (s.readers.filter (·.thr)).length ≤ 1

/-- Is the phase parked on the cell, with no wake yet (40_index_cell R148, R150)? -/
def Phase.sleepsOn (c : CellSel) : Phase → Bool
  | .parked _ p => p.cell == c && p.woken.isNone
  | _ => false

/-- Is the agent parked on the cell, with no wake yet? -/
def State.sleepsOn (s : State) (c : CellSel) : Agent → Bool
  | .host => false
  | .writer => s.w.ph.sleepsOn c
  | .reader i => (s.rd i).ph.sleepsOn c
  | .peer => match s.peer.wait with
    | some p => p.cell == c && p.woken.isNone
    | none => false

/-- The parked sets (10_state R48): a set holds an agent once, each of them sleeps on the cell, and every endpoint that
sleeps on a cell is in its set, so an agent is in at most one set; the writer sleeps on `FRONT` only, a reader on `REAR` only. -/
abbrev State.parkedInv (s : State) : Prop :=
  (s.wqRear.Nodup ∧ s.wqFront.Nodup) ∧
  (∀ o ∈ s.wqRear, s.sleepsOn .rear o = true) ∧ (∀ o ∈ s.wqFront, s.sleepsOn .front o = true) ∧
  (s.w.ph.sleepsOn .front = true → .writer ∈ s.wqFront) ∧ s.w.ph.sleepsOn .rear = false ∧
  ∀ i, (s.rd i).ph.sleepsOn .front = false ∧ ((s.rd i).ph.sleepsOn .rear = true → .reader i ∈ s.wqRear)

/-- An observer has observed values that exist (10_state R50). -/
abbrev Observer.inHist (x : Observer) (s : State) : Prop :=
  x.posRear ≤ s.rear.newest ∧ x.posFront ≤ s.front.newest

/-- Every observer's positions lie in the histories (R50, 20_memory R88). -/
abbrev State.posInv (s : State) : Prop :=
  s.w.obs.inHist s ∧ s.peer.obs.inHist s ∧ ∀ r ∈ s.readers, r.obs.inHist s

/-- The bytes a phase has produced are listed canonically. -/
def Phase.outWf : Phase → Prop
  | .busy t => t.dout.wf
  | .parked t _ => t.dout.wf
  | _ => True

/-- Every list of bytes in the state is in canonical form: keys strictly rising. -/
abbrev State.memoryInv (s : State) : Prop :=
  s.buf.wf ∧ s.w.ph.outWf ∧ ∀ r ∈ s.readers, r.ph.outWf

/-- The value of the last write of a byte, if there was one. -/
def lastWrite (ws : List BufWrite) (off : Nat) : Option Byte :=
  ((ws.filter fun w => w.off == off).getLast?).map BufWrite.value

/-- The buffer holds at every offset what was written there last, and nothing where nothing was written (10_state R23). -/
abbrev State.bufferInv (s : State) : Prop := ∀ off, s.buf.find off = lastWrite s.writes off

/-- No command waiting on a port is an `IDX.INIT` (70_reset R333: exactly one peer constructs the cells, once). -/
def State.noCellInit (s : State) : Prop :=
  ∀ c ∈ s.inbox, ∀ x, decode c.cmd.cw c.cmd.a c.cmd.b ≠ .ok (.idxInit x)

/-- The owner's local index is the cell it owns (R55 (2), (3)); a cell that has no owner yet has not been stored. -/
abbrev State.ownerInv (s : State) : Prop :=
  s.cfg.valid = true →
    (s.w.att = false → s.rear.pubs = []) ∧ (s.w.att = true → s.w.lr = s.rear.current) ∧
    ((∀ r ∈ s.readers, r.thr = false) → s.front.pubs = []) ∧
    ∀ r ∈ s.readers, r.thr = true → r.ph.resyncing = false → r.lf = s.front.current

/-- Every index of a FIFO that embeds its cells is well-formed (R55 (1)). -/
abbrev State.indexInv (s : State) : Prop :=
  s.cfg.valid = true → s.cfg.ext = false →
    s.cfg.legal = true ∧ (∀ v ∈ s.rear.hist, s.cfg.wellFormed v = true) ∧
    (s.cfg.thr = true → ∀ v ∈ s.front.hist, s.cfg.wellFormed v = true) ∧
    s.cfg.wellFormed s.w.lr = true ∧ ∀ r ∈ s.readers, s.cfg.wellFormed r.lf = true

/-- The raw index of frame number `m`, counted from 0 without any wrap (41_base_arith R169). -/
def CfgRegs.rawOf (c : CfgRegs) (m : Nat) : Word := BitVec.ofNat 32 (m / c.cap * c.pow + m % c.cap)

/-- The indices of a throttled FIFO that embeds its cells, as frame numbers: `R` counts the values `REAR` has held, `F` those of
`FRONT`. Both only grow; the writer, with its outstanding batch, stays within `N` frames of the front it has observed, and the
throttling reader's batch stays behind the rear it has observed (R55 (4), 42_fifo R208, R209). -/
def State.flowInv (s : State) : Prop :=
  s.cfg.valid = true → s.cfg.ext = false → s.cfg.thr = true →
    ∃ R F : List Nat, s.rear.hist = R.map s.cfg.rawOf ∧ s.front.hist = F.map s.cfg.rawOf ∧
      R.Pairwise (· ≤ ·) ∧ F.Pairwise (· ≤ ·) ∧
      (s.w.att = false → R = [0]) ∧ ((∀ r ∈ s.readers, r.thr = false) → F = [0]) ∧
      (s.w.att = true → s.w.lr = s.cfg.rawOf (R.getLastD 0) ∧
        R.getLastD 0 + s.w.obt.toNat ≤ F.getD s.w.obs.posFront 0 + s.cfg.cap) ∧
      ∀ r ∈ s.readers, r.thr = true → r.ph.resyncing = false ∧ r.lf = s.cfg.rawOf (F.getLastD 0) ∧
        F.getLastD 0 + r.obt.toNat ≤ R.getD r.obs.posRear 0

/-- A state in which the throttled FIFO is sound. -/
def State.sound (s : State) : Prop :=
  s.attachInv ∧ s.throttleInv ∧ s.levelsInv ∧ s.posInv ∧ s.flowInv

/-! ### How a command reaches `exec`, and what a refusal leaves -/

/-- The state in which the next turn's command `c` runs, with the commands `rest` left on the ports. -/
def State.beatOf (s : State) (c : Command) (rest : List Command) (burst : Nat) : State :=
  { s with inbox := rest, beat := { port := c.port, din := c.din, burst := burst } }

/-- The state after a refused command: the response, every field 0, and nothing else (60_exceptions R296). -/
def State.refusedOn (s : State) (o : Agent) : State := { s with out := s.out ++ [{ port := o, resp := { refused := true } }] }


/-! ### Illegal command words (30_encoding R120), field by field -/

/-- How many operations each unit lists (R118). -/
def funcsOf : Nat → Nat
  | 0 => 7
  | 1 => 5
  | 2 => 2
  | 3 => 7
  | 4 => 6
  | 5 => 2
  | 6 => 2
  | 7 => 2
  | _ => 0

/-- The flags each operation lists, as bits 15:8 of the command word (R113, R118). -/
def flagsOf : Nat → Nat → BitVec 8
  | 0, 4 => 0x01
  | 1, 3 => 0x0A
  | 2, 0 => 0x14
  | 3, 1 => 0x01
  | 3, 3 => 0x01
  | 4, 0 => 0x04
  | 4, 1 => 0x03
  | 4, 3 => 0x03
  | _, _ => 0

/-- Is `SEL` 0 in every row of the unit but those that read it (R118)? -/
def selectIsZero (unit func : Nat) : Bool := unit != 0 && unit != 4 && !(unit == 2 && func == 1)

/-- R120, condition by condition, for a command word on a port. -/
def illegalOn (o : Agent) (cw : Word) : Prop :=
  let unit := (cw >>> 28).toNat
  let func := (cw >>> 24).toNat % 16
  let sel := (cw >>> 16).toNat % 256
  let flg := (cw >>> 8).setWidth 8
  unit ≥ 8 ∨ func ≥ funcsOf unit ∨ cw.setWidth 8 ≠ (0 : BitVec 8) ∨ flg &&& ~~~flagsOf unit func ≠ 0 ∨
  (selectIsZero unit func = true ∧ sel ≠ 0) ∨ (unit = 0 ∧ sel > 1) ∨
  (unit = 2 ∧ func = 1 ∧ BitVec.ofNat 8 sel ∉ csrNumbers) ∨ (unit = 4 ∧ o ≠ .reader sel)

/-! ### The arithmetic of the claims -/

/-- `p = log2 P` (00_scope R7): the least exponent whose power of two is not below `n`. -/
def leastPow (n p : Nat) : Prop := n ≤ 2 ^ p ∧ ∀ q, n ≤ 2 ^ q → p ≤ q

/-- A chain of `SUM` steps (41_base_arith R179). -/
def CfgRegs.sumAll (c : CfgRegs) : Word → List Nat → Option Word
  | x, [] => some x
  | x, k :: ks =>
    match c.sum x k with
    | some y => c.sumAll y ks
    | none => none

/-- The buffer offset of byte `k` of a batch that begins at raw index `x`: frame `k / s` of the batch, byte `k % s`
(43_writer R223, 20_memory R73). -/
def CfgRegs.batchOff (c : CfgRegs) (x : Word) (k : Nat) : Nat :=
  (c.slotNat x + k / c.size.toNat) % c.cap * c.size.toNat + k % c.size.toNat

/-! ### Wakes and the order of buffer writes -/

/-- In `t` the agent's phase, or the peer's wait, is that of `s` released by a wake that hands over `v`, if it was parked
(40_index_cell R149 (a)). -/
def wokenIn (v : Seen) (s t : State) : Agent → Prop
  | .host => True
  | .writer => t.w.ph = s.w.ph.wakeUp v
  | .reader i => (t.rd i).ph = (s.rd i).ph.wakeUp v
  | .peer => t.peer.wait = s.peer.wait.map fun p => { p with woken := some v }

/-- In `t` the agent's phase, or the peer's wait, is that of `s`. -/
def keptIn (s t : State) : Agent → Prop
  | .host => True
  | .writer => t.w.ph = s.w.ph
  | .reader i => (t.rd i).ph = (s.rd i).ph
  | .peer => t.peer.wait = s.peer.wait

/-- From `s` to `t` the parked set of the cell was woken, one member (R150) or all (R151), by an agent that hands over `v`;
every agent not released keeps its phase or its wait. -/
def wokeFrom (v : Seen) (s t : State) (c : CellSel) (all : Bool) : Prop :=
  if all then
    t.wq c = [] ∧ (∀ o ∈ s.wq c, wokenIn v s t o) ∧ ∀ o, o ∉ s.wq c → keptIn s t o
  else
    (s.wq c = [] ∧ t.wq c = [] ∧ ∀ o, keptIn s t o) ∨
    ∃ who ∈ s.wq c, t.wq c = (s.wq c).filter (· != who) ∧ wokenIn v s t who ∧ ∀ o, o ≠ who → keptIn s t o

/-- From `s` to `t` nothing changes but phases, the peer's wait, the parked set of the cell, draws and responses. -/
def onlyWakes (s t : State) (c : CellSel) : Prop :=
  t.readers.length = s.readers.length ∧ (∀ i, { t.rd i with ph := (s.rd i).ph } = s.rd i) ∧
  t = ({ s with
    w := { s.w with ph := t.w.ph }
    readers := t.readers
    peer := { s.peer with wait := t.peer.wait }
    choices := t.choices
    draws := t.draws
    out := t.out } : State).setWq c (t.wq c)

/-- What the writer's trigger step leaves after a release from `s` that published `nr` and then observed the front `f`
(43_writer R225, R226, R231). -/
def writerTriggered (s t : State) (nr f : Word) : Prop :=
  match s.cfg.diff nr f false with
  | .ok fill =>
    (t.w.armed = true ↔ fill ≤ s.w.lla.toNat ∨ (s.w.armed = true ∧ fill < s.w.hlt.toNat)) ∧
    (s.w.armed = true ∧ s.w.hlt.toNat ≤ fill → wokeFrom t.w.obs.view.seen s t .rear (s.par.nReaders != 1)) ∧
    (¬(s.w.armed = true ∧ s.w.hlt.toNat ≤ fill) → t.wqRear = s.wqRear ∧ t.readers = s.readers ∧ t.peer = s.peer)
  | _ => t.w.armed = s.w.armed ∧ t.wqRear = s.wqRear ∧ t.readers = s.readers ∧ t.peer = s.peer

/-- What reader `i`'s trigger step leaves after a release from `s` that published `nf` and then observed the rear `rear`
(44_reader R256, R257, R261). -/
def readerTriggered (i : Nat) (s t : State) (nf rear : Word) : Prop :=
  let r := s.rd i
  match s.cfg.diff rear nf true with
  | .ok fill =>
    ((t.rd i).armed = true ↔ r.hla.toNat ≤ fill ∨ (r.armed = true ∧ r.llt.toNat < fill)) ∧
    (r.armed = true ∧ fill ≤ r.llt.toNat → wokeFrom (t.rd i).obs.view.seen s t .front false) ∧
    (¬(r.armed = true ∧ fill ≤ r.llt.toNat) → t.wqFront = s.wqFront ∧ t.w = s.w ∧ t.peer = s.peer)
  | _ => (t.rd i).armed = r.armed ∧ t.wqFront = s.wqFront ∧ t.w = s.w ∧ t.peer = s.peer

/-! ### Passes of `W.WRITE` and `R.READ` -/

/-- `RET` for a transfer of `n` frames (00_scope R11, 30_encoding R116): never negative, and the count itself where a signed
word holds it (log 21). -/
abbrev isCount (ret : Word) (n : Nat) : Prop := ret.msb = false ∧ (n < 2 ^ 31 → ret.toNat = n)

/-- The writer stands at the start of a pass of `W.WRITE`: the load of the body of `W.OBTAIN` (43_writer R227). -/
abbrev State.atWritePass (s : State) (task : Task) : Prop :=
  s.w.ph = .busy task ∧ task.op = .transfer ∧ task.point = .load

/-- Reader `i` stands at the start of a pass of `R.READ` (44_reader R258). The bytes produced so far are those of the frames
done. -/
abbrev State.atReadPass (s : State) (i : Nat) (task : Task) : Prop :=
  (s.rd i).ph = .busy task ∧ task.op = .transfer ∧ task.point = .load ∧ i < s.readers.length ∧
  task.dout.map Prod.fst = List.range (task.done * s.cfg.size.toNat)

/-- Does a transfer end after a pass that brings the frames done to `n`, by its count, for want of a timeout that lets it
block, or because that timeout has expired (R227, R258)? -/
abbrev Task.ends (t : Task) (n : Nat) (exp : Bool) : Prop := n = t.count.toNat ∨ blocking t.tmo = false ∨ exp = true

/-- From `s`, in which the writer's release has done its work, to `t`, in which its last atomic step has ended it: `W.RELEASE`
answers 0, or `EIO` where it failed (43_writer R225); a pass of `W.WRITE` releases its batch, also where it failed (log 35),
and answers the frames done or goes on at the next pass (R227). -/
def State.writerEnds (s t : State) (task : Task) (failed : Bool) : Prop :=
  (task.op ≠ .transfer → t = ({ s with w := { s.w with ph := .idle } } : State).answer .writer
    { ret := if failed then s.par.errEio else 0 }) ∧
  (task.op = .transfer → failed = true ∨ task.ends (task.done + task.grant) s.w.exp → ∃ ret,
    isCount ret (task.done + task.grant) ∧
    t = ({ s with w := { s.w with obt := 0, ph := .idle } } : State).answer .writer { ret := ret }) ∧
  (task.op = .transfer → ¬(failed = true ∨ task.ends (task.done + task.grant) s.w.exp) → t = { s with w := { s.w with
    obt := 0
    ph := .busy { task with done := task.done + task.grant, grant := 0, point := .load } } })

/-- The same for reader `i`: the end of `R.RELEASE` (44_reader R256) and of a pass of `R.READ` (R258, log 35). -/
def State.readerEnds (i : Nat) (s t : State) (task : Task) (failed : Bool) : Prop :=
  let r := s.rd i
  (task.op ≠ .transfer → t = (s.setRd i { r with ph := .idle }).answer (.reader i)
    { ret := if failed then s.par.errEio else 0 }) ∧
  (task.op = .transfer → failed = true ∨ task.ends (task.done + task.grant) r.exp → ∃ ret,
    isCount ret (task.done + task.grant) ∧
    t = (s.setRd i { r with obt := 0, ph := .idle }).answer (.reader i) { ret := ret, dout := task.dout.map Prod.snd }) ∧
  (task.op = .transfer → ¬(failed = true ∨ task.ends (task.done + task.grant) r.exp) → t = s.setRd i { r with
    obt := 0
    lost := 0
    ph := .busy { task with done := task.done + task.grant, grant := 0, point := .load } })

/-- One pass of `W.WRITE` that granted `g` frames, from the writer at its start in `s` to its end in `t` (R227, R225): the
bytes of `DIN` are at their places and no other byte has changed; `W_LR` has advanced and is published, with every byte
written handed over; the batch is released; and the writer answers the frames done, or stands at the next pass. `failed`
says that the release answered `EIO`. -/
def State.writePass (s t : State) (task : Task) (g : Nat) (nr : Word) (failed : Prop) : Prop :=
  (∀ k b, k < g * s.cfg.size.toNat → task.din[task.done * s.cfg.size.toNat + k]? = some b →
    t.buf.find (s.cfg.batchOff s.w.lr k) = some b) ∧
  (∀ a, (∀ k, k < g * s.cfg.size.toNat → s.cfg.batchOff s.w.lr k ≠ a) → t.buf.find a = s.buf.find a) ∧
  (∃ (ws : List BufWrite) (seen : Seen), t.writes = s.writes ++ ws ∧ ws.length = g * s.cfg.size.toNat ∧
    (∀ x ∈ ws, x.byPeer = false ∧ x.idx ≤ seen.writer) ∧
    t.rear = { s.rear with pubs := s.rear.pubs ++ [{ value := nr, seen := seen }] }) ∧
  t.w = { s.w with lr := nr, obt := 0, armed := t.w.armed, ph := t.w.ph, obs := t.w.obs } ∧
  t.w.obs.posRear = s.w.obs.posRear ∧
  t.front = s.front ∧ t.cfg = s.cfg ∧ t.par = s.par ∧ t.wqFront = s.wqFront ∧ t.inbox = s.inbox ∧ t.sched = s.sched ∧
  t.beat = s.beat ∧ t.readers.length = s.readers.length ∧ t.peer.obs = s.peer.obs ∧
  (∀ i, { t.rd i with ph := (s.rd i).ph } = s.rd i) ∧
  (failed ∨ task.ends (task.done + g) s.w.exp → t.w.ph = .idle ∧
    ∃ ret, isCount ret (task.done + g) ∧ t.out = s.out ++ [{ port := .writer, resp := { ret := ret } }]) ∧
  (¬(failed ∨ task.ends (task.done + g) s.w.exp) → t.out = s.out ∧ ∃ (grant : Nat) (f0 f1 : Frag),
    t.w.ph = .busy { task with done := task.done + g, grant := grant, f0 := f0, f1 := f1, point := .load })

/-- One pass of `R.READ` that granted `g` frames, from reader `i` at its start in `s` to its end in `t` (R258, R256); `seen` is
what the load of `REAR` ordered before the byte loads. The bytes of the frames follow those produced before, each the
newest byte where the load is ordered after every write of it; `R_LF` has advanced, and a throttling reader has published
it; the batch is released; and the reader answers the frames done with their bytes, or stands at the next pass. -/
def State.readPass (i : Nat) (s t : State) (task : Task) (g : Nat) (nf : Word) (seen : Seen) (failed : Prop) : Prop :=
  let r := s.rd i
  t.rear = s.rear ∧ t.buf = s.buf ∧ t.writes = s.writes ∧ t.cfg = s.cfg ∧ t.par = s.par ∧ t.wqRear = s.wqRear ∧
  t.inbox = s.inbox ∧ t.sched = s.sched ∧ t.beat = s.beat ∧ t.readers.length = s.readers.length ∧
  t.peer.obs = s.peer.obs ∧ { t.w with ph := s.w.ph } = s.w ∧
  (∀ m, m ≠ i → { t.rd m with ph := (s.rd m).ph } = s.rd m) ∧
  t.rd i = { r with
    lf := nf
    obt := 0
    lost := (t.rd i).lost
    armed := (t.rd i).armed
    ph := (t.rd i).ph
    obs := (t.rd i).obs } ∧
  (t.rd i).obs.posFront = r.obs.posFront ∧
  (r.thr = true → t.front = { s.front with pubs := s.front.pubs ++ [{ value := nf, seen := seen }] }) ∧
  (r.thr = false → t.front = s.front) ∧
  ∃ dout : Memory, task.dout <+: dout ∧ dout.map Prod.fst = List.range ((task.done + g) * s.cfg.size.toNat) ∧
    (∀ k b, k < g * s.cfg.size.toNat → s.settledByte (s.cfg.batchOff r.lf k) seen = some b →
      (dout.map Prod.snd)[task.done * s.cfg.size.toNat + k]? = some b) ∧
    (failed ∨ task.ends (task.done + g) r.exp → (t.rd i).ph = .idle ∧ (t.rd i).lost = r.lost ∧
      ∃ ret, isCount ret (task.done + g) ∧
        t.out = s.out ++ [{ port := .reader i, resp := { ret := ret, dout := dout.map Prod.snd } }]) ∧
    (¬(failed ∨ task.ends (task.done + g) r.exp) → t.out = s.out ∧ (t.rd i).lost = 0 ∧
      ∃ (grant : Nat) (f0 f1 : Frag), (t.rd i).ph = .busy { task with
        done := task.done + g, grant := grant, f0 := f0, f1 := f1, dout := dout, point := .load })

/-- The writes of the buffer are listed in the order each agent made them, and each agent knows its own (20_memory R84 (i)). -/
abbrev State.orderInv (s : State) : Prop :=
  (s.writes.filter (!·.byPeer)).Pairwise (fun x y => x.idx < y.idx) ∧
  (s.writes.filter (·.byPeer)).Pairwise (fun x y => x.idx < y.idx) ∧
  (∀ x ∈ s.writes, x.byPeer = false → x.idx ≤ s.w.obs.view.seen.writer) ∧
  ∀ x ∈ s.writes, x.byPeer = true → x.idx ≤ s.peer.obs.view.seen.peer

end Sys2Proof.Machine
end

