-- ==== Sys2Proof/Certificates/Slice0/Obligations.lean ====
section
/-! DEFINITION. The statements about the model, each from a rule of the spec (named in its docstring). A statement that
begins a command says "accepted": the port it stands on is ready for it. -/

open Sys2Proof Sys2Proof.Machine

/-! ### Encoding -/

/-- 30_encoding R111 to R115, R118: the decoder reads back what the encoder wrote, for every operation and every value of its
operands. -/
def Obligations.DecodeOfEncodeIsTheInstruction : Prop :=
  ∀ i : Instr, decode (encode i).cw (encode i).a (encode i).b = .ok i

/-- R118: a word selects at most one row; the row it selects is the operation the decoder reads; a word that selects no row is an
error. -/
def Obligations.DecoderFollowsTheOpcodeMap : Prop :=
  opRows.length = 33 ∧
  (∀ w : Word, (opRows.filter (·.selects w)).length ≤ 1) ∧
  (∀ (cw a b : Word) (k : Nat) (r : OpRow), opRows[k]? = some r → r.selects cw = true →
    ∃ i, decode cw a b = .ok i ∧ i.row = k) ∧
  ∀ cw a b : Word, (∀ r ∈ opRows, r.selects cw = false) → ∃ e, decode cw a b = .error e

/-- R111, R114, R115: an operand that the operation does not read may hold any value; `BUF.STB` reads the low byte of `B` only. -/
def Obligations.UnreadOperandsAreIgnored : Prop :=
  ∀ (cw a b : Word) (i : Instr), decode cw a b = .ok i →
    (i.readsA = false → ∀ a', decode cw a' b = .ok i) ∧
    (i.readsB = false → ∀ b', decode cw a b' = .ok i) ∧
    ∀ off v, i = .bufStb off v → ∀ b' : Word, b'.setWidth 8 = b.setWidth 8 → decode cw a b' = .ok i

/-- R118 and the vectors of 95_test_vectors part 2.1: command words written out by hand from the opcode map, one of each unit. -/
def Obligations.SampleCommandWordsDecode : Prop :=
  decode 0x04000100 5 0x64 = .ok (.idxWait .rear 5 (some 0x64)) ∧
  decode 0x13000A00 26 18 = .ok (.baseDiff 26 18 true true) ∧
  decode 0x20001400 6 4 = .ok (.fifoInit 6 4 true true) ∧
  decode 0x33000100 6 1 = .ok (.wWrite 6 (some 1)) ∧
  decode 0x41010300 10 0 = .ok (.rObtain 1 10 (some 0) true) ∧
  decode 0x51000000 0x17 0 = .ok (.xgDec 0x17) ∧
  decode 0x61000000 17 0xFFFFFF41 = .ok (.bufStb 17 0x41) ∧
  decode 0x71000000 0 0 = .ok .fenceRel

/-! ### A step, and who may issue what -/

/-- 30_encoding R110: a turn of an agent whose port is ready and holds a command runs exactly the instruction the decoder
reads from it. Around `exec` the step only moves the schedule on, takes the command off its port, and notes the port, the bytes
offered and the burst of the turn. -/
def Obligations.StepRunsTheDecodedInstruction : Prop :=
  ∀ (s s1 : State) (t : Turn) (c : Command) (rest : List Command) (i : Instr),
    s.nextTurn = some (t, s1) → s1.ready t.who = true → takeCommand t.who s1.inbox = some (c, rest) →
    s1.hasPort t.who = true → decode c.cmd.cw c.cmd.a c.cmd.b = .ok i →
    step s = exec i (s1.beatOf c rest t.burst) ∧ c.port = t.who ∧
    ∃ q cs n, s1 = { s with sched := q, choices := cs, draws := n }

/-- R120: an illegal command word is refused, and nothing else changes. -/
def Obligations.IllegalCommandWordIsRefused : Prop :=
  ∀ (s s1 : State) (t : Turn) (c : Command) (rest : List Command),
    s.nextTurn = some (t, s1) → s1.ready t.who = true → takeCommand t.who s1.inbox = some (c, rest) →
    s1.hasPort t.who = true → illegalOn c.port c.cmd.cw →
    step s = .next ((s1.beatOf c rest t.burst).refusedOn c.port)

/-- R119: a command on a port that its row is not offered on is refused. -/
def Obligations.WrongPortIsRefused : Prop :=
  ∀ (i : Instr) (s : State), s.ready s.beat.port = true → ¬ i.offeredOn s.beat.port →
    exec i s = .next (s.refusedOn s.beat.port)

/-- 10_state R54: before the first `FIFO.INIT` every operation that needs a FIFO is refused. -/
def Obligations.UnconstructedFifoRefuses : Prop :=
  ∀ (i : Instr) (s : State), s.ready s.beat.port = true → s.cfg.valid = false → i.needsFifo = true →
    exec i s = .next (s.refusedOn s.beat.port)

/-- R110, 00_scope R11: a port that is ready takes every command to a next state; one that is not takes none. -/
def Obligations.ReadyPortTakesEveryCommand : Prop :=
  ∀ (i : Instr) (s : State),
    (s.ready s.beat.port = true → ∃ t, exec i s = .next t) ∧
    (s.ready s.beat.port = false → exec i s = .fault .portNotReady)

/-- 60_exceptions R296: where a command answers `REFUSED`, every other field is 0 and nothing else has changed. -/
def Obligations.RefusalChangesNothing : Prop :=
  ∀ (i : Instr) (s t : State) (o : Agent) (r : Response), exec i s = .next t →
    t.out = s.out ++ [{ port := o, resp := r }] → r.refused = true → t = s.refusedOn s.beat.port

/-! ### Index arithmetic -/

/-- 41_base_arith R170. -/
def Obligations.BaseNp2AnswersTheLeastPowerOfTwo : Prop :=
  ∀ (s : State) (n : Word), s.ready s.beat.port = true →
    (1 ≤ n.toNat → n.toNat ≤ 2 ^ 31 → ∃ (q : Nat) (v : Word), q ≤ 31 ∧ leastPow n.toNat q ∧ v.toNat = 2 ^ q ∧
      exec (.baseNp2 n) s = .next (s.answer s.beat.port { val := v })) ∧
    (n.toNat = 0 ∨ 2 ^ 31 < n.toNat → exec (.baseNp2 n) s = .next (s.refusedOn s.beat.port))

/-- R171: the slot field, with no check that it is below `N`. -/
def Obligations.BaseSlotMasksTheIndex : Prop :=
  ∀ (s : State) (raw : Word) (p : Nat), s.ready s.beat.port = true → leastPow s.cfg.n.toNat p →
    (s.cfg.valid = true → ∃ v : Word, v.toNat = raw.toNat % 2 ^ p ∧
      exec (.baseSlot raw) s = .next (s.answer s.beat.port { val := v })) ∧
    (s.cfg.valid = false → exec (.baseSlot raw) s = .next (s.refusedOn s.beat.port))

/-- R172, R173. -/
def Obligations.BaseSumAdvancesAndSkips : Prop :=
  ∀ (s : State) (x k : Word) (p : Nat), s.ready s.beat.port = true → leastPow s.cfg.n.toNat p →
    (s.cfg.valid = false ∨ s.cfg.n.toNat < k.toNat →
      exec (.baseSum x k) s = .next (s.refusedOn s.beat.port)) ∧
    (s.cfg.valid = true → k.toNat ≤ s.cfg.n.toNat → s.cfg.n.toNat ≤ x.toNat % 2 ^ p →
      exec (.baseSum x k) s = .next (s.answer s.beat.port { ret := s.par.errEio })) ∧
    (s.cfg.valid = true → k.toNat ≤ s.cfg.n.toNat → x.toNat % 2 ^ p < s.cfg.n.toNat → ∃ v : Word,
      v.toNat = (x.toNat + if s.cfg.n.toNat ≤ x.toNat % 2 ^ p + k.toNat then k.toNat + (2 ^ p - s.cfg.n.toNat)
        else k.toNat) % 2 ^ 32 ∧
      exec (.baseSum x k) s = .next (s.answer s.beat.port { val := v }))

/-- R175, R176, in the order of the tests: `d` is the signed delta and `g` the number of `P`-boundaries between the indices. -/
def Obligations.BaseDiffClassifiesInOrder : Prop :=
  ∀ (s : State) (r f : Word) (rdr lv : Bool) (p : Nat), s.ready s.beat.port = true → s.cfg.legal = true →
    leastPow s.cfg.n.toNat p →
    let N := s.cfg.n.toNat
    let d := (r - f).toInt
    let g := (r.toNat / 2 ^ p + 2 ^ (32 - p) - f.toNat / 2 ^ p) % 2 ^ (32 - p)
    let frames : Int := d - g * (2 ^ p - N : Int)
    let ends (resp : Response) := exec (.baseDiff r f rdr lv) s = .next (s.answer s.beat.port resp)
    (s.cfg.valid = false → exec (.baseDiff r f rdr lv) s = .next (s.refusedOn s.beat.port)) ∧
    (s.cfg.valid = true →
      (N ≤ r.toNat % 2 ^ p ∨ N ≤ f.toNat % 2 ^ p → ends { ret := s.par.errEio }) ∧
      (r.toNat % 2 ^ p < N → f.toNat % 2 ^ p < N →
        (d < 0 → ends { ret := s.par.errEio }) ∧
        (0 ≤ d → N < frames → rdr = true → ∃ l : Word, (l.toNat : Int) = (if lv then frames - N else 0) ∧
          ends { ret := s.par.errEoverflow, lost := l }) ∧
        (0 ≤ d → N < frames → rdr = false → ends { ret := s.par.errEio }) ∧
        (0 ≤ d → frames ≤ N → ∃ v : Word, (v.toNat : Int) = frames ∧ ends { ret := v })))

/-- R178: one `P` back, and its two laws. -/
def Obligations.BaseBackGoesOneGenerationBack : Prop :=
  ∀ (s : State) (x : Word) (p : Nat), s.ready s.beat.port = true → leastPow s.cfg.n.toNat p →
    (s.cfg.valid = false → exec (.baseBack x) s = .next (s.refusedOn s.beat.port)) ∧
    (s.cfg.valid = true → s.cfg.n.toNat ≤ x.toNat % 2 ^ p →
      exec (.baseBack x) s = .next (s.answer s.beat.port { ret := s.par.errEio })) ∧
    (s.cfg.valid = true → x.toNat % 2 ^ p < s.cfg.n.toNat → ∃ v : Word,
      v.toNat = (x.toNat + 2 ^ 32 - 2 ^ p) % 2 ^ 32 ∧
      exec (.baseBack x) s = .next (s.answer s.beat.port { val := v }) ∧
      (s.cfg.legal = true → s.cfg.sum v s.cfg.n.toNat = some x ∧ ∀ who, s.cfg.diff x v who = .ok s.cfg.n.toNat))

/-- R174 (a) to (d). -/
def Obligations.SumLaws : Prop :=
  ∀ (c : CfgRegs) (x : Word) (k : Nat), c.legal = true → c.wellFormed x = true → k ≤ c.cap →
    ∃ y, c.sum x k = some y ∧ c.wellFormed y = true ∧
      (c.slotNat x + k < c.cap → c.slotNat y = c.slotNat x + k ∧ y.toNat / c.pow = x.toNat / c.pow) ∧
      (c.cap ≤ c.slotNat x + k → c.slotNat y = c.slotNat x + k - c.cap ∧
        y.toNat / c.pow = (x.toNat / c.pow + 1) % 2 ^ (32 - c.pexp)) ∧
      (∀ j, j + k ≤ c.cap → c.sum y j = c.sum x (k + j)) ∧
      (y.toNat / c.pow * c.cap + c.slotNat y) % (c.cap * 2 ^ (32 - c.pexp)) =
        (x.toNat / c.pow * c.cap + c.slotNat x + k) % (c.cap * 2 ^ (32 - c.pexp))

/-- R179: `DIFF` counts the frames of every chain of `SUM` steps, as long as the raw advance, `m` frames and an `F` for each
boundary crossed, stays below 2³¹. -/
def Obligations.DiffCountsAChainOfSums : Prop :=
  ∀ (c : CfgRegs) (x : Word) (ks : List Nat), c.legal = true → c.wellFormed x = true → (∀ k ∈ ks, k ≤ c.cap) →
    ks.sum + (c.slotNat x + ks.sum) / c.cap * c.fudge < 2 ^ 31 →
    ∃ y, c.sumAll x ks = some y ∧
      (ks.sum ≤ c.cap → ∀ who, c.diff y x who = .ok ks.sum) ∧
      (c.cap < ks.sum → c.diff y x true = .overflow (ks.sum - c.cap) ∧ c.diff y x false = .eio)

/-- R177: at an overflow the loss is the number of frames between `front` and `BACK(rear)`, and the clamp is never reached. -/
def Obligations.LostCountsTheFramesSkipped : Prop :=
  ∀ (c : CfgRegs) (r f : Word) (l : Nat), c.legal = true → c.diff r f true = .overflow l →
    (c.cap + l : Int) = c.frames r f ∧ 1 ≤ l ∧ c.frames r f ≤ rawDelta r f ∧ rawDelta r f < 2 ^ 31 ∧
    ∃ b, c.back r = some b ∧ c.frames b f = l ∧ 0 ≤ rawDelta b f

/-- 40_index_cell R156, R157, R158: both codes bit by bit; they are inverse to each other; an advance of one changes one bit of the
code, 5 to 8 changes three. -/
def Obligations.GrayCommandsAnswerInverseCodes : Prop :=
  (∀ (s : State) (v : Word), s.ready s.beat.port = true → ∃ g b : Word,
    exec (.xgEnc v) s = .next (s.answer s.beat.port { val := g }) ∧
    exec (.xgDec v) s = .next (s.answer s.beat.port { val := b }) ∧
    g.getLsbD 31 = v.getLsbD 31 ∧ (∀ i, i ≤ 30 → g.getLsbD i = (v.getLsbD (i + 1) ^^ v.getLsbD i)) ∧
    (∀ i, i ≤ 31 → b.getLsbD i = (List.range (32 - i)).foldl (fun acc j => acc ^^ v.getLsbD (31 - j)) false) ∧
    exec (.xgDec g) s = .next (s.answer s.beat.port { val := v }) ∧
    exec (.xgEnc b) s = .next (s.answer s.beat.port { val := v })) ∧
  (∀ v : Word, ∃ k, k < 32 ∧ grayEnc v ^^^ grayEnc (v + 1) = 1#32 <<< k) ∧
  grayEnc 5 = 7 ∧ grayEnc 8 = 0xC

/-! ### Index cells, waits and fences, from the foreign peer's port -/

/-- R141: the cell is 0 with a history of one value, and every observer is at its start. Before construction `FRONT` is accepted
where the block was built with it, and refused where it was not (log 15: that construction, and not `CFG_CTL.THR`, decides
before `FIFO.INIT` is the model's reading). -/
def Obligations.IdxInitRestartsTheCell : Prop :=
  ∀ s : State, s.beat.port = .host →
    exec (.idxInit .rear) s = .next (({ s with
      rear := { base := 0, pubs := [] }
      w := { s.w with obs := { s.w.obs with posRear := 0 } }
      readers := s.readers.map (fun r => { r with obs := { r.obs with posRear := 0 } })
      peer := { s.peer with obs := { s.peer.obs with posRear := 0 } } } : State).answer .host {}) ∧
    (s.par.frontBuilt = true → (s.cfg.valid = true → s.cfg.thr = true) →
      exec (.idxInit .front) s = .next (({ s with
        front := { base := 0, pubs := [] }
        w := { s.w with obs := { s.w.obs with posFront := 0 } }
        readers := s.readers.map (fun r => { r with obs := { r.obs with posFront := 0 } })
        peer := { s.peer with obs := { s.peer.obs with posFront := 0 } } } : State).answer .host {})) ∧
    (s.par.frontBuilt = false ∨ (s.cfg.valid = true ∧ s.cfg.thr = false) →
      exec (.idxInit .front) s = .next (s.refusedOn .host))

/-- R142, 20_memory R88, R89: the load answers a value of the history from the observer's position on, whole; the position
moves to it; under `XING = sc` it is the newest; every position is possible otherwise, whatever the peer has read of the other cell (log 37,
the model's choice). An absent `FRONT` is refused (R145). -/
def Obligations.IdxLdaqObservesWithLag : Prop :=
  ∀ (s : State) (c : CellSel), s.beat.port = .peer → s.peer.wait = none → s.cfg.valid = true →
    (c = .front → s.cfg.thr = false → exec (.idxLdaq c) s = .next (s.refusedOn .peer)) ∧
    (c = .rear ∨ s.cfg.thr = true → s.peer.obs.pos c ≤ (s.cell c).newest →
      (∃ (j : Nat) (v : Word) (cs : List Nat) (n : Nat), s.peer.obs.pos c ≤ j ∧ j ≤ (s.cell c).newest ∧
        (s.par.xing = .sc → j = (s.cell c).newest) ∧ (s.cell c).hist[j]? = some v ∧
        exec (.idxLdaq c) s = .next (({ s with
          choices := cs
          draws := n
          peer := { s.peer with obs := ((s.peer.obs.setPos c j).setView
            (s.peer.obs.view.acquire ((s.cell c).handsOver j))) } } : State).answer .peer { val := v })) ∧
      ∀ (j : Nat) (v : Word), s.par.xing = .lagging → s.peer.obs.pos c ≤ j → (s.cell c).hist[j]? = some v →
        ∃ (cs : List Nat) (t : State), exec (.idxLdaq c) { s with choices := cs } = .next t ∧
          t.out = s.out ++ [{ port := .peer, resp := { val := v } }] ∧ t.peer.obs.pos c = j)

/-- R143: the store is the newest value of the cell; nobody is woken. That a peer's store is a release and hands over the peer's
own view (20_memory R82) is the model's choice (log 33: R143 is followed where 20_memory R97 could be read against it). -/
def Obligations.IdxStrlAppendsAndReleases : Prop :=
  ∀ (s : State) (v : Word), s.beat.port = .peer → s.peer.wait = none → s.cfg.valid = true →
    exec (.idxStrl .rear v) s = .next (({ s with
      rear := { s.rear with pubs := s.rear.pubs ++ [{ value := v, seen := s.peer.obs.view.seen }] }
      peer := { s.peer with obs := { s.peer.obs with view := s.peer.obs.view.fenceRel } } } : State).answer .peer {}) ∧
    (s.cfg.thr = true → exec (.idxStrl .front v) s = .next (({ s with
      front := { s.front with pubs := s.front.pubs ++ [{ value := v, seen := s.peer.obs.view.seen }] }
      peer := { s.peer with obs := { s.peer.obs with view := s.peer.obs.view.fenceRel } } } : State).answer .peer {})) ∧
    (s.cfg.thr = false → exec (.idxStrl .front v) s = .next (s.refusedOn .peer))

/-- R144: compare with the current value, never a lagging one, and store in the same step; the position is the newest. The
compare acquires on success and on failure, what every store of the cell handed over (20_memory R83); the store releases,
and hands over all that the peer then knows (R82). -/
def Obligations.IdxCasComparesTheCurrentValue : Prop :=
  ∀ (s : State) (c : CellSel) (e d : Word), s.beat.port = .peer → s.peer.wait = none → s.cfg.valid = true →
    let view := s.peer.obs.view.acquire ((s.cell c).handsOver (s.cell c).newest)
    (c = .front → s.cfg.thr = false → exec (.idxCas c e d) s = .next (s.refusedOn .peer)) ∧
    (c = .rear ∨ s.cfg.thr = true →
      ((s.cell c).current ≠ e → exec (.idxCas c e d) s = .next (({ s with
        peer := { s.peer with obs := ((s.peer.obs.setPos c (s.cell c).newest).setView view) } } : State).answer .peer
          { ret := 0, val := (s.cell c).current })) ∧
      ((s.cell c).current = e → exec (.idxCas c e d) s = .next
        ((({ s with peer := { s.peer with
            obs := ((s.peer.obs.setPos c ((s.cell c).newest + 1)).setView view.fenceRel) } } : State).setCell c
          { s.cell c with pubs := (s.cell c).pubs ++ [{ value := d, seen := view.seen }] }).answer .peer { ret := 1, val := e })))

/-- R148: no blocking timeout answers `TIMEDOUT` at once; a cell that differs answers `OTHER` at once; else the peer parks, and
answers nothing yet. The compare acquires (20_memory R84 (ii)); that it does so also when it parks is the model's reading
(log 27). -/
def Obligations.IdxWaitAnswersOrParks : Prop :=
  ∀ (s : State) (c : CellSel) (e : Word) (tmo : Timeout), s.beat.port = .peer → s.peer.wait = none →
    s.cfg.valid = true →
    let view := s.peer.obs.view.acquire ((s.cell c).handsOver (s.cell c).newest)
    (c = .front → s.cfg.thr = false → exec (.idxWait c e tmo) s = .next (s.refusedOn .peer)) ∧
    (c = .rear ∨ s.cfg.thr = true →
      (tmo = none ∨ tmo = some 0 → exec (.idxWait c e tmo) s = .next (s.answer .peer { ret := 1 })) ∧
      ∀ b : Word, b ≠ 0 → tmo = some b →
        ((s.cell c).current ≠ e → exec (.idxWait c e tmo) s = .next (({ s with
          peer := { s.peer with obs := ((s.peer.obs.setPos c (s.cell c).newest).setView view) } } : State).answer .peer
            { ret := 0 })) ∧
        ((s.cell c).current = e → Agent.peer ∉ s.wq c → exec (.idxWait c e tmo) s = .next
          (({ s with peer := { wait := some { cell := c, expected := e, timer := b }, obs := s.peer.obs.setView view } } : State).setWq c
            (s.wq c ++ [.peer]))))

/-- R149 for the parked peer: a wake, a spurious return and a changed cell answer `OTHER`, a timeout `TIMEDOUT`; it leaves the set,
at a position R88 allows; a cell that has not changed is no reason to return. What a wake handed over is ordered before all
that the peer does next (20_memory R84 (iii)). Three clauses are the model's choice: a peer that a wake released answers
`OTHER` also on a turn whose cause is the timeout (log 20), a turn with a cause that is not enabled leaves it parked (log 34),
and the position taken at the un-park orders nothing by itself (log 27). -/
def Obligations.ParkedPeerReturnsByItsCause : Prop :=
  ∀ (s s1 : State) (t : Turn) (p : Park), s.nextTurn = some (t, s1) → t.who = .peer → s1.peer.wait = some p →
    s1.peer.obs.pos p.cell ≤ (s1.cell p.cell).newest →
    (p.woken = none → t.cause = .changed → (s1.cell p.cell).current = p.expected → step s = .next s1) ∧
    (p.woken ≠ none ∨ t.cause ≠ .changed ∨ (s1.cell p.cell).current ≠ p.expected →
      ∃ (j : Nat) (view : View) (cs : List Nat) (n : Nat), s1.peer.obs.pos p.cell ≤ j ∧ j ≤ (s1.cell p.cell).newest ∧
        (p.woken = none → view = s1.peer.obs.view) ∧
        (∀ v, p.woken = some v → view = { s1.peer.obs.view with seen := s1.peer.obs.view.seen.join v }) ∧
        step s = .next ((({ s1 with
          choices := cs
          draws := n
          peer := { wait := none, obs := (s1.peer.obs.setPos p.cell j).setView view } } : State).setWq p.cell
            ((s1.wq p.cell).filter (· != .peer))).answer .peer
              { ret := if p.woken = none ∧ t.cause = Cause.timeout then 1 else 0 }))

/-- R150, R151: both wakes answer 0 in a next state; a wake of an empty set does nothing; wake-one releases one member, any one;
wake-all releases all; every agent not released keeps its phase or wait, and nothing else changes but the parked set and
the draws. A wake of a `FRONT` that does not exist is refused (R145). -/
def Obligations.IdxWakesReleaseMembers : Prop :=
  ∀ (s : State) (c : CellSel), s.beat.port = .peer → s.peer.wait = none → s.cfg.valid = true →
    (c = .front → s.cfg.thr = false →
      exec (.idxWake1 c) s = .next (s.refusedOn .peer) ∧ exec (.idxWakeall c) s = .next (s.refusedOn .peer)) ∧
    (c = .rear ∨ s.cfg.thr = true →
    let v := s.peer.obs.view.seen
    (∃ t, exec (.idxWake1 c) s = .next t ∧ wokeFrom v s t c false ∧ onlyWakes s t c ∧
      t.out = s.out ++ [{ port := .peer, resp := {} }]) ∧
    (s.wq c = [] → exec (.idxWake1 c) s = .next (s.answer .peer {})) ∧
    (∀ who ∈ s.wq c, ∃ (cs : List Nat) (t : State), exec (.idxWake1 c) { s with choices := cs } = .next t ∧
      t.wq c = (s.wq c).filter (· != who) ∧ wokenIn v s t who ∧ ∀ o, o ≠ who → keptIn s t o) ∧
    ∃ t, exec (.idxWakeall c) s = .next t ∧ wokeFrom v s t c true ∧ onlyWakes s t c ∧
      t.choices = s.choices ∧ t.draws = s.draws ∧ t.out = s.out ++ [{ port := .peer, resp := {} }])

/-- R153, R154, 20_memory R87: a fence changes no register, no cell and no byte, and answers 0; it moves only what orders the
issuing agent's own accesses (log 24 is the form that this order has in the model). -/
def Obligations.FencesOnlyOrder : Prop :=
  ∀ s : State, s.beat.port ≠ .host → s.hasPort s.beat.port = true → s.ready s.beat.port = true → s.cfg.valid = true →
    (∃ view : View, exec .fenceAcq s = .next ((s.setObs s.beat.port { s.obs s.beat.port with view := view }).answer
        s.beat.port {}) ∧
      view.seen = (s.obs s.beat.port).view.seen.join (s.obs s.beat.port).view.acq ∧
      view.rel = (s.obs s.beat.port).view.rel) ∧
    ∃ view : View, exec .fenceRel s = .next ((s.setObs s.beat.port { s.obs s.beat.port with view := view }).answer
        s.beat.port {}) ∧
      view.seen = (s.obs s.beat.port).view.seen ∧ view.rel = (s.obs s.beat.port).view.seen

/-! ### Construction, registers, the buffer -/

/-- 42_fifo R200 to R202, 10_state R54: every register, both parked sets, both histories and every position after an accepted
`FIFO.INIT`; the buffer is not written. Each condition of R201 and R203 refuses. Four clauses are the model's choice: where
`THR = 0` and `EXT = 0` the cell `FRONT`, which then does not exist, keeps its value (log 16); a parked foreign peer stays
parked (log 19); the record of buffer writes is kept (log 28); the alignment of `FRONT` is tested only with `THR` (log 32). -/
def Obligations.FifoInitGivesTheResetState : Prop :=
  (∀ (s : State) (n size : Word) (thr ext : Bool), s.beat.port = .host →
    1 ≤ n.toNat → 1 ≤ size.toNat → n.toNat * size.toNat ≤ 2 ^ 31 - 1 → n.toNat ≤ 2 ^ 30 →
    (ext = true → s.par.rearAddr % 4 = 0 ∧ (thr = true → s.par.frontAddr % 4 = 0)) →
    (thr = true → s.par.frontBuilt = true) →
    s.w.ph = .idle ∨ s.w.ph = .detached → (∀ r ∈ s.readers, r.ph = .idle ∨ r.ph = .detached) →
    ∃ t, exec (.fifoInit n size thr ext) s = .next t ∧
      t.cfg = { n := n, size := size, valid := true, thr := thr, ext := ext } ∧
      t.rear = { base := if ext then s.rear.current else 0, pubs := [] } ∧
      t.front = { base := if ext = false ∧ thr = true then 0 else s.front.current, pubs := [] } ∧
      t.wqRear = [] ∧ t.wqFront = [] ∧ t.buf = s.buf ∧ t.writes = s.writes ∧
      t.out = s.out ++ [{ port := .host, resp := {} }] ∧
      t.par = s.par ∧ t.beat = s.beat ∧ t.inbox = s.inbox ∧ t.sched = s.sched ∧ t.choices = s.choices ∧ t.draws = s.draws ∧
      (t.w.lr = 0 ∧ t.w.eff = n ∧ t.w.armed = true ∧ t.w.obt = 0 ∧ t.w.att = false ∧ t.w.ph = .detached ∧ t.w.exp = false ∧
        t.w.hlt.toNat = min (resetLevel s.par.wHltReset n).toNat n.toNat ∧
        t.w.lla.toNat = min (resetLevel s.par.wLlaReset n).toNat t.w.hlt.toNat) ∧
      (t.w.obs.posRear = 0 ∧ t.w.obs.posFront = 0 ∧ t.peer.obs.posRear = 0 ∧ t.peer.obs.posFront = 0 ∧
        t.peer.wait = s.peer.wait) ∧
      t.readers.length = s.readers.length ∧
      ∀ r ∈ t.readers, r.lf = 0 ∧ r.thr = false ∧ r.armed = true ∧ r.obt = 0 ∧ r.lost = 0 ∧ r.att = false ∧
        r.ph = .detached ∧ r.exp = false ∧ r.hla.toNat = min (resetLevel s.par.rHlaReset n).toNat n.toNat ∧
        r.llt.toNat = min (resetLevel s.par.rLltReset n).toNat r.hla.toNat ∧ r.obs.posRear = 0 ∧ r.obs.posFront = 0) ∧
  ∀ (s : State) (n size : Word) (thr ext : Bool), s.ready s.beat.port = true →
    s.beat.port ≠ .host ∨ n.toNat = 0 ∨ size.toNat = 0 ∨ 2 ^ 31 - 1 < n.toNat * size.toNat ∨ 2 ^ 30 < n.toNat ∨
      (ext = true ∧ (s.par.rearAddr % 4 ≠ 0 ∨ (thr = true ∧ s.par.frontAddr % 4 ≠ 0))) ∨
      (thr = true ∧ s.par.frontBuilt = false) ∨
      s.w.ph.isBusy = true ∨ s.w.ph.isParked = true ∨
      (∃ r ∈ s.readers, r.ph.isBusy = true ∨ r.ph.isParked = true) →
    exec (.fifoInit n size thr ext) s = .next (s.refusedOn s.beat.port)

/-- R204 with the table of 10_state R53 and the words of R24 to R43: `CSR.RD` answers the register and changes nothing. -/
def Obligations.CsrRdReadsTheRegisterTable : Prop :=
  ∀ s : State, s.ready s.beat.port = true →
    let reads (sel : BitVec 8) (v : Nat) :=
      ∃ u : Word, u.toNat = v ∧ exec (.csrRd sel) s = .next (s.answer s.beat.port { val := u })
    (reads 0x00 s.cfg.n.toNat ∧ reads 0x01 s.cfg.size.toNat ∧
      reads 0x04 (s.cfg.valid.toNat + 2 * s.cfg.thr.toNat + 4 + 8 * s.cfg.ext.toNat) ∧
      (s.par.nReaders < 2 ^ 32 → reads 0x05 s.par.nReaders) ∧
      (s.cfg.n = 0 → reads 0x02 0 ∧ reads 0x03 0) ∧
      ∀ p, 1 ≤ s.cfg.n.toNat → s.cfg.n.toNat ≤ 2 ^ 30 → leastPow s.cfg.n.toNat p →
        reads 0x02 (2 ^ p) ∧ reads 0x03 (2 ^ p - s.cfg.n.toNat)) ∧
    (s.beat.port = .writer → s.cfg.valid = true →
      reads 0x10 s.w.lr.toNat ∧ reads 0x11 s.w.eff.toNat ∧ reads 0x12 s.w.lla.toNat ∧ reads 0x13 s.w.hlt.toNat ∧
      reads 0x14 s.w.obt.toNat ∧
      reads 0x15 (s.w.armed.toNat + 2 * s.w.att.toNat + 4 * s.w.ph.code + 16 * s.w.exp.toNat)) ∧
    ∀ i, s.beat.port = .reader i → i < s.readers.length → s.cfg.valid = true →
      reads 0x20 (s.rd i).lf.toNat ∧ reads 0x21 (s.rd i).hla.toNat ∧ reads 0x22 (s.rd i).llt.toNat ∧
      reads 0x23 (s.rd i).obt.toNat ∧ reads 0x25 (s.rd i).lost.toNat ∧
      reads 0x24 ((s.rd i).armed.toNat + 2 * (s.rd i).att.toNat + 4 * (s.rd i).thr.toNat + 8 * (s.rd i).ph.code +
        32 * (s.rd i).exp.toNat)

/-- 10_state R54, 70_reset R330: what power-up leaves, and what the configuration registers read then. -/
def Obligations.PowerUpState : Prop :=
  State.reset.cfg.valid = false ∧ State.reset.w.ph = .detached ∧ State.reset.w.att = false ∧
  (∀ r ∈ State.reset.readers, r.ph = .detached ∧ r.att = false) ∧
  State.reset.readers.length = State.reset.par.nReaders ∧ State.reset.wqRear = [] ∧ State.reset.wqFront = [] ∧
  State.reset.par.legal = true ∧
  exec (.csrRd 0x00) State.reset = .next (State.reset.answer .host {}) ∧
  exec (.csrRd 0x04) State.reset = .next (State.reset.answer .host { val := 4 }) ∧
  exec (.csrRd 0x05) State.reset = .next (State.reset.answer .host { val := 2 })

/-- R206: one byte of the buffer, the low byte of `B`; on `PORT_W` or `PORT_X`; an offset that does not exist is refused. That
`PORT_X` is refused while the writer is DETACHED is the model's reading of the rule (log 17). -/
def Obligations.BufStbStoresOneByte : Prop :=
  ∀ (s : State) (off : Word) (v : Byte), s.ready s.beat.port = true → s.cfg.valid = true →
    s.beat.port = .writer ∨ s.beat.port = .peer →
    (s.w.ph.isDetached = true ∨ s.cfg.n.toNat * s.cfg.size.toNat ≤ off.toNat →
      exec (.bufStb off v) s = .next (s.refusedOn s.beat.port)) ∧
    (s.w.ph.isDetached = false → off.toNat < s.cfg.n.toNat * s.cfg.size.toNat →
      ∃ t, exec (.bufStb off v) s = .next t ∧
        (∀ a, t.buf.find a = if a = off.toNat then some v else s.buf.find a) ∧
        (∀ a, lastWrite t.writes a = if a = off.toNat then some v else lastWrite s.writes a) ∧
        ∃ view, t = ((({ s with buf := t.buf, writes := t.writes } : State).setObs s.beat.port
          { s.obs s.beat.port with view := view }).answer s.beat.port {}))

/-- R205, 20_memory R84, R85: a load that every write of the byte is ordered before, the writes being ordered among themselves,
whoever made them, answers the last one; a load of a byte nothing has written may answer any byte, and each is possible; a
load under a race answers the value of a write that `hb` leaves open (or, where no write is sure to have happened, any
byte), and each such write is possible. How `hb` is recorded, and that a racing load never answers a write that the
schedule places after it, is the model's choice (log 9); so is that a load after two writes which are unordered between
themselves answers the value of one that `hb` leaves open (log 39). -/
def Obligations.BufLdbLoadsOrDraws : Prop :=
  ∀ (s : State) (off : Word), s.ready s.beat.port = true → s.hasPort s.beat.port = true → s.cfg.valid = true →
    s.beat.port ≠ .host → (s.beat.port = .writer → s.w.ph.isDetached = false) →
    (∀ i, s.beat.port = .reader i → (s.rd i).ph.isDetached = false) →
    let seen := (s.obs s.beat.port).view.seen
    let open' := readable s.writes off.toNat seen
    (s.cfg.n.toNat * s.cfg.size.toNat ≤ off.toNat → exec (.bufLdb off) s = .next (s.refusedOn s.beat.port)) ∧
    (off.toNat < s.cfg.n.toNat * s.cfg.size.toNat →
      (∃ (v : Byte) (cs : List Nat) (n : Nat), exec (.bufLdb off) s = .next
        (({ s with choices := cs, draws := n } : State).answer s.beat.port { val := v.setWidth 32 }) ∧
        (s.bufferInv → s.orderInv → (∀ x ∈ s.writes, x.off = off.toNat → x.idx ≤ seen.count x.byPeer) →
          (s.writes.filter (·.off == off.toNat)).Pairwise (fun x y => x.idx ≤ y.seen.count x.byPeer) →
          ∀ b, lastWrite s.writes off.toNat = some b → v = b ∧ cs = s.choices ∧ n = s.draws) ∧
        (s.bufferInv → s.settledByte off.toNat seen = none → knownByte s.writes off.toNat seen = true →
          ∃ x ∈ open', v = x.value)) ∧
      ((∀ x ∈ s.writes, x.off ≠ off.toNat) → ∀ v : Byte, ∃ cs cs' : List Nat,
        exec (.bufLdb off) { s with choices := cs } = .next
          (({ s with choices := cs' } : State).answer s.beat.port { val := v.setWidth 32 })) ∧
      (s.settledByte off.toNat seen = none → ∀ x ∈ open', ∃ cs cs' : List Nat,
        exec (.bufLdb off) { s with choices := cs } = .next
          (({ s with choices := cs' } : State).answer s.beat.port { val := x.value.setWidth 32 })))

/-- 43_writer R223, 30_encoding R126, 20_memory R73: the fragments of a batch of `g` frames tile it, frame `j` at slot
`(sl + j) mod N`, in order, first to the end of the buffer and then from its start; a batch that ends before the end has one. -/
def Obligations.FragmentsTileTheBatch : Prop :=
  ∀ (c : CfgRegs) (x : Word) (g : Nat) (t : Task), c.legal = true → c.wellFormed x = true → g ≤ c.cap →
    t.f0 = c.frag0 x g → t.f1 = c.frag1 x g →
    t.f0.len.toNat + t.f1.len.toNat = g * c.size.toNat ∧
    t.f0.off.toNat + t.f0.len.toNat ≤ c.bytes ∧ t.f1.off.toNat + t.f1.len.toNat ≤ c.bytes ∧
    (1 ≤ g → t.f0.off.toNat = c.slotNat x * c.size.toNat) ∧ t.f1.off = 0 ∧
    (c.slotNat x + g ≤ c.cap → t.f1 = {}) ∧
    (∀ k, k < g * c.size.toNat → t.byteOff k = c.batchOff x k) ∧
    ∀ j k, j < g * c.size.toNat → k < g * c.size.toNat → t.byteOff j = t.byteOff k → j = k

/-! ### The writer -/

/-- R221: the writer adopts the rear it observes; a second `W.ATTACH` is refused. -/
def Obligations.WAttachAdoptsTheRear : Prop :=
  ∀ s : State, s.beat.port = .writer → s.w.ph = .idle ∨ s.w.ph = .detached → s.cfg.valid = true →
    (s.w.att = true → exec .wAttach s = .next (s.refusedOn .writer)) ∧
    (s.w.att = false → s.w.obs.posRear ≤ s.rear.newest →
      ∃ (j : Nat) (v : Word) (cs : List Nat) (n : Nat), s.w.obs.posRear ≤ j ∧ s.rear.hist[j]? = some v ∧
        (s.par.xing = .sc → j = s.rear.newest) ∧
        exec .wAttach s = .next (({ s with
          choices := cs
          draws := n
          w := { s.w with
            lr := v
            obt := 0
            att := true
            ph := .idle
            exp := false
            obs := (s.w.obs.setPos .rear j).setView (s.w.obs.view.acquire (s.rear.handsOver j)) } } : State).answer
              .writer {}))

/-- R222, R223, R126 without throttling: the grant is `min(count, N)` frames from `W_LR`, whatever the timeout; `F0` begins at the
slot of `W_LR`, `F1` at 0, and they hold whole frames, the batch together. For a slot above `N` the rule's `first` is
negative, and how the frames are split between the two is free (log 12, the model's choice). -/
def Obligations.WObtainUnthrottledGrants : Prop :=
  ∀ (s : State) (count : Word) (tmo : Timeout), s.beat.port = .writer → s.w.ph = .idle → s.cfg.valid = true →
    s.cfg.thr = false →
    ∃ (g : Word) (f0 f1 : Frag) (cs : List Nat) (n : Nat), g.toNat = min count.toNat s.cfg.n.toNat ∧
      (s.cfg.slotNat s.w.lr ≤ s.cfg.n.toNat → f0 = s.cfg.frag0 s.w.lr g.toNat ∧ f1 = s.cfg.frag1 s.w.lr g.toNat ∧
        cs = s.choices ∧ n = s.draws) ∧
      (g = 0 → f0 = {} ∧ f1 = {}) ∧
      (s.cfg.legal = true → 1 ≤ g.toNat → f0.off.toNat = s.cfg.slotNat s.w.lr * s.cfg.size.toNat ∧ f1.off = 0 ∧
        s.cfg.size.toNat ∣ f0.len.toNat ∧ f0.len.toNat + f1.len.toNat = g.toNat * s.cfg.size.toNat) ∧
      exec (.wObtain count tmo) s = .next (({ s with
        choices := cs
        draws := n
        w := { s.w with obt := g, exp := false } } : State).answer .writer { ret := g, f0 := f0, f1 := f1 })

/-- R222 with throttling, in three parts. (1) Every obtain begins at its first pass with nothing outstanding, and takes as many
atomic steps as the burst allows. (2) The command, for the front it observes: `EIO` where `DIFF` is not a fill; else the grant
is at most the frames free below `W_EFF`; a command that may not block answers 0 where none is free. A command that may block
and finds none free goes to its compare-and-park (R224, `CompareAndParkIsOneStep`), from which the burst takes it on; it
parks when the front it observed is the current one, its compare acquiring also then (log 27, the model's reading). (3) Every
pass, the first or one after a wait: `EIO`, a grant, another wait, or 0 frames once the timeout has expired. -/
def Obligations.WObtainThrottledGrantsOrWaits : Prop :=
  (∀ (s : State) (count : Word) (tmo : Timeout), s.beat.port = .writer → s.w.ph = .idle → s.cfg.valid = true →
    exec (.wObtain count tmo) s = .next (({ s with w := { s.w with
      obt := 0
      exp := false
      ph := .busy { op := .obtain, count := count, tmo := tmo, point := .load } } } : State).runWriter
        (s.beat.burst + 1))) ∧
  (∀ (s : State) (count : Word) (tmo : Timeout), s.beat.port = .writer → s.w.ph = .idle → s.cfg.valid = true →
    s.cfg.thr = true → s.w.obs.posFront ≤ s.front.newest →
    ∃ (j : Nat) (f : Word) (cs : List Nat) (n : Nat), s.w.obs.posFront ≤ j ∧ s.front.hist[j]? = some f ∧
      (s.par.xing = .sc → j = s.front.newest) ∧
      let obs := (s.w.obs.setPos .front j).setView (s.w.obs.view.acquire (s.front.handsOver j))
      let ends (g : Word) (r : Response) := exec (.wObtain count tmo) s = .next (({ s with
        choices := cs
        draws := n
        w := { s.w with obt := g, exp := false, obs := obs } } : State).answer .writer r)
      let task : Task := { op := .obtain, count := count, tmo := tmo, point := .wait f }
      (s.cfg.diff s.w.lr f false = .eio → ends 0 { ret := s.par.errEio }) ∧
      (∀ l, s.cfg.diff s.w.lr f false ≠ .overflow l) ∧
      ∀ fill, s.cfg.diff s.w.lr f false = .ok fill →
        (fill < s.w.eff.toNat ∨ blocking tmo = false → ∃ g : Word, g.toNat = min count.toNat (s.w.eff.toNat - fill) ∧
          ends g { ret := g, f0 := s.cfg.frag0 s.w.lr g.toNat, f1 := s.cfg.frag1 s.w.lr g.toNat }) ∧
        (s.w.eff.toNat ≤ fill → blocking tmo = true → exec (.wObtain count tmo) s = .next (({ s with
          choices := cs
          draws := n
          w := { s.w with obt := 0, exp := false, ph := .busy task, obs := obs } } : State).runWriter s.beat.burst)) ∧
        (s.w.eff.toNat ≤ fill → blocking tmo = true → f = s.front.current → 1 ≤ s.beat.burst → .writer ∉ s.wqFront →
          ∃ b : Word, tmo = some b ∧ exec (.wObtain count tmo) s = .next { s with
            choices := cs
            draws := n
            wqFront := s.wqFront ++ [.writer]
            w := { s.w with
              obt := 0
              exp := false
              ph := .parked task { cell := .front, expected := f, timer := b }
              obs := obs.setView (obs.view.acquire (s.front.handsOver s.front.newest)) } })) ∧
  ∀ (s : State) (task : Task), s.w.ph = .busy task → task.op = .obtain → task.point = .load → s.cfg.thr = true →
    s.w.obs.posFront ≤ s.front.newest →
    ∃ (j : Nat) (f : Word) (cs : List Nat) (n : Nat), s.w.obs.posFront ≤ j ∧ s.front.hist[j]? = some f ∧
      (s.par.xing = .sc → j = s.front.newest) ∧
      let obs := (s.w.obs.setPos .front j).setView (s.w.obs.view.acquire (s.front.handsOver j))
      let s' : State := { s with choices := cs, draws := n, w := { s.w with obs := obs } }
      (s.cfg.diff s.w.lr f false = .eio →
        s.stepWriter = ({ s' with w := { s'.w with ph := .idle } } : State).answer .writer { ret := s.par.errEio }) ∧
      ∀ fill, s.cfg.diff s.w.lr f false = .ok fill →
        let waits := s.w.eff.toNat ≤ fill ∧ blocking task.tmo = true ∧ s.w.exp = false
        (waits → s.stepWriter = { s' with w := { s'.w with ph := .busy { task with point := .wait f } } }) ∧
        (¬waits → ∃ g : Word, g.toNat = min task.count.toNat (s.w.eff.toNat - fill) ∧
          s.stepWriter = ({ s' with w := { s'.w with obt := g, ph := .idle } } : State).answer .writer
            { ret := g, f0 := s.cfg.frag0 s.w.lr g.toNat, f1 := s.cfg.frag1 s.w.lr g.toNat })

/-- R225, R226, R231, in two parts. (1) `W_LR` advances by `SUM` and is published, ordered after all that the writer did; the batch
shrinks; with a throttling front the trigger runs on a fresh fill, waking `REAR` (R152) and re-arming; an index that `SUM`
refuses changes nothing. `2 ≤ burst`: the schedule lets the three atomic steps follow one another; under any burst the release
begins at the first of them. (2) The three atomic steps one by one, of `W.RELEASE` and of the release in a pass of `W.WRITE`,
for other agents may move between them (00_scope R10): the publication, in which `SUM` and the store are one step (log 7, the
model's reading); the fresh load with its test; the wake. That a pass of `W.WRITE` ends with `W_OBT = 0` also where its release
fails at `SUM` is the model's choice (log 35). -/
def Obligations.WReleasePublishesAndTriggers : Prop :=
  (∀ (s : State) (k : Word), s.beat.port = .writer → s.w.ph = .idle → s.cfg.valid = true →
    (s.w.obt.toNat < k.toNat → exec (.wRelease k) s = .next (s.refusedOn .writer)) ∧
    (k.toNat ≤ s.w.obt.toNat → s.cfg.sum s.w.lr k.toNat = none →
      exec (.wRelease k) s = .next (({ s with w := { s.w with exp := false } } : State).answer .writer
        { ret := s.par.errEio })) ∧
    (k.toNat ≤ s.w.obt.toNat → exec (.wRelease k) s = .next (({ s with w := { s.w with
      exp := false
      ph := .busy { op := .release, count := k, tmo := none, grant := k.toNat, point := .publish } } } : State).runWriter
        (s.beat.burst + 1))) ∧
    ∀ nr, k.toNat ≤ s.w.obt.toNat → s.cfg.sum s.w.lr k.toNat = some nr →
      let rear : Cell := { s.rear with pubs := s.rear.pubs ++ [{ value := nr, seen := s.w.obs.view.seen }] }
      (s.cfg.thr = false → exec (.wRelease k) s = .next (({ s with
        rear := rear
        w := { s.w with
          lr := nr
          obt := s.w.obt - k
          exp := false
          obs := s.w.obs.setView s.w.obs.view.fenceRel } } : State).answer .writer {})) ∧
      (s.cfg.thr = true → 2 ≤ s.beat.burst → s.w.obs.posFront ≤ s.front.newest →
        ∃ (j : Nat) (f : Word) (t : State), s.w.obs.posFront ≤ j ∧ s.front.hist[j]? = some f ∧
          exec (.wRelease k) s = .next t ∧ t.rear = rear ∧ t.front = s.front ∧ t.buf = s.buf ∧ t.writes = s.writes ∧
          t.cfg = s.cfg ∧ t.par = s.par ∧ t.wqFront = s.wqFront ∧ t.inbox = s.inbox ∧ t.sched = s.sched ∧
          t.readers.length = s.readers.length ∧
          t.w = { s.w with lr := nr, obt := s.w.obt - k, exp := false, armed := t.w.armed, obs := t.w.obs } ∧
          t.w.obs.posRear = s.w.obs.posRear ∧ t.w.obs.posFront = j ∧
          (∀ i, { t.rd i with ph := (s.rd i).ph } = s.rd i) ∧ t.peer.obs = s.peer.obs ∧
          writerTriggered s t nr f ∧
          t.out = s.out ++ [{ port := .writer, resp :=
            { ret := if s.cfg.diff nr f false = .eio then s.par.errEio else 0 } }])) ∧
  ∀ (s : State) (task : Task), s.w.ph = .busy task →
    (task.point = .publish → s.cfg.sum s.w.lr task.grant = none → s.writerEnds s.stepWriter task true) ∧
    (task.point = .publish → ∀ nr, s.cfg.sum s.w.lr task.grant = some nr →
      let s' : State := { s with
        rear := { s.rear with pubs := s.rear.pubs ++ [{ value := nr, seen := s.w.obs.view.seen }] }
        w := { s.w with
          lr := nr
          obt := s.w.obt - BitVec.ofNat 32 task.grant
          obs := s.w.obs.setView s.w.obs.view.fenceRel } }
      (s.cfg.thr = false → s'.writerEnds s.stepWriter task false) ∧
      (s.cfg.thr = true → s.stepWriter = { s' with w := { s'.w with ph := .busy { task with point := .fresh } } })) ∧
    (task.point = .fresh → s.w.obs.posFront ≤ s.front.newest →
      ∃ (j : Nat) (f : Word) (cs : List Nat) (n : Nat), s.w.obs.posFront ≤ j ∧ s.front.hist[j]? = some f ∧
        (s.par.xing = .sc → j = s.front.newest) ∧
        let s' : State := { s with
          choices := cs
          draws := n
          w := { s.w with
            obs := (s.w.obs.setPos .front j).setView (s.w.obs.view.acquire (s.front.handsOver j)) } }
        (s.cfg.diff s.w.lr f false = .eio → s'.writerEnds s.stepWriter task true) ∧
        ∀ fill, s.cfg.diff s.w.lr f false = .ok fill →
          (s.w.armed = true ∧ s.w.hlt.toNat ≤ fill →
            s.stepWriter = { s' with w := { s'.w with ph := .busy { task with point := .wake fill } } }) ∧
          (¬(s.w.armed = true ∧ s.w.hlt.toNat ≤ fill) → ∃ armed : Bool,
            (armed = true ↔ fill ≤ s.w.lla.toNat ∨ s.w.armed = true) ∧
            ({ s' with w := { s'.w with armed := armed } } : State).writerEnds s.stepWriter task false)) ∧
    ∀ fill, task.point = .wake fill → ∃ (armed : Bool) (t : State),
      (armed = true ↔ fill ≤ s.w.lla.toNat ∨ (s.w.armed = true ∧ fill < s.w.hlt.toNat)) ∧
      wokeFrom s.w.obs.view.seen s t .rear (s.par.nReaders != 1) ∧
      onlyWakes { s with w := { s.w with armed := armed } } t .rear ∧ t.out = s.out ∧ t.writerEnds s.stepWriter task false

/-- R227, in five parts. (1) A write that fits writes every byte of `DIN` to its place, publishes the frames and answers their
count; a write of nothing publishes nothing. It fits when `count ≤ N` without throttling, or when every front the writer may
observe leaves room for it; the burst lets all its atomic steps follow one another. (2) Every write begins at the first pass
with nothing outstanding, and takes as many atomic steps as the burst allows. (3) A pass without throttling grants
`min(count − done, N)` frames; from an ill-formed `W_LR` its release fails, nothing is published, and the write ends with the
count and `W_OBT = 0` (logs 12, 35, the model's choice). (4) A pass with throttling, for the front it observes: `EIO`, as an error
or behind the frames done; a wait, which `CompareAndParkIsOneStep` and `ParkedEndpointUnparks` take up; 0 frames; or a grant
of the frames free below `W_EFF`, which is at most `N` (`StepKeepsRegisterRanges`), with the trigger on a fresh load. (5) One
atomic step of the copy stores any one of the bytes left. Where `DIN` offers too few bytes, the pass of (3), (4) and (5) goes
on and stores free values in their place (log 11, the model's choice). -/
def Obligations.WWriteCopiesAndPublishes : Prop :=
  (∀ (s : State) (count : Word) (tmo : Timeout) (nr : Word), s.beat.port = .writer → s.w.ph = .idle →
      s.cfg.valid = true → s.cfg.legal = true → s.w.obs.posFront ≤ s.front.newest →
      count.toNat * s.cfg.size.toNat + 3 ≤ s.beat.burst → s.beat.din.length = count.toNat * s.cfg.size.toNat →
      s.cfg.wellFormed s.w.lr = true → s.cfg.sum s.w.lr count.toNat = some nr → count.toNat ≤ s.cfg.cap →
      (s.cfg.thr = true → ∀ j f, s.w.obs.posFront ≤ j → s.front.hist[j]? = some f →
        ∃ fill, s.cfg.diff s.w.lr f false = .ok fill ∧ fill + count.toNat ≤ s.w.eff.toNat ∧ fill < s.w.eff.toNat) →
      ∃ t, exec (.wWrite count tmo) s = .next t ∧ t.out = s.out ++ [{ port := .writer, resp := { ret := count } }] ∧
        t.w = { s.w with lr := nr, obt := 0, exp := false, armed := t.w.armed, obs := t.w.obs } ∧
        t.rear.hist = (if count.toNat = 0 then s.rear.hist else s.rear.hist ++ [nr]) ∧
        (1 ≤ count.toNat → t.rear.current = nr) ∧
        (∀ k, k < count.toNat * s.cfg.size.toNat → t.buf.find (s.cfg.batchOff s.w.lr k) = s.beat.din[k]?) ∧
        (∀ a, (∀ k, k < count.toNat * s.cfg.size.toNat → s.cfg.batchOff s.w.lr k ≠ a) → t.buf.find a = s.buf.find a) ∧
        t.front = s.front ∧ t.cfg = s.cfg ∧ t.par = s.par ∧ t.wqFront = s.wqFront ∧ t.inbox = s.inbox ∧ t.sched = s.sched ∧
        t.readers.length = s.readers.length ∧ t.peer.obs = s.peer.obs ∧
        (s.cfg.thr = false → t.w.armed = s.w.armed ∧ t.readers = s.readers ∧ t.wqRear = s.wqRear ∧ t.peer = s.peer) ∧
        (t.wqRear = s.wqRear ∧ (∀ o, keptIn s t o) ∨
          wokeFrom t.w.obs.view.seen s t .rear (s.par.nReaders != 1)) ∧
        ∀ i, { t.rd i with ph := (s.rd i).ph } = s.rd i) ∧
  (∀ (s : State) (count : Word) (tmo : Timeout), s.beat.port = .writer → s.w.ph = .idle → s.cfg.valid = true →
    exec (.wWrite count tmo) s = .next (({ s with w := { s.w with
      obt := 0
      exp := false
      ph := .busy { op := .transfer, count := count, tmo := tmo, din := s.beat.din, point := .load } } } : State).runWriter
        (s.beat.burst + 1))) ∧
  (∀ (s : State) (task : Task), s.atWritePass task → s.cfg.legal = true → s.cfg.thr = false →
    let g := min (task.count.toNat - task.done) s.cfg.cap
    (g = 0 → ∃ ret, isCount ret task.done ∧
      s.stepWriter = ({ s with w := { s.w with obt := 0, ph := .idle } } : State).answer .writer { ret := ret }) ∧
    (1 ≤ g → s.cfg.wellFormed s.w.lr = true → ∃ (m : Nat) (t : State) (nr : Word), m ≤ g * s.cfg.size.toNat + 4 ∧
      s.runWriter m = t ∧ s.cfg.sum s.w.lr g = some nr ∧ s.writePass t task g nr False ∧ t.w.armed = s.w.armed ∧
      t.w.obs.posFront = s.w.obs.posFront ∧ t.readers = s.readers ∧ t.wqRear = s.wqRear ∧ t.peer = s.peer) ∧
    (1 ≤ g → s.cfg.wellFormed s.w.lr = false → ∃ (m : Nat) (t : State) (ret : Word),
      m ≤ g * s.cfg.size.toNat + 4 ∧ s.runWriter m = t ∧ isCount ret (task.done + g) ∧
      t.out = s.out ++ [{ port := .writer, resp := { ret := ret } }] ∧ t.rear = s.rear ∧ t.front = s.front ∧
      t.w = { s.w with obt := 0, ph := .idle, obs := t.w.obs } ∧ t.readers = s.readers ∧ t.wqRear = s.wqRear ∧
      t.wqFront = s.wqFront ∧ t.peer = s.peer ∧ t.cfg = s.cfg ∧ t.par = s.par ∧
      ∀ a, s.cfg.bytes ≤ a → t.buf.find a = s.buf.find a)) ∧
  (∀ (s : State) (task : Task), s.atWritePass task → s.cfg.legal = true → s.cfg.thr = true →
    s.w.eff.toNat ≤ s.cfg.cap → s.w.obs.posFront ≤ s.front.newest →
    ∃ (j : Nat) (f : Word) (cs : List Nat) (n : Nat), s.w.obs.posFront ≤ j ∧ s.front.hist[j]? = some f ∧
      (s.par.xing = .sc → j = s.front.newest) ∧
      let obs := (s.w.obs.setPos .front j).setView (s.w.obs.view.acquire (s.front.handsOver j))
      let s' : State := { s with choices := cs, draws := n, w := { s.w with obs := obs } }
      (s.cfg.diff s.w.lr f false = .eio → ∃ ret : Word,
        (task.done = 0 → ret = s.par.errEio) ∧ (1 ≤ task.done → isCount ret task.done) ∧
        s.stepWriter = ({ s' with w := { s'.w with ph := .idle } } : State).answer .writer { ret := ret }) ∧
      ∀ fill, s.cfg.diff s.w.lr f false = .ok fill →
        let g := min (task.count.toNat - task.done) (s.w.eff.toNat - fill)
        let waits := s.w.eff.toNat ≤ fill ∧ blocking task.tmo = true ∧ s.w.exp = false
        (waits → s.stepWriter = { s' with w := { s'.w with ph := .busy { task with point := .wait f } } }) ∧
        (¬waits → g = 0 → ∃ ret, isCount ret task.done ∧
          s.stepWriter = ({ s' with w := { s'.w with obt := 0, ph := .idle } } : State).answer .writer { ret := ret }) ∧
        (¬waits → 1 ≤ g → ∃ (m : Nat) (t : State) (nr : Word) (j' : Nat) (f' : Word),
          m ≤ g * s.cfg.size.toNat + 4 ∧ s.runWriter m = t ∧ s.cfg.sum s.w.lr g = some nr ∧
          j ≤ j' ∧ s.front.hist[j']? = some f' ∧ t.w.obs.posFront = j' ∧
          s.writePass t task g nr (s.cfg.diff nr f' false = .eio) ∧
          writerTriggered { s with w := { s.w with ph := t.w.ph } } t nr f')) ∧
  ∀ (s : State) (task : Task) (left : List Nat), s.w.ph = .busy task → task.point = .copy left → left ≠ [] →
    ∃ (k j : Nat) (b : Byte) (cs : List Nat) (n : Nat), left[k]? = some j ∧
      (∀ v, task.din[task.done * s.cfg.size.toNat + j]? = some v → b = v) ∧
      let rest := left.eraseIdx k
      let seen := s.w.obs.view.seen.bump false
      let s' : State := { s with
        choices := cs
        draws := n
        w := { s.w with ph := .busy { task with point := if rest = [] then .publish else .copy rest } } }
      (s.cfg.bytes ≤ task.byteOff j → s.stepWriter = s') ∧
      (task.byteOff j < s.cfg.bytes → s.stepWriter = { s' with
        buf := s.buf.put (task.byteOff j) b
        writes := s.writes ++ [⟨task.byteOff j, b, false, seen⟩]
        w := { s'.w with obs := s.w.obs.setView { s.w.obs.view with seen := seen } } })

/-- R228, R229, R230: the levels are clamped, keep their order, and nothing else changes but the timeout latch (R51). -/
def Obligations.WriterSettersClamp : Prop :=
  ∀ (s : State) (v : Word), s.beat.port = .writer → s.w.ph = .idle → s.cfg.valid = true →
    (∃ hlt lla : Word, hlt.toNat = min v.toNat s.cfg.n.toNat ∧ lla.toNat = min s.w.lla.toNat hlt.toNat ∧
      exec (.wSethlt v) s = .next
        (({ s with w := { s.w with hlt := hlt, lla := lla, exp := false } } : State).answer .writer {})) ∧
    (∃ lla : Word, lla.toNat = min v.toNat s.w.hlt.toNat ∧
      exec (.wSetlla v) s = .next (({ s with w := { s.w with lla := lla, exp := false } } : State).answer .writer {})) ∧
    ∃ eff : Word, eff.toNat = max 1 (min v.toNat s.cfg.n.toNat) ∧
      exec (.wSeteff v) s = .next (({ s with w := { s.w with eff := eff, exp := false } } : State).answer .writer {})

/-! ### The readers -/

/-- 44_reader R251: a throttling reader adopts the front, another the rear it observes; refused when attached, when there is no `FRONT`
to own, or when another reader throttles. -/
def Obligations.RAttachAdoptsAnIndex : Prop :=
  ∀ (s : State) (i : BitVec 8) (thr : Bool), s.beat.port = .reader i.toNat → i.toNat < s.readers.length →
    (s.rd i.toNat).ph = .idle ∨ (s.rd i.toNat).ph = .detached → s.cfg.valid = true →
    let r := s.rd i.toNat
    let c : CellSel := if thr then .front else .rear
    (r.att = true ∨ (thr = true ∧ (s.cfg.thr = false ∨ ∃ j, j ≠ i.toNat ∧ (s.rd j).thr = true)) →
      exec (.rAttach i thr) s = .next (s.refusedOn (.reader i.toNat))) ∧
    (r.att = false → (thr = true → s.cfg.thr = true ∧ ∀ j, j ≠ i.toNat → (s.rd j).thr = false) →
      r.obs.pos c ≤ (s.cell c).newest →
      ∃ (j : Nat) (v : Word) (cs : List Nat) (n : Nat), r.obs.pos c ≤ j ∧ (s.cell c).hist[j]? = some v ∧
        (s.par.xing = .sc → j = (s.cell c).newest) ∧
        exec (.rAttach i thr) s = .next ((({ s with choices := cs, draws := n } : State).setRd i.toNat { r with
          lf := v
          thr := thr
          obt := 0
          lost := 0
          att := true
          ph := .idle
          exp := false
          obs := (r.obs.setPos c j).setView (r.obs.view.acquire ((s.cell c).handsOver j)) }).answer
            (.reader i.toNat) {}))

/-- R252, R253, R254, R255, in four parts. (1) Every obtain begins at its first pass with nothing outstanding and no loss, and takes
as many atomic steps as the burst allows. (2) The command, for the rear it observes: `EIO` where `DIFF` says so; at an overflow the
front moves to `BACK(rear)`, the loss is recorded and reported, and a throttling reader publishes in a second atomic step
(`1 ≤ burst`: it follows at once); else the grant is `min(count, fill)` frames from `R_LF`. A command that may block and finds
none goes to its compare-and-park (`CompareAndParkIsOneStep`), from which the burst takes it on; it parks when the rear it
observed is the current one, its compare acquiring also then (log 27, the model's reading). (3) Every pass, the first or one
after a wait: the same, and 0 frames once the timeout has expired. (4) The store of `FRONT` at a resynchronisation. -/
def Obligations.RObtainGrantsResyncsOrWaits : Prop :=
  (∀ (s : State) (i : BitVec 8) (count : Word) (tmo : Timeout) (lv : Bool), s.beat.port = .reader i.toNat →
    i.toNat < s.readers.length → (s.rd i.toNat).ph = .idle → s.cfg.valid = true →
    exec (.rObtain i count tmo lv) s = .next ((s.setRd i.toNat { s.rd i.toNat with
      obt := 0
      lost := 0
      exp := false
      ph := .busy { op := .obtain, count := count, tmo := tmo, lv := lv, point := .load } }).runReader i.toNat
        (s.beat.burst + 1))) ∧
  (∀ (s : State) (i : BitVec 8) (count : Word) (tmo : Timeout) (lv : Bool), s.beat.port = .reader i.toNat →
    i.toNat < s.readers.length → (s.rd i.toNat).ph = .idle → s.cfg.valid = true →
    let r := s.rd i.toNat
    r.obs.posRear ≤ s.rear.newest →
    ∃ (j : Nat) (rear : Word) (cs : List Nat) (n : Nat), r.obs.posRear ≤ j ∧ s.rear.hist[j]? = some rear ∧
      (s.par.xing = .sc → j = s.rear.newest) ∧
      let view := r.obs.view.acquire (s.rear.handsOver j)
      let r' : Reader := { r with obt := 0, lost := 0, exp := false, obs := (r.obs.setPos .rear j).setView view }
      let s' : State := { s with choices := cs, draws := n }
      let run := exec (.rObtain i count tmo lv) s
      let task (point : Point) : Task := { op := .obtain, count := count, tmo := tmo, lv := lv, point := point }
      (s.cfg.diff rear r.lf true = .eio →
        run = .next ((s'.setRd i.toNat r').answer (.reader i.toNat) { ret := s.par.errEio })) ∧
      (∀ lost, s.cfg.diff rear r.lf true = .overflow lost →
        ∃ back l : Word, s.cfg.back rear = some back ∧ l.toNat = lost ∧
          let resp : Response := { ret := s.par.errEoverflow, lost := if lv then l else 0 }
          (r.thr = false →
            run = .next ((s'.setRd i.toNat { r' with lf := back, lost := l }).answer (.reader i.toNat) resp)) ∧
          (r.thr = true → run = .next ((s'.setRd i.toNat { r' with
            lf := back
            lost := l
            ph := .busy (task (.resync lost)) }).runReader i.toNat s.beat.burst)) ∧
          (r.thr = true → 1 ≤ s.beat.burst → run = .next ((({ s' with
            front := { s.front with pubs := s.front.pubs ++ [{ value := back, seen := view.seen }] } } : State).setRd i.toNat
              { r' with lf := back, lost := l, obs := r'.obs.setView view.fenceRel }).answer (.reader i.toNat) resp))) ∧
      ∀ fill, s.cfg.diff rear r.lf true = .ok fill →
        (1 ≤ fill ∨ blocking tmo = false → ∃ g : Word, g.toNat = min count.toNat fill ∧
          run = .next ((s'.setRd i.toNat { r' with obt := g }).answer (.reader i.toNat)
            { ret := g, f0 := s.cfg.frag0 r.lf g.toNat, f1 := s.cfg.frag1 r.lf g.toNat })) ∧
        (fill = 0 → blocking tmo = true →
          run = .next ((s'.setRd i.toNat { r' with ph := .busy (task (.wait rear)) }).runReader i.toNat s.beat.burst)) ∧
        (fill = 0 → blocking tmo = true → rear = s.rear.current → 1 ≤ s.beat.burst → .reader i.toNat ∉ s.wqRear →
          ∃ b : Word, tmo = some b ∧
            run = .next (({ s' with wqRear := s.wqRear ++ [.reader i.toNat] } : State).setRd i.toNat { r' with
              ph := .parked (task (.wait rear)) { cell := .rear, expected := rear, timer := b }
              obs := r'.obs.setView (view.acquire (s.rear.handsOver s.rear.newest)) }))) ∧
  (∀ (s : State) (i : Nat) (task : Task), (s.rd i).ph = .busy task → task.op = .obtain → task.point = .load →
    i < s.readers.length →
    let r := s.rd i
    r.obs.posRear ≤ s.rear.newest →
    ∃ (j : Nat) (rear : Word) (cs : List Nat) (n : Nat), r.obs.posRear ≤ j ∧ s.rear.hist[j]? = some rear ∧
      (s.par.xing = .sc → j = s.rear.newest) ∧
      let r' : Reader := { r with obs := (r.obs.setPos .rear j).setView (r.obs.view.acquire (s.rear.handsOver j)) }
      let s' : State := { s with choices := cs, draws := n }
      (s.cfg.diff rear r.lf true = .eio →
        s.stepReader i = (s'.setRd i { r' with ph := .idle }).answer (.reader i) { ret := s.par.errEio }) ∧
      (∀ lost, s.cfg.diff rear r.lf true = .overflow lost →
        ∃ back l : Word, s.cfg.back rear = some back ∧ l.toNat = lost ∧
          (r.thr = false →
            s.stepReader i = (s'.setRd i { r' with lf := back, lost := l, ph := .idle }).answer (.reader i)
              { ret := s.par.errEoverflow, lost := if task.lv then l else 0 }) ∧
          (r.thr = true → s.stepReader i = s'.setRd i { r' with
            lf := back
            lost := l
            ph := .busy { task with point := .resync lost } })) ∧
      ∀ fill, s.cfg.diff rear r.lf true = .ok fill →
        let waits := fill = 0 ∧ blocking task.tmo = true ∧ r.exp = false
        (waits → s.stepReader i = s'.setRd i { r' with ph := .busy { task with point := .wait rear } }) ∧
        (¬waits → ∃ g : Word, g.toNat = min task.count.toNat fill ∧
          s.stepReader i = (s'.setRd i { r' with obt := g, ph := .idle }).answer (.reader i)
            { ret := g, f0 := s.cfg.frag0 r.lf g.toNat, f1 := s.cfg.frag1 r.lf g.toNat })) ∧
  ∀ (s : State) (i : Nat) (task : Task) (lost : Nat), (s.rd i).ph = .busy task → task.op = .obtain →
    task.point = .resync lost → i < s.readers.length →
    let r := s.rd i
    s.stepReader i = (({ s with
      front := { s.front with pubs := s.front.pubs ++ [{ value := r.lf, seen := r.obs.view.seen }] } } : State).setRd i
        { r with ph := .idle, obs := r.obs.setView r.obs.view.fenceRel }).answer (.reader i)
          { ret := s.par.errEoverflow, lost := if task.lv then BitVec.ofNat 32 lost else 0 }

/-- R255, "subsequent calls succeed": after a reported overflow the next obtain, with the writer standing still, is granted `min(count, N)`
frames, of the rear's last `N`, and reports no loss. The reader sees the newest rear: by `XING = sc` (20_memory R89), or because its
position is already the newest; from an older position a lagging load (R88) may see fewer frames. -/
def Obligations.OverflowThenNextObtainSucceeds : Prop :=
  ∀ (s s1 : State) (i : BitVec 8) (count count' : Word) (tmo tmo' : Timeout) (lv lv' : Bool) (lost : Nat),
    s.beat.port = .reader i.toNat → i.toNat < s.readers.length → (s.rd i.toNat).ph = .idle → s.cfg.valid = true →
    s.cfg.legal = true → 1 ≤ s.beat.burst →
    s.par.xing = .sc ∨ (s.rd i.toNat).obs.posRear = s.rear.newest →
    s.cfg.diff s.rear.current (s.rd i.toNat).lf true = .overflow lost →
    exec (.rObtain i count tmo lv) s = .next s1 →
    ∃ (t : State) (g : Word) (f0 f1 : Frag), exec (.rObtain i count' tmo' lv') s1 = .next t ∧
      g.toNat = min count'.toNat s.cfg.n.toNat ∧
      t.out = s.out ++
        [{ port := .reader i.toNat, resp := { ret := s.par.errEoverflow, lost := if lv then BitVec.ofNat 32 lost else 0 } },
         { port := .reader i.toNat, resp := { ret := g, f0 := f0, f1 := f1 } }] ∧
      (t.rd i.toNat).lost = 0 ∧ (t.rd i.toNat).obt = g ∧
      s.cfg.sum (t.rd i.toNat).lf s.cfg.n.toNat = some s.rear.current

/-- R256, R257, R261, in two parts. (1) `R_LF` advances by `SUM` and the batch shrinks; a throttling reader publishes its front and
runs the trigger on a fresh fill, waking one waiter of `FRONT` and re-arming; another reader touches nothing else. `2 ≤ burst`:
the schedule lets the three atomic steps follow one another; under any burst the release begins at the first of them. (2) The
three atomic steps one by one, of `R.RELEASE` and of the release in a pass of `R.READ`, for other agents may move between them
(00_scope R10): the publication, in which `SUM` and the store are one step (log 7, the model's reading); the fresh load with its
test, where an overflow is not reported and skips the trigger; the wake. That a pass of `R.READ` ends with `R_OBT = 0` also
where its release fails at `SUM` is the model's choice (log 35). -/
def Obligations.RReleaseAdvancesAndTriggers : Prop :=
  (∀ (s : State) (i : BitVec 8) (k : Word), s.beat.port = .reader i.toNat → i.toNat < s.readers.length →
    (s.rd i.toNat).ph = .idle → s.cfg.valid = true →
    let r := s.rd i.toNat
    let run := exec (.rRelease i k) s
    (r.obt.toNat < k.toNat → run = .next (s.refusedOn (.reader i.toNat))) ∧
    (k.toNat ≤ r.obt.toNat → s.cfg.sum r.lf k.toNat = none →
      run = .next ((s.setRd i.toNat { r with exp := false }).answer (.reader i.toNat) { ret := s.par.errEio })) ∧
    (k.toNat ≤ r.obt.toNat → run = .next ((s.setRd i.toNat { r with
      exp := false
      ph := .busy { op := .release, count := k, tmo := none, grant := k.toNat, point := .publish } }).runReader i.toNat
        (s.beat.burst + 1))) ∧
    ∀ nf, k.toNat ≤ r.obt.toNat → s.cfg.sum r.lf k.toNat = some nf →
      (r.thr = false → run = .next ((s.setRd i.toNat { r with lf := nf, obt := r.obt - k, exp := false }).answer
        (.reader i.toNat) {})) ∧
      (r.thr = true → 2 ≤ s.beat.burst → r.obs.posRear ≤ s.rear.newest →
        ∃ (j : Nat) (rear : Word) (t : State), r.obs.posRear ≤ j ∧ s.rear.hist[j]? = some rear ∧ run = .next t ∧
          t.front = { s.front with pubs := s.front.pubs ++ [{ value := nf, seen := r.obs.view.seen }] } ∧
          t.rear = s.rear ∧ t.buf = s.buf ∧ t.writes = s.writes ∧ t.cfg = s.cfg ∧ t.par = s.par ∧ t.wqRear = s.wqRear ∧
          t.inbox = s.inbox ∧ t.sched = s.sched ∧ t.readers.length = s.readers.length ∧
          t.rd i.toNat = { r with
            lf := nf
            obt := r.obt - k
            exp := false
            armed := (t.rd i.toNat).armed
            obs := (t.rd i.toNat).obs } ∧
          (t.rd i.toNat).obs.posRear = j ∧ (t.rd i.toNat).obs.posFront = r.obs.posFront ∧
          { t.w with ph := s.w.ph } = s.w ∧
          (∀ m, m ≠ i.toNat → { t.rd m with ph := (s.rd m).ph } = s.rd m) ∧ t.peer.obs = s.peer.obs ∧
          readerTriggered i.toNat s t nf rear ∧
          t.out = s.out ++ [{ port := .reader i.toNat, resp :=
            { ret := if s.cfg.diff rear nf true = .eio then s.par.errEio else 0 } }])) ∧
  ∀ (s : State) (i : Nat) (task : Task), (s.rd i).ph = .busy task → i < s.readers.length →
    let r := s.rd i
    (task.point = .publish → s.cfg.sum r.lf task.grant = none → s.readerEnds i (s.stepReader i) task true) ∧
    (task.point = .publish → ∀ nf, s.cfg.sum r.lf task.grant = some nf →
      let r' : Reader := { r with lf := nf, obt := r.obt - BitVec.ofNat 32 task.grant }
      (r.thr = false → (s.setRd i r').readerEnds i (s.stepReader i) task false) ∧
      (r.thr = true → s.stepReader i = ({ s with
        front := { s.front with pubs := s.front.pubs ++ [{ value := nf, seen := r.obs.view.seen }] } } : State).setRd i
          { r' with ph := .busy { task with point := .fresh }, obs := r.obs.setView r.obs.view.fenceRel })) ∧
    (task.point = .fresh → r.obs.posRear ≤ s.rear.newest →
      ∃ (j : Nat) (rear : Word) (cs : List Nat) (n : Nat), r.obs.posRear ≤ j ∧ s.rear.hist[j]? = some rear ∧
        (s.par.xing = .sc → j = s.rear.newest) ∧
        let r' : Reader := { r with obs := (r.obs.setPos .rear j).setView (r.obs.view.acquire (s.rear.handsOver j)) }
        let s' : State := { s with choices := cs, draws := n }
        (s.cfg.diff rear r.lf true = .eio → (s'.setRd i r').readerEnds i (s.stepReader i) task true) ∧
        (∀ lost, s.cfg.diff rear r.lf true = .overflow lost → (s'.setRd i r').readerEnds i (s.stepReader i) task false) ∧
        ∀ fill, s.cfg.diff rear r.lf true = .ok fill →
          (r.armed = true ∧ fill ≤ r.llt.toNat →
            s.stepReader i = s'.setRd i { r' with ph := .busy { task with point := .wake fill } }) ∧
          (¬(r.armed = true ∧ fill ≤ r.llt.toNat) → ∃ armed : Bool,
            (armed = true ↔ r.hla.toNat ≤ fill ∨ r.armed = true) ∧
            (s'.setRd i { r' with armed := armed }).readerEnds i (s.stepReader i) task false)) ∧
    ∀ fill, task.point = .wake fill → ∃ (armed : Bool) (t : State),
      (armed = true ↔ r.hla.toNat ≤ fill ∨ (r.armed = true ∧ r.llt.toNat < fill)) ∧
      wokeFrom r.obs.view.seen s t .front false ∧
      onlyWakes (s.setRd i { r with armed := armed }) t .front ∧ t.out = s.out ∧
      t.readerEnds i (s.stepReader i) task false

/-- R258, in five parts. (1) A read that may not block takes one pass. For the rear it observes: the error, or 0 frames, as
`R.OBTAIN`; else `min(count, fill)` frames, whose bytes come out in order, each the newest byte where the load is ordered after every
write of it, and the frames are released; the burst lets all its atomic steps follow one another. (2) Every read begins at the
first pass with nothing outstanding and no loss, and takes as many atomic steps as the burst allows. (3) A pass, the first or
a later one, for the rear it observes: `EIO`, or an overflow with its resynchronisation, which a throttling reader publishes and
which leaves `R_ARMED`, each as an error or behind the frames done; a wait, which `CompareAndParkIsOneStep` and
`ParkedEndpointUnparks` take up; 0 frames; or a grant, whose frames are copied and released, a throttling reader's with
the store of `FRONT` and the trigger on a fresh load. (4) The store of `FRONT` at a resynchronisation, where another agent may
move before it. (5) One atomic step of the copy loads any one of the bytes left. -/
def Obligations.RReadCopiesAndReleases : Prop :=
  (∀ (s : State) (i : BitVec 8) (count : Word) (tmo : Timeout) (lv : Bool), s.beat.port = .reader i.toNat →
      i.toNat < s.readers.length → (s.rd i.toNat).ph = .idle → s.cfg.valid = true → s.cfg.legal = true →
      s.cfg.bytes + 3 ≤ s.beat.burst → blocking tmo = false →
      let r := s.rd i.toNat
      r.obs.posRear ≤ s.rear.newest →
      ∃ (j : Nat) (rear : Word) (t : State), r.obs.posRear ≤ j ∧ s.rear.hist[j]? = some rear ∧
        (s.par.xing = .sc → j = s.rear.newest) ∧ exec (.rRead i count tmo lv) s = .next t ∧
        t.rear = s.rear ∧ t.buf = s.buf ∧ t.writes = s.writes ∧ t.cfg = s.cfg ∧ t.par = s.par ∧ t.wqRear = s.wqRear ∧
        t.inbox = s.inbox ∧ t.sched = s.sched ∧ t.peer.obs = s.peer.obs ∧ t.readers.length = s.readers.length ∧
        { t.w with ph := s.w.ph } = s.w ∧ (∀ m, m ≠ i.toNat → { t.rd m with ph := (s.rd m).ph } = s.rd m) ∧
        (t.rd i.toNat).obt = 0 ∧ (t.rd i.toNat).ph = .idle ∧
        (t.wqFront = s.wqFront ∧ (∀ o, keptIn s t o) ∨ wokeFrom (t.rd i.toNat).obs.view.seen s t .front false) ∧
        match s.cfg.diff rear r.lf true with
        | .eio =>
          t.out = s.out ++ [{ port := .reader i.toNat, resp := { ret := s.par.errEio } }] ∧ (t.rd i.toNat).lf = r.lf ∧
          (t.rd i.toNat).lost = 0
        | .overflow lost =>
          t.out = s.out ++ [{ port := .reader i.toNat, resp :=
            { ret := s.par.errEoverflow, lost := if lv then BitVec.ofNat 32 lost else 0 } }] ∧
          s.cfg.back rear = some (t.rd i.toNat).lf ∧ (t.rd i.toNat).lost = BitVec.ofNat 32 lost
        | .ok fill => ∃ dout : List Byte,
          t.out = s.out ++ [{ port := .reader i.toNat, resp :=
            { ret := BitVec.ofNat 32 (min count.toNat fill), dout := dout } }] ∧
          dout.length = min count.toNat fill * s.cfg.size.toNat ∧
          s.cfg.sum r.lf (min count.toNat fill) = some (t.rd i.toNat).lf ∧ (t.rd i.toNat).lost = 0 ∧
          (r.thr = false → t.front = s.front ∧ t.wqFront = s.wqFront ∧ t.w = s.w) ∧
          (r.thr = true → 1 ≤ min count.toNat fill → t.front.hist = s.front.hist ++ [(t.rd i.toNat).lf]) ∧
          ∀ k b, k < min count.toNat fill * s.cfg.size.toNat →
            s.settledByte (s.cfg.batchOff r.lf k) (r.obs.view.acquire (s.rear.handsOver j)).seen = some b →
            dout[k]? = some b) ∧
  (∀ (s : State) (i : BitVec 8) (count : Word) (tmo : Timeout) (lv : Bool), s.beat.port = .reader i.toNat →
    i.toNat < s.readers.length → (s.rd i.toNat).ph = .idle → s.cfg.valid = true →
    exec (.rRead i count tmo lv) s = .next ((s.setRd i.toNat { s.rd i.toNat with
      obt := 0
      lost := 0
      exp := false
      ph := .busy { op := .transfer, count := count, tmo := tmo, lv := lv, point := .load } }).runReader i.toNat
        (s.beat.burst + 1))) ∧
  (∀ (s : State) (i : Nat) (task : Task), s.atReadPass i task → s.cfg.legal = true →
    let r := s.rd i
    r.obs.posRear ≤ s.rear.newest →
    ∃ (j : Nat) (rear : Word) (cs : List Nat) (n : Nat), r.obs.posRear ≤ j ∧ s.rear.hist[j]? = some rear ∧
      (s.par.xing = .sc → j = s.rear.newest) ∧
      let view := r.obs.view.acquire (s.rear.handsOver j)
      let r' : Reader := { r with obs := (r.obs.setPos .rear j).setView view }
      let s' : State := { s with choices := cs, draws := n }
      let stream := task.dout.map Prod.snd
      (s.cfg.diff rear r.lf true = .eio → ∃ resp : Response,
        (task.done = 0 → resp = { ret := s.par.errEio }) ∧
        (1 ≤ task.done → ∃ ret, isCount ret task.done ∧ resp = { ret := ret, dout := stream }) ∧
        s.stepReader i = (s'.setRd i { r' with ph := .idle }).answer (.reader i) resp) ∧
      (∀ lost, s.cfg.diff rear r.lf true = .overflow lost → ∃ (back l : Word) (resp : Response),
        s.cfg.back rear = some back ∧ l.toNat = lost ∧
        (task.done = 0 → resp = { ret := s.par.errEoverflow, lost := if task.lv then l else 0 }) ∧
        (1 ≤ task.done → ∃ ret, isCount ret task.done ∧ resp = { ret := ret, dout := stream }) ∧
        (r.thr = false →
          s.stepReader i = (s'.setRd i { r' with lf := back, lost := l, ph := .idle }).answer (.reader i) resp) ∧
        (r.thr = true →
          s.stepReader i = s'.setRd i { r' with lf := back, lost := l, ph := .busy { task with point := .resync lost } } ∧
          s.runReader i 2 = (({ s' with
            front := { s.front with pubs := s.front.pubs ++ [{ value := back, seen := view.seen }] } } : State).setRd i
              { r' with lf := back, lost := l, ph := .idle, obs := r'.obs.setView view.fenceRel }).answer (.reader i) resp)) ∧
      ∀ fill, s.cfg.diff rear r.lf true = .ok fill →
        let g := min (task.count.toNat - task.done) fill
        let waits := fill = 0 ∧ blocking task.tmo = true ∧ r.exp = false
        (waits → s.stepReader i = s'.setRd i { r' with ph := .busy { task with point := .wait rear } }) ∧
        (¬waits → g = 0 → ∃ ret, isCount ret task.done ∧
          s.stepReader i = (s'.setRd i { r' with obt := 0, ph := .idle }).answer (.reader i)
            { ret := ret, dout := stream }) ∧
        (¬waits → 1 ≤ g → ∃ (m : Nat) (t : State) (nf : Word), m ≤ g * s.cfg.size.toNat + 4 ∧
          s.runReader i m = t ∧ s.cfg.sum r.lf g = some nf ∧
          (r.thr = false → s.readPass i t task g nf view.seen False ∧ (t.rd i).armed = r.armed ∧
            (t.rd i).obs.posRear = j ∧ t.wqFront = s.wqFront ∧ t.w = s.w ∧ t.peer = s.peer) ∧
          (r.thr = true → ∃ (j' : Nat) (rear' : Word), j ≤ j' ∧ s.rear.hist[j']? = some rear' ∧
            (t.rd i).obs.posRear = j' ∧ s.readPass i t task g nf view.seen (s.cfg.diff rear' nf true = .eio) ∧
            readerTriggered i (s.setRd i { r with ph := (t.rd i).ph }) t nf rear'))) ∧
  (∀ (s : State) (i : Nat) (task : Task) (lost : Nat), (s.rd i).ph = .busy task → task.op = .transfer →
    task.point = .resync lost → i < s.readers.length →
    let r := s.rd i
    ∃ resp : Response,
      (task.done = 0 → resp = { ret := s.par.errEoverflow, lost := if task.lv then BitVec.ofNat 32 lost else 0 }) ∧
      (1 ≤ task.done → ∃ ret, isCount ret task.done ∧ resp = { ret := ret, dout := task.dout.map Prod.snd }) ∧
      s.stepReader i = (({ s with
        front := { s.front with pubs := s.front.pubs ++ [{ value := r.lf, seen := r.obs.view.seen }] } } : State).setRd i
          { r with ph := .idle, obs := r.obs.setView r.obs.view.fenceRel }).answer (.reader i) resp) ∧
  ∀ (s : State) (i : Nat) (task : Task) (left : List Nat), (s.rd i).ph = .busy task → task.point = .copy left →
    left ≠ [] → i < s.readers.length →
    ∃ (k j : Nat) (b : Byte) (cs : List Nat) (n : Nat), left[k]? = some j ∧
      (∀ v, s.settledByte (task.byteOff j) (s.rd i).obs.view.seen = some v → b = v) ∧
      let rest := left.eraseIdx k
      s.stepReader i = ({ s with choices := cs, draws := n } : State).setRd i { s.rd i with
        ph := .busy { task with
          dout := task.dout.put (task.done * s.cfg.size.toNat + j) b
          point := if rest = [] then .publish else .copy rest } }

/-- R259, R260. -/
def Obligations.ReaderSettersClamp : Prop :=
  ∀ (s : State) (i : BitVec 8) (v : Word), s.beat.port = .reader i.toNat → i.toNat < s.readers.length →
    (s.rd i.toNat).ph = .idle → s.cfg.valid = true →
    let r := s.rd i.toNat
    (∃ llt hla : Word, llt.toNat = min v.toNat s.cfg.n.toNat ∧ hla.toNat = max r.hla.toNat llt.toNat ∧
      exec (.rSetllt i v) s = .next ((s.setRd i.toNat { r with llt := llt, hla := hla, exp := false }).answer
        (.reader i.toNat) {})) ∧
    ∃ hla : Word, hla.toNat = max (min v.toNat s.cfg.n.toNat) r.llt.toNat ∧
      exec (.rSethla i v) s = .next ((s.setRd i.toNat { r with hla := hla, exp := false }).answer (.reader i.toNat) {})

/-! ### Waiting -/

/-- 40_index_cell R149, R224, R254, 10_state R51: a parked endpoint un-parks by its turn's cause; a timeout that no wake came before sets
`EXP`; it leaves its set and stands before a fresh load; a cell that has not changed is no reason to return. What a wake handed over is
ordered before all that the endpoint does next (20_memory R84 (iii)). Three clauses are the model's choice: a turn whose cause is
the timeout does not set `EXP` where a wake has released the endpoint (log 20), a turn with a cause that is not enabled leaves it
parked (log 34), and the position taken at the un-park orders nothing by itself (log 27). -/
def Obligations.ParkedEndpointUnparks : Prop :=
  ∀ (s s1 : State) (t : Turn) (task : Task) (p : Park), s.nextTurn = some (t, s1) → t.burst = 0 →
    (t.who = .writer → s1.w.ph = .parked task p → s1.w.obs.pos p.cell ≤ (s1.cell p.cell).newest →
      (p.woken = none → t.cause = .changed → (s1.cell p.cell).current = p.expected → step s = .next s1) ∧
      (p.woken ≠ none ∨ t.cause ≠ .changed ∨ (s1.cell p.cell).current ≠ p.expected →
        ∃ (j : Nat) (view : View) (cs : List Nat) (n : Nat), s1.w.obs.pos p.cell ≤ j ∧ j ≤ (s1.cell p.cell).newest ∧
          (p.woken = none → view = s1.w.obs.view) ∧
          (∀ v, p.woken = some v → view = { s1.w.obs.view with seen := s1.w.obs.view.seen.join v }) ∧
          step s = .next (({ s1 with
            choices := cs
            draws := n
            w := { s1.w with
              ph := .busy { task with point := .load }
              exp := s1.w.exp || decide (p.woken = none ∧ t.cause = Cause.timeout)
              obs := (s1.w.obs.setPos p.cell j).setView view } } : State).setWq p.cell
                ((s1.wq p.cell).filter (· != .writer))))) ∧
    ∀ i, t.who = .reader i → (s1.rd i).ph = .parked task p → (s1.rd i).obs.pos p.cell ≤ (s1.cell p.cell).newest →
      (p.woken = none → t.cause = .changed → (s1.cell p.cell).current = p.expected → step s = .next s1) ∧
      (p.woken ≠ none ∨ t.cause ≠ .changed ∨ (s1.cell p.cell).current ≠ p.expected →
        ∃ (j : Nat) (view : View) (cs : List Nat) (n : Nat), (s1.rd i).obs.pos p.cell ≤ j ∧
          j ≤ (s1.cell p.cell).newest ∧
          (p.woken = none → view = (s1.rd i).obs.view) ∧
          (∀ v, p.woken = some v → view = { (s1.rd i).obs.view with seen := (s1.rd i).obs.view.seen.join v }) ∧
          step s = .next ((({ s1 with choices := cs, draws := n } : State).setRd i { s1.rd i with
            ph := .busy { task with point := .load }
            exp := (s1.rd i).exp || decide (p.woken = none ∧ t.cause = Cause.timeout)
            obs := ((s1.rd i).obs.setPos p.cell j).setView view }).setWq p.cell
              ((s1.wq p.cell).filter (· != .reader i))))

/-- R224, R254: once the timeout of an operation has expired, its pass does not wait again. -/
def Obligations.PassAfterTimeoutNeverWaits : Prop :=
  ∀ (s : State) (task : Task), task.point = .load →
    (s.w.ph = .busy task → s.w.exp = true →
      ∀ (task' : Task) (e : Word), s.stepWriter.w.ph ≠ .busy { task' with point := .wait e }) ∧
    ∀ i, (s.rd i).ph = .busy task → (s.rd i).exp = true →
      ∀ (task' : Task) (e : Word), ((s.stepReader i).rd i).ph ≠ .busy { task' with point := .wait e }

/-- R148, R345: the compare of an endpoint's wait acts on the current value, not on a lagging view, and parks in the same step.
It acquires what every store of the cell handed over (20_memory R84 (ii)), also when it parks (log 27, the model's reading). -/
def Obligations.CompareAndParkIsOneStep : Prop :=
  ∀ (s : State) (task : Task) (e : Word), task.point = .wait e →
    (s.w.ph = .busy task →
      let view := s.w.obs.view.acquire (s.front.handsOver s.front.newest)
      (s.front.current ≠ e → s.stepWriter = { s with w := { s.w with
        ph := .busy { task with point := .load }
        obs := (s.w.obs.setPos .front s.front.newest).setView view } }) ∧
      (s.front.current = e → .writer ∉ s.wqFront → s.stepWriter = { s with
        wqFront := s.wqFront ++ [.writer]
        w := { s.w with
          ph := .parked task { cell := .front, expected := e, timer := task.tmo.getD 0 }
          obs := s.w.obs.setView view } })) ∧
    ∀ i, (s.rd i).ph = .busy task →
      let view := (s.rd i).obs.view.acquire (s.rear.handsOver s.rear.newest)
      (s.rear.current ≠ e → s.stepReader i = s.setRd i { s.rd i with
        ph := .busy { task with point := .load }
        obs := ((s.rd i).obs.setPos .rear s.rear.newest).setView view }) ∧
      (s.rear.current = e → .reader i ∉ s.wqRear → s.stepReader i =
        ({ s with wqRear := s.wqRear ++ [.reader i] } : State).setRd i { s.rd i with
          ph := .parked task { cell := .rear, expected := e, timer := task.tmo.getD 0 }
          obs := (s.rd i).obs.setView view })

/-! ### Two agents -/

/-- 70_reset R349 (P3), 20_memory R82 to R84: the bytes of one `W.WRITE` come back, in order, from the next `R.READ` of a reader that had
read all before it; under a lagging crossing that read may still see nothing, and never anything else. No foreign peer has
written. -/
def Obligations.ReadReturnsTheBytesWritten : Prop :=
  ∀ (s s1 : State) (i : BitVec 8) (k : Word) (b : Nat), s.beat.port = .writer → s.w.ph = .idle → s.cfg.valid = true →
    s.cfg.legal = true → i.toNat < s.readers.length → (s.rd i.toNat).ph = .idle →
    s.bufferInv → s.orderInv → s.posInv → (∀ x ∈ s.writes, x.byPeer = false) →
    s.par.legal = true → 1 ≤ k.toNat → k.toNat ≤ s.cfg.cap → s.beat.din.length = k.toNat * s.cfg.size.toNat →
    k.toNat * s.cfg.size.toNat + 3 ≤ s.beat.burst → s.cfg.bytes + 3 ≤ b →
    s.cfg.wellFormed s.w.lr = true → s.rear.current = s.w.lr → (s.rd i.toNat).lf = s.w.lr →
    (s.rd i.toNat).obs.posRear = s.rear.newest →
    exec (.wWrite k none) s = .next s1 → s1.out = s.out ++ [{ port := .writer, resp := { ret := k } }] →
    ∃ t, exec (.rRead i k none false) { s1 with beat := { port := .reader i.toNat, burst := b } } = .next t ∧
      (t.out = s1.out ++ [{ port := .reader i.toNat, resp := { ret := k, dout := s.beat.din } }] ∨
        (s.par.xing = .lagging ∧ t.out = s1.out ++ [{ port := .reader i.toNat, resp := {} }]))

/-- 60_exceptions R304, 44_reader R250: what each turn leaves alone. `REAR` is stored by the writer's turns, `FRONT` by the throttling
reader's, bytes of the buffer by the writer's, the registers of an endpoint by its own (a wake only marks the phase of a parked endpoint, and the wait of a parked peer), the
configuration by the host's; the foreign peer's turns reach cells and bytes alone. -/
def Obligations.EveryStateHasOneWriter : Prop :=
  ∀ (s s' s1 : State) (t : Turn), s.nextTurn = some (t, s1) → step s = .next s' →
    s'.par = s.par ∧ s'.readers.length = s.readers.length ∧
    (t.who ≠ .host → s'.cfg = s.cfg) ∧
    (t.who ≠ .host → t.who ≠ .writer → t.who ≠ .peer → s'.rear = s.rear) ∧
    (t.who = .writer → s'.front = s.front) ∧
    (∀ i, t.who = .reader i → (s.rd i).thr = false → s.attachInv → s'.front = s.front) ∧
    (t.who ≠ .writer → t.who ≠ .peer → s'.buf = s.buf ∧ s'.writes = s.writes) ∧
    (t.who ≠ .host → t.who ≠ .writer → { s'.w with ph := s.w.ph } = s.w ∧
      (s'.w.ph = s.w.ph ∨ ∃ v, s'.w.ph = s.w.ph.wakeUp v)) ∧
    (∀ i, t.who ≠ .host → t.who ≠ .reader i → { s'.rd i with ph := (s.rd i).ph } = s.rd i ∧
      ((s'.rd i).ph = (s.rd i).ph ∨ ∃ v, (s'.rd i).ph = (s.rd i).ph.wakeUp v)) ∧
    (t.who ≠ .host → t.who ≠ .peer → s'.peer.obs = s.peer.obs ∧
      (s'.peer.wait = s.peer.wait ∨ ∃ v, s'.peer.wait = s.peer.wait.map fun p => { p with woken := some v }))

/-- 20_memory R81, R88, 10_state R49, R50: until the host initialises, a history only grows, and no observer goes back. -/
def Obligations.HistoriesGrowAndPositionsAdvance : Prop :=
  ∀ (s s' s1 : State) (t : Turn), s.posInv → s.nextTurn = some (t, s1) → step s = .next s' →
    s'.posInv ∧
    (t.who ≠ .host → ∀ c : CellSel, (s'.cell c).base = (s.cell c).base ∧ (s.cell c).pubs <+: (s'.cell c).pubs ∧
      s.w.obs.pos c ≤ s'.w.obs.pos c ∧ s.peer.obs.pos c ≤ s'.peer.obs.pos c ∧
      ∀ i, (s.rd i).obs.pos c ≤ (s'.rd i).obs.pos c)

/-- 10_state R47, 70_reset R349 (P1): one atomic step never moves a local index backwards in its modular order. -/
def Obligations.LocalIndicesNeverGoBack : Prop :=
  ∀ s : State, s.levelsInv → s.cfg.valid = true →
    0 ≤ rawDelta s.stepWriter.w.lr s.w.lr ∧ ∀ i, 0 ≤ rawDelta ((s.stepReader i).rd i).lf (s.rd i).lf

/-! ### Invariants that every step keeps -/

/-- 10_state R23, 20_memory R84 (i): the buffer is in canonical form and holds at every offset what was written there last, and the record of
its writes keeps each agent's order. -/
def Obligations.StepKeepsBufferSound : Prop :=
  ∀ s s' : State, s.memoryInv → s.bufferInv → s.orderInv → step s = .next s' →
    s'.memoryInv ∧ s'.bufferInv ∧ s'.orderInv

/-- 10_state R55 (5), (6), 45_provider R282: the levels and the obtained counters stay in their ranges. -/
def Obligations.StepKeepsRegisterRanges : Prop :=
  ∀ s s' : State, s.levelsInv → step s = .next s' → s'.levelsInv

/-- 10_state R37, R45, R46, 44_reader R255: an endpoint is attached exactly when it is not DETACHED, at most one attached reader
throttles, and only a throttling reader comes to store `FRONT` at a resynchronisation. -/
def Obligations.StepKeepsAtMostOneThrottlingReader : Prop :=
  ∀ s s' : State, s.attachInv → s.throttleInv → step s = .next s' → s'.attachInv ∧ s'.throttleInv

/-- 10_state R48, 40_index_cell R148 to R151: the parked sets hold exactly the endpoints that sleep, each once. -/
def Obligations.StepKeepsParkedSets : Prop :=
  ∀ s s' : State, s.parkedInv → step s = .next s' → s'.parkedInv

/-- 10_state R55 (2), (3): without a foreign peer and with cells initialised once, the owner's local index is the cell it owns. R55
says so for `PH = IDLE`; that it holds in every phase rests on the model's merge of `SUM` with the store that publishes it
(log 7, which 00_scope R10 permits). -/
def Obligations.StepKeepsOwnersInStepWithCells : Prop :=
  ∀ s s' : State, s.par.foreign = false → s.noCellInit → s.attachInv → s.throttleInv → s.ownerInv →
    step s = .next s' → s'.noCellInit ∧ s'.ownerInv

/-- 10_state R55 (1), R47: without a foreign peer every index of a FIFO that embeds its cells stays well-formed. -/
def Obligations.StepKeepsIndicesWellFormed : Prop :=
  ∀ s s' : State, s.par.foreign = false → s.levelsInv → s.indexInv → step s = .next s' → s'.indexInv

/-- 10_state R55 (4), 42_fifo R209: without a foreign peer and with cells initialised once, the fill of a throttled FIFO that embeds its cells
stays at most `N` in every view: a step keeps the bound, and the bound makes `DIFF(REAR, FRONT)` a fill. That the
bound's form holds in every phase rests on the merge of `SUM` with the store that publishes it (log 7, the model's reading). -/
def Obligations.ThrottledFillStaysBounded : Prop :=
  (∀ s s' : State, s.par.foreign = false → s.noCellInit → s.sound → step s = .next s' → s'.sound) ∧
  ∀ s : State, s.sound → s.cfg.valid = true → s.cfg.ext = false → s.cfg.thr = true → ∀ who,
    ∃ fill, fill ≤ s.cfg.cap ∧ s.cfg.diff s.rear.current s.front.current who = .ok fill

/-- Every one of these invariants holds in the power-up state, whose register values the model chose (logs 2, 3). -/
def Obligations.InvariantsHoldAtPowerUp : Prop :=
  State.reset.memoryInv ∧ State.reset.bufferInv ∧ State.reset.orderInv ∧ State.reset.levelsInv ∧ State.reset.attachInv ∧
  State.reset.throttleInv ∧ State.reset.parkedInv ∧ State.reset.posInv ∧ State.reset.noCellInit ∧
  State.reset.ownerInv ∧ State.reset.indexInv ∧ State.reset.sound
end

