-- ==== Sys2Proof/Laws/State.lean ====
section
/-! SUPPORT. What each named operation over the state leaves alone: one lemma per field per update, for the simp set. -/

namespace Sys2Proof.Machine

open Sys2Proof

/-! ### Replacing one part -/

@[simp] theorem State.setRd_par (s : State) (i : Nat) (r : Reader) : (s.setRd i r).par = s.par := rfl
@[simp] theorem State.setRd_cfg (s : State) (i : Nat) (r : Reader) : (s.setRd i r).cfg = s.cfg := rfl
@[simp] theorem State.setRd_rear (s : State) (i : Nat) (r : Reader) : (s.setRd i r).rear = s.rear := rfl
@[simp] theorem State.setRd_front (s : State) (i : Nat) (r : Reader) : (s.setRd i r).front = s.front := rfl
@[simp] theorem State.setRd_buf (s : State) (i : Nat) (r : Reader) : (s.setRd i r).buf = s.buf := rfl
@[simp] theorem State.setRd_writes (s : State) (i : Nat) (r : Reader) : (s.setRd i r).writes = s.writes := rfl
@[simp] theorem State.setRd_w (s : State) (i : Nat) (r : Reader) : (s.setRd i r).w = s.w := rfl
@[simp] theorem State.setRd_peer (s : State) (i : Nat) (r : Reader) : (s.setRd i r).peer = s.peer := rfl
@[simp] theorem State.setRd_wqRear (s : State) (i : Nat) (r : Reader) : (s.setRd i r).wqRear = s.wqRear := rfl
@[simp] theorem State.setRd_wqFront (s : State) (i : Nat) (r : Reader) : (s.setRd i r).wqFront = s.wqFront := rfl
@[simp] theorem State.setRd_beat (s : State) (i : Nat) (r : Reader) : (s.setRd i r).beat = s.beat := rfl
@[simp] theorem State.setRd_inbox (s : State) (i : Nat) (r : Reader) : (s.setRd i r).inbox = s.inbox := rfl
@[simp] theorem State.setRd_out (s : State) (i : Nat) (r : Reader) : (s.setRd i r).out = s.out := rfl
@[simp] theorem State.setRd_sched (s : State) (i : Nat) (r : Reader) : (s.setRd i r).sched = s.sched := rfl
@[simp] theorem State.setRd_choices (s : State) (i : Nat) (r : Reader) : (s.setRd i r).choices = s.choices := rfl
@[simp] theorem State.setRd_draws (s : State) (i : Nat) (r : Reader) : (s.setRd i r).draws = s.draws := rfl

@[simp] theorem State.setCell_par (s : State) (c : CellSel) (x : Cell) : (s.setCell c x).par = s.par := by cases c <;> rfl
@[simp] theorem State.setCell_cfg (s : State) (c : CellSel) (x : Cell) : (s.setCell c x).cfg = s.cfg := by cases c <;> rfl
@[simp] theorem State.setCell_buf (s : State) (c : CellSel) (x : Cell) : (s.setCell c x).buf = s.buf := by cases c <;> rfl
@[simp] theorem State.setCell_writes (s : State) (c : CellSel) (x : Cell) : (s.setCell c x).writes = s.writes := by cases c <;> rfl
@[simp] theorem State.setCell_w (s : State) (c : CellSel) (x : Cell) : (s.setCell c x).w = s.w := by cases c <;> rfl
@[simp] theorem State.setCell_readers (s : State) (c : CellSel) (x : Cell) : (s.setCell c x).readers = s.readers := by cases c <;> rfl
@[simp] theorem State.setCell_peer (s : State) (c : CellSel) (x : Cell) : (s.setCell c x).peer = s.peer := by cases c <;> rfl
@[simp] theorem State.setCell_wqRear (s : State) (c : CellSel) (x : Cell) : (s.setCell c x).wqRear = s.wqRear := by cases c <;> rfl
@[simp] theorem State.setCell_wqFront (s : State) (c : CellSel) (x : Cell) : (s.setCell c x).wqFront = s.wqFront := by cases c <;> rfl
@[simp] theorem State.setCell_beat (s : State) (c : CellSel) (x : Cell) : (s.setCell c x).beat = s.beat := by cases c <;> rfl
@[simp] theorem State.setCell_inbox (s : State) (c : CellSel) (x : Cell) : (s.setCell c x).inbox = s.inbox := by cases c <;> rfl
@[simp] theorem State.setCell_out (s : State) (c : CellSel) (x : Cell) : (s.setCell c x).out = s.out := by cases c <;> rfl
@[simp] theorem State.setCell_sched (s : State) (c : CellSel) (x : Cell) : (s.setCell c x).sched = s.sched := by cases c <;> rfl
@[simp] theorem State.setCell_choices (s : State) (c : CellSel) (x : Cell) : (s.setCell c x).choices = s.choices := by cases c <;> rfl
@[simp] theorem State.setCell_draws (s : State) (c : CellSel) (x : Cell) : (s.setCell c x).draws = s.draws := by cases c <;> rfl

@[simp] theorem State.setObs_par (s : State) (o : Agent) (x : Observer) : (s.setObs o x).par = s.par := by cases o <;> rfl
@[simp] theorem State.setObs_cfg (s : State) (o : Agent) (x : Observer) : (s.setObs o x).cfg = s.cfg := by cases o <;> rfl
@[simp] theorem State.setObs_rear (s : State) (o : Agent) (x : Observer) : (s.setObs o x).rear = s.rear := by cases o <;> rfl
@[simp] theorem State.setObs_front (s : State) (o : Agent) (x : Observer) : (s.setObs o x).front = s.front := by cases o <;> rfl
@[simp] theorem State.setObs_buf (s : State) (o : Agent) (x : Observer) : (s.setObs o x).buf = s.buf := by cases o <;> rfl
@[simp] theorem State.setObs_writes (s : State) (o : Agent) (x : Observer) : (s.setObs o x).writes = s.writes := by cases o <;> rfl
@[simp] theorem State.setObs_wqRear (s : State) (o : Agent) (x : Observer) : (s.setObs o x).wqRear = s.wqRear := by cases o <;> rfl
@[simp] theorem State.setObs_wqFront (s : State) (o : Agent) (x : Observer) : (s.setObs o x).wqFront = s.wqFront := by cases o <;> rfl
@[simp] theorem State.setObs_beat (s : State) (o : Agent) (x : Observer) : (s.setObs o x).beat = s.beat := by cases o <;> rfl
@[simp] theorem State.setObs_inbox (s : State) (o : Agent) (x : Observer) : (s.setObs o x).inbox = s.inbox := by cases o <;> rfl
@[simp] theorem State.setObs_out (s : State) (o : Agent) (x : Observer) : (s.setObs o x).out = s.out := by cases o <;> rfl
@[simp] theorem State.setObs_sched (s : State) (o : Agent) (x : Observer) : (s.setObs o x).sched = s.sched := by cases o <;> rfl
@[simp] theorem State.setObs_choices (s : State) (o : Agent) (x : Observer) : (s.setObs o x).choices = s.choices := by cases o <;> rfl
@[simp] theorem State.setObs_draws (s : State) (o : Agent) (x : Observer) : (s.setObs o x).draws = s.draws := by cases o <;> rfl

@[simp] theorem State.setWq_par (s : State) (c : CellSel) (q : List Agent) : (s.setWq c q).par = s.par := by cases c <;> rfl
@[simp] theorem State.setWq_cfg (s : State) (c : CellSel) (q : List Agent) : (s.setWq c q).cfg = s.cfg := by cases c <;> rfl
@[simp] theorem State.setWq_rear (s : State) (c : CellSel) (q : List Agent) : (s.setWq c q).rear = s.rear := by cases c <;> rfl
@[simp] theorem State.setWq_front (s : State) (c : CellSel) (q : List Agent) : (s.setWq c q).front = s.front := by cases c <;> rfl
@[simp] theorem State.setWq_buf (s : State) (c : CellSel) (q : List Agent) : (s.setWq c q).buf = s.buf := by cases c <;> rfl
@[simp] theorem State.setWq_writes (s : State) (c : CellSel) (q : List Agent) : (s.setWq c q).writes = s.writes := by cases c <;> rfl
@[simp] theorem State.setWq_w (s : State) (c : CellSel) (q : List Agent) : (s.setWq c q).w = s.w := by cases c <;> rfl
@[simp] theorem State.setWq_readers (s : State) (c : CellSel) (q : List Agent) : (s.setWq c q).readers = s.readers := by cases c <;> rfl
@[simp] theorem State.setWq_peer (s : State) (c : CellSel) (q : List Agent) : (s.setWq c q).peer = s.peer := by cases c <;> rfl
@[simp] theorem State.setWq_beat (s : State) (c : CellSel) (q : List Agent) : (s.setWq c q).beat = s.beat := by cases c <;> rfl
@[simp] theorem State.setWq_inbox (s : State) (c : CellSel) (q : List Agent) : (s.setWq c q).inbox = s.inbox := by cases c <;> rfl
@[simp] theorem State.setWq_out (s : State) (c : CellSel) (q : List Agent) : (s.setWq c q).out = s.out := by cases c <;> rfl
@[simp] theorem State.setWq_sched (s : State) (c : CellSel) (q : List Agent) : (s.setWq c q).sched = s.sched := by cases c <;> rfl
@[simp] theorem State.setWq_choices (s : State) (c : CellSel) (q : List Agent) : (s.setWq c q).choices = s.choices := by cases c <;> rfl
@[simp] theorem State.setWq_draws (s : State) (c : CellSel) (q : List Agent) : (s.setWq c q).draws = s.draws := by cases c <;> rfl

@[simp] theorem State.answer_par (s : State) (o : Agent) (r : Response) : (s.answer o r).par = s.par := rfl
@[simp] theorem State.answer_cfg (s : State) (o : Agent) (r : Response) : (s.answer o r).cfg = s.cfg := rfl
@[simp] theorem State.answer_rear (s : State) (o : Agent) (r : Response) : (s.answer o r).rear = s.rear := rfl
@[simp] theorem State.answer_front (s : State) (o : Agent) (r : Response) : (s.answer o r).front = s.front := rfl
@[simp] theorem State.answer_buf (s : State) (o : Agent) (r : Response) : (s.answer o r).buf = s.buf := rfl
@[simp] theorem State.answer_writes (s : State) (o : Agent) (r : Response) : (s.answer o r).writes = s.writes := rfl
@[simp] theorem State.answer_w (s : State) (o : Agent) (r : Response) : (s.answer o r).w = s.w := rfl
@[simp] theorem State.answer_readers (s : State) (o : Agent) (r : Response) : (s.answer o r).readers = s.readers := rfl
@[simp] theorem State.answer_peer (s : State) (o : Agent) (r : Response) : (s.answer o r).peer = s.peer := rfl
@[simp] theorem State.answer_wqRear (s : State) (o : Agent) (r : Response) : (s.answer o r).wqRear = s.wqRear := rfl
@[simp] theorem State.answer_wqFront (s : State) (o : Agent) (r : Response) : (s.answer o r).wqFront = s.wqFront := rfl
@[simp] theorem State.answer_beat (s : State) (o : Agent) (r : Response) : (s.answer o r).beat = s.beat := rfl
@[simp] theorem State.answer_inbox (s : State) (o : Agent) (r : Response) : (s.answer o r).inbox = s.inbox := rfl
@[simp] theorem State.answer_sched (s : State) (o : Agent) (r : Response) : (s.answer o r).sched = s.sched := rfl
@[simp] theorem State.answer_choices (s : State) (o : Agent) (r : Response) : (s.answer o r).choices = s.choices := rfl
@[simp] theorem State.answer_draws (s : State) (o : Agent) (r : Response) : (s.answer o r).draws = s.draws := rfl

@[simp] theorem State.reply_par (s : State) (r : Response) : (s.reply r).par = s.par := rfl
@[simp] theorem State.reply_cfg (s : State) (r : Response) : (s.reply r).cfg = s.cfg := rfl
@[simp] theorem State.reply_rear (s : State) (r : Response) : (s.reply r).rear = s.rear := rfl
@[simp] theorem State.reply_front (s : State) (r : Response) : (s.reply r).front = s.front := rfl
@[simp] theorem State.reply_buf (s : State) (r : Response) : (s.reply r).buf = s.buf := rfl
@[simp] theorem State.reply_writes (s : State) (r : Response) : (s.reply r).writes = s.writes := rfl
@[simp] theorem State.reply_w (s : State) (r : Response) : (s.reply r).w = s.w := rfl
@[simp] theorem State.reply_readers (s : State) (r : Response) : (s.reply r).readers = s.readers := rfl
@[simp] theorem State.reply_peer (s : State) (r : Response) : (s.reply r).peer = s.peer := rfl
@[simp] theorem State.reply_wqRear (s : State) (r : Response) : (s.reply r).wqRear = s.wqRear := rfl
@[simp] theorem State.reply_wqFront (s : State) (r : Response) : (s.reply r).wqFront = s.wqFront := rfl
@[simp] theorem State.reply_beat (s : State) (r : Response) : (s.reply r).beat = s.beat := rfl
@[simp] theorem State.reply_inbox (s : State) (r : Response) : (s.reply r).inbox = s.inbox := rfl
@[simp] theorem State.reply_sched (s : State) (r : Response) : (s.reply r).sched = s.sched := rfl
@[simp] theorem State.reply_choices (s : State) (r : Response) : (s.reply r).choices = s.choices := rfl
@[simp] theorem State.reply_draws (s : State) (r : Response) : (s.reply r).draws = s.draws := rfl

@[simp] theorem State.refuse_par (s : State) : (s.refuse).par = s.par := rfl
@[simp] theorem State.refuse_cfg (s : State) : (s.refuse).cfg = s.cfg := rfl
@[simp] theorem State.refuse_rear (s : State) : (s.refuse).rear = s.rear := rfl
@[simp] theorem State.refuse_front (s : State) : (s.refuse).front = s.front := rfl
@[simp] theorem State.refuse_buf (s : State) : (s.refuse).buf = s.buf := rfl
@[simp] theorem State.refuse_writes (s : State) : (s.refuse).writes = s.writes := rfl
@[simp] theorem State.refuse_w (s : State) : (s.refuse).w = s.w := rfl
@[simp] theorem State.refuse_readers (s : State) : (s.refuse).readers = s.readers := rfl
@[simp] theorem State.refuse_peer (s : State) : (s.refuse).peer = s.peer := rfl
@[simp] theorem State.refuse_wqRear (s : State) : (s.refuse).wqRear = s.wqRear := rfl
@[simp] theorem State.refuse_wqFront (s : State) : (s.refuse).wqFront = s.wqFront := rfl
@[simp] theorem State.refuse_beat (s : State) : (s.refuse).beat = s.beat := rfl
@[simp] theorem State.refuse_inbox (s : State) : (s.refuse).inbox = s.inbox := rfl
@[simp] theorem State.refuse_sched (s : State) : (s.refuse).sched = s.sched := rfl
@[simp] theorem State.refuse_choices (s : State) : (s.refuse).choices = s.choices := rfl
@[simp] theorem State.refuse_draws (s : State) : (s.refuse).draws = s.draws := rfl

@[simp] theorem State.goWriter_par (s : State) (t : Task) : (s.goWriter t).par = s.par := rfl
@[simp] theorem State.goWriter_cfg (s : State) (t : Task) : (s.goWriter t).cfg = s.cfg := rfl
@[simp] theorem State.goWriter_rear (s : State) (t : Task) : (s.goWriter t).rear = s.rear := rfl
@[simp] theorem State.goWriter_front (s : State) (t : Task) : (s.goWriter t).front = s.front := rfl
@[simp] theorem State.goWriter_buf (s : State) (t : Task) : (s.goWriter t).buf = s.buf := rfl
@[simp] theorem State.goWriter_writes (s : State) (t : Task) : (s.goWriter t).writes = s.writes := rfl
@[simp] theorem State.goWriter_readers (s : State) (t : Task) : (s.goWriter t).readers = s.readers := rfl
@[simp] theorem State.goWriter_peer (s : State) (t : Task) : (s.goWriter t).peer = s.peer := rfl
@[simp] theorem State.goWriter_wqRear (s : State) (t : Task) : (s.goWriter t).wqRear = s.wqRear := rfl
@[simp] theorem State.goWriter_wqFront (s : State) (t : Task) : (s.goWriter t).wqFront = s.wqFront := rfl
@[simp] theorem State.goWriter_beat (s : State) (t : Task) : (s.goWriter t).beat = s.beat := rfl
@[simp] theorem State.goWriter_inbox (s : State) (t : Task) : (s.goWriter t).inbox = s.inbox := rfl
@[simp] theorem State.goWriter_out (s : State) (t : Task) : (s.goWriter t).out = s.out := rfl
@[simp] theorem State.goWriter_sched (s : State) (t : Task) : (s.goWriter t).sched = s.sched := rfl
@[simp] theorem State.goWriter_choices (s : State) (t : Task) : (s.goWriter t).choices = s.choices := rfl
@[simp] theorem State.goWriter_draws (s : State) (t : Task) : (s.goWriter t).draws = s.draws := rfl

@[simp] theorem State.endWriter_par (s : State) (r : Response) : (s.endWriter r).par = s.par := rfl
@[simp] theorem State.endWriter_cfg (s : State) (r : Response) : (s.endWriter r).cfg = s.cfg := rfl
@[simp] theorem State.endWriter_rear (s : State) (r : Response) : (s.endWriter r).rear = s.rear := rfl
@[simp] theorem State.endWriter_front (s : State) (r : Response) : (s.endWriter r).front = s.front := rfl
@[simp] theorem State.endWriter_buf (s : State) (r : Response) : (s.endWriter r).buf = s.buf := rfl
@[simp] theorem State.endWriter_writes (s : State) (r : Response) : (s.endWriter r).writes = s.writes := rfl
@[simp] theorem State.endWriter_readers (s : State) (r : Response) : (s.endWriter r).readers = s.readers := rfl
@[simp] theorem State.endWriter_peer (s : State) (r : Response) : (s.endWriter r).peer = s.peer := rfl
@[simp] theorem State.endWriter_wqRear (s : State) (r : Response) : (s.endWriter r).wqRear = s.wqRear := rfl
@[simp] theorem State.endWriter_wqFront (s : State) (r : Response) : (s.endWriter r).wqFront = s.wqFront := rfl
@[simp] theorem State.endWriter_beat (s : State) (r : Response) : (s.endWriter r).beat = s.beat := rfl
@[simp] theorem State.endWriter_inbox (s : State) (r : Response) : (s.endWriter r).inbox = s.inbox := rfl
@[simp] theorem State.endWriter_sched (s : State) (r : Response) : (s.endWriter r).sched = s.sched := rfl
@[simp] theorem State.endWriter_choices (s : State) (r : Response) : (s.endWriter r).choices = s.choices := rfl
@[simp] theorem State.endWriter_draws (s : State) (r : Response) : (s.endWriter r).draws = s.draws := rfl

@[simp] theorem State.armWriter_par (s : State) (n : Nat) : (s.armWriter n).par = s.par := rfl
@[simp] theorem State.armWriter_cfg (s : State) (n : Nat) : (s.armWriter n).cfg = s.cfg := rfl
@[simp] theorem State.armWriter_rear (s : State) (n : Nat) : (s.armWriter n).rear = s.rear := rfl
@[simp] theorem State.armWriter_front (s : State) (n : Nat) : (s.armWriter n).front = s.front := rfl
@[simp] theorem State.armWriter_buf (s : State) (n : Nat) : (s.armWriter n).buf = s.buf := rfl
@[simp] theorem State.armWriter_writes (s : State) (n : Nat) : (s.armWriter n).writes = s.writes := rfl
@[simp] theorem State.armWriter_readers (s : State) (n : Nat) : (s.armWriter n).readers = s.readers := rfl
@[simp] theorem State.armWriter_peer (s : State) (n : Nat) : (s.armWriter n).peer = s.peer := rfl
@[simp] theorem State.armWriter_wqRear (s : State) (n : Nat) : (s.armWriter n).wqRear = s.wqRear := rfl
@[simp] theorem State.armWriter_wqFront (s : State) (n : Nat) : (s.armWriter n).wqFront = s.wqFront := rfl
@[simp] theorem State.armWriter_beat (s : State) (n : Nat) : (s.armWriter n).beat = s.beat := rfl
@[simp] theorem State.armWriter_inbox (s : State) (n : Nat) : (s.armWriter n).inbox = s.inbox := rfl
@[simp] theorem State.armWriter_out (s : State) (n : Nat) : (s.armWriter n).out = s.out := rfl
@[simp] theorem State.armWriter_sched (s : State) (n : Nat) : (s.armWriter n).sched = s.sched := rfl
@[simp] theorem State.armWriter_choices (s : State) (n : Nat) : (s.armWriter n).choices = s.choices := rfl
@[simp] theorem State.armWriter_draws (s : State) (n : Nat) : (s.armWriter n).draws = s.draws := rfl

@[simp] theorem State.goReader_par (s : State) (i : Nat) (t : Task) : (s.goReader i t).par = s.par := rfl
@[simp] theorem State.goReader_cfg (s : State) (i : Nat) (t : Task) : (s.goReader i t).cfg = s.cfg := rfl
@[simp] theorem State.goReader_rear (s : State) (i : Nat) (t : Task) : (s.goReader i t).rear = s.rear := rfl
@[simp] theorem State.goReader_front (s : State) (i : Nat) (t : Task) : (s.goReader i t).front = s.front := rfl
@[simp] theorem State.goReader_buf (s : State) (i : Nat) (t : Task) : (s.goReader i t).buf = s.buf := rfl
@[simp] theorem State.goReader_writes (s : State) (i : Nat) (t : Task) : (s.goReader i t).writes = s.writes := rfl
@[simp] theorem State.goReader_w (s : State) (i : Nat) (t : Task) : (s.goReader i t).w = s.w := rfl
@[simp] theorem State.goReader_peer (s : State) (i : Nat) (t : Task) : (s.goReader i t).peer = s.peer := rfl
@[simp] theorem State.goReader_wqRear (s : State) (i : Nat) (t : Task) : (s.goReader i t).wqRear = s.wqRear := rfl
@[simp] theorem State.goReader_wqFront (s : State) (i : Nat) (t : Task) : (s.goReader i t).wqFront = s.wqFront := rfl
@[simp] theorem State.goReader_beat (s : State) (i : Nat) (t : Task) : (s.goReader i t).beat = s.beat := rfl
@[simp] theorem State.goReader_inbox (s : State) (i : Nat) (t : Task) : (s.goReader i t).inbox = s.inbox := rfl
@[simp] theorem State.goReader_out (s : State) (i : Nat) (t : Task) : (s.goReader i t).out = s.out := rfl
@[simp] theorem State.goReader_sched (s : State) (i : Nat) (t : Task) : (s.goReader i t).sched = s.sched := rfl
@[simp] theorem State.goReader_choices (s : State) (i : Nat) (t : Task) : (s.goReader i t).choices = s.choices := rfl
@[simp] theorem State.goReader_draws (s : State) (i : Nat) (t : Task) : (s.goReader i t).draws = s.draws := rfl

@[simp] theorem State.endReader_par (s : State) (i : Nat) (r : Response) : (s.endReader i r).par = s.par := rfl
@[simp] theorem State.endReader_cfg (s : State) (i : Nat) (r : Response) : (s.endReader i r).cfg = s.cfg := rfl
@[simp] theorem State.endReader_rear (s : State) (i : Nat) (r : Response) : (s.endReader i r).rear = s.rear := rfl
@[simp] theorem State.endReader_front (s : State) (i : Nat) (r : Response) : (s.endReader i r).front = s.front := rfl
@[simp] theorem State.endReader_buf (s : State) (i : Nat) (r : Response) : (s.endReader i r).buf = s.buf := rfl
@[simp] theorem State.endReader_writes (s : State) (i : Nat) (r : Response) : (s.endReader i r).writes = s.writes := rfl
@[simp] theorem State.endReader_w (s : State) (i : Nat) (r : Response) : (s.endReader i r).w = s.w := rfl
@[simp] theorem State.endReader_peer (s : State) (i : Nat) (r : Response) : (s.endReader i r).peer = s.peer := rfl
@[simp] theorem State.endReader_wqRear (s : State) (i : Nat) (r : Response) : (s.endReader i r).wqRear = s.wqRear := rfl
@[simp] theorem State.endReader_wqFront (s : State) (i : Nat) (r : Response) : (s.endReader i r).wqFront = s.wqFront := rfl
@[simp] theorem State.endReader_beat (s : State) (i : Nat) (r : Response) : (s.endReader i r).beat = s.beat := rfl
@[simp] theorem State.endReader_inbox (s : State) (i : Nat) (r : Response) : (s.endReader i r).inbox = s.inbox := rfl
@[simp] theorem State.endReader_sched (s : State) (i : Nat) (r : Response) : (s.endReader i r).sched = s.sched := rfl
@[simp] theorem State.endReader_choices (s : State) (i : Nat) (r : Response) : (s.endReader i r).choices = s.choices := rfl
@[simp] theorem State.endReader_draws (s : State) (i : Nat) (r : Response) : (s.endReader i r).draws = s.draws := rfl

@[simp] theorem State.armReader_par (s : State) (i : Nat) (n : Nat) : (s.armReader i n).par = s.par := rfl
@[simp] theorem State.armReader_cfg (s : State) (i : Nat) (n : Nat) : (s.armReader i n).cfg = s.cfg := rfl
@[simp] theorem State.armReader_rear (s : State) (i : Nat) (n : Nat) : (s.armReader i n).rear = s.rear := rfl
@[simp] theorem State.armReader_front (s : State) (i : Nat) (n : Nat) : (s.armReader i n).front = s.front := rfl
@[simp] theorem State.armReader_buf (s : State) (i : Nat) (n : Nat) : (s.armReader i n).buf = s.buf := rfl
@[simp] theorem State.armReader_writes (s : State) (i : Nat) (n : Nat) : (s.armReader i n).writes = s.writes := rfl
@[simp] theorem State.armReader_w (s : State) (i : Nat) (n : Nat) : (s.armReader i n).w = s.w := rfl
@[simp] theorem State.armReader_peer (s : State) (i : Nat) (n : Nat) : (s.armReader i n).peer = s.peer := rfl
@[simp] theorem State.armReader_wqRear (s : State) (i : Nat) (n : Nat) : (s.armReader i n).wqRear = s.wqRear := rfl
@[simp] theorem State.armReader_wqFront (s : State) (i : Nat) (n : Nat) : (s.armReader i n).wqFront = s.wqFront := rfl
@[simp] theorem State.armReader_beat (s : State) (i : Nat) (n : Nat) : (s.armReader i n).beat = s.beat := rfl
@[simp] theorem State.armReader_inbox (s : State) (i : Nat) (n : Nat) : (s.armReader i n).inbox = s.inbox := rfl
@[simp] theorem State.armReader_out (s : State) (i : Nat) (n : Nat) : (s.armReader i n).out = s.out := rfl
@[simp] theorem State.armReader_sched (s : State) (i : Nat) (n : Nat) : (s.armReader i n).sched = s.sched := rfl
@[simp] theorem State.armReader_choices (s : State) (i : Nat) (n : Nat) : (s.armReader i n).choices = s.choices := rfl
@[simp] theorem State.armReader_draws (s : State) (i : Nat) (n : Nat) : (s.armReader i n).draws = s.draws := rfl

@[simp] theorem State.clearReader_par (s : State) (i : Nat) : (s.clearReader i).par = s.par := rfl
@[simp] theorem State.clearReader_cfg (s : State) (i : Nat) : (s.clearReader i).cfg = s.cfg := rfl
@[simp] theorem State.clearReader_rear (s : State) (i : Nat) : (s.clearReader i).rear = s.rear := rfl
@[simp] theorem State.clearReader_front (s : State) (i : Nat) : (s.clearReader i).front = s.front := rfl
@[simp] theorem State.clearReader_buf (s : State) (i : Nat) : (s.clearReader i).buf = s.buf := rfl
@[simp] theorem State.clearReader_writes (s : State) (i : Nat) : (s.clearReader i).writes = s.writes := rfl
@[simp] theorem State.clearReader_w (s : State) (i : Nat) : (s.clearReader i).w = s.w := rfl
@[simp] theorem State.clearReader_peer (s : State) (i : Nat) : (s.clearReader i).peer = s.peer := rfl
@[simp] theorem State.clearReader_wqRear (s : State) (i : Nat) : (s.clearReader i).wqRear = s.wqRear := rfl
@[simp] theorem State.clearReader_wqFront (s : State) (i : Nat) : (s.clearReader i).wqFront = s.wqFront := rfl
@[simp] theorem State.clearReader_beat (s : State) (i : Nat) : (s.clearReader i).beat = s.beat := rfl
@[simp] theorem State.clearReader_inbox (s : State) (i : Nat) : (s.clearReader i).inbox = s.inbox := rfl
@[simp] theorem State.clearReader_out (s : State) (i : Nat) : (s.clearReader i).out = s.out := rfl
@[simp] theorem State.clearReader_sched (s : State) (i : Nat) : (s.clearReader i).sched = s.sched := rfl
@[simp] theorem State.clearReader_choices (s : State) (i : Nat) : (s.clearReader i).choices = s.choices := rfl
@[simp] theorem State.clearReader_draws (s : State) (i : Nat) : (s.clearReader i).draws = s.draws := rfl

@[simp] theorem State.restartPos_par (s : State) (c : CellSel) : (s.restartPos c).par = s.par := rfl
@[simp] theorem State.restartPos_cfg (s : State) (c : CellSel) : (s.restartPos c).cfg = s.cfg := rfl
@[simp] theorem State.restartPos_rear (s : State) (c : CellSel) : (s.restartPos c).rear = s.rear := rfl
@[simp] theorem State.restartPos_front (s : State) (c : CellSel) : (s.restartPos c).front = s.front := rfl
@[simp] theorem State.restartPos_buf (s : State) (c : CellSel) : (s.restartPos c).buf = s.buf := rfl
@[simp] theorem State.restartPos_writes (s : State) (c : CellSel) : (s.restartPos c).writes = s.writes := rfl
@[simp] theorem State.restartPos_wqRear (s : State) (c : CellSel) : (s.restartPos c).wqRear = s.wqRear := rfl
@[simp] theorem State.restartPos_wqFront (s : State) (c : CellSel) : (s.restartPos c).wqFront = s.wqFront := rfl
@[simp] theorem State.restartPos_beat (s : State) (c : CellSel) : (s.restartPos c).beat = s.beat := rfl
@[simp] theorem State.restartPos_inbox (s : State) (c : CellSel) : (s.restartPos c).inbox = s.inbox := rfl
@[simp] theorem State.restartPos_out (s : State) (c : CellSel) : (s.restartPos c).out = s.out := rfl
@[simp] theorem State.restartPos_sched (s : State) (c : CellSel) : (s.restartPos c).sched = s.sched := rfl
@[simp] theorem State.restartPos_choices (s : State) (c : CellSel) : (s.restartPos c).choices = s.choices := rfl
@[simp] theorem State.restartPos_draws (s : State) (c : CellSel) : (s.restartPos c).draws = s.draws := rfl

/-! ### Draws -/

@[simp] theorem State.draw_par (s : State) : (s.draw.2).par = s.par := by unfold State.draw; split <;> rfl
@[simp] theorem State.draw_cfg (s : State) : (s.draw.2).cfg = s.cfg := by unfold State.draw; split <;> rfl
@[simp] theorem State.draw_rear (s : State) : (s.draw.2).rear = s.rear := by unfold State.draw; split <;> rfl
@[simp] theorem State.draw_front (s : State) : (s.draw.2).front = s.front := by unfold State.draw; split <;> rfl
@[simp] theorem State.draw_buf (s : State) : (s.draw.2).buf = s.buf := by unfold State.draw; split <;> rfl
@[simp] theorem State.draw_writes (s : State) : (s.draw.2).writes = s.writes := by unfold State.draw; split <;> rfl
@[simp] theorem State.draw_w (s : State) : (s.draw.2).w = s.w := by unfold State.draw; split <;> rfl
@[simp] theorem State.draw_readers (s : State) : (s.draw.2).readers = s.readers := by unfold State.draw; split <;> rfl
@[simp] theorem State.draw_peer (s : State) : (s.draw.2).peer = s.peer := by unfold State.draw; split <;> rfl
@[simp] theorem State.draw_wqRear (s : State) : (s.draw.2).wqRear = s.wqRear := by unfold State.draw; split <;> rfl
@[simp] theorem State.draw_wqFront (s : State) : (s.draw.2).wqFront = s.wqFront := by unfold State.draw; split <;> rfl
@[simp] theorem State.draw_beat (s : State) : (s.draw.2).beat = s.beat := by unfold State.draw; split <;> rfl
@[simp] theorem State.draw_inbox (s : State) : (s.draw.2).inbox = s.inbox := by unfold State.draw; split <;> rfl
@[simp] theorem State.draw_out (s : State) : (s.draw.2).out = s.out := by unfold State.draw; split <;> rfl
@[simp] theorem State.draw_sched (s : State) : (s.draw.2).sched = s.sched := by unfold State.draw; split <;> rfl

@[simp] theorem State.pick_par (s : State) (n : Nat) : ((s.pick n).2).par = s.par := by unfold State.pick; split <;> simp
@[simp] theorem State.pick_cfg (s : State) (n : Nat) : ((s.pick n).2).cfg = s.cfg := by unfold State.pick; split <;> simp
@[simp] theorem State.pick_rear (s : State) (n : Nat) : ((s.pick n).2).rear = s.rear := by unfold State.pick; split <;> simp
@[simp] theorem State.pick_front (s : State) (n : Nat) : ((s.pick n).2).front = s.front := by unfold State.pick; split <;> simp
@[simp] theorem State.pick_buf (s : State) (n : Nat) : ((s.pick n).2).buf = s.buf := by unfold State.pick; split <;> simp
@[simp] theorem State.pick_writes (s : State) (n : Nat) : ((s.pick n).2).writes = s.writes := by unfold State.pick; split <;> simp
@[simp] theorem State.pick_w (s : State) (n : Nat) : ((s.pick n).2).w = s.w := by unfold State.pick; split <;> simp
@[simp] theorem State.pick_readers (s : State) (n : Nat) : ((s.pick n).2).readers = s.readers := by unfold State.pick; split <;> simp
@[simp] theorem State.pick_peer (s : State) (n : Nat) : ((s.pick n).2).peer = s.peer := by unfold State.pick; split <;> simp
@[simp] theorem State.pick_wqRear (s : State) (n : Nat) : ((s.pick n).2).wqRear = s.wqRear := by unfold State.pick; split <;> simp
@[simp] theorem State.pick_wqFront (s : State) (n : Nat) : ((s.pick n).2).wqFront = s.wqFront := by unfold State.pick; split <;> simp
@[simp] theorem State.pick_beat (s : State) (n : Nat) : ((s.pick n).2).beat = s.beat := by unfold State.pick; split <;> simp
@[simp] theorem State.pick_inbox (s : State) (n : Nat) : ((s.pick n).2).inbox = s.inbox := by unfold State.pick; split <;> simp
@[simp] theorem State.pick_out (s : State) (n : Nat) : ((s.pick n).2).out = s.out := by unfold State.pick; split <;> simp
@[simp] theorem State.pick_sched (s : State) (n : Nat) : ((s.pick n).2).sched = s.sched := by unfold State.pick; split <;> simp

@[simp] theorem State.freeByte_par (s : State) : (s.freeByte.2).par = s.par := by simp [State.freeByte]
@[simp] theorem State.freeByte_cfg (s : State) : (s.freeByte.2).cfg = s.cfg := by simp [State.freeByte]
@[simp] theorem State.freeByte_rear (s : State) : (s.freeByte.2).rear = s.rear := by simp [State.freeByte]
@[simp] theorem State.freeByte_front (s : State) : (s.freeByte.2).front = s.front := by simp [State.freeByte]
@[simp] theorem State.freeByte_buf (s : State) : (s.freeByte.2).buf = s.buf := by simp [State.freeByte]
@[simp] theorem State.freeByte_writes (s : State) : (s.freeByte.2).writes = s.writes := by simp [State.freeByte]
@[simp] theorem State.freeByte_w (s : State) : (s.freeByte.2).w = s.w := by simp [State.freeByte]
@[simp] theorem State.freeByte_readers (s : State) : (s.freeByte.2).readers = s.readers := by simp [State.freeByte]
@[simp] theorem State.freeByte_peer (s : State) : (s.freeByte.2).peer = s.peer := by simp [State.freeByte]
@[simp] theorem State.freeByte_wqRear (s : State) : (s.freeByte.2).wqRear = s.wqRear := by simp [State.freeByte]
@[simp] theorem State.freeByte_wqFront (s : State) : (s.freeByte.2).wqFront = s.wqFront := by simp [State.freeByte]
@[simp] theorem State.freeByte_beat (s : State) : (s.freeByte.2).beat = s.beat := by simp [State.freeByte]
@[simp] theorem State.freeByte_inbox (s : State) : (s.freeByte.2).inbox = s.inbox := by simp [State.freeByte]
@[simp] theorem State.freeByte_out (s : State) : (s.freeByte.2).out = s.out := by simp [State.freeByte]
@[simp] theorem State.freeByte_sched (s : State) : (s.freeByte.2).sched = s.sched := by simp [State.freeByte]

@[simp] theorem State.firstPart_par (s : State) (x : Word) (g : Nat) : ((s.firstPart x g).2).par = s.par := by unfold State.firstPart; split <;> simp
@[simp] theorem State.firstPart_cfg (s : State) (x : Word) (g : Nat) : ((s.firstPart x g).2).cfg = s.cfg := by unfold State.firstPart; split <;> simp
@[simp] theorem State.firstPart_rear (s : State) (x : Word) (g : Nat) : ((s.firstPart x g).2).rear = s.rear := by unfold State.firstPart; split <;> simp
@[simp] theorem State.firstPart_front (s : State) (x : Word) (g : Nat) : ((s.firstPart x g).2).front = s.front := by unfold State.firstPart; split <;> simp
@[simp] theorem State.firstPart_buf (s : State) (x : Word) (g : Nat) : ((s.firstPart x g).2).buf = s.buf := by unfold State.firstPart; split <;> simp
@[simp] theorem State.firstPart_writes (s : State) (x : Word) (g : Nat) : ((s.firstPart x g).2).writes = s.writes := by unfold State.firstPart; split <;> simp
@[simp] theorem State.firstPart_w (s : State) (x : Word) (g : Nat) : ((s.firstPart x g).2).w = s.w := by unfold State.firstPart; split <;> simp
@[simp] theorem State.firstPart_readers (s : State) (x : Word) (g : Nat) : ((s.firstPart x g).2).readers = s.readers := by unfold State.firstPart; split <;> simp
@[simp] theorem State.firstPart_peer (s : State) (x : Word) (g : Nat) : ((s.firstPart x g).2).peer = s.peer := by unfold State.firstPart; split <;> simp
@[simp] theorem State.firstPart_wqRear (s : State) (x : Word) (g : Nat) : ((s.firstPart x g).2).wqRear = s.wqRear := by unfold State.firstPart; split <;> simp
@[simp] theorem State.firstPart_wqFront (s : State) (x : Word) (g : Nat) : ((s.firstPart x g).2).wqFront = s.wqFront := by unfold State.firstPart; split <;> simp
@[simp] theorem State.firstPart_beat (s : State) (x : Word) (g : Nat) : ((s.firstPart x g).2).beat = s.beat := by unfold State.firstPart; split <;> simp
@[simp] theorem State.firstPart_inbox (s : State) (x : Word) (g : Nat) : ((s.firstPart x g).2).inbox = s.inbox := by unfold State.firstPart; split <;> simp
@[simp] theorem State.firstPart_out (s : State) (x : Word) (g : Nat) : ((s.firstPart x g).2).out = s.out := by unfold State.firstPart; split <;> simp
@[simp] theorem State.firstPart_sched (s : State) (x : Word) (g : Nat) : ((s.firstPart x g).2).sched = s.sched := by unfold State.firstPart; split <;> simp

@[simp] theorem State.fragments_par (s : State) (x : Word) (g : Nat) : ((s.fragments x g).2).par = s.par := by simp [State.fragments]
@[simp] theorem State.fragments_cfg (s : State) (x : Word) (g : Nat) : ((s.fragments x g).2).cfg = s.cfg := by simp [State.fragments]
@[simp] theorem State.fragments_rear (s : State) (x : Word) (g : Nat) : ((s.fragments x g).2).rear = s.rear := by simp [State.fragments]
@[simp] theorem State.fragments_front (s : State) (x : Word) (g : Nat) : ((s.fragments x g).2).front = s.front := by simp [State.fragments]
@[simp] theorem State.fragments_buf (s : State) (x : Word) (g : Nat) : ((s.fragments x g).2).buf = s.buf := by simp [State.fragments]
@[simp] theorem State.fragments_writes (s : State) (x : Word) (g : Nat) : ((s.fragments x g).2).writes = s.writes := by simp [State.fragments]
@[simp] theorem State.fragments_w (s : State) (x : Word) (g : Nat) : ((s.fragments x g).2).w = s.w := by simp [State.fragments]
@[simp] theorem State.fragments_readers (s : State) (x : Word) (g : Nat) : ((s.fragments x g).2).readers = s.readers := by simp [State.fragments]
@[simp] theorem State.fragments_peer (s : State) (x : Word) (g : Nat) : ((s.fragments x g).2).peer = s.peer := by simp [State.fragments]
@[simp] theorem State.fragments_wqRear (s : State) (x : Word) (g : Nat) : ((s.fragments x g).2).wqRear = s.wqRear := by simp [State.fragments]
@[simp] theorem State.fragments_wqFront (s : State) (x : Word) (g : Nat) : ((s.fragments x g).2).wqFront = s.wqFront := by simp [State.fragments]
@[simp] theorem State.fragments_beat (s : State) (x : Word) (g : Nat) : ((s.fragments x g).2).beat = s.beat := by simp [State.fragments]
@[simp] theorem State.fragments_inbox (s : State) (x : Word) (g : Nat) : ((s.fragments x g).2).inbox = s.inbox := by simp [State.fragments]
@[simp] theorem State.fragments_out (s : State) (x : Word) (g : Nat) : ((s.fragments x g).2).out = s.out := by simp [State.fragments]
@[simp] theorem State.fragments_sched (s : State) (x : Word) (g : Nat) : ((s.fragments x g).2).sched = s.sched := by simp [State.fragments]

@[simp] theorem State.lagPos_par (s : State) (o : Agent) (c : CellSel) : ((s.lagPos o c).2).par = s.par := by unfold State.lagPos; split <;> simp
@[simp] theorem State.lagPos_cfg (s : State) (o : Agent) (c : CellSel) : ((s.lagPos o c).2).cfg = s.cfg := by unfold State.lagPos; split <;> simp
@[simp] theorem State.lagPos_rear (s : State) (o : Agent) (c : CellSel) : ((s.lagPos o c).2).rear = s.rear := by unfold State.lagPos; split <;> simp
@[simp] theorem State.lagPos_front (s : State) (o : Agent) (c : CellSel) : ((s.lagPos o c).2).front = s.front := by unfold State.lagPos; split <;> simp
@[simp] theorem State.lagPos_buf (s : State) (o : Agent) (c : CellSel) : ((s.lagPos o c).2).buf = s.buf := by unfold State.lagPos; split <;> simp
@[simp] theorem State.lagPos_writes (s : State) (o : Agent) (c : CellSel) : ((s.lagPos o c).2).writes = s.writes := by unfold State.lagPos; split <;> simp
@[simp] theorem State.lagPos_w (s : State) (o : Agent) (c : CellSel) : ((s.lagPos o c).2).w = s.w := by unfold State.lagPos; split <;> simp
@[simp] theorem State.lagPos_readers (s : State) (o : Agent) (c : CellSel) : ((s.lagPos o c).2).readers = s.readers := by unfold State.lagPos; split <;> simp
@[simp] theorem State.lagPos_peer (s : State) (o : Agent) (c : CellSel) : ((s.lagPos o c).2).peer = s.peer := by unfold State.lagPos; split <;> simp
@[simp] theorem State.lagPos_wqRear (s : State) (o : Agent) (c : CellSel) : ((s.lagPos o c).2).wqRear = s.wqRear := by unfold State.lagPos; split <;> simp
@[simp] theorem State.lagPos_wqFront (s : State) (o : Agent) (c : CellSel) : ((s.lagPos o c).2).wqFront = s.wqFront := by unfold State.lagPos; split <;> simp
@[simp] theorem State.lagPos_beat (s : State) (o : Agent) (c : CellSel) : ((s.lagPos o c).2).beat = s.beat := by unfold State.lagPos; split <;> simp
@[simp] theorem State.lagPos_inbox (s : State) (o : Agent) (c : CellSel) : ((s.lagPos o c).2).inbox = s.inbox := by unfold State.lagPos; split <;> simp
@[simp] theorem State.lagPos_out (s : State) (o : Agent) (c : CellSel) : ((s.lagPos o c).2).out = s.out := by unfold State.lagPos; split <;> simp
@[simp] theorem State.lagPos_sched (s : State) (o : Agent) (c : CellSel) : ((s.lagPos o c).2).sched = s.sched := by unfold State.lagPos; split <;> simp

@[simp] theorem State.drawByte_par (s : State) (ws : List BufWrite) (k : Bool) : ((s.drawByte ws k).2).par = s.par := by unfold State.drawByte; dsimp only; cases ws[(s.pick (ws.length + if k then 0 else 1)).1]? <;> simp
@[simp] theorem State.drawByte_cfg (s : State) (ws : List BufWrite) (k : Bool) : ((s.drawByte ws k).2).cfg = s.cfg := by unfold State.drawByte; dsimp only; cases ws[(s.pick (ws.length + if k then 0 else 1)).1]? <;> simp
@[simp] theorem State.drawByte_rear (s : State) (ws : List BufWrite) (k : Bool) : ((s.drawByte ws k).2).rear = s.rear := by unfold State.drawByte; dsimp only; cases ws[(s.pick (ws.length + if k then 0 else 1)).1]? <;> simp
@[simp] theorem State.drawByte_front (s : State) (ws : List BufWrite) (k : Bool) : ((s.drawByte ws k).2).front = s.front := by unfold State.drawByte; dsimp only; cases ws[(s.pick (ws.length + if k then 0 else 1)).1]? <;> simp
@[simp] theorem State.drawByte_buf (s : State) (ws : List BufWrite) (k : Bool) : ((s.drawByte ws k).2).buf = s.buf := by unfold State.drawByte; dsimp only; cases ws[(s.pick (ws.length + if k then 0 else 1)).1]? <;> simp
@[simp] theorem State.drawByte_writes (s : State) (ws : List BufWrite) (k : Bool) : ((s.drawByte ws k).2).writes = s.writes := by unfold State.drawByte; dsimp only; cases ws[(s.pick (ws.length + if k then 0 else 1)).1]? <;> simp
@[simp] theorem State.drawByte_w (s : State) (ws : List BufWrite) (k : Bool) : ((s.drawByte ws k).2).w = s.w := by unfold State.drawByte; dsimp only; cases ws[(s.pick (ws.length + if k then 0 else 1)).1]? <;> simp
@[simp] theorem State.drawByte_readers (s : State) (ws : List BufWrite) (k : Bool) : ((s.drawByte ws k).2).readers = s.readers := by unfold State.drawByte; dsimp only; cases ws[(s.pick (ws.length + if k then 0 else 1)).1]? <;> simp
@[simp] theorem State.drawByte_peer (s : State) (ws : List BufWrite) (k : Bool) : ((s.drawByte ws k).2).peer = s.peer := by unfold State.drawByte; dsimp only; cases ws[(s.pick (ws.length + if k then 0 else 1)).1]? <;> simp
@[simp] theorem State.drawByte_wqRear (s : State) (ws : List BufWrite) (k : Bool) : ((s.drawByte ws k).2).wqRear = s.wqRear := by unfold State.drawByte; dsimp only; cases ws[(s.pick (ws.length + if k then 0 else 1)).1]? <;> simp
@[simp] theorem State.drawByte_wqFront (s : State) (ws : List BufWrite) (k : Bool) : ((s.drawByte ws k).2).wqFront = s.wqFront := by unfold State.drawByte; dsimp only; cases ws[(s.pick (ws.length + if k then 0 else 1)).1]? <;> simp
@[simp] theorem State.drawByte_beat (s : State) (ws : List BufWrite) (k : Bool) : ((s.drawByte ws k).2).beat = s.beat := by unfold State.drawByte; dsimp only; cases ws[(s.pick (ws.length + if k then 0 else 1)).1]? <;> simp
@[simp] theorem State.drawByte_inbox (s : State) (ws : List BufWrite) (k : Bool) : ((s.drawByte ws k).2).inbox = s.inbox := by unfold State.drawByte; dsimp only; cases ws[(s.pick (ws.length + if k then 0 else 1)).1]? <;> simp
@[simp] theorem State.drawByte_out (s : State) (ws : List BufWrite) (k : Bool) : ((s.drawByte ws k).2).out = s.out := by unfold State.drawByte; dsimp only; cases ws[(s.pick (ws.length + if k then 0 else 1)).1]? <;> simp
@[simp] theorem State.drawByte_sched (s : State) (ws : List BufWrite) (k : Bool) : ((s.drawByte ws k).2).sched = s.sched := by unfold State.drawByte; dsimp only; cases ws[(s.pick (ws.length + if k then 0 else 1)).1]? <;> simp

@[simp] theorem State.loadByte_par (s : State) (o : Agent) (off : Nat) : ((s.loadByte o off).2).par = s.par := by unfold State.loadByte; split <;> simp
@[simp] theorem State.loadByte_cfg (s : State) (o : Agent) (off : Nat) : ((s.loadByte o off).2).cfg = s.cfg := by unfold State.loadByte; split <;> simp
@[simp] theorem State.loadByte_rear (s : State) (o : Agent) (off : Nat) : ((s.loadByte o off).2).rear = s.rear := by unfold State.loadByte; split <;> simp
@[simp] theorem State.loadByte_front (s : State) (o : Agent) (off : Nat) : ((s.loadByte o off).2).front = s.front := by unfold State.loadByte; split <;> simp
@[simp] theorem State.loadByte_buf (s : State) (o : Agent) (off : Nat) : ((s.loadByte o off).2).buf = s.buf := by unfold State.loadByte; split <;> simp
@[simp] theorem State.loadByte_writes (s : State) (o : Agent) (off : Nat) : ((s.loadByte o off).2).writes = s.writes := by unfold State.loadByte; split <;> simp
@[simp] theorem State.loadByte_w (s : State) (o : Agent) (off : Nat) : ((s.loadByte o off).2).w = s.w := by unfold State.loadByte; split <;> simp
@[simp] theorem State.loadByte_readers (s : State) (o : Agent) (off : Nat) : ((s.loadByte o off).2).readers = s.readers := by unfold State.loadByte; split <;> simp
@[simp] theorem State.loadByte_peer (s : State) (o : Agent) (off : Nat) : ((s.loadByte o off).2).peer = s.peer := by unfold State.loadByte; split <;> simp
@[simp] theorem State.loadByte_wqRear (s : State) (o : Agent) (off : Nat) : ((s.loadByte o off).2).wqRear = s.wqRear := by unfold State.loadByte; split <;> simp
@[simp] theorem State.loadByte_wqFront (s : State) (o : Agent) (off : Nat) : ((s.loadByte o off).2).wqFront = s.wqFront := by unfold State.loadByte; split <;> simp
@[simp] theorem State.loadByte_beat (s : State) (o : Agent) (off : Nat) : ((s.loadByte o off).2).beat = s.beat := by unfold State.loadByte; split <;> simp
@[simp] theorem State.loadByte_inbox (s : State) (o : Agent) (off : Nat) : ((s.loadByte o off).2).inbox = s.inbox := by unfold State.loadByte; split <;> simp
@[simp] theorem State.loadByte_out (s : State) (o : Agent) (off : Nat) : ((s.loadByte o off).2).out = s.out := by unfold State.loadByte; split <;> simp
@[simp] theorem State.loadByte_sched (s : State) (o : Agent) (off : Nat) : ((s.loadByte o off).2).sched = s.sched := by unfold State.loadByte; split <;> simp

/-! ### Cells and order -/

@[simp] theorem State.ldaq_par (s : State) (o : Agent) (c : CellSel) : ((s.ldaq o c).2).par = s.par := by simp [State.ldaq]
@[simp] theorem State.ldaq_cfg (s : State) (o : Agent) (c : CellSel) : ((s.ldaq o c).2).cfg = s.cfg := by simp [State.ldaq]
@[simp] theorem State.ldaq_rear (s : State) (o : Agent) (c : CellSel) : ((s.ldaq o c).2).rear = s.rear := by simp [State.ldaq]
@[simp] theorem State.ldaq_front (s : State) (o : Agent) (c : CellSel) : ((s.ldaq o c).2).front = s.front := by simp [State.ldaq]
@[simp] theorem State.ldaq_buf (s : State) (o : Agent) (c : CellSel) : ((s.ldaq o c).2).buf = s.buf := by simp [State.ldaq]
@[simp] theorem State.ldaq_writes (s : State) (o : Agent) (c : CellSel) : ((s.ldaq o c).2).writes = s.writes := by simp [State.ldaq]
@[simp] theorem State.ldaq_wqRear (s : State) (o : Agent) (c : CellSel) : ((s.ldaq o c).2).wqRear = s.wqRear := by simp [State.ldaq]
@[simp] theorem State.ldaq_wqFront (s : State) (o : Agent) (c : CellSel) : ((s.ldaq o c).2).wqFront = s.wqFront := by simp [State.ldaq]
@[simp] theorem State.ldaq_beat (s : State) (o : Agent) (c : CellSel) : ((s.ldaq o c).2).beat = s.beat := by simp [State.ldaq]
@[simp] theorem State.ldaq_inbox (s : State) (o : Agent) (c : CellSel) : ((s.ldaq o c).2).inbox = s.inbox := by simp [State.ldaq]
@[simp] theorem State.ldaq_out (s : State) (o : Agent) (c : CellSel) : ((s.ldaq o c).2).out = s.out := by simp [State.ldaq]
@[simp] theorem State.ldaq_sched (s : State) (o : Agent) (c : CellSel) : ((s.ldaq o c).2).sched = s.sched := by simp [State.ldaq]

@[simp] theorem State.strl_par (s : State) (o : Agent) (c : CellSel) (v : Word) : (s.strl o c v).par = s.par := by simp [State.strl]
@[simp] theorem State.strl_cfg (s : State) (o : Agent) (c : CellSel) (v : Word) : (s.strl o c v).cfg = s.cfg := by simp [State.strl]
@[simp] theorem State.strl_buf (s : State) (o : Agent) (c : CellSel) (v : Word) : (s.strl o c v).buf = s.buf := by simp [State.strl]
@[simp] theorem State.strl_writes (s : State) (o : Agent) (c : CellSel) (v : Word) : (s.strl o c v).writes = s.writes := by simp [State.strl]
@[simp] theorem State.strl_wqRear (s : State) (o : Agent) (c : CellSel) (v : Word) : (s.strl o c v).wqRear = s.wqRear := by simp [State.strl]
@[simp] theorem State.strl_wqFront (s : State) (o : Agent) (c : CellSel) (v : Word) : (s.strl o c v).wqFront = s.wqFront := by simp [State.strl]
@[simp] theorem State.strl_beat (s : State) (o : Agent) (c : CellSel) (v : Word) : (s.strl o c v).beat = s.beat := by simp [State.strl]
@[simp] theorem State.strl_inbox (s : State) (o : Agent) (c : CellSel) (v : Word) : (s.strl o c v).inbox = s.inbox := by simp [State.strl]
@[simp] theorem State.strl_out (s : State) (o : Agent) (c : CellSel) (v : Word) : (s.strl o c v).out = s.out := by simp [State.strl]
@[simp] theorem State.strl_sched (s : State) (o : Agent) (c : CellSel) (v : Word) : (s.strl o c v).sched = s.sched := by simp [State.strl]
@[simp] theorem State.strl_choices (s : State) (o : Agent) (c : CellSel) (v : Word) : (s.strl o c v).choices = s.choices := by simp [State.strl]
@[simp] theorem State.strl_draws (s : State) (o : Agent) (c : CellSel) (v : Word) : (s.strl o c v).draws = s.draws := by simp [State.strl]

@[simp] theorem State.readNow_par (s : State) (o : Agent) (c : CellSel) : (s.readNow o c).par = s.par := by simp [State.readNow]
@[simp] theorem State.readNow_cfg (s : State) (o : Agent) (c : CellSel) : (s.readNow o c).cfg = s.cfg := by simp [State.readNow]
@[simp] theorem State.readNow_rear (s : State) (o : Agent) (c : CellSel) : (s.readNow o c).rear = s.rear := by simp [State.readNow]
@[simp] theorem State.readNow_front (s : State) (o : Agent) (c : CellSel) : (s.readNow o c).front = s.front := by simp [State.readNow]
@[simp] theorem State.readNow_buf (s : State) (o : Agent) (c : CellSel) : (s.readNow o c).buf = s.buf := by simp [State.readNow]
@[simp] theorem State.readNow_writes (s : State) (o : Agent) (c : CellSel) : (s.readNow o c).writes = s.writes := by simp [State.readNow]
@[simp] theorem State.readNow_wqRear (s : State) (o : Agent) (c : CellSel) : (s.readNow o c).wqRear = s.wqRear := by simp [State.readNow]
@[simp] theorem State.readNow_wqFront (s : State) (o : Agent) (c : CellSel) : (s.readNow o c).wqFront = s.wqFront := by simp [State.readNow]
@[simp] theorem State.readNow_beat (s : State) (o : Agent) (c : CellSel) : (s.readNow o c).beat = s.beat := by simp [State.readNow]
@[simp] theorem State.readNow_inbox (s : State) (o : Agent) (c : CellSel) : (s.readNow o c).inbox = s.inbox := by simp [State.readNow]
@[simp] theorem State.readNow_out (s : State) (o : Agent) (c : CellSel) : (s.readNow o c).out = s.out := by simp [State.readNow]
@[simp] theorem State.readNow_sched (s : State) (o : Agent) (c : CellSel) : (s.readNow o c).sched = s.sched := by simp [State.readNow]
@[simp] theorem State.readNow_choices (s : State) (o : Agent) (c : CellSel) : (s.readNow o c).choices = s.choices := by simp [State.readNow]
@[simp] theorem State.readNow_draws (s : State) (o : Agent) (c : CellSel) : (s.readNow o c).draws = s.draws := by simp [State.readNow]

@[simp] theorem State.readParking_par (s : State) (o : Agent) (c : CellSel) : (s.readParking o c).par = s.par := by simp [State.readParking]
@[simp] theorem State.readParking_cfg (s : State) (o : Agent) (c : CellSel) : (s.readParking o c).cfg = s.cfg := by simp [State.readParking]
@[simp] theorem State.readParking_rear (s : State) (o : Agent) (c : CellSel) : (s.readParking o c).rear = s.rear := by simp [State.readParking]
@[simp] theorem State.readParking_front (s : State) (o : Agent) (c : CellSel) : (s.readParking o c).front = s.front := by simp [State.readParking]
@[simp] theorem State.readParking_buf (s : State) (o : Agent) (c : CellSel) : (s.readParking o c).buf = s.buf := by simp [State.readParking]
@[simp] theorem State.readParking_writes (s : State) (o : Agent) (c : CellSel) : (s.readParking o c).writes = s.writes := by simp [State.readParking]
@[simp] theorem State.readParking_wqRear (s : State) (o : Agent) (c : CellSel) : (s.readParking o c).wqRear = s.wqRear := by simp [State.readParking]
@[simp] theorem State.readParking_wqFront (s : State) (o : Agent) (c : CellSel) : (s.readParking o c).wqFront = s.wqFront := by simp [State.readParking]
@[simp] theorem State.readParking_beat (s : State) (o : Agent) (c : CellSel) : (s.readParking o c).beat = s.beat := by simp [State.readParking]
@[simp] theorem State.readParking_inbox (s : State) (o : Agent) (c : CellSel) : (s.readParking o c).inbox = s.inbox := by simp [State.readParking]
@[simp] theorem State.readParking_out (s : State) (o : Agent) (c : CellSel) : (s.readParking o c).out = s.out := by simp [State.readParking]
@[simp] theorem State.readParking_sched (s : State) (o : Agent) (c : CellSel) : (s.readParking o c).sched = s.sched := by simp [State.readParking]
@[simp] theorem State.readParking_choices (s : State) (o : Agent) (c : CellSel) : (s.readParking o c).choices = s.choices := by simp [State.readParking]
@[simp] theorem State.readParking_draws (s : State) (o : Agent) (c : CellSel) : (s.readParking o c).draws = s.draws := by simp [State.readParking]

@[simp] theorem State.storeByte_par (s : State) (o : Agent) (off : Nat) (b : Byte) : (s.storeByte o off b).par = s.par := by simp [State.storeByte]
@[simp] theorem State.storeByte_cfg (s : State) (o : Agent) (off : Nat) (b : Byte) : (s.storeByte o off b).cfg = s.cfg := by simp [State.storeByte]
@[simp] theorem State.storeByte_rear (s : State) (o : Agent) (off : Nat) (b : Byte) : (s.storeByte o off b).rear = s.rear := by simp [State.storeByte]
@[simp] theorem State.storeByte_front (s : State) (o : Agent) (off : Nat) (b : Byte) : (s.storeByte o off b).front = s.front := by simp [State.storeByte]
@[simp] theorem State.storeByte_wqRear (s : State) (o : Agent) (off : Nat) (b : Byte) : (s.storeByte o off b).wqRear = s.wqRear := by simp [State.storeByte]
@[simp] theorem State.storeByte_wqFront (s : State) (o : Agent) (off : Nat) (b : Byte) : (s.storeByte o off b).wqFront = s.wqFront := by simp [State.storeByte]
@[simp] theorem State.storeByte_beat (s : State) (o : Agent) (off : Nat) (b : Byte) : (s.storeByte o off b).beat = s.beat := by simp [State.storeByte]
@[simp] theorem State.storeByte_inbox (s : State) (o : Agent) (off : Nat) (b : Byte) : (s.storeByte o off b).inbox = s.inbox := by simp [State.storeByte]
@[simp] theorem State.storeByte_out (s : State) (o : Agent) (off : Nat) (b : Byte) : (s.storeByte o off b).out = s.out := by simp [State.storeByte]
@[simp] theorem State.storeByte_sched (s : State) (o : Agent) (off : Nat) (b : Byte) : (s.storeByte o off b).sched = s.sched := by simp [State.storeByte]
@[simp] theorem State.storeByte_choices (s : State) (o : Agent) (off : Nat) (b : Byte) : (s.storeByte o off b).choices = s.choices := by simp [State.storeByte]
@[simp] theorem State.storeByte_draws (s : State) (o : Agent) (off : Nat) (b : Byte) : (s.storeByte o off b).draws = s.draws := by simp [State.storeByte]

/-! ### The wait adapter -/

@[simp] theorem State.enqueue_par (s : State) (o : Agent) (c : CellSel) : (s.enqueue o c).par = s.par := by simp [State.enqueue]
@[simp] theorem State.enqueue_cfg (s : State) (o : Agent) (c : CellSel) : (s.enqueue o c).cfg = s.cfg := by simp [State.enqueue]
@[simp] theorem State.enqueue_rear (s : State) (o : Agent) (c : CellSel) : (s.enqueue o c).rear = s.rear := by simp [State.enqueue]
@[simp] theorem State.enqueue_front (s : State) (o : Agent) (c : CellSel) : (s.enqueue o c).front = s.front := by simp [State.enqueue]
@[simp] theorem State.enqueue_buf (s : State) (o : Agent) (c : CellSel) : (s.enqueue o c).buf = s.buf := by simp [State.enqueue]
@[simp] theorem State.enqueue_writes (s : State) (o : Agent) (c : CellSel) : (s.enqueue o c).writes = s.writes := by simp [State.enqueue]
@[simp] theorem State.enqueue_w (s : State) (o : Agent) (c : CellSel) : (s.enqueue o c).w = s.w := by simp [State.enqueue]
@[simp] theorem State.enqueue_readers (s : State) (o : Agent) (c : CellSel) : (s.enqueue o c).readers = s.readers := by simp [State.enqueue]
@[simp] theorem State.enqueue_peer (s : State) (o : Agent) (c : CellSel) : (s.enqueue o c).peer = s.peer := by simp [State.enqueue]
@[simp] theorem State.enqueue_beat (s : State) (o : Agent) (c : CellSel) : (s.enqueue o c).beat = s.beat := by simp [State.enqueue]
@[simp] theorem State.enqueue_inbox (s : State) (o : Agent) (c : CellSel) : (s.enqueue o c).inbox = s.inbox := by simp [State.enqueue]
@[simp] theorem State.enqueue_out (s : State) (o : Agent) (c : CellSel) : (s.enqueue o c).out = s.out := by simp [State.enqueue]
@[simp] theorem State.enqueue_sched (s : State) (o : Agent) (c : CellSel) : (s.enqueue o c).sched = s.sched := by simp [State.enqueue]
@[simp] theorem State.enqueue_choices (s : State) (o : Agent) (c : CellSel) : (s.enqueue o c).choices = s.choices := by simp [State.enqueue]
@[simp] theorem State.enqueue_draws (s : State) (o : Agent) (c : CellSel) : (s.enqueue o c).draws = s.draws := by simp [State.enqueue]

@[simp] theorem State.dequeue_par (s : State) (o : Agent) (c : CellSel) : (s.dequeue o c).par = s.par := by simp [State.dequeue]
@[simp] theorem State.dequeue_cfg (s : State) (o : Agent) (c : CellSel) : (s.dequeue o c).cfg = s.cfg := by simp [State.dequeue]
@[simp] theorem State.dequeue_rear (s : State) (o : Agent) (c : CellSel) : (s.dequeue o c).rear = s.rear := by simp [State.dequeue]
@[simp] theorem State.dequeue_front (s : State) (o : Agent) (c : CellSel) : (s.dequeue o c).front = s.front := by simp [State.dequeue]
@[simp] theorem State.dequeue_buf (s : State) (o : Agent) (c : CellSel) : (s.dequeue o c).buf = s.buf := by simp [State.dequeue]
@[simp] theorem State.dequeue_writes (s : State) (o : Agent) (c : CellSel) : (s.dequeue o c).writes = s.writes := by simp [State.dequeue]
@[simp] theorem State.dequeue_w (s : State) (o : Agent) (c : CellSel) : (s.dequeue o c).w = s.w := by simp [State.dequeue]
@[simp] theorem State.dequeue_readers (s : State) (o : Agent) (c : CellSel) : (s.dequeue o c).readers = s.readers := by simp [State.dequeue]
@[simp] theorem State.dequeue_peer (s : State) (o : Agent) (c : CellSel) : (s.dequeue o c).peer = s.peer := by simp [State.dequeue]
@[simp] theorem State.dequeue_beat (s : State) (o : Agent) (c : CellSel) : (s.dequeue o c).beat = s.beat := by simp [State.dequeue]
@[simp] theorem State.dequeue_inbox (s : State) (o : Agent) (c : CellSel) : (s.dequeue o c).inbox = s.inbox := by simp [State.dequeue]
@[simp] theorem State.dequeue_out (s : State) (o : Agent) (c : CellSel) : (s.dequeue o c).out = s.out := by simp [State.dequeue]
@[simp] theorem State.dequeue_sched (s : State) (o : Agent) (c : CellSel) : (s.dequeue o c).sched = s.sched := by simp [State.dequeue]
@[simp] theorem State.dequeue_choices (s : State) (o : Agent) (c : CellSel) : (s.dequeue o c).choices = s.choices := by simp [State.dequeue]
@[simp] theorem State.dequeue_draws (s : State) (o : Agent) (c : CellSel) : (s.dequeue o c).draws = s.draws := by simp [State.dequeue]

@[simp] theorem State.release_par (v : Seen) (s : State) (o : Agent) : (State.release v s o).par = s.par := by cases o <;> rfl
@[simp] theorem State.release_cfg (v : Seen) (s : State) (o : Agent) : (State.release v s o).cfg = s.cfg := by cases o <;> rfl
@[simp] theorem State.release_rear (v : Seen) (s : State) (o : Agent) : (State.release v s o).rear = s.rear := by cases o <;> rfl
@[simp] theorem State.release_front (v : Seen) (s : State) (o : Agent) : (State.release v s o).front = s.front := by cases o <;> rfl
@[simp] theorem State.release_buf (v : Seen) (s : State) (o : Agent) : (State.release v s o).buf = s.buf := by cases o <;> rfl
@[simp] theorem State.release_writes (v : Seen) (s : State) (o : Agent) : (State.release v s o).writes = s.writes := by cases o <;> rfl
@[simp] theorem State.release_wqRear (v : Seen) (s : State) (o : Agent) : (State.release v s o).wqRear = s.wqRear := by cases o <;> rfl
@[simp] theorem State.release_wqFront (v : Seen) (s : State) (o : Agent) : (State.release v s o).wqFront = s.wqFront := by cases o <;> rfl
@[simp] theorem State.release_beat (v : Seen) (s : State) (o : Agent) : (State.release v s o).beat = s.beat := by cases o <;> rfl
@[simp] theorem State.release_inbox (v : Seen) (s : State) (o : Agent) : (State.release v s o).inbox = s.inbox := by cases o <;> rfl
@[simp] theorem State.release_out (v : Seen) (s : State) (o : Agent) : (State.release v s o).out = s.out := by cases o <;> rfl
@[simp] theorem State.release_sched (v : Seen) (s : State) (o : Agent) : (State.release v s o).sched = s.sched := by cases o <;> rfl
@[simp] theorem State.release_choices (v : Seen) (s : State) (o : Agent) : (State.release v s o).choices = s.choices := by cases o <;> rfl
@[simp] theorem State.release_draws (v : Seen) (s : State) (o : Agent) : (State.release v s o).draws = s.draws := by cases o <;> rfl

@[simp] theorem State.wakeOne_par (s : State) (o : Agent) (c : CellSel) : (s.wakeOne o c).par = s.par := by
  unfold State.wakeOne; split <;> simp
@[simp] theorem State.wakeOne_cfg (s : State) (o : Agent) (c : CellSel) : (s.wakeOne o c).cfg = s.cfg := by
  unfold State.wakeOne; split <;> simp
@[simp] theorem State.wakeOne_rear (s : State) (o : Agent) (c : CellSel) : (s.wakeOne o c).rear = s.rear := by
  unfold State.wakeOne; split <;> simp
@[simp] theorem State.wakeOne_front (s : State) (o : Agent) (c : CellSel) : (s.wakeOne o c).front = s.front := by
  unfold State.wakeOne; split <;> simp
@[simp] theorem State.wakeOne_buf (s : State) (o : Agent) (c : CellSel) : (s.wakeOne o c).buf = s.buf := by
  unfold State.wakeOne; split <;> simp
@[simp] theorem State.wakeOne_writes (s : State) (o : Agent) (c : CellSel) : (s.wakeOne o c).writes = s.writes := by
  unfold State.wakeOne; split <;> simp
@[simp] theorem State.wakeOne_beat (s : State) (o : Agent) (c : CellSel) : (s.wakeOne o c).beat = s.beat := by
  unfold State.wakeOne; split <;> simp
@[simp] theorem State.wakeOne_inbox (s : State) (o : Agent) (c : CellSel) : (s.wakeOne o c).inbox = s.inbox := by
  unfold State.wakeOne; split <;> simp
@[simp] theorem State.wakeOne_out (s : State) (o : Agent) (c : CellSel) : (s.wakeOne o c).out = s.out := by
  unfold State.wakeOne; split <;> simp
@[simp] theorem State.wakeOne_sched (s : State) (o : Agent) (c : CellSel) : (s.wakeOne o c).sched = s.sched := by
  unfold State.wakeOne; split <;> simp

@[simp] theorem State.releaseAll_par (v : Seen) (q : List Agent) (s : State) : (q.foldl (State.release v) s).par = s.par := by
  induction q generalizing s with
  | nil => rfl
  | cons o q ih => simp [ih]
@[simp] theorem State.releaseAll_cfg (v : Seen) (q : List Agent) (s : State) : (q.foldl (State.release v) s).cfg = s.cfg := by
  induction q generalizing s with
  | nil => rfl
  | cons o q ih => simp [ih]
@[simp] theorem State.releaseAll_rear (v : Seen) (q : List Agent) (s : State) : (q.foldl (State.release v) s).rear = s.rear := by
  induction q generalizing s with
  | nil => rfl
  | cons o q ih => simp [ih]
@[simp] theorem State.releaseAll_front (v : Seen) (q : List Agent) (s : State) : (q.foldl (State.release v) s).front = s.front := by
  induction q generalizing s with
  | nil => rfl
  | cons o q ih => simp [ih]
@[simp] theorem State.releaseAll_buf (v : Seen) (q : List Agent) (s : State) : (q.foldl (State.release v) s).buf = s.buf := by
  induction q generalizing s with
  | nil => rfl
  | cons o q ih => simp [ih]
@[simp] theorem State.releaseAll_writes (v : Seen) (q : List Agent) (s : State) : (q.foldl (State.release v) s).writes = s.writes := by
  induction q generalizing s with
  | nil => rfl
  | cons o q ih => simp [ih]
@[simp] theorem State.releaseAll_wqRear (v : Seen) (q : List Agent) (s : State) : (q.foldl (State.release v) s).wqRear = s.wqRear := by
  induction q generalizing s with
  | nil => rfl
  | cons o q ih => simp [ih]
@[simp] theorem State.releaseAll_wqFront (v : Seen) (q : List Agent) (s : State) : (q.foldl (State.release v) s).wqFront = s.wqFront := by
  induction q generalizing s with
  | nil => rfl
  | cons o q ih => simp [ih]
@[simp] theorem State.releaseAll_beat (v : Seen) (q : List Agent) (s : State) : (q.foldl (State.release v) s).beat = s.beat := by
  induction q generalizing s with
  | nil => rfl
  | cons o q ih => simp [ih]
@[simp] theorem State.releaseAll_inbox (v : Seen) (q : List Agent) (s : State) : (q.foldl (State.release v) s).inbox = s.inbox := by
  induction q generalizing s with
  | nil => rfl
  | cons o q ih => simp [ih]
@[simp] theorem State.releaseAll_out (v : Seen) (q : List Agent) (s : State) : (q.foldl (State.release v) s).out = s.out := by
  induction q generalizing s with
  | nil => rfl
  | cons o q ih => simp [ih]
@[simp] theorem State.releaseAll_sched (v : Seen) (q : List Agent) (s : State) : (q.foldl (State.release v) s).sched = s.sched := by
  induction q generalizing s with
  | nil => rfl
  | cons o q ih => simp [ih]
@[simp] theorem State.releaseAll_choices (v : Seen) (q : List Agent) (s : State) : (q.foldl (State.release v) s).choices = s.choices := by
  induction q generalizing s with
  | nil => rfl
  | cons o q ih => simp [ih]
@[simp] theorem State.releaseAll_draws (v : Seen) (q : List Agent) (s : State) : (q.foldl (State.release v) s).draws = s.draws := by
  induction q generalizing s with
  | nil => rfl
  | cons o q ih => simp [ih]

@[simp] theorem State.wakeAll_par (s : State) (o : Agent) (c : CellSel) : (s.wakeAll o c).par = s.par := by simp [State.wakeAll]
@[simp] theorem State.wakeAll_cfg (s : State) (o : Agent) (c : CellSel) : (s.wakeAll o c).cfg = s.cfg := by simp [State.wakeAll]
@[simp] theorem State.wakeAll_rear (s : State) (o : Agent) (c : CellSel) : (s.wakeAll o c).rear = s.rear := by simp [State.wakeAll]
@[simp] theorem State.wakeAll_front (s : State) (o : Agent) (c : CellSel) : (s.wakeAll o c).front = s.front := by simp [State.wakeAll]
@[simp] theorem State.wakeAll_buf (s : State) (o : Agent) (c : CellSel) : (s.wakeAll o c).buf = s.buf := by simp [State.wakeAll]
@[simp] theorem State.wakeAll_writes (s : State) (o : Agent) (c : CellSel) : (s.wakeAll o c).writes = s.writes := by simp [State.wakeAll]
@[simp] theorem State.wakeAll_beat (s : State) (o : Agent) (c : CellSel) : (s.wakeAll o c).beat = s.beat := by simp [State.wakeAll]
@[simp] theorem State.wakeAll_inbox (s : State) (o : Agent) (c : CellSel) : (s.wakeAll o c).inbox = s.inbox := by simp [State.wakeAll]
@[simp] theorem State.wakeAll_out (s : State) (o : Agent) (c : CellSel) : (s.wakeAll o c).out = s.out := by simp [State.wakeAll]
@[simp] theorem State.wakeAll_sched (s : State) (o : Agent) (c : CellSel) : (s.wakeAll o c).sched = s.sched := by simp [State.wakeAll]
@[simp] theorem State.wakeAll_choices (s : State) (o : Agent) (c : CellSel) : (s.wakeAll o c).choices = s.choices := by simp [State.wakeAll]
@[simp] theorem State.wakeAll_draws (s : State) (o : Agent) (c : CellSel) : (s.wakeAll o c).draws = s.draws := by simp [State.wakeAll]

@[simp] theorem State.wakeOwn_par (s : State) (o : Agent) (c : CellSel) : (s.wakeOwn o c).par = s.par := by
  unfold State.wakeOwn; split <;> simp
@[simp] theorem State.wakeOwn_cfg (s : State) (o : Agent) (c : CellSel) : (s.wakeOwn o c).cfg = s.cfg := by
  unfold State.wakeOwn; split <;> simp
@[simp] theorem State.wakeOwn_rear (s : State) (o : Agent) (c : CellSel) : (s.wakeOwn o c).rear = s.rear := by
  unfold State.wakeOwn; split <;> simp
@[simp] theorem State.wakeOwn_front (s : State) (o : Agent) (c : CellSel) : (s.wakeOwn o c).front = s.front := by
  unfold State.wakeOwn; split <;> simp
@[simp] theorem State.wakeOwn_buf (s : State) (o : Agent) (c : CellSel) : (s.wakeOwn o c).buf = s.buf := by
  unfold State.wakeOwn; split <;> simp
@[simp] theorem State.wakeOwn_writes (s : State) (o : Agent) (c : CellSel) : (s.wakeOwn o c).writes = s.writes := by
  unfold State.wakeOwn; split <;> simp
@[simp] theorem State.wakeOwn_beat (s : State) (o : Agent) (c : CellSel) : (s.wakeOwn o c).beat = s.beat := by
  unfold State.wakeOwn; split <;> simp
@[simp] theorem State.wakeOwn_inbox (s : State) (o : Agent) (c : CellSel) : (s.wakeOwn o c).inbox = s.inbox := by
  unfold State.wakeOwn; split <;> simp
@[simp] theorem State.wakeOwn_out (s : State) (o : Agent) (c : CellSel) : (s.wakeOwn o c).out = s.out := by
  unfold State.wakeOwn; split <;> simp
@[simp] theorem State.wakeOwn_sched (s : State) (o : Agent) (c : CellSel) : (s.wakeOwn o c).sched = s.sched := by
  unfold State.wakeOwn; split <;> simp

@[simp] theorem State.unpark_par (s : State) (o : Agent) (p : Park) : (s.unpark o p).par = s.par := by simp [State.unpark]
@[simp] theorem State.unpark_cfg (s : State) (o : Agent) (p : Park) : (s.unpark o p).cfg = s.cfg := by simp [State.unpark]
@[simp] theorem State.unpark_rear (s : State) (o : Agent) (p : Park) : (s.unpark o p).rear = s.rear := by simp [State.unpark]
@[simp] theorem State.unpark_front (s : State) (o : Agent) (p : Park) : (s.unpark o p).front = s.front := by simp [State.unpark]
@[simp] theorem State.unpark_buf (s : State) (o : Agent) (p : Park) : (s.unpark o p).buf = s.buf := by simp [State.unpark]
@[simp] theorem State.unpark_writes (s : State) (o : Agent) (p : Park) : (s.unpark o p).writes = s.writes := by simp [State.unpark]
@[simp] theorem State.unpark_beat (s : State) (o : Agent) (p : Park) : (s.unpark o p).beat = s.beat := by simp [State.unpark]
@[simp] theorem State.unpark_inbox (s : State) (o : Agent) (p : Park) : (s.unpark o p).inbox = s.inbox := by simp [State.unpark]
@[simp] theorem State.unpark_out (s : State) (o : Agent) (p : Park) : (s.unpark o p).out = s.out := by simp [State.unpark]
@[simp] theorem State.unpark_sched (s : State) (o : Agent) (p : Park) : (s.unpark o p).sched = s.sched := by simp [State.unpark]

end Sys2Proof.Machine
end

