-- ==== Sys2Proof/Laws/Registers.lean ====
section
/-! SUPPORT. The endpoint registers under the named operations: who keeps which register, and a reader's registers read back. -/

namespace Sys2Proof.Machine

open Sys2Proof

/-! ### Reading a reader's registers back -/

@[simp] theorem State.setRd_length (s : State) (i : Nat) (r : Reader) :
    (s.setRd i r).readers.length = s.readers.length := by simp [State.setRd]

theorem State.rd_of_not_lt {s : State} {i : Nat} (h : ¬ i < s.readers.length) : s.rd i = {} := by
  simp [State.rd, List.getElem?_eq_none (Nat.le_of_not_lt h)]

theorem State.rd_eq_getElem {s : State} {i : Nat} (h : i < s.readers.length) : s.rd i = s.readers[i] := by
  simp [State.rd, h]

/-- A statement about every reader, by number. -/
theorem State.forall_readers {s : State} {P : Reader → Prop} :
    (∀ r ∈ s.readers, P r) ↔ ∀ i, i < s.readers.length → P (s.rd i) := by
  constructor
  · intro h i hi
    rw [State.rd_eq_getElem hi]
    exact h _ (List.getElem_mem hi)
  · intro h r hr
    obtain ⟨i, hi, rfl⟩ := List.getElem_of_mem hr
    rw [← State.rd_eq_getElem hi]
    exact h i hi

@[simp] theorem State.rd_setRd_same {s : State} {i : Nat} (h : i < s.readers.length) (r : Reader) :
    (s.setRd i r).rd i = r := by simp [State.rd, State.setRd, h]

@[simp] theorem State.rd_setRd_ne {s : State} {i j : Nat} (h : i ≠ j) (r : Reader) :
    (s.setRd i r).rd j = s.rd j := by simp [State.rd, State.setRd, List.getElem?_set_ne h]

theorem State.setRd_of_not_lt {s : State} {i : Nat} (h : ¬ i < s.readers.length) (r : Reader) : s.setRd i r = s := by
  simp [State.setRd, List.set_eq_of_length_le (Nat.le_of_not_lt h)]

/-- What `rd` reads after `setRd`, for every pair of numbers. -/
theorem State.rd_setRd (s : State) (i j : Nat) (r : Reader) :
    (s.setRd i r).rd j = if i = j ∧ i < s.readers.length then r else s.rd j := by
  by_cases hi : i < s.readers.length
  · by_cases hij : i = j
    · subst hij; simp [hi]
    · simp [hij]
  · rw [State.setRd_of_not_lt hi]; simp [hi]

/-- An endpoint whose phase is not DETACHED is one the instance has. -/
theorem State.lt_of_not_detached {s : State} {i : Nat} (h : (s.rd i).ph.isDetached = false) : i < s.readers.length := by
  by_contra hn
  rw [State.rd_of_not_lt hn] at h
  exact absurd h (by decide)

theorem State.lt_of_busy {s : State} {i : Nat} {t : Task} (h : (s.rd i).ph = .busy t) : i < s.readers.length :=
  State.lt_of_not_detached (by rw [h]; rfl)

theorem State.lt_of_parked {s : State} {i : Nat} {t : Task} {p : Park} (h : (s.rd i).ph = .parked t p) :
    i < s.readers.length :=
  State.lt_of_not_detached (by rw [h]; rfl)

theorem State.rd_congr {s t : State} (h : t.readers = s.readers) (i : Nat) : t.rd i = s.rd i := by
  simp [State.rd, h]

/-! ### What an agent holds about the cells -/

theorem State.obs_setObs {s : State} {o : Agent} (h : s.hasPort o = true) (hh : o ≠ .host) (x : Observer) :
    (s.setObs o x).obs o = x := by
  cases o with
  | host => exact absurd rfl hh
  | writer => rfl
  | reader i => simp only [State.hasPort, decide_eq_true_eq] at h; simp [State.setObs, State.obs, h]
  | peer => rfl

/-! ### Registers under the operations on cells, order and wakes -/

@[simp] theorem State.setObs_w_lr (s : State) (o : Agent) (x : Observer) : (s.setObs o x).w.lr = s.w.lr := by cases o <;> rfl
@[simp] theorem State.setObs_w_eff (s : State) (o : Agent) (x : Observer) : (s.setObs o x).w.eff = s.w.eff := by cases o <;> rfl
@[simp] theorem State.setObs_w_armed (s : State) (o : Agent) (x : Observer) : (s.setObs o x).w.armed = s.w.armed := by cases o <;> rfl
@[simp] theorem State.setObs_w_lla (s : State) (o : Agent) (x : Observer) : (s.setObs o x).w.lla = s.w.lla := by cases o <;> rfl
@[simp] theorem State.setObs_w_hlt (s : State) (o : Agent) (x : Observer) : (s.setObs o x).w.hlt = s.w.hlt := by cases o <;> rfl
@[simp] theorem State.setObs_w_obt (s : State) (o : Agent) (x : Observer) : (s.setObs o x).w.obt = s.w.obt := by cases o <;> rfl
@[simp] theorem State.setObs_w_att (s : State) (o : Agent) (x : Observer) : (s.setObs o x).w.att = s.w.att := by cases o <;> rfl
@[simp] theorem State.setObs_w_exp (s : State) (o : Agent) (x : Observer) : (s.setObs o x).w.exp = s.w.exp := by cases o <;> rfl
@[simp] theorem State.setObs_w_ph (s : State) (o : Agent) (x : Observer) : (s.setObs o x).w.ph = s.w.ph := by cases o <;> rfl

@[simp] theorem State.setObs_length (s : State) (o : Agent) (x : Observer) : (s.setObs o x).readers.length = s.readers.length := by cases o <;> simp [State.setObs]
@[simp] theorem State.setObs_rd_lf (s : State) (o : Agent) (x : Observer) (j : Nat) : ((s.setObs o x).rd j).lf = (s.rd j).lf := by
  cases o with
  | reader i => simp only [State.setObs, State.rd_setRd]; split <;> simp_all
  | _ => rfl
@[simp] theorem State.setObs_rd_thr (s : State) (o : Agent) (x : Observer) (j : Nat) : ((s.setObs o x).rd j).thr = (s.rd j).thr := by
  cases o with
  | reader i => simp only [State.setObs, State.rd_setRd]; split <;> simp_all
  | _ => rfl
@[simp] theorem State.setObs_rd_armed (s : State) (o : Agent) (x : Observer) (j : Nat) : ((s.setObs o x).rd j).armed = (s.rd j).armed := by
  cases o with
  | reader i => simp only [State.setObs, State.rd_setRd]; split <;> simp_all
  | _ => rfl
@[simp] theorem State.setObs_rd_hla (s : State) (o : Agent) (x : Observer) (j : Nat) : ((s.setObs o x).rd j).hla = (s.rd j).hla := by
  cases o with
  | reader i => simp only [State.setObs, State.rd_setRd]; split <;> simp_all
  | _ => rfl
@[simp] theorem State.setObs_rd_llt (s : State) (o : Agent) (x : Observer) (j : Nat) : ((s.setObs o x).rd j).llt = (s.rd j).llt := by
  cases o with
  | reader i => simp only [State.setObs, State.rd_setRd]; split <;> simp_all
  | _ => rfl
@[simp] theorem State.setObs_rd_obt (s : State) (o : Agent) (x : Observer) (j : Nat) : ((s.setObs o x).rd j).obt = (s.rd j).obt := by
  cases o with
  | reader i => simp only [State.setObs, State.rd_setRd]; split <;> simp_all
  | _ => rfl
@[simp] theorem State.setObs_rd_lost (s : State) (o : Agent) (x : Observer) (j : Nat) : ((s.setObs o x).rd j).lost = (s.rd j).lost := by
  cases o with
  | reader i => simp only [State.setObs, State.rd_setRd]; split <;> simp_all
  | _ => rfl
@[simp] theorem State.setObs_rd_att (s : State) (o : Agent) (x : Observer) (j : Nat) : ((s.setObs o x).rd j).att = (s.rd j).att := by
  cases o with
  | reader i => simp only [State.setObs, State.rd_setRd]; split <;> simp_all
  | _ => rfl
@[simp] theorem State.setObs_rd_exp (s : State) (o : Agent) (x : Observer) (j : Nat) : ((s.setObs o x).rd j).exp = (s.rd j).exp := by
  cases o with
  | reader i => simp only [State.setObs, State.rd_setRd]; split <;> simp_all
  | _ => rfl
@[simp] theorem State.setObs_rd_ph (s : State) (o : Agent) (x : Observer) (j : Nat) : ((s.setObs o x).rd j).ph = (s.rd j).ph := by
  cases o with
  | reader i => simp only [State.setObs, State.rd_setRd]; split <;> simp_all
  | _ => rfl

@[simp] theorem State.ldaq_w_lr (s : State) (o : Agent) (c : CellSel) : ((s.ldaq o c).2).w.lr = s.w.lr := by simp [State.ldaq]
@[simp] theorem State.ldaq_w_eff (s : State) (o : Agent) (c : CellSel) : ((s.ldaq o c).2).w.eff = s.w.eff := by simp [State.ldaq]
@[simp] theorem State.ldaq_w_armed (s : State) (o : Agent) (c : CellSel) : ((s.ldaq o c).2).w.armed = s.w.armed := by simp [State.ldaq]
@[simp] theorem State.ldaq_w_lla (s : State) (o : Agent) (c : CellSel) : ((s.ldaq o c).2).w.lla = s.w.lla := by simp [State.ldaq]
@[simp] theorem State.ldaq_w_hlt (s : State) (o : Agent) (c : CellSel) : ((s.ldaq o c).2).w.hlt = s.w.hlt := by simp [State.ldaq]
@[simp] theorem State.ldaq_w_obt (s : State) (o : Agent) (c : CellSel) : ((s.ldaq o c).2).w.obt = s.w.obt := by simp [State.ldaq]
@[simp] theorem State.ldaq_w_att (s : State) (o : Agent) (c : CellSel) : ((s.ldaq o c).2).w.att = s.w.att := by simp [State.ldaq]
@[simp] theorem State.ldaq_w_exp (s : State) (o : Agent) (c : CellSel) : ((s.ldaq o c).2).w.exp = s.w.exp := by simp [State.ldaq]
@[simp] theorem State.ldaq_w_ph (s : State) (o : Agent) (c : CellSel) : ((s.ldaq o c).2).w.ph = s.w.ph := by simp [State.ldaq]

@[simp] theorem State.ldaq_length (s : State) (o : Agent) (c : CellSel) : ((s.ldaq o c).2).readers.length = s.readers.length := by simp [State.ldaq]
@[simp] theorem State.ldaq_rd_lf (s : State) (o : Agent) (c : CellSel) (j : Nat) : (((s.ldaq o c).2).rd j).lf = (s.rd j).lf := by simp [State.ldaq, State.rd_congr (State.lagPos_readers s o c)]
@[simp] theorem State.ldaq_rd_thr (s : State) (o : Agent) (c : CellSel) (j : Nat) : (((s.ldaq o c).2).rd j).thr = (s.rd j).thr := by simp [State.ldaq, State.rd_congr (State.lagPos_readers s o c)]
@[simp] theorem State.ldaq_rd_armed (s : State) (o : Agent) (c : CellSel) (j : Nat) : (((s.ldaq o c).2).rd j).armed = (s.rd j).armed := by simp [State.ldaq, State.rd_congr (State.lagPos_readers s o c)]
@[simp] theorem State.ldaq_rd_hla (s : State) (o : Agent) (c : CellSel) (j : Nat) : (((s.ldaq o c).2).rd j).hla = (s.rd j).hla := by simp [State.ldaq, State.rd_congr (State.lagPos_readers s o c)]
@[simp] theorem State.ldaq_rd_llt (s : State) (o : Agent) (c : CellSel) (j : Nat) : (((s.ldaq o c).2).rd j).llt = (s.rd j).llt := by simp [State.ldaq, State.rd_congr (State.lagPos_readers s o c)]
@[simp] theorem State.ldaq_rd_obt (s : State) (o : Agent) (c : CellSel) (j : Nat) : (((s.ldaq o c).2).rd j).obt = (s.rd j).obt := by simp [State.ldaq, State.rd_congr (State.lagPos_readers s o c)]
@[simp] theorem State.ldaq_rd_lost (s : State) (o : Agent) (c : CellSel) (j : Nat) : (((s.ldaq o c).2).rd j).lost = (s.rd j).lost := by simp [State.ldaq, State.rd_congr (State.lagPos_readers s o c)]
@[simp] theorem State.ldaq_rd_att (s : State) (o : Agent) (c : CellSel) (j : Nat) : (((s.ldaq o c).2).rd j).att = (s.rd j).att := by simp [State.ldaq, State.rd_congr (State.lagPos_readers s o c)]
@[simp] theorem State.ldaq_rd_exp (s : State) (o : Agent) (c : CellSel) (j : Nat) : (((s.ldaq o c).2).rd j).exp = (s.rd j).exp := by simp [State.ldaq, State.rd_congr (State.lagPos_readers s o c)]
@[simp] theorem State.ldaq_rd_ph (s : State) (o : Agent) (c : CellSel) (j : Nat) : (((s.ldaq o c).2).rd j).ph = (s.rd j).ph := by simp [State.ldaq, State.rd_congr (State.lagPos_readers s o c)]

@[simp] theorem State.strl_w_lr (s : State) (o : Agent) (c : CellSel) (v : Word) : (s.strl o c v).w.lr = s.w.lr := by simp [State.strl]
@[simp] theorem State.strl_w_eff (s : State) (o : Agent) (c : CellSel) (v : Word) : (s.strl o c v).w.eff = s.w.eff := by simp [State.strl]
@[simp] theorem State.strl_w_armed (s : State) (o : Agent) (c : CellSel) (v : Word) : (s.strl o c v).w.armed = s.w.armed := by simp [State.strl]
@[simp] theorem State.strl_w_lla (s : State) (o : Agent) (c : CellSel) (v : Word) : (s.strl o c v).w.lla = s.w.lla := by simp [State.strl]
@[simp] theorem State.strl_w_hlt (s : State) (o : Agent) (c : CellSel) (v : Word) : (s.strl o c v).w.hlt = s.w.hlt := by simp [State.strl]
@[simp] theorem State.strl_w_obt (s : State) (o : Agent) (c : CellSel) (v : Word) : (s.strl o c v).w.obt = s.w.obt := by simp [State.strl]
@[simp] theorem State.strl_w_att (s : State) (o : Agent) (c : CellSel) (v : Word) : (s.strl o c v).w.att = s.w.att := by simp [State.strl]
@[simp] theorem State.strl_w_exp (s : State) (o : Agent) (c : CellSel) (v : Word) : (s.strl o c v).w.exp = s.w.exp := by simp [State.strl]
@[simp] theorem State.strl_w_ph (s : State) (o : Agent) (c : CellSel) (v : Word) : (s.strl o c v).w.ph = s.w.ph := by simp [State.strl]

@[simp] theorem State.strl_length (s : State) (o : Agent) (c : CellSel) (v : Word) : (s.strl o c v).readers.length = s.readers.length := by simp [State.strl]
@[simp] theorem State.strl_rd_lf (s : State) (o : Agent) (c : CellSel) (v : Word) (j : Nat) : ((s.strl o c v).rd j).lf = (s.rd j).lf := by
  rw [State.strl]; rw [State.rd_congr (State.setCell_readers _ c _)]; simp
@[simp] theorem State.strl_rd_thr (s : State) (o : Agent) (c : CellSel) (v : Word) (j : Nat) : ((s.strl o c v).rd j).thr = (s.rd j).thr := by
  rw [State.strl]; rw [State.rd_congr (State.setCell_readers _ c _)]; simp
@[simp] theorem State.strl_rd_armed (s : State) (o : Agent) (c : CellSel) (v : Word) (j : Nat) : ((s.strl o c v).rd j).armed = (s.rd j).armed := by
  rw [State.strl]; rw [State.rd_congr (State.setCell_readers _ c _)]; simp
@[simp] theorem State.strl_rd_hla (s : State) (o : Agent) (c : CellSel) (v : Word) (j : Nat) : ((s.strl o c v).rd j).hla = (s.rd j).hla := by
  rw [State.strl]; rw [State.rd_congr (State.setCell_readers _ c _)]; simp
@[simp] theorem State.strl_rd_llt (s : State) (o : Agent) (c : CellSel) (v : Word) (j : Nat) : ((s.strl o c v).rd j).llt = (s.rd j).llt := by
  rw [State.strl]; rw [State.rd_congr (State.setCell_readers _ c _)]; simp
@[simp] theorem State.strl_rd_obt (s : State) (o : Agent) (c : CellSel) (v : Word) (j : Nat) : ((s.strl o c v).rd j).obt = (s.rd j).obt := by
  rw [State.strl]; rw [State.rd_congr (State.setCell_readers _ c _)]; simp
@[simp] theorem State.strl_rd_lost (s : State) (o : Agent) (c : CellSel) (v : Word) (j : Nat) : ((s.strl o c v).rd j).lost = (s.rd j).lost := by
  rw [State.strl]; rw [State.rd_congr (State.setCell_readers _ c _)]; simp
@[simp] theorem State.strl_rd_att (s : State) (o : Agent) (c : CellSel) (v : Word) (j : Nat) : ((s.strl o c v).rd j).att = (s.rd j).att := by
  rw [State.strl]; rw [State.rd_congr (State.setCell_readers _ c _)]; simp
@[simp] theorem State.strl_rd_exp (s : State) (o : Agent) (c : CellSel) (v : Word) (j : Nat) : ((s.strl o c v).rd j).exp = (s.rd j).exp := by
  rw [State.strl]; rw [State.rd_congr (State.setCell_readers _ c _)]; simp
@[simp] theorem State.strl_rd_ph (s : State) (o : Agent) (c : CellSel) (v : Word) (j : Nat) : ((s.strl o c v).rd j).ph = (s.rd j).ph := by
  rw [State.strl]; rw [State.rd_congr (State.setCell_readers _ c _)]; simp

@[simp] theorem State.readNow_w_lr (s : State) (o : Agent) (c : CellSel) : (s.readNow o c).w.lr = s.w.lr := by simp [State.readNow]
@[simp] theorem State.readNow_w_eff (s : State) (o : Agent) (c : CellSel) : (s.readNow o c).w.eff = s.w.eff := by simp [State.readNow]
@[simp] theorem State.readNow_w_armed (s : State) (o : Agent) (c : CellSel) : (s.readNow o c).w.armed = s.w.armed := by simp [State.readNow]
@[simp] theorem State.readNow_w_lla (s : State) (o : Agent) (c : CellSel) : (s.readNow o c).w.lla = s.w.lla := by simp [State.readNow]
@[simp] theorem State.readNow_w_hlt (s : State) (o : Agent) (c : CellSel) : (s.readNow o c).w.hlt = s.w.hlt := by simp [State.readNow]
@[simp] theorem State.readNow_w_obt (s : State) (o : Agent) (c : CellSel) : (s.readNow o c).w.obt = s.w.obt := by simp [State.readNow]
@[simp] theorem State.readNow_w_att (s : State) (o : Agent) (c : CellSel) : (s.readNow o c).w.att = s.w.att := by simp [State.readNow]
@[simp] theorem State.readNow_w_exp (s : State) (o : Agent) (c : CellSel) : (s.readNow o c).w.exp = s.w.exp := by simp [State.readNow]
@[simp] theorem State.readNow_w_ph (s : State) (o : Agent) (c : CellSel) : (s.readNow o c).w.ph = s.w.ph := by simp [State.readNow]

@[simp] theorem State.readNow_length (s : State) (o : Agent) (c : CellSel) : (s.readNow o c).readers.length = s.readers.length := by simp [State.readNow]
@[simp] theorem State.readNow_rd_lf (s : State) (o : Agent) (c : CellSel) (j : Nat) : ((s.readNow o c).rd j).lf = (s.rd j).lf := by simp [State.readNow]
@[simp] theorem State.readNow_rd_thr (s : State) (o : Agent) (c : CellSel) (j : Nat) : ((s.readNow o c).rd j).thr = (s.rd j).thr := by simp [State.readNow]
@[simp] theorem State.readNow_rd_armed (s : State) (o : Agent) (c : CellSel) (j : Nat) : ((s.readNow o c).rd j).armed = (s.rd j).armed := by simp [State.readNow]
@[simp] theorem State.readNow_rd_hla (s : State) (o : Agent) (c : CellSel) (j : Nat) : ((s.readNow o c).rd j).hla = (s.rd j).hla := by simp [State.readNow]
@[simp] theorem State.readNow_rd_llt (s : State) (o : Agent) (c : CellSel) (j : Nat) : ((s.readNow o c).rd j).llt = (s.rd j).llt := by simp [State.readNow]
@[simp] theorem State.readNow_rd_obt (s : State) (o : Agent) (c : CellSel) (j : Nat) : ((s.readNow o c).rd j).obt = (s.rd j).obt := by simp [State.readNow]
@[simp] theorem State.readNow_rd_lost (s : State) (o : Agent) (c : CellSel) (j : Nat) : ((s.readNow o c).rd j).lost = (s.rd j).lost := by simp [State.readNow]
@[simp] theorem State.readNow_rd_att (s : State) (o : Agent) (c : CellSel) (j : Nat) : ((s.readNow o c).rd j).att = (s.rd j).att := by simp [State.readNow]
@[simp] theorem State.readNow_rd_exp (s : State) (o : Agent) (c : CellSel) (j : Nat) : ((s.readNow o c).rd j).exp = (s.rd j).exp := by simp [State.readNow]
@[simp] theorem State.readNow_rd_ph (s : State) (o : Agent) (c : CellSel) (j : Nat) : ((s.readNow o c).rd j).ph = (s.rd j).ph := by simp [State.readNow]

@[simp] theorem State.readParking_w_lr (s : State) (o : Agent) (c : CellSel) : (s.readParking o c).w.lr = s.w.lr := by simp [State.readParking]
@[simp] theorem State.readParking_w_eff (s : State) (o : Agent) (c : CellSel) : (s.readParking o c).w.eff = s.w.eff := by simp [State.readParking]
@[simp] theorem State.readParking_w_armed (s : State) (o : Agent) (c : CellSel) : (s.readParking o c).w.armed = s.w.armed := by simp [State.readParking]
@[simp] theorem State.readParking_w_lla (s : State) (o : Agent) (c : CellSel) : (s.readParking o c).w.lla = s.w.lla := by simp [State.readParking]
@[simp] theorem State.readParking_w_hlt (s : State) (o : Agent) (c : CellSel) : (s.readParking o c).w.hlt = s.w.hlt := by simp [State.readParking]
@[simp] theorem State.readParking_w_obt (s : State) (o : Agent) (c : CellSel) : (s.readParking o c).w.obt = s.w.obt := by simp [State.readParking]
@[simp] theorem State.readParking_w_att (s : State) (o : Agent) (c : CellSel) : (s.readParking o c).w.att = s.w.att := by simp [State.readParking]
@[simp] theorem State.readParking_w_exp (s : State) (o : Agent) (c : CellSel) : (s.readParking o c).w.exp = s.w.exp := by simp [State.readParking]
@[simp] theorem State.readParking_w_ph (s : State) (o : Agent) (c : CellSel) : (s.readParking o c).w.ph = s.w.ph := by simp [State.readParking]

@[simp] theorem State.readParking_length (s : State) (o : Agent) (c : CellSel) : (s.readParking o c).readers.length = s.readers.length := by simp [State.readParking]
@[simp] theorem State.readParking_rd_lf (s : State) (o : Agent) (c : CellSel) (j : Nat) : ((s.readParking o c).rd j).lf = (s.rd j).lf := by simp [State.readParking]
@[simp] theorem State.readParking_rd_thr (s : State) (o : Agent) (c : CellSel) (j : Nat) : ((s.readParking o c).rd j).thr = (s.rd j).thr := by simp [State.readParking]
@[simp] theorem State.readParking_rd_armed (s : State) (o : Agent) (c : CellSel) (j : Nat) : ((s.readParking o c).rd j).armed = (s.rd j).armed := by simp [State.readParking]
@[simp] theorem State.readParking_rd_hla (s : State) (o : Agent) (c : CellSel) (j : Nat) : ((s.readParking o c).rd j).hla = (s.rd j).hla := by simp [State.readParking]
@[simp] theorem State.readParking_rd_llt (s : State) (o : Agent) (c : CellSel) (j : Nat) : ((s.readParking o c).rd j).llt = (s.rd j).llt := by simp [State.readParking]
@[simp] theorem State.readParking_rd_obt (s : State) (o : Agent) (c : CellSel) (j : Nat) : ((s.readParking o c).rd j).obt = (s.rd j).obt := by simp [State.readParking]
@[simp] theorem State.readParking_rd_lost (s : State) (o : Agent) (c : CellSel) (j : Nat) : ((s.readParking o c).rd j).lost = (s.rd j).lost := by simp [State.readParking]
@[simp] theorem State.readParking_rd_att (s : State) (o : Agent) (c : CellSel) (j : Nat) : ((s.readParking o c).rd j).att = (s.rd j).att := by simp [State.readParking]
@[simp] theorem State.readParking_rd_exp (s : State) (o : Agent) (c : CellSel) (j : Nat) : ((s.readParking o c).rd j).exp = (s.rd j).exp := by simp [State.readParking]
@[simp] theorem State.readParking_rd_ph (s : State) (o : Agent) (c : CellSel) (j : Nat) : ((s.readParking o c).rd j).ph = (s.rd j).ph := by simp [State.readParking]

@[simp] theorem State.storeByte_w_lr (s : State) (o : Agent) (off : Nat) (b : Byte) : (s.storeByte o off b).w.lr = s.w.lr := by simp [State.storeByte]
@[simp] theorem State.storeByte_w_eff (s : State) (o : Agent) (off : Nat) (b : Byte) : (s.storeByte o off b).w.eff = s.w.eff := by simp [State.storeByte]
@[simp] theorem State.storeByte_w_armed (s : State) (o : Agent) (off : Nat) (b : Byte) : (s.storeByte o off b).w.armed = s.w.armed := by simp [State.storeByte]
@[simp] theorem State.storeByte_w_lla (s : State) (o : Agent) (off : Nat) (b : Byte) : (s.storeByte o off b).w.lla = s.w.lla := by simp [State.storeByte]
@[simp] theorem State.storeByte_w_hlt (s : State) (o : Agent) (off : Nat) (b : Byte) : (s.storeByte o off b).w.hlt = s.w.hlt := by simp [State.storeByte]
@[simp] theorem State.storeByte_w_obt (s : State) (o : Agent) (off : Nat) (b : Byte) : (s.storeByte o off b).w.obt = s.w.obt := by simp [State.storeByte]
@[simp] theorem State.storeByte_w_att (s : State) (o : Agent) (off : Nat) (b : Byte) : (s.storeByte o off b).w.att = s.w.att := by simp [State.storeByte]
@[simp] theorem State.storeByte_w_exp (s : State) (o : Agent) (off : Nat) (b : Byte) : (s.storeByte o off b).w.exp = s.w.exp := by simp [State.storeByte]
@[simp] theorem State.storeByte_w_ph (s : State) (o : Agent) (off : Nat) (b : Byte) : (s.storeByte o off b).w.ph = s.w.ph := by simp [State.storeByte]

@[simp] theorem State.storeByte_length (s : State) (o : Agent) (off : Nat) (b : Byte) : (s.storeByte o off b).readers.length = s.readers.length := by simp [State.storeByte]
@[simp] theorem State.storeByte_rd_lf (s : State) (o : Agent) (off : Nat) (b : Byte) (j : Nat) : ((s.storeByte o off b).rd j).lf = (s.rd j).lf := by
  unfold State.storeByte; dsimp only
  exact State.setObs_rd_lf s o _ j
@[simp] theorem State.storeByte_rd_thr (s : State) (o : Agent) (off : Nat) (b : Byte) (j : Nat) : ((s.storeByte o off b).rd j).thr = (s.rd j).thr := by
  unfold State.storeByte; dsimp only
  exact State.setObs_rd_thr s o _ j
@[simp] theorem State.storeByte_rd_armed (s : State) (o : Agent) (off : Nat) (b : Byte) (j : Nat) : ((s.storeByte o off b).rd j).armed = (s.rd j).armed := by
  unfold State.storeByte; dsimp only
  exact State.setObs_rd_armed s o _ j
@[simp] theorem State.storeByte_rd_hla (s : State) (o : Agent) (off : Nat) (b : Byte) (j : Nat) : ((s.storeByte o off b).rd j).hla = (s.rd j).hla := by
  unfold State.storeByte; dsimp only
  exact State.setObs_rd_hla s o _ j
@[simp] theorem State.storeByte_rd_llt (s : State) (o : Agent) (off : Nat) (b : Byte) (j : Nat) : ((s.storeByte o off b).rd j).llt = (s.rd j).llt := by
  unfold State.storeByte; dsimp only
  exact State.setObs_rd_llt s o _ j
@[simp] theorem State.storeByte_rd_obt (s : State) (o : Agent) (off : Nat) (b : Byte) (j : Nat) : ((s.storeByte o off b).rd j).obt = (s.rd j).obt := by
  unfold State.storeByte; dsimp only
  exact State.setObs_rd_obt s o _ j
@[simp] theorem State.storeByte_rd_lost (s : State) (o : Agent) (off : Nat) (b : Byte) (j : Nat) : ((s.storeByte o off b).rd j).lost = (s.rd j).lost := by
  unfold State.storeByte; dsimp only
  exact State.setObs_rd_lost s o _ j
@[simp] theorem State.storeByte_rd_att (s : State) (o : Agent) (off : Nat) (b : Byte) (j : Nat) : ((s.storeByte o off b).rd j).att = (s.rd j).att := by
  unfold State.storeByte; dsimp only
  exact State.setObs_rd_att s o _ j
@[simp] theorem State.storeByte_rd_exp (s : State) (o : Agent) (off : Nat) (b : Byte) (j : Nat) : ((s.storeByte o off b).rd j).exp = (s.rd j).exp := by
  unfold State.storeByte; dsimp only
  exact State.setObs_rd_exp s o _ j
@[simp] theorem State.storeByte_rd_ph (s : State) (o : Agent) (off : Nat) (b : Byte) (j : Nat) : ((s.storeByte o off b).rd j).ph = (s.rd j).ph := by
  unfold State.storeByte; dsimp only
  exact State.setObs_rd_ph s o _ j

@[simp] theorem State.release_w_lr (v : Seen) (s : State) (o : Agent) : (State.release v s o).w.lr = s.w.lr := by cases o <;> rfl
@[simp] theorem State.release_w_eff (v : Seen) (s : State) (o : Agent) : (State.release v s o).w.eff = s.w.eff := by cases o <;> rfl
@[simp] theorem State.release_w_armed (v : Seen) (s : State) (o : Agent) : (State.release v s o).w.armed = s.w.armed := by cases o <;> rfl
@[simp] theorem State.release_w_lla (v : Seen) (s : State) (o : Agent) : (State.release v s o).w.lla = s.w.lla := by cases o <;> rfl
@[simp] theorem State.release_w_hlt (v : Seen) (s : State) (o : Agent) : (State.release v s o).w.hlt = s.w.hlt := by cases o <;> rfl
@[simp] theorem State.release_w_obt (v : Seen) (s : State) (o : Agent) : (State.release v s o).w.obt = s.w.obt := by cases o <;> rfl
@[simp] theorem State.release_w_att (v : Seen) (s : State) (o : Agent) : (State.release v s o).w.att = s.w.att := by cases o <;> rfl
@[simp] theorem State.release_w_exp (v : Seen) (s : State) (o : Agent) : (State.release v s o).w.exp = s.w.exp := by cases o <;> rfl

@[simp] theorem State.release_length (v : Seen) (s : State) (o : Agent) : (State.release v s o).readers.length = s.readers.length := by cases o <;> simp [State.release]
@[simp] theorem State.release_rd_lf (v : Seen) (s : State) (o : Agent) (j : Nat) : ((State.release v s o).rd j).lf = (s.rd j).lf := by
  cases o with
  | reader i => simp only [State.release, State.rd_setRd]; split <;> simp_all
  | _ => rfl
@[simp] theorem State.release_rd_thr (v : Seen) (s : State) (o : Agent) (j : Nat) : ((State.release v s o).rd j).thr = (s.rd j).thr := by
  cases o with
  | reader i => simp only [State.release, State.rd_setRd]; split <;> simp_all
  | _ => rfl
@[simp] theorem State.release_rd_armed (v : Seen) (s : State) (o : Agent) (j : Nat) : ((State.release v s o).rd j).armed = (s.rd j).armed := by
  cases o with
  | reader i => simp only [State.release, State.rd_setRd]; split <;> simp_all
  | _ => rfl
@[simp] theorem State.release_rd_hla (v : Seen) (s : State) (o : Agent) (j : Nat) : ((State.release v s o).rd j).hla = (s.rd j).hla := by
  cases o with
  | reader i => simp only [State.release, State.rd_setRd]; split <;> simp_all
  | _ => rfl
@[simp] theorem State.release_rd_llt (v : Seen) (s : State) (o : Agent) (j : Nat) : ((State.release v s o).rd j).llt = (s.rd j).llt := by
  cases o with
  | reader i => simp only [State.release, State.rd_setRd]; split <;> simp_all
  | _ => rfl
@[simp] theorem State.release_rd_obt (v : Seen) (s : State) (o : Agent) (j : Nat) : ((State.release v s o).rd j).obt = (s.rd j).obt := by
  cases o with
  | reader i => simp only [State.release, State.rd_setRd]; split <;> simp_all
  | _ => rfl
@[simp] theorem State.release_rd_lost (v : Seen) (s : State) (o : Agent) (j : Nat) : ((State.release v s o).rd j).lost = (s.rd j).lost := by
  cases o with
  | reader i => simp only [State.release, State.rd_setRd]; split <;> simp_all
  | _ => rfl
@[simp] theorem State.release_rd_att (v : Seen) (s : State) (o : Agent) (j : Nat) : ((State.release v s o).rd j).att = (s.rd j).att := by
  cases o with
  | reader i => simp only [State.release, State.rd_setRd]; split <;> simp_all
  | _ => rfl
@[simp] theorem State.release_rd_exp (v : Seen) (s : State) (o : Agent) (j : Nat) : ((State.release v s o).rd j).exp = (s.rd j).exp := by
  cases o with
  | reader i => simp only [State.release, State.rd_setRd]; split <;> simp_all
  | _ => rfl

@[simp] theorem State.releaseAll_w_lr (v : Seen) (q : List Agent) (s : State) : (q.foldl (State.release v) s).w.lr = s.w.lr := by
  induction q generalizing s with
  | nil => rfl
  | cons o q ih => simp [ih]
@[simp] theorem State.releaseAll_w_eff (v : Seen) (q : List Agent) (s : State) : (q.foldl (State.release v) s).w.eff = s.w.eff := by
  induction q generalizing s with
  | nil => rfl
  | cons o q ih => simp [ih]
@[simp] theorem State.releaseAll_w_armed (v : Seen) (q : List Agent) (s : State) : (q.foldl (State.release v) s).w.armed = s.w.armed := by
  induction q generalizing s with
  | nil => rfl
  | cons o q ih => simp [ih]
@[simp] theorem State.releaseAll_w_lla (v : Seen) (q : List Agent) (s : State) : (q.foldl (State.release v) s).w.lla = s.w.lla := by
  induction q generalizing s with
  | nil => rfl
  | cons o q ih => simp [ih]
@[simp] theorem State.releaseAll_w_hlt (v : Seen) (q : List Agent) (s : State) : (q.foldl (State.release v) s).w.hlt = s.w.hlt := by
  induction q generalizing s with
  | nil => rfl
  | cons o q ih => simp [ih]
@[simp] theorem State.releaseAll_w_obt (v : Seen) (q : List Agent) (s : State) : (q.foldl (State.release v) s).w.obt = s.w.obt := by
  induction q generalizing s with
  | nil => rfl
  | cons o q ih => simp [ih]
@[simp] theorem State.releaseAll_w_att (v : Seen) (q : List Agent) (s : State) : (q.foldl (State.release v) s).w.att = s.w.att := by
  induction q generalizing s with
  | nil => rfl
  | cons o q ih => simp [ih]
@[simp] theorem State.releaseAll_w_exp (v : Seen) (q : List Agent) (s : State) : (q.foldl (State.release v) s).w.exp = s.w.exp := by
  induction q generalizing s with
  | nil => rfl
  | cons o q ih => simp [ih]

@[simp] theorem State.releaseAll_length (v : Seen) (q : List Agent) (s : State) : (q.foldl (State.release v) s).readers.length = s.readers.length := by
  induction q generalizing s with
  | nil => rfl
  | cons o q ih => simp [ih]
@[simp] theorem State.releaseAll_rd_lf (v : Seen) (q : List Agent) (s : State) (j : Nat) : ((q.foldl (State.release v) s).rd j).lf = (s.rd j).lf := by
  induction q generalizing s with
  | nil => rfl
  | cons o q ih => simp [ih]
@[simp] theorem State.releaseAll_rd_thr (v : Seen) (q : List Agent) (s : State) (j : Nat) : ((q.foldl (State.release v) s).rd j).thr = (s.rd j).thr := by
  induction q generalizing s with
  | nil => rfl
  | cons o q ih => simp [ih]
@[simp] theorem State.releaseAll_rd_armed (v : Seen) (q : List Agent) (s : State) (j : Nat) : ((q.foldl (State.release v) s).rd j).armed = (s.rd j).armed := by
  induction q generalizing s with
  | nil => rfl
  | cons o q ih => simp [ih]
@[simp] theorem State.releaseAll_rd_hla (v : Seen) (q : List Agent) (s : State) (j : Nat) : ((q.foldl (State.release v) s).rd j).hla = (s.rd j).hla := by
  induction q generalizing s with
  | nil => rfl
  | cons o q ih => simp [ih]
@[simp] theorem State.releaseAll_rd_llt (v : Seen) (q : List Agent) (s : State) (j : Nat) : ((q.foldl (State.release v) s).rd j).llt = (s.rd j).llt := by
  induction q generalizing s with
  | nil => rfl
  | cons o q ih => simp [ih]
@[simp] theorem State.releaseAll_rd_obt (v : Seen) (q : List Agent) (s : State) (j : Nat) : ((q.foldl (State.release v) s).rd j).obt = (s.rd j).obt := by
  induction q generalizing s with
  | nil => rfl
  | cons o q ih => simp [ih]
@[simp] theorem State.releaseAll_rd_lost (v : Seen) (q : List Agent) (s : State) (j : Nat) : ((q.foldl (State.release v) s).rd j).lost = (s.rd j).lost := by
  induction q generalizing s with
  | nil => rfl
  | cons o q ih => simp [ih]
@[simp] theorem State.releaseAll_rd_att (v : Seen) (q : List Agent) (s : State) (j : Nat) : ((q.foldl (State.release v) s).rd j).att = (s.rd j).att := by
  induction q generalizing s with
  | nil => rfl
  | cons o q ih => simp [ih]
@[simp] theorem State.releaseAll_rd_exp (v : Seen) (q : List Agent) (s : State) (j : Nat) : ((q.foldl (State.release v) s).rd j).exp = (s.rd j).exp := by
  induction q generalizing s with
  | nil => rfl
  | cons o q ih => simp [ih]

@[simp] theorem State.wakeOne_w_lr (s : State) (o : Agent) (c : CellSel) : (s.wakeOne o c).w.lr = s.w.lr := by
  unfold State.wakeOne; split <;> simp
@[simp] theorem State.wakeOne_w_eff (s : State) (o : Agent) (c : CellSel) : (s.wakeOne o c).w.eff = s.w.eff := by
  unfold State.wakeOne; split <;> simp
@[simp] theorem State.wakeOne_w_armed (s : State) (o : Agent) (c : CellSel) : (s.wakeOne o c).w.armed = s.w.armed := by
  unfold State.wakeOne; split <;> simp
@[simp] theorem State.wakeOne_w_lla (s : State) (o : Agent) (c : CellSel) : (s.wakeOne o c).w.lla = s.w.lla := by
  unfold State.wakeOne; split <;> simp
@[simp] theorem State.wakeOne_w_hlt (s : State) (o : Agent) (c : CellSel) : (s.wakeOne o c).w.hlt = s.w.hlt := by
  unfold State.wakeOne; split <;> simp
@[simp] theorem State.wakeOne_w_obt (s : State) (o : Agent) (c : CellSel) : (s.wakeOne o c).w.obt = s.w.obt := by
  unfold State.wakeOne; split <;> simp
@[simp] theorem State.wakeOne_w_att (s : State) (o : Agent) (c : CellSel) : (s.wakeOne o c).w.att = s.w.att := by
  unfold State.wakeOne; split <;> simp
@[simp] theorem State.wakeOne_w_exp (s : State) (o : Agent) (c : CellSel) : (s.wakeOne o c).w.exp = s.w.exp := by
  unfold State.wakeOne; split <;> simp

@[simp] theorem State.wakeOne_length (s : State) (o : Agent) (c : CellSel) : (s.wakeOne o c).readers.length = s.readers.length := by
  unfold State.wakeOne; split <;> simp
@[simp] theorem State.wakeOne_rd_lf (s : State) (o : Agent) (c : CellSel) (j : Nat) : ((s.wakeOne o c).rd j).lf = (s.rd j).lf := by
  unfold State.wakeOne; split
  · rfl
  · rw [State.release_rd_lf]; exact congrArg Reader.lf (State.rd_congr (by simp) j)
@[simp] theorem State.wakeOne_rd_thr (s : State) (o : Agent) (c : CellSel) (j : Nat) : ((s.wakeOne o c).rd j).thr = (s.rd j).thr := by
  unfold State.wakeOne; split
  · rfl
  · rw [State.release_rd_thr]; exact congrArg Reader.thr (State.rd_congr (by simp) j)
@[simp] theorem State.wakeOne_rd_armed (s : State) (o : Agent) (c : CellSel) (j : Nat) : ((s.wakeOne o c).rd j).armed = (s.rd j).armed := by
  unfold State.wakeOne; split
  · rfl
  · rw [State.release_rd_armed]; exact congrArg Reader.armed (State.rd_congr (by simp) j)
@[simp] theorem State.wakeOne_rd_hla (s : State) (o : Agent) (c : CellSel) (j : Nat) : ((s.wakeOne o c).rd j).hla = (s.rd j).hla := by
  unfold State.wakeOne; split
  · rfl
  · rw [State.release_rd_hla]; exact congrArg Reader.hla (State.rd_congr (by simp) j)
@[simp] theorem State.wakeOne_rd_llt (s : State) (o : Agent) (c : CellSel) (j : Nat) : ((s.wakeOne o c).rd j).llt = (s.rd j).llt := by
  unfold State.wakeOne; split
  · rfl
  · rw [State.release_rd_llt]; exact congrArg Reader.llt (State.rd_congr (by simp) j)
@[simp] theorem State.wakeOne_rd_obt (s : State) (o : Agent) (c : CellSel) (j : Nat) : ((s.wakeOne o c).rd j).obt = (s.rd j).obt := by
  unfold State.wakeOne; split
  · rfl
  · rw [State.release_rd_obt]; exact congrArg Reader.obt (State.rd_congr (by simp) j)
@[simp] theorem State.wakeOne_rd_lost (s : State) (o : Agent) (c : CellSel) (j : Nat) : ((s.wakeOne o c).rd j).lost = (s.rd j).lost := by
  unfold State.wakeOne; split
  · rfl
  · rw [State.release_rd_lost]; exact congrArg Reader.lost (State.rd_congr (by simp) j)
@[simp] theorem State.wakeOne_rd_att (s : State) (o : Agent) (c : CellSel) (j : Nat) : ((s.wakeOne o c).rd j).att = (s.rd j).att := by
  unfold State.wakeOne; split
  · rfl
  · rw [State.release_rd_att]; exact congrArg Reader.att (State.rd_congr (by simp) j)
@[simp] theorem State.wakeOne_rd_exp (s : State) (o : Agent) (c : CellSel) (j : Nat) : ((s.wakeOne o c).rd j).exp = (s.rd j).exp := by
  unfold State.wakeOne; split
  · rfl
  · rw [State.release_rd_exp]; exact congrArg Reader.exp (State.rd_congr (by simp) j)

@[simp] theorem State.wakeAll_w_lr (s : State) (o : Agent) (c : CellSel) : (s.wakeAll o c).w.lr = s.w.lr := by simp [State.wakeAll]
@[simp] theorem State.wakeAll_w_eff (s : State) (o : Agent) (c : CellSel) : (s.wakeAll o c).w.eff = s.w.eff := by simp [State.wakeAll]
@[simp] theorem State.wakeAll_w_armed (s : State) (o : Agent) (c : CellSel) : (s.wakeAll o c).w.armed = s.w.armed := by simp [State.wakeAll]
@[simp] theorem State.wakeAll_w_lla (s : State) (o : Agent) (c : CellSel) : (s.wakeAll o c).w.lla = s.w.lla := by simp [State.wakeAll]
@[simp] theorem State.wakeAll_w_hlt (s : State) (o : Agent) (c : CellSel) : (s.wakeAll o c).w.hlt = s.w.hlt := by simp [State.wakeAll]
@[simp] theorem State.wakeAll_w_obt (s : State) (o : Agent) (c : CellSel) : (s.wakeAll o c).w.obt = s.w.obt := by simp [State.wakeAll]
@[simp] theorem State.wakeAll_w_att (s : State) (o : Agent) (c : CellSel) : (s.wakeAll o c).w.att = s.w.att := by simp [State.wakeAll]
@[simp] theorem State.wakeAll_w_exp (s : State) (o : Agent) (c : CellSel) : (s.wakeAll o c).w.exp = s.w.exp := by simp [State.wakeAll]

@[simp] theorem State.wakeAll_length (s : State) (o : Agent) (c : CellSel) : (s.wakeAll o c).readers.length = s.readers.length := by simp [State.wakeAll]
@[simp] theorem State.wakeAll_rd_lf (s : State) (o : Agent) (c : CellSel) (j : Nat) : ((s.wakeAll o c).rd j).lf = (s.rd j).lf := by
  rw [State.wakeAll, State.rd_congr (State.setWq_readers _ c _)]; simp
@[simp] theorem State.wakeAll_rd_thr (s : State) (o : Agent) (c : CellSel) (j : Nat) : ((s.wakeAll o c).rd j).thr = (s.rd j).thr := by
  rw [State.wakeAll, State.rd_congr (State.setWq_readers _ c _)]; simp
@[simp] theorem State.wakeAll_rd_armed (s : State) (o : Agent) (c : CellSel) (j : Nat) : ((s.wakeAll o c).rd j).armed = (s.rd j).armed := by
  rw [State.wakeAll, State.rd_congr (State.setWq_readers _ c _)]; simp
@[simp] theorem State.wakeAll_rd_hla (s : State) (o : Agent) (c : CellSel) (j : Nat) : ((s.wakeAll o c).rd j).hla = (s.rd j).hla := by
  rw [State.wakeAll, State.rd_congr (State.setWq_readers _ c _)]; simp
@[simp] theorem State.wakeAll_rd_llt (s : State) (o : Agent) (c : CellSel) (j : Nat) : ((s.wakeAll o c).rd j).llt = (s.rd j).llt := by
  rw [State.wakeAll, State.rd_congr (State.setWq_readers _ c _)]; simp
@[simp] theorem State.wakeAll_rd_obt (s : State) (o : Agent) (c : CellSel) (j : Nat) : ((s.wakeAll o c).rd j).obt = (s.rd j).obt := by
  rw [State.wakeAll, State.rd_congr (State.setWq_readers _ c _)]; simp
@[simp] theorem State.wakeAll_rd_lost (s : State) (o : Agent) (c : CellSel) (j : Nat) : ((s.wakeAll o c).rd j).lost = (s.rd j).lost := by
  rw [State.wakeAll, State.rd_congr (State.setWq_readers _ c _)]; simp
@[simp] theorem State.wakeAll_rd_att (s : State) (o : Agent) (c : CellSel) (j : Nat) : ((s.wakeAll o c).rd j).att = (s.rd j).att := by
  rw [State.wakeAll, State.rd_congr (State.setWq_readers _ c _)]; simp
@[simp] theorem State.wakeAll_rd_exp (s : State) (o : Agent) (c : CellSel) (j : Nat) : ((s.wakeAll o c).rd j).exp = (s.rd j).exp := by
  rw [State.wakeAll, State.rd_congr (State.setWq_readers _ c _)]; simp

@[simp] theorem State.wakeOwn_w_lr (s : State) (o : Agent) (c : CellSel) : (s.wakeOwn o c).w.lr = s.w.lr := by unfold State.wakeOwn; split <;> simp
@[simp] theorem State.wakeOwn_w_eff (s : State) (o : Agent) (c : CellSel) : (s.wakeOwn o c).w.eff = s.w.eff := by unfold State.wakeOwn; split <;> simp
@[simp] theorem State.wakeOwn_w_armed (s : State) (o : Agent) (c : CellSel) : (s.wakeOwn o c).w.armed = s.w.armed := by unfold State.wakeOwn; split <;> simp
@[simp] theorem State.wakeOwn_w_lla (s : State) (o : Agent) (c : CellSel) : (s.wakeOwn o c).w.lla = s.w.lla := by unfold State.wakeOwn; split <;> simp
@[simp] theorem State.wakeOwn_w_hlt (s : State) (o : Agent) (c : CellSel) : (s.wakeOwn o c).w.hlt = s.w.hlt := by unfold State.wakeOwn; split <;> simp
@[simp] theorem State.wakeOwn_w_obt (s : State) (o : Agent) (c : CellSel) : (s.wakeOwn o c).w.obt = s.w.obt := by unfold State.wakeOwn; split <;> simp
@[simp] theorem State.wakeOwn_w_att (s : State) (o : Agent) (c : CellSel) : (s.wakeOwn o c).w.att = s.w.att := by unfold State.wakeOwn; split <;> simp
@[simp] theorem State.wakeOwn_w_exp (s : State) (o : Agent) (c : CellSel) : (s.wakeOwn o c).w.exp = s.w.exp := by unfold State.wakeOwn; split <;> simp

@[simp] theorem State.wakeOwn_length (s : State) (o : Agent) (c : CellSel) : (s.wakeOwn o c).readers.length = s.readers.length := by unfold State.wakeOwn; split <;> simp
@[simp] theorem State.wakeOwn_rd_lf (s : State) (o : Agent) (c : CellSel) (j : Nat) : ((s.wakeOwn o c).rd j).lf = (s.rd j).lf := by unfold State.wakeOwn; split <;> simp
@[simp] theorem State.wakeOwn_rd_thr (s : State) (o : Agent) (c : CellSel) (j : Nat) : ((s.wakeOwn o c).rd j).thr = (s.rd j).thr := by unfold State.wakeOwn; split <;> simp
@[simp] theorem State.wakeOwn_rd_armed (s : State) (o : Agent) (c : CellSel) (j : Nat) : ((s.wakeOwn o c).rd j).armed = (s.rd j).armed := by unfold State.wakeOwn; split <;> simp
@[simp] theorem State.wakeOwn_rd_hla (s : State) (o : Agent) (c : CellSel) (j : Nat) : ((s.wakeOwn o c).rd j).hla = (s.rd j).hla := by unfold State.wakeOwn; split <;> simp
@[simp] theorem State.wakeOwn_rd_llt (s : State) (o : Agent) (c : CellSel) (j : Nat) : ((s.wakeOwn o c).rd j).llt = (s.rd j).llt := by unfold State.wakeOwn; split <;> simp
@[simp] theorem State.wakeOwn_rd_obt (s : State) (o : Agent) (c : CellSel) (j : Nat) : ((s.wakeOwn o c).rd j).obt = (s.rd j).obt := by unfold State.wakeOwn; split <;> simp
@[simp] theorem State.wakeOwn_rd_lost (s : State) (o : Agent) (c : CellSel) (j : Nat) : ((s.wakeOwn o c).rd j).lost = (s.rd j).lost := by unfold State.wakeOwn; split <;> simp
@[simp] theorem State.wakeOwn_rd_att (s : State) (o : Agent) (c : CellSel) (j : Nat) : ((s.wakeOwn o c).rd j).att = (s.rd j).att := by unfold State.wakeOwn; split <;> simp
@[simp] theorem State.wakeOwn_rd_exp (s : State) (o : Agent) (c : CellSel) (j : Nat) : ((s.wakeOwn o c).rd j).exp = (s.rd j).exp := by unfold State.wakeOwn; split <;> simp

@[simp] theorem State.unpark_w_lr (s : State) (o : Agent) (p : Park) : (s.unpark o p).w.lr = s.w.lr := by simp [State.unpark]
@[simp] theorem State.unpark_w_eff (s : State) (o : Agent) (p : Park) : (s.unpark o p).w.eff = s.w.eff := by simp [State.unpark]
@[simp] theorem State.unpark_w_armed (s : State) (o : Agent) (p : Park) : (s.unpark o p).w.armed = s.w.armed := by simp [State.unpark]
@[simp] theorem State.unpark_w_lla (s : State) (o : Agent) (p : Park) : (s.unpark o p).w.lla = s.w.lla := by simp [State.unpark]
@[simp] theorem State.unpark_w_hlt (s : State) (o : Agent) (p : Park) : (s.unpark o p).w.hlt = s.w.hlt := by simp [State.unpark]
@[simp] theorem State.unpark_w_obt (s : State) (o : Agent) (p : Park) : (s.unpark o p).w.obt = s.w.obt := by simp [State.unpark]
@[simp] theorem State.unpark_w_att (s : State) (o : Agent) (p : Park) : (s.unpark o p).w.att = s.w.att := by simp [State.unpark]
@[simp] theorem State.unpark_w_exp (s : State) (o : Agent) (p : Park) : (s.unpark o p).w.exp = s.w.exp := by simp [State.unpark]
@[simp] theorem State.unpark_w_ph (s : State) (o : Agent) (p : Park) : (s.unpark o p).w.ph = s.w.ph := by simp [State.unpark]

@[simp] theorem State.unpark_length (s : State) (o : Agent) (p : Park) : (s.unpark o p).readers.length = s.readers.length := by simp [State.unpark]
@[simp] theorem State.unpark_rd_lf (s : State) (o : Agent) (p : Park) (j : Nat) : ((s.unpark o p).rd j).lf = (s.rd j).lf := by
  unfold State.unpark; dsimp only; rw [State.setObs_rd_lf]; exact congrArg Reader.lf (State.rd_congr (by simp) j)
@[simp] theorem State.unpark_rd_thr (s : State) (o : Agent) (p : Park) (j : Nat) : ((s.unpark o p).rd j).thr = (s.rd j).thr := by
  unfold State.unpark; dsimp only; rw [State.setObs_rd_thr]; exact congrArg Reader.thr (State.rd_congr (by simp) j)
@[simp] theorem State.unpark_rd_armed (s : State) (o : Agent) (p : Park) (j : Nat) : ((s.unpark o p).rd j).armed = (s.rd j).armed := by
  unfold State.unpark; dsimp only; rw [State.setObs_rd_armed]; exact congrArg Reader.armed (State.rd_congr (by simp) j)
@[simp] theorem State.unpark_rd_hla (s : State) (o : Agent) (p : Park) (j : Nat) : ((s.unpark o p).rd j).hla = (s.rd j).hla := by
  unfold State.unpark; dsimp only; rw [State.setObs_rd_hla]; exact congrArg Reader.hla (State.rd_congr (by simp) j)
@[simp] theorem State.unpark_rd_llt (s : State) (o : Agent) (p : Park) (j : Nat) : ((s.unpark o p).rd j).llt = (s.rd j).llt := by
  unfold State.unpark; dsimp only; rw [State.setObs_rd_llt]; exact congrArg Reader.llt (State.rd_congr (by simp) j)
@[simp] theorem State.unpark_rd_obt (s : State) (o : Agent) (p : Park) (j : Nat) : ((s.unpark o p).rd j).obt = (s.rd j).obt := by
  unfold State.unpark; dsimp only; rw [State.setObs_rd_obt]; exact congrArg Reader.obt (State.rd_congr (by simp) j)
@[simp] theorem State.unpark_rd_lost (s : State) (o : Agent) (p : Park) (j : Nat) : ((s.unpark o p).rd j).lost = (s.rd j).lost := by
  unfold State.unpark; dsimp only; rw [State.setObs_rd_lost]; exact congrArg Reader.lost (State.rd_congr (by simp) j)
@[simp] theorem State.unpark_rd_att (s : State) (o : Agent) (p : Park) (j : Nat) : ((s.unpark o p).rd j).att = (s.rd j).att := by
  unfold State.unpark; dsimp only; rw [State.setObs_rd_att]; exact congrArg Reader.att (State.rd_congr (by simp) j)
@[simp] theorem State.unpark_rd_exp (s : State) (o : Agent) (p : Park) (j : Nat) : ((s.unpark o p).rd j).exp = (s.rd j).exp := by
  unfold State.unpark; dsimp only; rw [State.setObs_rd_exp]; exact congrArg Reader.exp (State.rd_congr (by simp) j)
@[simp] theorem State.unpark_rd_ph (s : State) (o : Agent) (p : Park) (j : Nat) : ((s.unpark o p).rd j).ph = (s.rd j).ph := by
  unfold State.unpark; dsimp only; rw [State.setObs_rd_ph]; exact congrArg Reader.ph (State.rd_congr (by simp) j)

end Sys2Proof.Machine
end

