-- ==== Sys2Proof/Laws/Memory.lean ====
section
/-! SUPPORT. The list of bytes: a read after a write, and the canonical form kept. -/

namespace Sys2Proof.Machine

open Sys2Proof

theorem Memory.find_put_same (m : Memory) (a : Nat) (v : Byte) : (Memory.put m a v).find a = some v := by
  induction m with
  | nil => simp [Memory.put, Memory.find]
  | cons p r ih =>
    obtain ⟨b, y⟩ := p
    unfold Memory.put
    split
    · simp [Memory.find]
    · split
      · simp [Memory.find]
      · simp [Memory.find, *]

theorem Memory.find_put_ne (m : Memory) {a b : Nat} (v : Byte) (h : b ≠ a) : (Memory.put m a v).find b = m.find b := by
  induction m with
  | nil => simp [Memory.put, Memory.find, h]
  | cons p r ih =>
    obtain ⟨c, y⟩ := p
    unfold Memory.put
    split
    · simp [Memory.find, h]
    · split
      · subst_vars; simp [Memory.find, h]
      · simp [Memory.find, ih]

/-- A read after a write, for every pair of keys. -/
theorem Memory.find_put (m : Memory) (a b : Nat) (v : Byte) :
    (Memory.put m a v).find b = if b = a then some v else m.find b := by
  by_cases h : b = a
  · subst h; simp [Memory.find_put_same]
  · simp [h, Memory.find_put_ne m v h]

theorem Memory.mem_put {m : Memory} {a : Nat} {v : Byte} {p : Host.Cell} (h : p ∈ Memory.put m a v) :
    p = (a, v) ∨ p ∈ m := by
  induction m with
  | nil => simpa [Memory.put] using h
  | cons q r ih =>
    obtain ⟨c, y⟩ := q
    unfold Memory.put at h
    split at h
    · simpa using h
    · split at h
      · rcases List.mem_cons.mp h with h | h
        · exact Or.inl h
        · exact Or.inr (List.mem_cons_of_mem _ h)
      · rcases List.mem_cons.mp h with h | h
        · exact Or.inr (by simp [h])
        · rcases ih h with h | h
          · exact Or.inl h
          · exact Or.inr (List.mem_cons_of_mem _ h)

/-- Writing a byte keeps the canonical form. -/
theorem Memory.put_wf {m : Memory} (h : m.wf) (a : Nat) (v : Byte) : (Memory.put m a v).wf := by
  induction m with
  | nil => simp [Memory.put, Memory.wf]
  | cons q r ih =>
    obtain ⟨c, y⟩ := q
    obtain ⟨hq, hr⟩ := List.pairwise_cons.mp h
    unfold Memory.put
    split
    case isTrue hlt =>
      refine List.pairwise_cons.mpr ⟨fun p hp => ?_, h⟩
      rcases List.mem_cons.mp hp with rfl | hp
      · exact hlt
      · exact Nat.lt_trans hlt (hq p hp)
    case isFalse hge =>
      split
      case isTrue heq => subst heq; exact List.pairwise_cons.mpr ⟨hq, hr⟩
      case isFalse hne =>
        refine List.pairwise_cons.mpr ⟨fun p hp => ?_, ih hr⟩
        rcases Memory.mem_put hp with rfl | hp
        · exact Nat.lt_of_le_of_ne (Nat.le_of_not_lt hge) (Ne.symm hne)
        · exact hq p hp

/-- What a store into the buffer writes. -/
@[simp] theorem State.storeByte_buf (s : State) (o : Agent) (off : Nat) (b : Byte) :
    (s.storeByte o off b).buf = s.buf.put off b := by simp [State.storeByte]

/-- A store into the buffer keeps the canonical form. -/
theorem State.storeByte_wf {s : State} (h : s.buf.wf) (o : Agent) (off : Nat) (b : Byte) :
    (s.storeByte o off b).buf.wf := by
  rw [State.storeByte_buf]; exact Memory.put_wf h off b

/-- The buffer is empty, so canonical, at power-up. -/
theorem State.reset_buf_wf : State.reset.buf.wf := List.Pairwise.nil

/-- The value of the last write of a byte after one more write. -/
theorem lastWrite_append (ws : List BufWrite) (x : BufWrite) (off : Nat) :
    lastWrite (ws ++ [x]) off = if x.off = off then some x.value else lastWrite ws off := by
  unfold lastWrite
  rw [List.filter_append]
  by_cases h : x.off = off
  · simp [h]
  · simp [h]

end Sys2Proof.Machine
end

