-- ==== Sys2Proof/Laws/Arith.lean ====
section
/-! SUPPORT. The index arithmetic as arithmetic on numbers: the power of two, the slot and generation of a raw index, and what
`SUM` and `DIFF` answer (41_base_arith R169 to R176). -/

namespace Sys2Proof.Machine

open Sys2Proof

/-! ### `next_pow2` -/

theorem le_two_pow_pow2Exp (n : Nat) : n ≤ 2 ^ pow2Exp n := by
  unfold pow2Exp
  split
  · simpa using ‹n ≤ 1›
  · have h := Nat.lt_log2_self (n := n - 1)
    omega

theorem pow2Exp_le {n q : Nat} (h : n ≤ 2 ^ q) : pow2Exp n ≤ q := by
  unfold pow2Exp
  split
  · exact Nat.zero_le q
  · have h1 : n - 1 ≠ 0 := by omega
    have h2 : n - 1 < 2 ^ q := by omega
    have := (Nat.log2_lt h1).mpr h2
    omega

theorem CfgRegs.pexp_le_32 (c : CfgRegs) : c.pexp ≤ 32 :=
  pow2Exp_le (Nat.le_of_lt (by have := c.n.isLt; unfold CfgRegs.cap; omega))

/-- The bounds of a constructed configuration, as numbers. -/
theorem CfgRegs.legal_iff (c : CfgRegs) :
    c.legal = true ↔ 1 ≤ c.cap ∧ 1 ≤ c.size.toNat ∧ c.bytes ≤ 2 ^ 31 - 1 ∧ c.cap ≤ 2 ^ 30 := by
  simp [CfgRegs.legal, and_assoc]

theorem CfgRegs.pexp_le_30 {c : CfgRegs} (h : c.cap ≤ 2 ^ 30) : c.pexp ≤ 30 := pow2Exp_le h

theorem CfgRegs.cap_le_pow (c : CfgRegs) : c.cap ≤ c.pow := le_two_pow_pow2Exp c.cap

theorem CfgRegs.pow_eq (c : CfgRegs) : c.pow = 2 ^ c.pexp := rfl

theorem CfgRegs.pow_pos (c : CfgRegs) : 0 < c.pow := Nat.two_pow_pos _

/-- Less than half of `P` is unused (00_scope R6: `0 ≤ F < N`). -/
theorem CfgRegs.pow_lt_double {c : CfgRegs} (h : 1 ≤ c.cap) : c.pow < 2 * c.cap := by
  unfold CfgRegs.pow nextPow2 pow2Exp
  split
  · omega
  · have h1 : c.cap - 1 ≠ 0 := by omega
    have := Nat.log2_self_le h1
    rw [Nat.pow_succ]
    omega

theorem CfgRegs.pow_add_fudge (c : CfgRegs) : c.cap + c.fudge = c.pow := by
  have := c.cap_le_pow
  unfold CfgRegs.fudge
  omega

theorem CfgRegs.fudge_lt {c : CfgRegs} (h : 1 ≤ c.cap) : c.fudge < c.cap := by
  have := CfgRegs.pow_lt_double h
  unfold CfgRegs.fudge
  omega

/-! ### Slot and generation (R169) -/

theorem CfgRegs.mask_toNat (c : CfgRegs) : c.mask.toNat = (2 ^ c.pexp - 1) % 2 ^ 32 := by
  have h := c.pexp_le_32
  unfold CfgRegs.mask
  rw [CfgRegs.pow_eq]
  rcases Nat.lt_or_ge c.pexp 32 with h32 | h32
  · have hlt : 2 ^ c.pexp < 2 ^ 32 := Nat.pow_lt_pow_right (by decide) h32
    have hpos : 0 < 2 ^ c.pexp := Nat.two_pow_pos _
    rw [BitVec.toNat_sub, BitVec.toNat_ofNat]
    rw [Nat.mod_eq_of_lt hlt]
    change (2 ^ 32 - 1 + 2 ^ c.pexp) % 2 ^ 32 = (2 ^ c.pexp - 1) % 2 ^ 32
    omega
  · have : c.pexp = 32 := by omega
    rw [this]; rfl

/-- The slot is the remainder by `P`. -/
theorem CfgRegs.slotNat_eq (c : CfgRegs) (x : Word) : c.slotNat x = x.toNat % c.pow := by
  have h := c.pexp_le_32
  have hle : 2 ^ c.pexp ≤ 2 ^ 32 := Nat.pow_le_pow_right (by decide) h
  have hpos : 0 < 2 ^ c.pexp := Nat.two_pow_pos _
  unfold CfgRegs.slotNat CfgRegs.slot
  rw [BitVec.toNat_and, CfgRegs.mask_toNat, Nat.mod_eq_of_lt (by omega), Nat.and_two_pow_sub_one_eq_mod]
  rfl

theorem CfgRegs.slotNat_lt (c : CfgRegs) (x : Word) : c.slotNat x < c.pow := by
  rw [CfgRegs.slotNat_eq]; exact Nat.mod_lt _ c.pow_pos

theorem CfgRegs.wellFormed_iff (c : CfgRegs) (x : Word) : c.wellFormed x = true ↔ x.toNat % c.pow < c.cap := by
  simp [CfgRegs.wellFormed, CfgRegs.slotNat_eq]

/-- `P` divides 2³² (R180). -/
theorem CfgRegs.pow_dvd (c : CfgRegs) : c.pow ∣ 2 ^ 32 := Nat.pow_dvd_pow 2 c.pexp_le_32

/-- The number of generations (R169). -/
def CfgRegs.gens (c : CfgRegs) : Nat := 2 ^ (32 - c.pexp)

theorem CfgRegs.pow_mul_gens (c : CfgRegs) : c.pow * c.gens = 2 ^ 32 := by
  unfold CfgRegs.gens
  rw [CfgRegs.pow_eq, ← Nat.pow_add]
  congr 1
  have := c.pexp_le_32
  omega

/-- The generation of an index lies below their number. -/
theorem CfgRegs.gen_lt (c : CfgRegs) (x : Word) : x.toNat / c.pow < c.gens := by
  rw [Nat.div_lt_iff_lt_mul c.pow_pos, Nat.mul_comm, CfgRegs.pow_mul_gens]
  exact x.isLt

/-- The boundaries between two indices are the difference of their generations (R175, 90_conflicts C9). -/
theorem CfgRegs.sweeps_eq (c : CfgRegs) (rear front : Word) :
    c.sweeps rear front = (rear.toNat / c.pow + c.gens - front.toNat / c.pow) % c.gens := by
  have h := c.pexp_le_32
  have hr := c.gen_lt rear
  have hf := c.gen_lt front
  have hg : 0 < c.gens := Nat.two_pow_pos _
  have hle : c.gens ≤ 2 ^ 32 := Nat.pow_le_pow_right (by decide) (Nat.sub_le _ _)
  have hdvd : c.gens ∣ 2 ^ 32 := Nat.pow_dvd_pow 2 (Nat.sub_le _ _)
  unfold CfgRegs.sweeps
  rw [BitVec.toNat_and, BitVec.toNat_sub, BitVec.toNat_ushiftRight, BitVec.toNat_ushiftRight, BitVec.toNat_ofNat,
    Nat.shiftRight_eq_div_pow, Nat.shiftRight_eq_div_pow, ← CfgRegs.pow_eq]
  have hm : (2 ^ (32 - c.pexp) - 1) % 2 ^ 32 = 2 ^ (32 - c.pexp) - 1 := Nat.mod_eq_of_lt (by
    have : 2 ^ (32 - c.pexp) = c.gens := rfl
    omega)
  rw [hm, Nat.and_two_pow_sub_one_eq_mod]
  change _ % c.gens = _
  rw [Nat.mod_mod_of_dvd _ hdvd]
  obtain ⟨k, hk⟩ := hdvd
  have hk1 : 1 ≤ k := by
    rcases Nat.eq_zero_or_pos k with rfl | hk0
    · omega
    · exact hk0
  have : 2 ^ 32 - front.toNat / c.pow + rear.toNat / c.pow
      = rear.toNat / c.pow + c.gens - front.toNat / c.pow + c.gens * (k - 1) := by
    have hmul : c.gens * (k - 1) + c.gens = 2 ^ 32 := by
      rw [hk]
      calc c.gens * (k - 1) + c.gens = c.gens * (k - 1 + 1) := by ring
        _ = c.gens * k := by rw [Nat.sub_add_cancel hk1]
    generalize rear.toNat / c.pow = r at *
    generalize front.toNat / c.pow = f at *
    omega
  rw [this, Nat.add_mul_mod_self_left]

/-! ### `SUM` and `DIFF` -/

/-- The signed delta as a number. -/
theorem rawDelta_eq (rear front : Word) :
    rawDelta rear front = if (rear - front).toNat < 2 ^ 31 then ((rear - front).toNat : Int)
      else (rear - front).toNat - 2 ^ 32 := by
  unfold rawDelta
  rw [BitVec.toInt_eq_toNat_cond]
  split <;> split <;> omega

/-- The signed delta as a number, where it is not negative. -/
theorem rawDelta_nonneg_iff (rear front : Word) :
    0 ≤ rawDelta rear front ↔ (rear - front).toNat < 2 ^ 31 := by
  rw [rawDelta_eq]
  have := (rear - front).isLt
  split <;> omega

/-- All that `SUM` answers (R172, R173). -/
theorem CfgRegs.sum_spec (c : CfgRegs) (x : Word) (k : Nat) :
    (c.wellFormed x = false ∧ c.sum x k = none) ∨
    (c.wellFormed x = true ∧ c.slotNat x + k < c.cap ∧ c.sum x k = some (x + BitVec.ofNat 32 k)) ∨
    (c.wellFormed x = true ∧ c.cap ≤ c.slotNat x + k ∧ c.sum x k = some (x + BitVec.ofNat 32 (k + c.fudge))) := by
  unfold CfgRegs.sum
  cases h : c.wellFormed x with
  | false => simp
  | true =>
    rcases Nat.lt_or_ge (c.slotNat x + k) c.cap with hlt | hge
    · simp [hlt, Nat.not_le.mpr hlt]
    · simp [hge, Nat.not_lt.mpr hge]

/-- All that `DIFF` answers (R176), in the order of its tests. -/
theorem CfgRegs.diff_spec (c : CfgRegs) (rear front : Word) (reader : Bool) :
    ((c.wellFormed rear = false ∨ c.wellFormed front = false) ∧ c.diff rear front reader = .eio) ∨
    (c.wellFormed rear = true ∧ c.wellFormed front = true ∧
      ((rawDelta rear front < 0 ∧ c.diff rear front reader = .eio) ∨
       (0 ≤ rawDelta rear front ∧ (c.cap : Int) < c.frames rear front ∧
          c.diff rear front reader =
            if reader then .overflow (min (c.frames rear front - c.cap) (2 ^ 31 - 1)).toNat else .eio) ∨
       (0 ≤ rawDelta rear front ∧ c.frames rear front ≤ c.cap ∧
          c.diff rear front reader = .ok (c.frames rear front).toNat))) := by
  unfold CfgRegs.diff
  cases hr : c.wellFormed rear with
  | false => simp
  | true =>
    cases hf : c.wellFormed front with
    | false => simp
    | true =>
      by_cases hd : rawDelta rear front < 0
      · simp [hd]
      · by_cases hc : (c.cap : Int) < c.frames rear front
        · simp [hd, hc, Int.not_lt.mp hd]
        · simp [hd, hc, Int.not_lt.mp hd, Int.not_lt.mp hc]

/-- A fill that `DIFF` answers is at most `N` (R176). -/
theorem CfgRegs.diff_ok_le {c : CfgRegs} {rear front : Word} {reader : Bool} {f : Nat}
    (h : c.diff rear front reader = .ok f) : f ≤ c.cap := by
  rcases c.diff_spec rear front reader with ⟨-, h'⟩ | ⟨-, -, ⟨-, h'⟩ | ⟨-, -, h'⟩ | ⟨-, hle, h'⟩⟩
  · rw [h] at h'; cases h'
  · rw [h] at h'; cases h'
  · rw [h] at h'; cases reader <;> cases h'
  · rw [h] at h'; cases h'; omega

/-- All that `BACK` answers (R178). -/
theorem CfgRegs.back_spec (c : CfgRegs) (x : Word) :
    (c.wellFormed x = false ∧ c.back x = none) ∨
    (c.wellFormed x = true ∧ c.back x = some (x - BitVec.ofNat 32 c.pow)) := by
  unfold CfgRegs.back
  cases c.wellFormed x <;> simp

/-! ### Levels -/

@[simp] theorem wmin_toNat (a b : Word) : (wmin a b).toNat = min a.toNat b.toNat := by
  unfold wmin; split <;> omega

@[simp] theorem wmax_toNat (a b : Word) : (wmax a b).toNat = max a.toNat b.toNat := by
  unfold wmax; split <;> omega

end Sys2Proof.Machine
end

