-- ==== Sys2Proof/Laws/Decode.lean ====
section
/-! SUPPORT. The fields of a command word that was packed from fields, and a command beat as bits. -/

namespace Sys2Proof

/-- Cutting a packed command word gives back its fields (30_encoding R112). -/
theorem cwFields_packCw (u f : BitVec 4) (sel flg : BitVec 8) :
    cwFields (packCw u f sel flg) = { unit := u, func := f, sel := sel, flg := flg, rsv := 0 } := by
  unfold cwFields packCw
  congr 1
  all_goals
    apply BitVec.eq_of_getLsbD_eq
    intro i hi
    simp only [BitVec.getLsbD_extractLsb', BitVec.getLsbD_append, hi, decide_true, Bool.true_and]
    repeat' split
    all_goals first | omega | (congr 1; omega)

/-- The decoder on a packed command word reads the unit's table with the fields it was packed from. -/
theorem decode_packCw (u f : BitVec 4) (sel flg : BitVec 8) (a b : Word) :
    decode (packCw u f sel flg) a b =
      (let g : CwFields := { unit := u, func := f, sel := sel, flg := flg, rsv := 0 }
       match u.toNat with
        | 0 => decodeIdx g a b
        | 1 => decodeBase g a b
        | 2 => decodeFifo g a b
        | 3 => decodeWriter g a b
        | 4 => decodeReader g a b
        | 5 => decodeXg g a
        | 6 => decodeBuf g a b
        | 7 => decodeFence g
        | _ => .error .reservedUnit) := by
  unfold decode
  rw [cwFields_packCw]
  rfl

/-- The two readings of a command beat as bits undo each other (30_encoding R111). -/
theorem Beat96.ofBits_bits (x : Beat96) : Beat96.ofBits x.bits = x := by
  obtain ⟨cw, a, b⟩ := x
  unfold Beat96.ofBits Beat96.bits
  congr 1
  all_goals
    apply BitVec.eq_of_getLsbD_eq
    intro i hi
    simp only [BitVec.getLsbD_extractLsb', BitVec.getLsbD_append, hi, decide_true, Bool.true_and]
    repeat' split
    all_goals first | omega | (congr 1; omega)

end Sys2Proof
end

