-- ==== Sys2Proof/Laws/Ops.lean ====
section
/-! SUPPORT. What each shared operation can answer, said once: draws, lagging loads, stores of cells, wakes, and the three
ways a command ends. -/

namespace Sys2Proof.Machine

open Sys2Proof

/-! ### Draws -/

/-- A draw touches nothing but the bookkeeping of draws. -/
theorem State.draw_frame (s : State) : ∃ cs n, s.draw.2 = { s with choices := cs, draws := n } := by
  unfold State.draw
  split
  · exact ⟨_, s.draws, rfl⟩
  · exact ⟨s.choices, _, rfl⟩

theorem State.pick_frame (s : State) (k : Nat) : ∃ cs n, (s.pick k).2 = { s with choices := cs, draws := n } := by
  unfold State.pick
  split
  · exact ⟨s.choices, s.draws, rfl⟩
  · exact s.draw_frame

/-- A pick is one of the possibilities. -/
theorem State.pick_lt (s : State) {k : Nat} (h : 1 ≤ k) : (s.pick k).1 < k := by
  unfold State.pick
  split
  · exact h
  · exact Nat.mod_lt _ h

/-- Every one of the possibilities is picked, where the environment fixes it. -/
theorem State.pick_fixed (s : State) (cs : List Nat) {j k : Nat} (h : j < k) (hk : 1 < k) :
    (({ s with choices := j :: cs }).pick k) = (j, { s with choices := cs }) := by
  simp [State.pick, State.draw, Nat.not_le.mpr hk, Nat.mod_eq_of_lt h]

theorem State.pick_one (s : State) {k : Nat} (h : k ≤ 1) : s.pick k = (0, s) := by
  simp [State.pick, h]

/-! ### Cells -/

@[simp] theorem Cell.newest_restart (v : Word) : (Cell.restart v).newest = 0 := rfl
@[simp] theorem Cell.pubs_restart (v : Word) : (Cell.restart v).pubs = [] := rfl
@[simp] theorem Cell.current_restart (v : Word) : (Cell.restart v).current = v := rfl
@[simp] theorem Cell.hist_restart (v : Word) : (Cell.restart v).hist = [v] := rfl
@[simp] theorem Cell.newest_push (x : Cell) (p : Pub) : (x.push p).newest = x.newest + 1 := by
  simp [Cell.newest, Cell.push]
@[simp] theorem Cell.base_push (x : Cell) (p : Pub) : (x.push p).base = x.base := rfl
@[simp] theorem Cell.hist_push (x : Cell) (p : Pub) : (x.push p).hist = x.hist ++ [p.value] := by
  simp [Cell.hist, Cell.push]

theorem Cell.hist_length (x : Cell) : x.hist.length = x.newest + 1 := by simp [Cell.hist, Cell.newest]

theorem Cell.valueAt_eq_getElem (x : Cell) {j : Nat} (h : j ≤ x.newest) :
    x.valueAt j = x.hist[j]'(by rw [Cell.hist_length]; omega) := by
  unfold Cell.valueAt
  rw [List.getD_eq_getElem _ _ (by rw [Cell.hist_length]; omega)]

/-- An observed value is one that was stored (20_memory R88 (a)). -/
theorem Cell.valueAt_mem (x : Cell) (j : Nat) : x.valueAt j ∈ x.hist := by
  rcases Nat.lt_or_ge j x.hist.length with h | h
  · unfold Cell.valueAt
    rw [List.getD_eq_getElem _ _ h]
    exact List.getElem_mem h
  · unfold Cell.valueAt
    rw [List.getD_eq_default _ _ h]
    simp [Cell.hist]

@[simp] theorem Cell.current_push (x : Cell) (p : Pub) : (x.push p).current = p.value := by
  unfold Cell.current Cell.valueAt
  rw [Cell.hist_push, Cell.newest_push]
  rw [List.getD_eq_getElem _ _ (by simp [Cell.hist_length])]
  rw [List.getElem_append_right (by simp [Cell.hist_length])]
  simp [Cell.hist_length]

/-- A cell that nothing was stored into holds the first value of its history. -/
theorem Cell.current_of_pubs {x : Cell} (h : x.pubs = []) : x.current = x.base := by
  simp [Cell.current, Cell.valueAt, Cell.newest, Cell.hist, h]

theorem Cell.valueAt_of_pubs {x : Cell} (h : x.pubs = []) (j : Nat) : x.valueAt j = x.base := by
  have := x.valueAt_mem j
  simpa [Cell.hist, h] using this

/-- Reading a part of the state after `setObs`. -/
@[simp] theorem State.cell_setObs (s : State) (o : Agent) (x : Observer) (c : CellSel) :
    (s.setObs o x).cell c = s.cell c := by cases c <;> simp [State.cell]

theorem State.cell_congr {s t : State} (hr : t.rear = s.rear) (hf : t.front = s.front) (c : CellSel) :
    t.cell c = s.cell c := by cases c <;> simp [State.cell, hr, hf]

@[simp] theorem State.cell_setCell (s : State) (c : CellSel) (x : Cell) : (s.setCell c x).cell c = x := by
  cases c <;> rfl

theorem State.cell_setCell_ne {c d : CellSel} (h : c ≠ d) (s : State) (x : Cell) :
    (s.setCell c x).cell d = s.cell d := by
  cases c <;> cases d <;> first | rfl | exact absurd rfl h

/-! ### Lagging loads (20_memory R88, R89) -/

/-- The position of a lagging load lies between the observer's last and the newest; only draws are taken. -/
theorem State.lagPos_spec (s : State) (o : Agent) (c : CellSel) (h : (s.obs o).pos c ≤ (s.cell c).newest) :
    (s.obs o).pos c ≤ (s.lagPos o c).1 ∧ (s.lagPos o c).1 ≤ (s.cell c).newest ∧
    (s.par.xing = .sc → (s.lagPos o c).1 = (s.cell c).newest) := by
  unfold State.lagPos
  split
  · exact ⟨h, Nat.le_refl _, fun _ => rfl⟩
  · refine ⟨?_, Nat.min_le_right _ _, fun hx => absurd hx ‹_›⟩
    exact Nat.le_min.mpr ⟨Nat.le_add_right _ _, h⟩

theorem State.lagPos_le (s : State) (o : Agent) (c : CellSel) : (s.lagPos o c).1 ≤ (s.cell c).newest := by
  unfold State.lagPos
  split
  · exact Nat.le_refl _
  · exact Nat.min_le_right _ _

theorem State.lagPos_frame (s : State) (o : Agent) (c : CellSel) :
    ∃ cs n, (s.lagPos o c).2 = { s with choices := cs, draws := n } := by
  unfold State.lagPos
  split
  · exact ⟨s.choices, s.draws, rfl⟩
  · exact s.pick_frame _

/-- A cell nothing was stored into has one value to observe. -/
theorem State.lagPos_of_pubs {s : State} {c : CellSel} (h : (s.cell c).pubs = []) (o : Agent) :
    (s.lagPos o c).1 = 0 := by
  have := s.lagPos_le o c
  simpa [Cell.newest, h] using this

/-- What a lagging load returns, and all it changes: the observer, and draws. -/
theorem State.ldaq_spec (s : State) (o : Agent) (c : CellSel) (h : (s.obs o).pos c ≤ (s.cell c).newest) :
    ∃ j cs n, (s.obs o).pos c ≤ j ∧ j ≤ (s.cell c).newest ∧ (s.par.xing = .sc → j = (s.cell c).newest) ∧
      (s.ldaq o c).1 = (s.cell c).valueAt j ∧
      (s.ldaq o c).2 = ({ s with choices := cs, draws := n }).setObs o
        (((s.obs o).setPos c j).setView ((s.obs o).view.acquire ((s.cell c).handsOver j))) := by
  obtain ⟨h1, h2, h3⟩ := s.lagPos_spec o c h
  obtain ⟨cs, n, hf⟩ := s.lagPos_frame o c
  refine ⟨_, cs, n, h1, h2, h3, rfl, ?_⟩
  unfold State.ldaq
  simp only [hf]
  cases o <;> rfl

/-- The value of a lagging load is one that was stored. -/
theorem State.ldaq_mem (s : State) (o : Agent) (c : CellSel) : (s.ldaq o c).1 ∈ (s.cell c).hist :=
  Cell.valueAt_mem _ _

/-- What a store of a cell changes in the cells. -/
theorem State.strl_cell (s : State) (o : Agent) (c : CellSel) (v : Word) :
    (s.strl o c v).cell c = (s.cell c).push { value := v, seen := (s.obs o).view.seen } := by
  simp [State.strl, View.fenceRel]

@[simp] theorem State.strl_rear (s : State) (o : Agent) (v : Word) :
    (s.strl o .rear v).rear = s.rear.push { value := v, seen := (s.obs o).view.seen } := by
  simpa [State.cell] using s.strl_cell o .rear v

@[simp] theorem State.strl_front (s : State) (o : Agent) (v : Word) :
    (s.strl o .front v).front = s.front.push { value := v, seen := (s.obs o).view.seen } := by
  simpa [State.cell] using s.strl_cell o .front v

@[simp] theorem State.strl_rear_front (s : State) (o : Agent) (v : Word) : (s.strl o .rear v).front = s.front := by
  simp [State.strl, State.setCell]

@[simp] theorem State.strl_front_rear (s : State) (o : Agent) (v : Word) : (s.strl o .front v).rear = s.rear := by
  simp [State.strl, State.setCell]

/-! ### Wakes (40_index_cell R150, R151) -/

/-- A wake-one of an empty set does nothing. -/
theorem State.wakeOne_nil {s : State} {c : CellSel} (h : s.wq c = []) (o : Agent) : s.wakeOne o c = s := by
  simp [State.wakeOne, h]

/-- A wake-one of a set with members takes one member out and releases it. -/
theorem State.wakeOne_spec {s : State} {c : CellSel} (h : s.wq c ≠ []) (o : Agent) :
    ∃ who ∈ s.wq c, ∃ cs n, s.wakeOne o c =
      State.release (s.obs o).view.seen (({ s with choices := cs, draws := n }).dequeue who c) who := by
  unfold State.wakeOne
  rw [dif_neg h]
  obtain ⟨cs, n, hf⟩ := s.pick_frame (s.wq c).length
  refine ⟨(s.wq c).getD (s.pick (s.wq c).length).1 ((s.wq c).head h), ?_, cs, n, by simp only [hf]⟩
  rcases Nat.lt_or_ge (s.pick (s.wq c).length).1 (s.wq c).length with hlt | hge
  · rw [List.getD_eq_getElem _ _ hlt]; exact List.getElem_mem hlt
  · rw [List.getD_eq_default _ _ hge]; exact List.head_mem h

/-! ### How a command ends -/

/-- A command that answers a next state was accepted, and either refused or run. -/
theorem State.command_next {s s' : State} {legal : Bool} {f : State → State} (h : s.command legal f = .next s') :
    s.ready s.beat.port = true ∧ ((legal = false ∧ s' = s.refuse) ∨ (legal = true ∧ s' = f s)) := by
  unfold State.command at h
  split at h
  · refine ⟨‹_›, ?_⟩
    cases h
    cases legal <;> simp
  · cases h

/-- A legal command on a ready port answers its effect. -/
theorem State.command_legal {s : State} {legal : Bool} {f : State → State} (hr : s.ready s.beat.port = true)
    (hl : legal = true) : s.command legal f = .next (f s) := by
  simp [State.command, hr, hl]

/-- An illegal command on a ready port is refused. -/
theorem State.command_illegal {s : State} {legal : Bool} {f : State → State} (hr : s.ready s.beat.port = true)
    (hl : legal = false) : s.command legal f = .next s.refuse := by
  simp [State.command, hr, hl]

/-- The state after a refusal. -/
theorem State.refuse_eq (s : State) : s.refuse = s.refusedOn s.beat.port := rfl

/-- Whoever may act through `PORT_W` is in a phase that is not DETACHED. -/
theorem State.writerMay_iff (s : State) :
    s.writerMay = true ↔ s.beat.port = .writer ∧ s.cfg.valid = true ∧ s.w.ph.isDetached = false := by
  simp [State.writerMay, and_assoc]

theorem State.readerMay_iff (s : State) (i : Nat) :
    s.readerMay i = true ↔
      s.beat.port = .reader i ∧ s.cfg.valid = true ∧ i < s.readers.length ∧ (s.rd i).ph.isDetached = false := by
  simp [State.readerMay, and_assoc]

theorem State.peerMay_iff (s : State) (c : CellSel) :
    s.peerMay c = true ↔ s.beat.port = .peer ∧ s.cfg.valid = true ∧ (c = .rear ∨ s.cfg.thr = true) := by
  simp [State.peerMay, and_assoc]

/-- A phase that accepts commands and is not DETACHED is IDLE. -/
theorem Phase.idle_of_accepts {p : Phase} (h : p.accepts = true) (hd : p.isDetached = false) : p = .idle := by
  cases p <;> simp_all [Phase.accepts, Phase.isDetached]

end Sys2Proof.Machine
end

