-- ==== Sys2Proof/Laws/PerInstr.lean ====
section
/-! SUPPORT. For every operation: the command word the encoder writes selects the operation's own row of the opcode map
(30_encoding R118). -/

namespace Sys2Proof.Laws.RowMatch

open Sys2Proof

/-- The encoded command word selects the row of the operation. -/
def Statement (i : Instr) : Prop := ∀ r : OpRow, opRows[i.row]? = some r → r.selects (encode i).cw = true

/-- From the row that stands at the operation's place. -/
theorem of_row (i : Instr) (r : OpRow) (hr : opRows[i.row]? = some r) (h : r.selects (encode i).cw = true) :
    Statement i := by
  intro r' hr'
  cases hr.symm.trans hr'
  exact h

/-- A row that leaves `SEL` free is selected whatever `SEL` is. -/
theorem select_any (unit func : BitVec 4) (m v : Word) (flg : BitVec 8)
    (h : ∀ sel : BitVec 8, (packCw unit func sel flg &&& m) = v) (sel : BitVec 8) :
    (OpRow.mk m v).selects (packCw unit func sel flg) = true := by
  simp [OpRow.selects, h]

/-- A timeout operand sets the flag `TV` or no flag (R115). -/
theorem tmoFlag_cases (t : Timeout) : tmoFlag t = 0 ∨ tmoFlag t = flagTV := by
  cases t
  · exact .inl rfl
  · exact .inr rfl

theorem idxInit (c : CellSel) : Statement (.idxInit c) := by
  cases c <;>
    (refine of_row _ _ rfl ?_; simp only [encode]; decide)

theorem idxLdaq (c : CellSel) : Statement (.idxLdaq c) := by
  cases c <;>
    (refine of_row _ _ rfl ?_; simp only [encode]; decide)

theorem idxStrl (c : CellSel) (v : Word) : Statement (.idxStrl c v) := by
  cases c <;>
    (refine of_row _ _ rfl ?_; simp only [encode]; decide)

theorem idxCas (c : CellSel) (e : Word) (d : Word) : Statement (.idxCas c e d) := by
  cases c <;>
    (refine of_row _ _ rfl ?_; simp only [encode]; decide)

theorem idxWait (c : CellSel) (e : Word) (t : Timeout) : Statement (.idxWait c e t) := by
  cases c <;> rcases tmoFlag_cases t with h | h <;>
    (refine of_row _ _ rfl ?_; simp only [encode, h]; decide)

theorem idxWake1 (c : CellSel) : Statement (.idxWake1 c) := by
  cases c <;>
    (refine of_row _ _ rfl ?_; simp only [encode]; decide)

theorem idxWakeall (c : CellSel) : Statement (.idxWakeall c) := by
  cases c <;>
    (refine of_row _ _ rfl ?_; simp only [encode]; decide)

theorem baseNp2 (n : Word) : Statement (.baseNp2 n) := by
  refine of_row _ _ rfl ?_
  simp only [encode]
  decide

theorem baseSlot (x : Word) : Statement (.baseSlot x) := by
  refine of_row _ _ rfl ?_
  simp only [encode]
  decide

theorem baseSum (x : Word) (k : Word) : Statement (.baseSum x k) := by
  refine of_row _ _ rfl ?_
  simp only [encode]
  decide

theorem baseDiff (r : Word) (f : Word) (rdr : Bool) (lv : Bool) : Statement (.baseDiff r f rdr lv) := by
  cases rdr <;> cases lv <;>
    (refine of_row _ _ rfl ?_; simp only [encode]; decide)

theorem baseBack (x : Word) : Statement (.baseBack x) := by
  refine of_row _ _ rfl ?_
  simp only [encode]
  decide

theorem fifoInit (n : Word) (size : Word) (thr : Bool) (ext : Bool) : Statement (.fifoInit n size thr ext) := by
  cases thr <;> cases ext <;>
    (refine of_row _ _ rfl ?_; simp only [encode]; decide)

theorem csrRd (sel : BitVec 8) : Statement (.csrRd sel) := by
  refine of_row _ _ rfl ?_
  exact select_any _ _ _ _ _ (by decide) _

theorem wAttach : Statement (.wAttach) := by
  refine of_row _ _ rfl ?_
  simp only [encode]
  decide

theorem wObtain (n : Word) (t : Timeout) : Statement (.wObtain n t) := by
  rcases tmoFlag_cases t with h | h <;>
    (refine of_row _ _ rfl ?_; simp only [encode, h]; decide)

theorem wRelease (k : Word) : Statement (.wRelease k) := by
  refine of_row _ _ rfl ?_
  simp only [encode]
  decide

theorem wWrite (n : Word) (t : Timeout) : Statement (.wWrite n t) := by
  rcases tmoFlag_cases t with h | h <;>
    (refine of_row _ _ rfl ?_; simp only [encode, h]; decide)

theorem wSethlt (l : Word) : Statement (.wSethlt l) := by
  refine of_row _ _ rfl ?_
  simp only [encode]
  decide

theorem wSetlla (l : Word) : Statement (.wSetlla l) := by
  refine of_row _ _ rfl ?_
  simp only [encode]
  decide

theorem wSeteff (e : Word) : Statement (.wSeteff e) := by
  refine of_row _ _ rfl ?_
  simp only [encode]
  decide

theorem rAttach (i : BitVec 8) (thr : Bool) : Statement (.rAttach i thr) := by
  cases thr <;>
    (refine of_row _ _ rfl ?_; exact select_any _ _ _ _ _ (by decide) _)

theorem rObtain (i : BitVec 8) (n : Word) (t : Timeout) (lv : Bool) : Statement (.rObtain i n t lv) := by
  cases lv <;> rcases tmoFlag_cases t with h | h <;>
    (refine of_row _ _ rfl ?_; simp only [encode, h]; exact select_any _ _ _ _ _ (by decide) _)

theorem rRelease (i : BitVec 8) (k : Word) : Statement (.rRelease i k) := by
  refine of_row _ _ rfl ?_
  exact select_any _ _ _ _ _ (by decide) _

theorem rRead (i : BitVec 8) (n : Word) (t : Timeout) (lv : Bool) : Statement (.rRead i n t lv) := by
  cases lv <;> rcases tmoFlag_cases t with h | h <;>
    (refine of_row _ _ rfl ?_; simp only [encode, h]; exact select_any _ _ _ _ _ (by decide) _)

theorem rSetllt (i : BitVec 8) (l : Word) : Statement (.rSetllt i l) := by
  refine of_row _ _ rfl ?_
  exact select_any _ _ _ _ _ (by decide) _

theorem rSethla (i : BitVec 8) (l : Word) : Statement (.rSethla i l) := by
  refine of_row _ _ rfl ?_
  exact select_any _ _ _ _ _ (by decide) _

theorem xgEnc (v : Word) : Statement (.xgEnc v) := by
  refine of_row _ _ rfl ?_
  simp only [encode]
  decide

theorem xgDec (g : Word) : Statement (.xgDec g) := by
  refine of_row _ _ rfl ?_
  simp only [encode]
  decide

theorem bufLdb (off : Word) : Statement (.bufLdb off) := by
  refine of_row _ _ rfl ?_
  simp only [encode]
  decide

theorem bufStb (off : Word) (v : Byte) : Statement (.bufStb off v) := by
  refine of_row _ _ rfl ?_
  simp only [encode]
  decide

theorem fenceAcq : Statement (.fenceAcq) := by
  refine of_row _ _ rfl ?_
  simp only [encode]
  decide

theorem fenceRel : Statement (.fenceRel) := by
  refine of_row _ _ rfl ?_
  simp only [encode]
  decide

end Sys2Proof.Laws.RowMatch
end

