-- ==== Sys2Proof/Laws/Step.lean ====
section
/-! SUPPORT. What one step of the machine can do, said once, and the induction that every invariant goes through. -/

namespace Sys2Proof.Machine

open Sys2Proof

/-! ### Runs of atomic steps -/

theorem State.runWriter_keeps {I : State → Prop} (h : ∀ s : State, s.w.ph.isBusy = true → I s → I s.stepWriter)
    (n : Nat) (s : State) (hs : I s) : I (s.runWriter n) := by
  induction n generalizing s with
  | zero => exact hs
  | succ n ih =>
    unfold State.runWriter
    split
    · exact ih _ (h s ‹_› hs)
    · exact hs

theorem State.runReader_keeps {I : State → Prop} (i : Nat)
    (h : ∀ s : State, (s.rd i).ph.isBusy = true → I s → I (s.stepReader i))
    (n : Nat) (s : State) (hs : I s) : I (s.runReader i n) := by
  induction n generalizing s with
  | zero => exact hs
  | succ n ih =>
    unfold State.runReader
    split
    · exact ih _ (h s ‹_› hs)
    · exact hs

/-- A run that is over stays as it is. -/
theorem State.runWriter_idle {s : State} (h : s.w.ph.isBusy = false) (n : Nat) : s.runWriter n = s := by
  cases n with
  | zero => rfl
  | succ n => simp [State.runWriter, h]

theorem State.runReader_idle {s : State} {i : Nat} (h : (s.rd i).ph.isBusy = false) (n : Nat) : s.runReader i n = s := by
  cases n with
  | zero => rfl
  | succ n => simp [State.runReader, h]

/-- One atomic step of a run. -/
theorem State.runWriter_succ {s : State} (h : s.w.ph.isBusy = true) (n : Nat) :
    s.runWriter (n + 1) = s.stepWriter.runWriter n := by
  simp [State.runWriter, h]

theorem State.runReader_succ {s : State} {i : Nat} (h : (s.rd i).ph.isBusy = true) (n : Nat) :
    s.runReader i (n + 1) = (s.stepReader i).runReader i n := by
  simp [State.runReader, h]

/-! ### One step -/

/-- The state as the schedule moved on: nothing but the bookkeeping of the schedule and of draws differs. -/
theorem State.nextTurn_frame {s s' : State} {t : Turn} (h : s.nextTurn = some (t, s')) :
    ∃ q cs n, s' = { s with sched := q, choices := cs, draws := n } := by
  unfold State.nextTurn at h
  split at h
  · cases h; exact ⟨_, s.choices, s.draws, rfl⟩
  · split at h
    · cases h
    · rename_i o os _
      simp only [Option.some.injEq, Prod.mk.injEq] at h
      obtain ⟨-, rfl⟩ := h
      obtain ⟨c1, n1, h1⟩ := s.pick_frame (os.length + 1)
      rw [h1]
      obtain ⟨c2, n2, h2⟩ := ({ s with choices := c1, draws := n1 } : State).draw_frame
      rw [h2]
      obtain ⟨c3, n3, h3⟩ := ({ s with choices := c2, draws := n2 } : State).pick_frame 3
      exact ⟨s.sched, c3, n3, h3⟩

theorem takeCommand_spec {o : Agent} {l : List Command} {c : Command} {rest : List Command}
    (h : takeCommand o l = some (c, rest)) : c.port = o ∧ c ∈ l ∧ ∀ d ∈ rest, d ∈ l := by
  induction l generalizing c rest with
  | nil => cases h
  | cons d l ih =>
    unfold takeCommand at h
    split at h
    · cases h
      exact ⟨‹_›, List.mem_cons_self, fun x hx => List.mem_cons_of_mem _ hx⟩
    · cases hl : takeCommand o l with
      | none => rw [hl] at h; cases h
      | some p =>
        obtain ⟨c', r'⟩ := p
        rw [hl] at h
        cases h
        obtain ⟨h1, h2, h3⟩ := ih hl
        refine ⟨h1, List.mem_cons_of_mem _ h2, fun x hx => ?_⟩
        rcases List.mem_cons.mp hx with rfl | hx
        · exact List.mem_cons_self
        · exact List.mem_cons_of_mem _ (h3 x hx)

/-- What a turn of agent `o` can do from `s`, when it ends in `s'`. -/
inductive TurnDid (s : State) : Agent → State → Prop
  /-- Nothing. -/
  | idle (o : Agent) : TurnDid s o s
  /-- An illegal command word was refused. -/
  | illegal (c : Command) (rest : List Command) (burst : Nat) (hc : c ∈ s.inbox) (hr : ∀ d ∈ rest, d ∈ s.inbox) :
      TurnDid s c.port (s.beatOf c rest burst).refuse
  /-- A command ran. -/
  | ran (c : Command) (rest : List Command) (burst : Nat) (i : Instr) (s' : State) (hc : c ∈ s.inbox)
      (hr : ∀ d ∈ rest, d ∈ s.inbox) (hp : s.hasPort c.port = true)
      (hd : decode c.cmd.cw c.cmd.a c.cmd.b = .ok i) (he : exec i (s.beatOf c rest burst) = .next s') :
      TurnDid s c.port s'
  /-- The writer's operation went on. -/
  | writer (t : Task) (n : Nat) (h : s.w.ph = .busy t) : TurnDid s .writer (s.runWriter n)
  /-- The writer un-parked, and went on. -/
  | writerWoke (t : Task) (p : Park) (c : Cause) (n : Nat) (h : s.w.ph = .parked t p)
      (he : s.unparkEnabled p c = true) : TurnDid s .writer ((s.unparkWriter t p c).runWriter n)
  /-- A reader's operation went on. -/
  | reader (i : Nat) (t : Task) (n : Nat) (h : (s.rd i).ph = .busy t) : TurnDid s (.reader i) (s.runReader i n)
  /-- A reader un-parked, and went on. -/
  | readerWoke (i : Nat) (t : Task) (p : Park) (c : Cause) (n : Nat) (h : (s.rd i).ph = .parked t p)
      (he : s.unparkEnabled p c = true) : TurnDid s (.reader i) ((s.unparkReader i t p c).runReader i n)
  /-- The foreign peer's wait ended. -/
  | peerWoke (p : Park) (c : Cause) (h : s.peer.wait = some p) (he : s.unparkEnabled p c = true) :
      TurnDid s .peer (s.unparkPeer p c)

theorem State.acceptNext_cases {s s' : State} {o : Agent} {burst : Nat} (h : s.acceptNext o burst = .next s') :
    TurnDid s o s' := by
  unfold State.acceptNext at h
  split at h
  · cases h; exact .idle o
  · rename_i c rest ht
    obtain ⟨rfl, hc, hr⟩ := takeCommand_spec ht
    split at h
    · rename_i hp
      unfold State.accept at h
      dsimp only at h
      split at h
      · rename_i i hd
        exact .ran c rest burst i s' hc hr hp hd h
      · cases h
        exact .illegal c rest burst hc hr
    · cases h

/-- One turn. -/
theorem State.turn_cases {s s' : State} {t : Turn} (h : s.turn t = .next s') : TurnDid s t.who s' := by
  obtain ⟨who, burst, cause⟩ := t
  cases who with
  | host => exact State.acceptNext_cases h
  | writer =>
    simp only [State.turn, State.turnWriter] at h
    split at h
    · cases h; exact .writer _ _ ‹_›
    · split at h
      · cases h; exact .writerWoke _ _ _ _ ‹_› ‹_›
      · cases h; exact .idle _
    · exact State.acceptNext_cases h
  | reader i =>
    simp only [State.turn, State.turnReader] at h
    split at h
    · cases h; exact .reader i _ _ ‹_›
    · split at h
      · cases h; exact .readerWoke i _ _ _ _ ‹_› ‹_›
      · cases h; exact .idle _
    · exact State.acceptNext_cases h
  | peer =>
    simp only [State.turn, State.turnPeer] at h
    split at h
    · split at h
      · cases h; exact .peerWoke _ _ ‹_› ‹_›
      · cases h; exact .idle _
    · exact State.acceptNext_cases h

/-- One step: nothing, or a turn of the schedule. -/
theorem step_cases {s s' : State} (h : step s = .next s') :
    s' = s ∨ ∃ t s1, s.nextTurn = some (t, s1) ∧ TurnDid s1 t.who s' := by
  unfold step at h
  split at h
  · cases h; exact .inl rfl
  · rename_i t s1 hn
    exact .inr ⟨t, s1, hn, State.turn_cases h⟩

/-! ### The induction of every invariant -/

/-- What an invariant has to survive. `ok` holds of the instructions that may run. -/
structure Kept (I : State → Prop) (ok : Instr → Prop) : Prop where
  env : ∀ (s : State) q cs n, I s → I { s with sched := q, choices := cs, draws := n }
  beat : ∀ (s : State) b rest, (∀ d ∈ rest, d ∈ s.inbox) → I s → I { s with beat := b, inbox := rest }
  answer : ∀ (s : State) o r, I s → I (s.answer o r)
  allowed : ∀ (s : State) c i, I s → c ∈ s.inbox → decode c.cmd.cw c.cmd.a c.cmd.b = .ok i → ok i
  stepWriter : ∀ s : State, s.w.ph.isBusy = true → I s → I s.stepWriter
  stepReader : ∀ (s : State) i, (s.rd i).ph.isBusy = true → I s → I (s.stepReader i)
  unparkWriter : ∀ (s : State) t p c, s.w.ph = .parked t p → I s → I (s.unparkWriter t p c)
  unparkReader : ∀ (s : State) i t p c, (s.rd i).ph = .parked t p → I s → I (s.unparkReader i t p c)
  unparkPeer : ∀ (s : State) p c, s.peer.wait = some p → I s → I (s.unparkPeer p c)
  exec : ∀ (s s' : State) i, ok i → s.hasPort s.beat.port = true → I s → exec i s = .next s' → I s'

/-- An invariant that survives all of these is kept by every step. -/
theorem step_keeps {I : State → Prop} {ok : Instr → Prop} (k : Kept I ok) {s s' : State} (hi : I s)
    (h : step s = .next s') : I s' := by
  rcases step_cases h with rfl | ⟨t, s1, hn, hd⟩
  · exact hi
  obtain ⟨q, cs, n, rfl⟩ := State.nextTurn_frame hn
  have h1 := k.env s q cs n hi
  generalize ({ s with sched := q, choices := cs, draws := n } : State) = s1 at *
  generalize t.who = o at hd
  cases hd with
  | idle => exact h1
  | illegal c rest burst hc hr => exact k.answer _ _ _ (k.beat _ _ _ hr h1)
  | ran c rest burst i _ hc hr hp hdec he =>
    exact k.exec _ _ i (k.allowed _ c i h1 hc hdec) hp (k.beat _ _ _ hr h1) he
  | writer t n hb => exact State.runWriter_keeps k.stepWriter _ _ h1
  | writerWoke t p c n hp _ => exact State.runWriter_keeps k.stepWriter _ _ (k.unparkWriter _ t p c hp h1)
  | reader i t n hb => exact State.runReader_keeps i (fun s => k.stepReader s i) _ _ h1
  | readerWoke i t p c n hp _ =>
    exact State.runReader_keeps i (fun s => k.stepReader s i) _ _ (k.unparkReader _ i t p c hp h1)
  | peerWoke p c hp _ => exact k.unparkPeer _ p c hp h1

end Sys2Proof.Machine
end

