-- ==== Sys2Proof/Laws/Transfer.lean ====
section
/-! SUPPORT. What the parts of an obtain and of a transfer can answer, said once: the count in a response, the fragments of a
grant, what a wake leaves, and what the copy of a pass leaves. -/

namespace Sys2Proof.Machine

open Sys2Proof

/-! ### Counts and fragments -/

/-- A count is never negative, and it is the count where a signed word holds it (00_scope R11). -/
theorem Response.frames_isCount (n : Nat) : isCount (Response.frames n).ret n := by
  unfold Response.frames
  split
  · rename_i h
    have hn : (BitVec.ofNat 32 n).toNat = n := by simp [BitVec.toNat_ofNat]; omega
    exact ⟨by rw [BitVec.msb_eq_decide, hn]; simpa using h, fun _ => hn⟩
  · rename_i h
    exact ⟨by simp [BitVec.msb_setWidth], fun h' => absurd h' h⟩

/-- A response of a count says nothing else. -/
theorem Response.frames_eq (n : Nat) : Response.frames n = { ret := (Response.frames n).ret } := rfl

/-- Where a word holds the count, `RET` is it. -/
theorem Response.frames_small {n : Nat} (h : n < 2 ^ 31) : Response.frames n = { ret := BitVec.ofNat 32 n } := by
  unfold Response.frames
  rw [if_pos h]

/-- Up to slot `N` the fragments are the rule's, and nothing is drawn (43_writer R223). -/
theorem State.fragments_of_le {s : State} {x : Word} (h : s.cfg.slotNat x ≤ s.cfg.cap) (g : Nat) :
    s.fragments x g = ((s.cfg.frag0 x g, s.cfg.frag1 x g), s) := by
  simp [State.fragments, State.firstPart, h, CfgRegs.frag0, CfgRegs.frag1]

/-- From any index the fragments split the grant in two parts of whole frames (30_encoding R126); only draws are taken. -/
theorem State.fragments_spec (s : State) (x : Word) (g : Nat) :
    ∃ first cs n, first ≤ g ∧ s.fragments x g =
      ((s.cfg.headFrag x g first, s.cfg.tailFrag g first), { s with choices := cs, draws := n }) := by
  unfold State.fragments State.firstPart
  split
  · exact ⟨_, s.choices, s.draws, Nat.min_le_left _ _, rfl⟩
  · obtain ⟨cs, n, h⟩ := s.pick_frame (g + 1)
    refine ⟨_, cs, n, Nat.lt_succ_iff.mp (s.pick_lt (Nat.le_add_left 1 g)), ?_⟩
    simp only [h]

/-! ### Wakes (40_index_cell R150, R151) -/

@[simp] theorem Phase.wakeUp_wakeUp (v w : Seen) (p : Phase) : (p.wakeUp v).wakeUp w = p.wakeUp w := by
  cases p <;> rfl

@[simp] theorem Phase.wakeUp_detached (v : Seen) : Phase.wakeUp v .detached = .detached := rfl
@[simp] theorem Phase.wakeUp_idle (v : Seen) : Phase.wakeUp v .idle = .idle := rfl
@[simp] theorem Phase.wakeUp_busy (v : Seen) (t : Task) : Phase.wakeUp v (.busy t) = .busy t := rfl

/-- Releasing an agent wakes it. -/
theorem State.release_woken (v : Seen) (s : State) (o : Agent) : wokenIn v s (State.release v s o) o := by
  cases o with
  | host => trivial
  | writer => rfl
  | peer => rfl
  | reader i =>
    show ((s.setRd i _).rd i).ph = _
    by_cases h : i < s.readers.length
    · rw [State.rd_setRd_same h]
    · rw [State.setRd_of_not_lt h, State.rd_of_not_lt h]; rfl

/-- Releasing an agent leaves every other as it is. -/
theorem State.release_kept (v : Seen) (s : State) {o p : Agent} (h : p ≠ o) : keptIn s (State.release v s o) p := by
  cases o <;> cases p <;> first | trivial | exact absurd rfl h | skip
  rename_i i j
  show ((s.setRd i _).rd j).ph = _
  rw [State.rd_setRd_ne (fun e => h (by rw [e]))]

/-- Releasing an agent touches its phase or wait, and nothing else. -/
theorem State.release_rd (v : Seen) (s : State) (o : Agent) (i : Nat) :
    { (State.release v s o).rd i with ph := (s.rd i).ph } = s.rd i := by
  cases o with
  | reader j =>
    unfold State.release
    simp only
    rw [State.rd_setRd]
    split
    · rename_i h; obtain ⟨rfl, -⟩ := h; rfl
    · rfl
  | _ => rfl

@[simp] theorem State.wq_setWq (s : State) (c : CellSel) (q : List Agent) : (s.setWq c q).wq c = q := by cases c <;> rfl
@[simp] theorem State.wq_release (v : Seen) (s : State) (o : Agent) (c : CellSel) :
    (State.release v s o).wq c = s.wq c := by cases c <;> simp [State.wq]

theorem keptIn_refl (s : State) (o : Agent) : keptIn s s o := by cases o <;> trivial

theorem keptIn_trans {s t u : State} {o : Agent} (h : keptIn s t o) (k : keptIn t u o) : keptIn s u o := by
  cases o <;> first | trivial | exact Eq.trans k h

theorem wokenIn_of_kept {v : Seen} {s t u : State} {o : Agent} (h : keptIn s t o) (k : wokenIn v t u o) :
    wokenIn v s u o := by
  cases o with
  | host => trivial
  | writer => exact k.trans (by rw [show t.w.ph = s.w.ph from h])
  | reader i => exact k.trans (by rw [show (t.rd i).ph = (s.rd i).ph from h])
  | peer => exact k.trans (by rw [show t.peer.wait = s.peer.wait from h])

theorem wokenIn_kept {v : Seen} {s t u : State} {o : Agent} (h : wokenIn v s t o) (k : keptIn t u o) :
    wokenIn v s u o := by
  cases o <;> first | trivial | exact Eq.trans k h

/-- A second wake leaves what it hands over. -/
theorem wokenIn_wokenIn {v w : Seen} {s t u : State} {o : Agent} (h : wokenIn v s t o) (k : wokenIn w t u o) :
    wokenIn w s u o := by
  cases o with
  | host => trivial
  | writer => exact k.trans (by rw [show t.w.ph = s.w.ph.wakeUp v from h, Phase.wakeUp_wakeUp])
  | reader i => exact k.trans (by rw [show (t.rd i).ph = (s.rd i).ph.wakeUp v from h, Phase.wakeUp_wakeUp])
  | peer =>
    refine k.trans ?_
    rw [show t.peer.wait = s.peer.wait.map _ from h, Option.map_map]
    rfl

/-- What releasing the members of a list leaves. -/
theorem State.releaseAll_spec (v : Seen) (q : List Agent) (s : State) :
    (∀ o ∈ q, wokenIn v s (q.foldl (State.release v) s) o) ∧
    (∀ o, o ∉ q → keptIn s (q.foldl (State.release v) s) o) ∧
    ∀ i, { (q.foldl (State.release v) s).rd i with ph := (s.rd i).ph } = s.rd i := by
  induction q generalizing s with
  | nil => exact ⟨fun o h => absurd h List.not_mem_nil, fun o _ => keptIn_refl s o, fun i => rfl⟩
  | cons a q ih =>
    obtain ⟨hw, hk, hr⟩ := ih (State.release v s a)
    refine ⟨fun o ho => ?_, fun o ho => ?_, fun i => ?_⟩
    · by_cases hoa : o = a
      · subst hoa
        by_cases hoq : o ∈ q
        · exact wokenIn_wokenIn (State.release_woken v s o) (hw o hoq)
        · exact wokenIn_kept (State.release_woken v s o) (hk o hoq)
      · exact wokenIn_of_kept (State.release_kept v s hoa) (hw o ((List.mem_cons.mp ho).resolve_left hoa))
    · rw [List.mem_cons, not_or] at ho
      exact keptIn_trans (State.release_kept v s ho.1) (hk o ho.2)
    · have h1 := congrArg (fun r : Reader => { r with ph := (s.rd i).ph }) (hr i)
      exact h1.trans (State.release_rd v s a i)

/-- Releasing the members of a list touches phases and the peer's wait, and nothing else. -/
theorem State.releaseAll_form (v : Seen) (q : List Agent) (s : State) :
    ∃ (ph : Phase) (rs : List Reader) (wait : Option Park), rs.length = s.readers.length ∧
      q.foldl (State.release v) s =
        { s with w := { s.w with ph := ph }, readers := rs, peer := { s.peer with wait := wait } } := by
  induction q generalizing s with
  | nil => exact ⟨s.w.ph, s.readers, s.peer.wait, rfl, rfl⟩
  | cons a q ih =>
    obtain ⟨ph, rs, wait, h1, h2⟩ := ih (State.release v s a)
    exact ⟨ph, rs, wait, h1.trans (by simp), h2.trans (by cases a <;> rfl)⟩

/-- A state that differs in draws and a parked set only has the same phases. -/
theorem keptIn_draws (s : State) (cs : List Nat) (n : Nat) (c : CellSel) (q : List Agent) (o : Agent) :
    keptIn s (({ s with choices := cs, draws := n } : State).setWq c q) o := by
  cases c <;> cases o <;> trivial

/-- What `WAKE(c, 1)` does, all of it. -/
theorem State.wakeOne_wokeFrom (s : State) (o : Agent) (c : CellSel) :
    wokeFrom (s.obs o).view.seen s (s.wakeOne o c) c false ∧ onlyWakes s (s.wakeOne o c) c ∧
      (s.wakeOne o c).out = s.out := by
  by_cases h : s.wq c = []
  · rw [State.wakeOne_nil h]
    refine ⟨Or.inl ⟨h, h, keptIn_refl s⟩, ⟨rfl, fun i => rfl, ?_⟩, rfl⟩
    cases c <;> rfl
  · obtain ⟨who, hm, cs, n, e⟩ := State.wakeOne_spec h o
    rw [e]
    generalize (s.obs o).view.seen = v
    have hd : ∀ p, keptIn s (({ s with choices := cs, draws := n } : State).dequeue who c) p :=
      fun p => keptIn_draws s cs n c _ p
    refine ⟨Or.inr ⟨who, hm, ?_, wokenIn_of_kept (hd who) (State.release_woken v _ who),
      fun p hp => keptIn_trans (hd p) (State.release_kept v _ hp)⟩, ⟨?_, fun i => ?_, ?_⟩, ?_⟩
    · cases c <;> simp [State.dequeue, State.wq, State.setWq]
    · cases c <;> simp [State.dequeue, State.setWq]
    · have h1 := State.release_rd v (({ s with choices := cs, draws := n } : State).dequeue who c) who i
      cases c <;> exact h1
    · cases c <;> cases who <;> rfl
    · simp

/-- What `WAKE(c, ALL)` does, all of it. -/
theorem State.wakeAll_wokeFrom (s : State) (o : Agent) (c : CellSel) :
    wokeFrom (s.obs o).view.seen s (s.wakeAll o c) c true ∧ onlyWakes s (s.wakeAll o c) c ∧
      (s.wakeAll o c).out = s.out ∧ (s.wakeAll o c).choices = s.choices ∧ (s.wakeAll o c).draws = s.draws := by
  unfold State.wakeAll
  generalize (s.obs o).view.seen = v
  obtain ⟨hw, hk, hr⟩ := State.releaseAll_spec v (s.wq c) s
  have hs : ∀ (t : State) p, keptIn t (t.setWq c []) p := fun t p => keptIn_draws t t.choices t.draws c [] p
  refine ⟨⟨by simp, fun p hp => wokenIn_kept (hw p hp) (hs _ p), fun p hp => keptIn_trans (hk p hp) (hs _ p)⟩,
    ⟨?_, fun i => ?_, ?_⟩, by simp, by simp, by simp⟩
  · obtain ⟨ph, rs, wait, hl, h⟩ := State.releaseAll_form v (s.wq c) s
    rw [h]
    cases c <;> exact hl
  · refine Eq.trans ?_ (hr i)
    cases c <;> rfl
  · obtain ⟨ph, rs, wait, -, h⟩ := State.releaseAll_form v (s.wq c) s
    rw [h]
    cases c <;> rfl

/-- What the wake of a trigger step does, all of it (R152). -/
theorem State.wakeOwn_wokeFrom (s : State) (o : Agent) (c : CellSel) :
    wokeFrom (s.obs o).view.seen s (s.wakeOwn o c) c (c == .rear && s.par.nReaders != 1) ∧
      onlyWakes s (s.wakeOwn o c) c ∧ (s.wakeOwn o c).out = s.out := by
  unfold State.wakeOwn
  split
  · rename_i h
    have e : (c == .rear && s.par.nReaders != 1) = false := by
      rcases h with rfl | h
      · rfl
      · simp [h]
    rw [e]
    exact s.wakeOne_wokeFrom o c
  · rename_i h
    rw [not_or] at h
    have e : (c == .rear && s.par.nReaders != 1) = true := by
      cases c <;> simp_all
    rw [e]
    obtain ⟨h1, h2, h3, -, -⟩ := s.wakeAll_wokeFrom o c
    exact ⟨h1, h2, h3⟩

/-! ### Runs of atomic steps -/

theorem State.runWriter_add (s : State) (m n : Nat) : s.runWriter (m + n) = (s.runWriter m).runWriter n := by
  induction m generalizing s with
  | zero => simp [State.runWriter]
  | succ m ih =>
    by_cases h : s.w.ph.isBusy = true
    · rw [Nat.succ_add, State.runWriter_succ h, State.runWriter_succ h, ih]
    · have h' : s.w.ph.isBusy = false := by simpa using h
      simp only [State.runWriter_idle h']

theorem State.runReader_add (s : State) (i m n : Nat) : s.runReader i (m + n) = (s.runReader i m).runReader i n := by
  induction m generalizing s with
  | zero => simp [State.runReader]
  | succ m ih =>
    by_cases h : (s.rd i).ph.isBusy = true
    · rw [Nat.succ_add, State.runReader_succ h, State.runReader_succ h, ih]
    · have h' : (s.rd i).ph.isBusy = false := by simpa using h
      simp only [State.runReader_idle h']

/-! ### The copy of `W.WRITE` (43_writer R227) -/

/-- The writer stores one of the bytes left, or passes over one that has no place. -/
theorem State.stepWriter_copy {s : State} {t : Task} {left : List Nat}
    (hp : s.w.ph = .busy { t with point := .copy left }) (hne : left ≠ []) :
    ∃ (k j : Nat) (b : Byte) (cs : List Nat) (n : Nat), left[k]? = some j ∧
      (∀ v, t.din[t.done * s.cfg.size.toNat + j]? = some v → b = v) ∧
      let seen := s.w.obs.view.seen.bump false
      let w' : Writer := { s.w with ph := .busy { t with point := afterCopy (left.eraseIdx k) } }
      s.stepWriter =
        if t.byteOff j < s.cfg.bytes then
          { s with
            choices := cs
            draws := n
            buf := s.buf.put (t.byteOff j) b
            writes := s.writes ++ [⟨t.byteOff j, b, false, seen⟩]
            w := { w' with obs := s.w.obs.setView { s.w.obs.view with seen := seen } } }
        else { s with choices := cs, draws := n, w := w' } := by
  have hl : 1 ≤ left.length := List.length_pos_iff.mpr hne
  have hk := s.pick_lt hl
  obtain ⟨c1, n1, h1⟩ := s.pick_frame left.length
  have hj : left[(s.pick left.length).1]? = some left[(s.pick left.length).1] := List.getElem?_eq_getElem hk
  obtain ⟨c2, n2, h2⟩ := ({ s with choices := c1, draws := n1 } : State).draw_frame
  have hstep : s.stepWriter = s.copyWriter { t with point := .copy left } left := by
    unfold State.stepWriter; rw [hp]
  cases hd : t.din[t.done * s.cfg.size.toNat + left[(s.pick left.length).1]]? with
  | some v =>
    refine ⟨_, _, v, c1, n1, hj, fun v' hv' => (Option.some.inj (hd.symm.trans hv')), ?_⟩
    rw [hstep]
    unfold State.copyWriter State.copyByteWriter
    simp only [hj, h1, hd]
    split
    · exact (if_pos ‹_›).symm
    · exact (if_neg ‹_›).symm
  | none =>
    refine ⟨(s.pick left.length).1, left[(s.pick left.length).1],
      (({ s with choices := c1, draws := n1 } : State).freeByte).1, c2, n2, hj, ?_, ?_⟩
    · intro v' hv'
      rw [hd] at hv'
      cases hv'
    rw [hstep]
    unfold State.copyWriter State.copyByteWriter
    simp only [hj, h1, hd, State.freeByte, h2]
    split
    · exact (if_pos ‹_›).symm
    · exact (if_neg ‹_›).symm

/-- A member left after one was taken out by its place. -/
theorem mem_eraseIdx_or {left : List Nat} {k j i : Nat} (hj : left[k]? = some j) (hi : i ∈ left) :
    i = j ∨ i ∈ left.eraseIdx k := by
  obtain ⟨m, hm, rfl⟩ := List.getElem_of_mem hi
  by_cases h : m = k
  · subst h
    rw [List.getElem?_eq_getElem hm] at hj
    exact Or.inl (Option.some.inj hj)
  · exact Or.inr (List.mem_eraseIdx_iff_getElem.mpr ⟨m, hm, h, rfl⟩)

/-- All atomic steps of a copy, in any order: what the writer has stored when it comes to publish. Bytes are recorded, each
ordered before the writer's next access; every byte that has a place of its own is there; nothing else has changed. -/
theorem State.runWriter_copy (t : Task) (left : List Nat) (hne : left ≠ []) (s : State)
    (hp : s.w.ph = .busy { t with point := .copy left }) :
    ∃ (cs : List Nat) (n : Nat) (buf : Memory) (ws : List BufWrite) (seen : Seen),
      s.runWriter left.length = { s with
        choices := cs
        draws := n
        buf := buf
        writes := s.writes ++ ws
        w := { s.w with
          ph := .busy { t with point := .publish }
          obs := s.w.obs.setView { s.w.obs.view with seen := seen } } } ∧
      ((∀ j ∈ left, t.byteOff j < s.cfg.bytes) → ws.length = left.length) ∧
      s.w.obs.view.seen.writer ≤ seen.writer ∧ seen.peer = s.w.obs.view.seen.peer ∧
      (∀ x ∈ ws, x.byPeer = false ∧ x.idx ≤ seen.writer) ∧
      (∀ a, (∀ j ∈ left, t.byteOff j < s.cfg.bytes → t.byteOff j ≠ a) → buf.find a = s.buf.find a) ∧
      (left.Nodup → (∀ i ∈ left, ∀ j ∈ left, t.byteOff i = t.byteOff j → i = j) →
        ∀ j ∈ left, t.byteOff j < s.cfg.bytes → ∀ b, t.din[t.done * s.cfg.size.toNat + j]? = some b →
          buf.find (t.byteOff j) = some b) := by
  obtain ⟨m, hm⟩ : ∃ m, left.length = m + 1 := ⟨left.length - 1, by have := List.length_pos_iff.mpr hne; omega⟩
  induction m generalizing left s with
  | zero =>
    obtain ⟨k, j, b, cs, n, hk, hb, hs⟩ := State.stepWriter_copy hp hne
    obtain ⟨j0, rfl⟩ := List.length_eq_one_iff.mp hm
    have hk0 : k = 0 ∧ j = j0 := by
      cases k with
      | zero => simpa using hk.symm
      | succ k => simp at hk
    obtain ⟨rfl, rfl⟩ := hk0
    rw [List.length_singleton, State.runWriter_succ (by rw [hp]; rfl)]
    simp only [State.runWriter]
    split at hs
    · refine ⟨cs, n, _, [_], _, hs, ?_, ?_, ?_, ?_, ?_, ?_⟩
      · intro _; rfl
      · exact Nat.le_succ _
      · rfl
      · intro x hx
        rw [List.mem_singleton.mp hx]
        exact ⟨rfl, Nat.le_refl _⟩
      · intro a ha
        exact Memory.find_put_ne _ _ (Ne.symm (ha j (by simp) ‹_›))
      · intro _ _ i hi _ v hv
        obtain rfl := List.mem_singleton.mp hi
        rw [Memory.find_put_same, hb v hv]
    · refine ⟨cs, n, s.buf, [], s.w.obs.view.seen, ?_, ?_, ?_, ?_, ?_, ?_, ?_⟩
      · rw [hs, List.append_nil]; rfl
      · intro h; exact absurd (h j (by simp)) ‹_›
      · exact Nat.le_refl _
      · rfl
      · intro x hx; cases hx
      · intro a _; rfl
      · intro _ _ i hi h
        obtain rfl := List.mem_singleton.mp hi
        exact absurd h ‹_›
  | succ m ih =>
    obtain ⟨k, j, b, cs, n, hk, hb, hs⟩ := State.stepWriter_copy hp hne
    obtain ⟨hkl, hkj⟩ := List.getElem?_eq_some_iff.mp hk
    have hl : (left.eraseIdx k).length = m + 1 := by rw [List.length_eraseIdx_of_lt hkl]; omega
    have hne' : left.eraseIdx k ≠ [] := by intro h; rw [h] at hl; cases hl
    have hjm : j ∈ left := hkj ▸ List.getElem_mem hkl
    have haft : afterCopy (left.eraseIdx k) = .copy (left.eraseIdx k) := by
      unfold afterCopy
      rw [List.isEmpty_eq_false_iff.mpr hne']
      rfl
    rw [haft] at hs
    rw [hm, State.runWriter_succ (by rw [hp]; rfl)]
    have hsub : ∀ x ∈ left.eraseIdx k, x ∈ left := fun x hx => List.mem_of_mem_eraseIdx hx
    split at hs
    · have hw : s.stepWriter.w.ph = .busy { t with point := .copy (left.eraseIdx k) } := by rw [hs]
      obtain ⟨cs', n', buf, ws, seen, h1, h2, h3, h4, h5, h6, h7⟩ := ih _ hne' _ hw hl
      rw [hl] at h1
      rw [hs] at h1 h2 h3 h4 h6 h7
      refine ⟨cs', n', buf, ⟨t.byteOff j, b, false, s.w.obs.view.seen.bump false⟩ :: ws, seen, ?_, ?_, ?_, ?_, ?_, ?_, ?_⟩
      · rw [hs, h1]
        simp only [List.append_assoc, List.singleton_append]
        rfl
      · intro h
        rw [List.length_cons, h2 (fun x hx => h x (hsub x hx)), hl]
      · exact Nat.le_trans (Nat.le_succ _) h3
      · exact h4
      · intro x hx
        rcases List.mem_cons.mp hx with rfl | hx
        · exact ⟨rfl, h3⟩
        · exact h5 x hx
      · intro a ha
        rw [h6 a (fun x hx => ha x (hsub x hx))]
        exact Memory.find_put_ne _ _ (Ne.symm (ha j hjm ‹_›))
      · intro hnd hinj i hi hib v hv
        have hnd' : (left.eraseIdx k).Nodup := hnd.sublist (List.eraseIdx_sublist _ _)
        have hinj' : ∀ i ∈ left.eraseIdx k, ∀ j ∈ left.eraseIdx k, t.byteOff i = t.byteOff j → i = j :=
          fun x hx y hy => hinj x (hsub x hx) y (hsub y hy)
        by_cases hij : i ∈ left.eraseIdx k
        · exact h7 hnd' hinj' i hij hib v hv
        · obtain rfl : i = j := (mem_eraseIdx_or hk hi).resolve_right hij
          rw [h6 _ (fun x hx _ he => hij (hinj x (hsub x hx) i hi he ▸ hx)), Memory.find_put_same, hb v hv]
    · have hw : s.stepWriter.w.ph = .busy { t with point := .copy (left.eraseIdx k) } := by rw [hs]
      obtain ⟨cs', n', buf, ws, seen, h1, h2, h3, h4, h5, h6, h7⟩ := ih _ hne' _ hw hl
      rw [hl] at h1
      rw [hs] at h1 h2 h3 h4 h6 h7
      refine ⟨cs', n', buf, ws, seen, ?_, ?_, h3, h4, h5, ?_, ?_⟩
      · rw [hs, h1]
      · intro h; exact absurd (h j hjm) ‹_›
      · intro a ha
        exact h6 a (fun x hx => ha x (hsub x hx))
      · intro hnd hinj i hi hib v hv
        have hnd' : (left.eraseIdx k).Nodup := hnd.sublist (List.eraseIdx_sublist _ _)
        have hinj' : ∀ i ∈ left.eraseIdx k, ∀ j ∈ left.eraseIdx k, t.byteOff i = t.byteOff j → i = j :=
          fun x hx y hy => hinj x (hsub x hx) y (hsub y hy)
        rcases mem_eraseIdx_or hk hi with rfl | hij
        · exact absurd hib ‹_›
        · exact h7 hnd' hinj' i hij hib v hv

end Sys2Proof.Machine
end

