-- ==== Sys2Proof/Tests/Slice0.lean ====
section
/-! SUPPORT. Checks of the model on fixed values: well-formedness, decoding, one step of each operation with the value that
95_test_vectors (or the rule named) gives, and a state that meets the hypotheses of each obligation. -/

namespace Sys2Proof.Tests

open Sys2Proof Sys2Proof.Machine

/-! ### Well-formedness -/

theorem test_wellFormed_refuses_csr_06 : (Instr.csrRd 0x06).wellFormed = false := by decide
theorem test_wellFormed_refuses_csr_26 : (Instr.csrRd 0x26).wellFormed = false := by decide
theorem test_wellFormed_accepts_csr_25 : (Instr.csrRd 0x25).wellFormed = true := by decide

/-! ### Decoding: one word for every operation, written out from the opcode map (30_encoding R118, 95 part 2.1) -/

theorem test_decode_idxInit : decode 0x00010000 0 0 = .ok (.idxInit .front) := by decide
theorem test_decode_idxLdaq : decode 0x01000000 0 0 = .ok (.idxLdaq .rear) := by decide
theorem test_decode_idxStrl : decode 0x02000000 0x10 0 = .ok (.idxStrl .rear 16) := by decide
theorem test_decode_idxCas : decode 0x03000000 8 0x10 = .ok (.idxCas .rear 8 16) := by decide
theorem test_decode_idxWait : decode 0x04000100 0 0x64 = .ok (.idxWait .rear 0 (some 100)) := by decide
theorem test_decode_idxWait_null : decode 0x04000000 0 0x64 = .ok (.idxWait .rear 0 none) := by decide
theorem test_decode_idxWake1 : decode 0x05010000 0 0 = .ok (.idxWake1 .front) := by decide
theorem test_decode_idxWakeall : decode 0x06000000 0 0 = .ok (.idxWakeall .rear) := by decide
theorem test_decode_baseNp2 : decode 0x10000000 1000 0 = .ok (.baseNp2 1000) := by decide
theorem test_decode_baseSlot : decode 0x11000000 0x1A 0 = .ok (.baseSlot 26) := by decide
theorem test_decode_baseSum : decode 0x12000000 4 2 = .ok (.baseSum 4 2) := by decide
theorem test_decode_baseDiff : decode 0x13000200 8 2 = .ok (.baseDiff 8 2 false true) := by decide
theorem test_decode_baseDiff_rdr : decode 0x13000800 8 2 = .ok (.baseDiff 8 2 true false) := by decide
theorem test_decode_baseBack : decode 0x14000000 0x1A 0 = .ok (.baseBack 26) := by decide
theorem test_decode_fifoInit_thr : decode 0x20000400 6 4 = .ok (.fifoInit 6 4 true false) := by decide
theorem test_decode_fifoInit_ext : decode 0x20001000 6 4 = .ok (.fifoInit 6 4 false true) := by decide
theorem test_decode_csrRd : decode 0x21110000 0 0 = .ok (.csrRd 0x11) := by decide
theorem test_decode_wAttach : decode 0x30000000 0 0 = .ok .wAttach := by decide
theorem test_decode_wObtain : decode 0x31000100 1 0x32 = .ok (.wObtain 1 (some 50)) := by decide
theorem test_decode_wRelease : decode 0x32000000 4 0 = .ok (.wRelease 4) := by decide
theorem test_decode_wWrite_null : decode 0x33000000 6 0x1234 = .ok (.wWrite 6 none) := by decide
theorem test_decode_wWrite_zero : decode 0x33000100 6 0 = .ok (.wWrite 6 (some 0)) := by decide
theorem test_decode_wSethlt : decode 0x34000000 9 0 = .ok (.wSethlt 9) := by decide
theorem test_decode_wSetlla : decode 0x35000000 3 0 = .ok (.wSetlla 3) := by decide
theorem test_decode_wSeteff : decode 0x36000000 4 0 = .ok (.wSeteff 4) := by decide
theorem test_decode_rAttach : decode 0x40010400 0 0 = .ok (.rAttach 1 true) := by decide
theorem test_decode_rObtain : decode 0x41010200 6 9 = .ok (.rObtain 1 6 none true) := by decide
theorem test_decode_rRelease : decode 0x42010000 6 0 = .ok (.rRelease 1 6) := by decide
theorem test_decode_rRead : decode 0x43000100 4 7 = .ok (.rRead 0 4 (some 7) false) := by decide
theorem test_decode_rSetllt : decode 0x44010000 2 0 = .ok (.rSetllt 1 2) := by decide
theorem test_decode_rSethla : decode 0x45000000 5 0 = .ok (.rSethla 0 5) := by decide
theorem test_decode_xgEnc : decode 0x50000000 0x1A 0 = .ok (.xgEnc 26) := by decide
theorem test_decode_xgDec : decode 0x51000000 0x17 0 = .ok (.xgDec 23) := by decide
theorem test_decode_bufLdb : decode 0x60000000 0x11 0 = .ok (.bufLdb 17) := by decide
theorem test_decode_bufStb : decode 0x61000000 0x11 0xFFFFFF41 = .ok (.bufStb 17 0x41) := by decide
theorem test_decode_fenceAcq : decode 0x70000000 0 0 = .ok .fenceAcq := by decide
theorem test_decode_fenceRel : decode 0x71000000 0 0 = .ok .fenceRel := by decide

/-- 95 part 2.1: words that are `REFUSED` on every port, with the reason. -/
theorem test_decode_illegal :
    decode 0x20000100 0 0 = .error .unlistedFlag ∧ decode 0x41000400 0 0 = .error .unlistedFlag ∧
    decode 0x40000100 0 0 = .error .unlistedFlag ∧ decode 0x31000200 0 0 = .error .unlistedFlag ∧
    decode 0x31010000 0 0 = .error .selectNotZero ∧ decode 0x31002000 0 0 = .error .unlistedFlag ∧
    decode 0x30000001 0 0 = .error .reservedBits ∧ decode 0x37000000 0 0 = .error .unlistedFunc ∧
    decode 0x46000000 0 0 = .error .unlistedFunc ∧ decode 0x07000000 0 0 = .error .unlistedFunc ∧
    decode 0x15000000 0 0 = .error .unlistedFunc ∧ decode 0x80000000 0 0 = .error .reservedUnit ∧
    decode 0xF0000000 0 0 = .error .reservedUnit ∧ decode 0x01020000 0 0 = .error .noSuchCell ∧
    decode 0x13000100 0 0 = .error .unlistedFlag := by decide

theorem test_decodeTableWord : decodeTableWord 96 0x0000000A00000004_43010300 = some (.rRead 1 4 (some 10) true) ∧
    decodeTableWord 32 0x71000000 = some .fenceRel ∧ decodeTableWord 32 0x72000000 = none := by decide

/-- The encoder writes the words of the map: 95 part 2.9 and R118. -/
theorem test_encode : encode (.rObtain 1 6 (some 0) false) = ⟨0x41010100, 6, 0⟩ ∧
    encode (.fifoInit 6 4 true true) = ⟨0x20001400, 6, 4⟩ ∧ encode (.bufStb 16 0x50) = ⟨0x61000000, 16, 0x50⟩ := by decide

/-- 30_encoding R111 with 00_scope R8: `{CW, A, B}` has `CW` in bits 95:64; 95 program 1, `H: FIFO.INIT 6, 4, thr`. -/
theorem test_beat_bits : (Beat96.mk 0x20000400 6 4).bits = 0x20000400_00000006_00000004#96 ∧
    Beat96.ofBits 0x20000400_00000006_00000004#96 = ⟨0x20000400, 6, 4⟩ := by decide

/-- 95 part 2.9: pseudo-operations (45_provider R280, 30_encoding R124). -/
theorem test_pseudo : (Pseudo.pObtainR 1 6 (some 0)).expand.map encode = [⟨0x41010100, 6, 0⟩] ∧
    (Pseudo.wCopyin 16 [0x50, 0x51]).expand.map encode = [⟨0x61000000, 16, 0x50⟩, ⟨0x61000000, 17, 0x51⟩] ∧
    (Pseudo.rCopyout 16 2).expand.map encode = [⟨0x60000000, 16, 0⟩, ⟨0x60000000, 17, 0⟩] := by decide

/-- 30_encoding R123: assembler text. -/
theorem test_asm : (Instr.rObtain 1 6 (some 0) true).asm = "R.OBTAIN 6, 0, lost" ∧
    (Instr.fifoInit 6 4 true false).asm = "FIFO.INIT 6, 4, thr" := by decide

/-! ### Small states: `N = 6`, `s = 4`, throttled; the schedule is sequential with `XING = sc` and `PORT_X` exists -/

/-- Power-up with `XING = sc` and `FOREIGN = 1`. -/
def start : State := { State.reset with par := { Params.default with xing := .sc, foreign := true } }

/-- `FIFO.INIT 6, 4, thr`, the writer attached, reader 0 attached and throttling, reader 1 attached. -/
def live : State :=
  let s := start.constructed 6 4 true false
  { s with
    w := { s.w with att := true, ph := .idle }
    readers := [{ s.rd 0 with att := true, ph := .idle, thr := true }, { s.rd 1 with att := true, ph := .idle }] }

/-- The same with a lagging crossing. -/
def lagging : State := { live with par := { live.par with xing := .lagging } }

/-- A command is being taken on a port. -/
def on (o : Agent) (s : State) (burst : Nat := 0) (din : List Byte := []) : State :=
  { s with beat := { port := o, din := din, burst := burst } }

/-- The cells, as stored from outside. -/
def cells (rear front : Word) (s : State) : State := { s with rear := Cell.restart rear, front := Cell.restart front }

/-- What the last response says. -/
def resp : Host.Outcome State Fault Refusal → Option Response
  | .next t => t.out.getLast?.map Answer.resp
  | _ => none

/-- A part of the next state. -/
def part {α : Type} (f : State → α) : Host.Outcome State Fault Refusal → Option α
  | .next t => some (f t)
  | _ => none

/-- `REFUSED`. -/
def refused : Option Response := some { refused := true }

/-- `ERR_EIO` with the default parameters. -/
def eio : Response := { ret := 0xFFFFFFFB }

/-! ### One step of each operation (95 parts 2.2 to 2.8) -/

theorem test_idxInit : part (fun t => (t.rear, t.peer.obs.posRear)) (exec (.idxInit .rear) (on .host (cells 8 0 live))) =
    some ({}, 0) := by decide
theorem test_idxInit_absent_front : resp (exec (.idxInit .front)
    (on .host { live with cfg := { live.cfg with thr := false } })) = refused := by decide

/-- `REAR` with the history 0, 8, 16, and a peer that has observed 8. -/
def threeRears : State :=
  { lagging with
    rear := { base := 0, pubs := [⟨8, {}⟩, ⟨16, {}⟩] }
    peer := { obs := { posRear := 1 } } }

theorem test_idxLdaq_may_lag : resp (exec (.idxLdaq .rear) (on .peer { threeRears with choices := [0] })) =
    some { val := 8 } := by decide
theorem test_idxLdaq_may_see_newest : part (fun t => (t.peer.obs.posRear, t.out.map Answer.resp))
    (exec (.idxLdaq .rear) (on .peer { threeRears with choices := [1] })) = some (2, [{ val := 16 }]) := by decide
theorem test_idxStrl : part (fun t => t.rear.hist) (exec (.idxStrl .rear 16) (on .peer (cells 8 0 live))) =
    some [8, 16] := by decide
theorem test_idxCas_succeeds : part (fun t => (t.rear.hist, t.out.map Answer.resp))
    (exec (.idxCas .rear 8 16) (on .peer (cells 8 0 live))) = some ([8, 16], [{ ret := 1, val := 8 }]) := by decide
theorem test_idxCas_fails : part (fun t => (t.rear.hist, t.out.map Answer.resp))
    (exec (.idxCas .rear 0 16) (on .peer (cells 8 0 live))) = some ([8], [{ val := 8 }]) := by decide
theorem test_idxWait_at_once : resp (exec (.idxWait .rear 8 none) (on .peer (cells 8 0 live))) = some { ret := 1 } ∧
    resp (exec (.idxWait .rear 0 (some 100)) (on .peer (cells 8 0 live))) = some {} := by decide
theorem test_idxWait_parks : part (fun t => (t.wqRear, t.out, t.peer.wait)) (exec (.idxWait .rear 0 (some 100)) (on .peer live)) =
    some ([.peer], [], some { cell := .rear, expected := 0, timer := 100 }) := by decide

/-- A reader's phase while it is parked on `REAR`. -/
def sleeping : Phase :=
  .parked { op := .obtain, count := 6, tmo := some 100, point := .wait 0 } { cell := .rear, expected := 0, timer := 100 }

/-- Both readers are parked on `REAR`. -/
def bothAsleep : State :=
  { live with
    readers := live.readers.map fun r => { r with ph := sleeping }
    wqRear := [.reader 0, .reader 1] }

theorem test_idxWake1 : part (fun t => (t.wqRear, t.sleepsOn .rear (.reader 0), t.sleepsOn .rear (.reader 1)))
    (exec (.idxWake1 .rear) (on .peer { bothAsleep with choices := [1] })) = some ([.reader 0], true, false) := by decide
theorem test_idxWakeall : part (fun t => (t.wqRear, t.sleepsOn .rear (.reader 0), t.sleepsOn .rear (.reader 1)))
    (exec (.idxWakeall .rear) (on .peer bothAsleep)) = some ([], false, false) := by decide

theorem test_baseNp2 : resp (exec (.baseNp2 0x40000001) start) = some { val := 0x80000000 } ∧
    resp (exec (.baseNp2 0) start) = refused ∧ resp (exec (.baseNp2 0x80000001) start) = refused := by decide
theorem test_baseSlot : resp (exec (.baseSlot 0xFFFFFFFD) live) = some { val := 5 } ∧
    resp (exec (.baseSlot 6) live) = some { val := 6 } ∧ resp (exec (.baseSlot 6) start) = refused := by decide
theorem test_baseSum : resp (exec (.baseSum 4 2) live) = some { val := 8 } ∧
    resp (exec (.baseSum 0xFFFFFFFD 1) live) = some {} ∧ resp (exec (.baseSum 5 6) live) = some { val := 0xD } := by decide
theorem test_baseSum_errors : resp (exec (.baseSum 7 0) live) = some eio ∧ resp (exec (.baseSum 6 7) live) = refused := by
  decide
theorem test_baseDiff : resp (exec (.baseDiff 0xA 4 true true) live) = some { ret := 4 } ∧
    resp (exec (.baseDiff 0x80000005 0x7FFFFFFD true true) live) = some { ret := 6 } ∧
    resp (exec (.baseDiff 0x7FFFFFF8 0 true true) live) = some { ret := 0xFFFFFFB5, lost := 1610612724 } := by decide
theorem test_baseDiff_errors : resp (exec (.baseDiff 0x1A 0 true false) live) = some { ret := 0xFFFFFFB5 } ∧
    resp (exec (.baseDiff 0x1A 0 false false) live) = some eio ∧
    resp (exec (.baseDiff 0x80000000 0 true true) live) = some eio ∧
    resp (exec (.baseDiff 0x1E 0 true true) live) = some eio := by decide
theorem test_baseBack : resp (exec (.baseBack 2) live) = some { val := 0xFFFFFFFA } ∧
    resp (exec (.baseBack 6) live) = some eio := by decide

theorem test_fifoInit : part (fun t => (t.cfg.powReg, t.cfg.fudgeReg, t.cfg.ctl, t.w.eff, t.w.sts, (t.rd 1).sts, (t.rd 1).hla))
    (exec (.fifoInit 6 4 true false) (on .host start)) = some (8, 2, 7, 6, 1, 1, 6) := by decide
theorem test_fifoInit_bounds : resp (exec (.fifoInit 0x10000 0x8000 false false) (on .host start)) = refused ∧
    resp (exec (.fifoInit 0x40000001 1 false false) (on .host start)) = refused ∧
    resp (exec (.fifoInit 0x40000000 1 false false) (on .host start)) = some {} ∧
    resp (exec (.fifoInit 1 0x7FFFFFFF false false) (on .host start)) = some {} ∧
    resp (exec (.fifoInit 6 4 true false) (on .host bothAsleep)) = refused := by decide
theorem test_csrRd : resp (exec (.csrRd 0x15) (on .writer live)) = some { val := 7 } ∧
    resp (exec (.csrRd 0x24) (on (.reader 1) live)) = some { val := 0xB } ∧
    resp (exec (.csrRd 0x04) start) = some { val := 4 } := by decide
theorem test_csrRd_refused : resp (exec (.csrRd 0x11) (on (.reader 0) live)) = refused ∧
    resp (exec (.csrRd 0x06) (on .host live)) = refused ∧ resp (exec (.csrRd 0x10) (on .writer start)) = refused := by decide

theorem test_wAttach : part (fun t => (t.w.lr, t.w.sts)) (exec .wAttach (on .writer
    (cells 0xFFFFFFFD 0 (start.constructed 6 4 true false)))) = some (0xFFFFFFFD, 7) ∧
    resp (exec .wAttach (on .writer live)) = refused := by decide
theorem test_wObtain_wraps : resp (exec (.wObtain 3 none) (on .writer { cells 4 4 live with w := { live.w with lr := 4 } })) =
    some { ret := 3, f0 := ⟨16, 8⟩, f1 := ⟨0, 4⟩ } ∧
    resp (exec (.wObtain 1 none) (on .writer { cells 8 0x10 live with w := { live.w with lr := 8 } })) = some eio := by decide
theorem test_wObtain_parks : part (fun t => (t.w.ph.code, t.wqFront, t.out))
    (exec (.wObtain 1 (some 50)) (on .writer { cells 8 0 live with w := { live.w with lr := 8 } } 1)) =
    some (3, [.writer], []) := by decide
theorem test_wRelease : part (fun t => (t.w.lr, t.rear.current, t.w.obt, t.w.armed))
    (exec (.wRelease 4) (on .writer { cells 4 4 live with w := { live.w with lr := 4, obt := 4 } } 2)) =
    some (0xA, 0xA, 0, false) := by decide
theorem test_wRelease_refused : resp (exec (.wRelease 5) (on .writer { live with w := { live.w with obt := 4 } })) =
    refused := by decide
theorem test_wWrite : part (fun t => (t.rear.hist, t.buf, t.out.map Answer.resp))
    (exec (.wWrite 2 none) (on .writer { live with
      cfg := { live.cfg with size := 1 }, w := { live.w with lr := 5 }, rear := Cell.restart 5, front := Cell.restart 5,
      choices := [1] } 5 [0xA0, 0xB0])) = some ([5, 9], [(0, 0xB0), (5, 0xA0)], [{ ret := 2 }]) := by decide
/-- 30_encoding R126, 43_writer R223: an ill-formed `W_LR` at slot `N` (`F0` at 6·4, `F1` at 0), and above it, where the split of
three frames is drawn. -/
theorem test_wObtain_illFormed :
    resp (exec (.wObtain 3 none) (on .writer { live with cfg := { live.cfg with thr := false }, w := { live.w with lr := 6 } })) =
      some { ret := 3, f0 := ⟨24, 0⟩, f1 := ⟨0, 12⟩ } ∧
    resp (exec (.wObtain 3 none) (on .writer { live with
      cfg := { live.cfg with thr := false }, w := { live.w with lr := 7 }, choices := [1] })) =
      some { ret := 3, f0 := ⟨28, 4⟩, f1 := ⟨0, 8⟩ } := by decide
/-- 43_writer R227, 45_provider R282: a write whose release fails at `SUM` ends with `W_OBT = 0`. -/
theorem test_wWrite_illFormed : part (fun t => (t.w.obt, t.rear.hist, t.out.map Answer.resp))
    (exec (.wWrite 1 none) (on .writer { live with
      cfg := { live.cfg with thr := false, size := 1 }, w := { live.w with lr := 6 } } 4 [0xA0])) =
    some (0, [0], [{ ret := 1 }]) := by decide
/-- 00_scope R11: a count that `RET` cannot hold is not negative. -/
theorem test_frames_wide : (Response.frames 0x80000000).ret.msb = false := by
  simp [Response.frames, BitVec.msb_setWidth]
theorem test_wSethlt : part (fun t => (t.w.hlt, t.w.lla)) (exec (.wSethlt 2)
    (on .writer { live with w := { live.w with hlt := 6, lla := 6 } })) = some (2, 2) := by decide
theorem test_wSetlla : part (fun t => t.w.lla) (exec (.wSetlla 7)
    (on .writer { live with w := { live.w with hlt := 5 } })) = some 5 := by decide
theorem test_wSeteff : part (fun t => t.w.eff) (exec (.wSeteff 0) (on .writer live)) = some 1 ∧
    part (fun t => t.w.eff) (exec (.wSeteff 7) (on .writer live)) = some 6 := by decide

theorem test_rAttach : part (fun t => ((t.rd 1).lf, (t.rd 1).sts)) (exec (.rAttach 1 false)
    (on (.reader 1) (cells 0xA 2 (start.constructed 6 4 true false)))) = some (0xA, 0xB) := by decide
theorem test_rAttach_second_throttle : resp (exec (.rAttach 1 true) (on (.reader 1) { live with
    readers := [live.rd 0, (start.constructed 6 4 true false).rd 1] })) = refused := by decide
theorem test_rObtain_overflow : part (fun t => ((t.rd 1).lf, (t.rd 1).lost, t.out.map Answer.resp))
    (exec (.rObtain 1 6 (some 0) true) (on (.reader 1) (cells 0x1A 0 live))) =
    some (0x12, 14, [{ ret := 0xFFFFFFB5, lost := 14 }]) := by decide
theorem test_rObtain_wraps : resp (exec (.rObtain 1 6 none false) (on (.reader 1) { cells 0xA 0 live with
    readers := [live.rd 0, { live.rd 1 with lf := 4 }] })) = some { ret := 4, f0 := ⟨16, 8⟩, f1 := ⟨0, 8⟩ } := by decide
theorem test_rRelease : part (fun t => ((t.rd 0).lf, t.front.current, (t.rd 0).obt, (t.rd 0).armed))
    (exec (.rRelease 0 2) (on (.reader 0) { cells 8 0 live with
      readers := [{ live.rd 0 with obt := 6 }, live.rd 1] } 2)) = some (2, 2, 4, false) := by decide
theorem test_rRelease_other : part (fun t => ((t.rd 1).lf, t.front.hist)) (exec (.rRelease 1 6)
    (on (.reader 1) { live with readers := [live.rd 0, { live.rd 1 with obt := 6 }] })) = some (8, [0]) := by decide
theorem test_rRead : part (fun t => ((t.rd 1).lf, t.out.map Answer.resp)) (exec (.rRead 1 2 none false)
    (on (.reader 1) { live with
      cfg := { live.cfg with size := 1 }, rear := { base := 5, pubs := [⟨9, ⟨2, 0⟩⟩] }
      buf := [(0, 0xB0), (5, 0xA0)], writes := [⟨5, 0xA0, false, ⟨1, 0⟩⟩, ⟨0, 0xB0, false, ⟨2, 0⟩⟩]
      readers := [live.rd 0, { live.rd 1 with lf := 5 }], choices := [1] } 5)) =
    some (9, [{ ret := 2, dout := [0xA0, 0xB0] }]) := by decide
theorem test_rSetllt : part (fun t => ((t.rd 0).llt, (t.rd 0).hla)) (exec (.rSetllt 0 9)
    (on (.reader 0) { live with readers := [{ live.rd 0 with llt := 2, hla := 2 }, live.rd 1] })) = some (6, 6) := by decide
theorem test_rSethla : part (fun t => (t.rd 0).hla) (exec (.rSethla 0 1)
    (on (.reader 0) { live with readers := [{ live.rd 0 with llt := 2 }, live.rd 1] })) = some 2 := by decide

theorem test_xgEnc : resp (exec (.xgEnc 0x12345678) start) = some { val := 0x1B2E7D44 } := by decide
theorem test_xgDec : resp (exec (.xgDec 0xFFFFFFFF) start) = some { val := 0xAAAAAAAA } ∧
    resp (exec (.xgDec 0x80000004) start) = some { val := 0xFFFFFFF8 } := by decide
theorem test_bufLdb_settled : resp (exec (.bufLdb 17) (on .writer { live with
    buf := [(17, 0x41)], writes := [⟨17, 0x41, false, ⟨1, 0⟩⟩]
    w := { live.w with obs := { view := { seen := ⟨1, 0⟩ } } } })) = some { val := 0x41 } := by decide
theorem test_bufLdb_race : resp (exec (.bufLdb 17) (on (.reader 0) { live with
    buf := [(17, 0x41)], writes := [⟨17, 0x41, false, ⟨1, 0⟩⟩], choices := [1, 0x77] })) = some { val := 0x77 } := by decide
theorem test_bufStb : part (fun t => t.buf) (exec (.bufStb 17 0x41) (on .writer live)) = some [(17, 0x41)] ∧
    resp (exec (.bufStb 24 0) (on .writer live)) = refused ∧ resp (exec (.bufStb 0 0) (on (.reader 0) live)) = refused := by
  decide
theorem test_fenceAcq : part (fun t => (t.rd 0).obs.view) (exec .fenceAcq (on (.reader 0) { live with
    readers := [{ live.rd 0 with obs := { view := { acq := ⟨3, 1⟩ } } }, live.rd 1] })) =
    some { seen := ⟨3, 1⟩, acq := ⟨3, 1⟩ } ∧ resp (exec .fenceAcq (on .host live)) = refused := by decide
theorem test_fenceRel : part (fun t => t.w.obs.view.rel) (exec .fenceRel (on .writer { live with
    w := { live.w with obs := { view := { seen := ⟨2, 0⟩ } } } })) = some ⟨2, 0⟩ ∧
    resp (exec .fenceRel (on .writer start)) = refused := by decide

/-! ### The step -/

/-- 95 part 2.6: `H: FIFO.INIT 6, 4, thr` as the first command after power-up. -/
theorem test_step_fifoInit : part (fun t => (t.cfg, t.out.map Answer.resp))
    (step (State.reset.withFetchWord 96 0x0000000400000006_20000400)) =
    some ({ n := 6, size := 4, valid := true, thr := true, ext := false }, [{}]) := by decide
/-- 95 part 2.6: a writer's command before construction. -/
theorem test_step_refused : part (fun t => (t.inbox, t.out)) (step (State.reset.withFetchWord 32 0x30000000)) =
    some ([], [{ port := .writer, resp := { refused := true } }]) := by decide
/-- 95 part 2.1: `0x20000100` is illegal. -/
theorem test_step_illegal : part (fun t => t.out) (step (State.reset.withFetchWord 96 0x20000100)) =
    some [{ port := .host, resp := { refused := true } }] := by decide
/-- 43_writer R222: a parked writer whose timeout expires takes its last pass and answers 0. -/
theorem test_step_timeout : part (fun t => (t.w.sts, t.wqFront, t.out.map Answer.resp))
    (step { cells 8 0 live with
      w := { live.w with
        lr := 8
        ph := .parked { op := .obtain, count := 1, tmo := some 50, point := .wait 0 } { cell := .front, expected := 0, timer := 50 } }
      wqFront := [.writer]
      sched := [{ who := .writer, burst := 1, cause := .timeout }] }) = some (0x17, [], [{}]) := by decide
/-- 70_reset R348: with nothing to do the core waits. -/
theorem test_step_idle : step State.reset = .next State.reset := rfl
/-- 30_encoding R110: a port the instance does not have. -/
theorem test_step_absent_port : step { State.reset with
    inbox := [{ port := .reader 2, cmd := ⟨0x70000000, 0, 0⟩ }]
    sched := [{ who := .reader 2, burst := 0, cause := .timeout }] } = .fault .absentPort := rfl

/-! ### Every hypothesis of an obligation can be met -/

/-- A host command, its port, and the turn that takes it. -/
def presented (o : Agent) (cw a b : Word) (s : State) : State :=
  { s with
    inbox := [{ port := o, cmd := ⟨cw, a, b⟩ }]
    sched := [{ who := o, burst := 0, cause := .timeout }] }

theorem leastPow_of (n p : Nat) (h : n ≤ 2 ^ p) (h' : p = 0 ∨ 2 ^ (p - 1) < n) : leastPow n p := by
  refine ⟨h, fun q hq => ?_⟩
  rcases h' with h' | h'
  · omega
  · have := (Nat.pow_lt_pow_iff_right (a := 2) (by decide)).mp (Nat.lt_of_lt_of_le h' hq)
    omega

theorem test_leastPow : leastPow 6 3 ∧ leastPow 1 0 ∧ leastPow 8 3 ∧ leastPow (2 ^ 30) 30 :=
  ⟨leastPow_of _ _ (by decide) (by decide), leastPow_of _ _ (by decide) (by decide), leastPow_of _ _ (by decide) (by decide),
    leastPow_of _ _ (by decide) (by decide)⟩

/-- Clause by clause: the first and the last row, and words that select none. -/
theorem witness_DecoderFollowsTheOpcodeMap :
    (opRows[0]? = some ⟨0xFFFEFFFF, 0⟩ ∧ (OpRow.mk 0xFFFEFFFF 0).selects 0x00010000 = true) ∧
    (opRows[32]? = some ⟨0xFFFFFFFF, 0x71000000⟩ ∧ (OpRow.mk 0xFFFFFFFF 0x71000000).selects 0x71000000 = true) ∧
    (∀ r ∈ opRows, r.selects 0x72000000 = false) ∧ ∀ r ∈ opRows, r.selects 0x00020000 = false := by decide

theorem witness_UnreadOperandsAreIgnored :
    (decode 0x30000000 7 9 = .ok .wAttach ∧ Instr.wAttach.readsA = false ∧ Instr.wAttach.readsB = false) ∧
    (decode 0x31000000 7 9 = .ok (.wObtain 7 none) ∧ (Instr.wObtain 7 none).readsB = false) ∧
    (decode 0x61000000 7 0x1FF = .ok (.bufStb 7 0xFF) ∧ (0xFF : Word).setWidth 8 = (0x1FF : Word).setWidth 8) := by decide

theorem witness_StepRunsTheDecodedInstruction :
    let s := presented .writer 0x36000000 4 0 live
    let s1 := { s with sched := [] }
    s.nextTurn = some ({ who := .writer, burst := 0, cause := .timeout }, s1) ∧ s1.ready .writer = true ∧
      takeCommand .writer s1.inbox = some ({ port := .writer, cmd := ⟨0x36000000, 4, 0⟩ }, []) ∧ s1.hasPort .writer = true ∧
      decode 0x36000000 4 0 = .ok (.wSeteff 4) := by decide

/-- A reader's port, and each condition of R120 by a word of 95 part 2.1. -/
theorem witness_IllegalCommandWordIsRefused :
    (let s := presented (.reader 0) 0x41010300 0 0 live
     let s1 := { s with sched := [] }
     s.nextTurn = some ({ who := .reader 0, burst := 0, cause := .timeout }, s1) ∧ s1.ready (.reader 0) = true ∧
      takeCommand (.reader 0) s1.inbox = some ({ port := .reader 0, cmd := ⟨0x41010300, 0, 0⟩ }, []) ∧
      s1.hasPort (.reader 0) = true) ∧
    illegalOn (.reader 0) 0x41010300 ∧ illegalOn .host 0x80000000 ∧ illegalOn .writer 0x37000000 ∧
    illegalOn .writer 0x30000001 ∧ illegalOn .writer 0x31000200 ∧ illegalOn .writer 0x31010000 ∧ illegalOn .peer 0x01020000 ∧
    illegalOn .host 0x21060000 := by
  refine ⟨by decide, ?_, ?_, ?_, ?_, ?_, ?_, ?_, ?_⟩ <;> (simp only [illegalOn]; decide)

theorem witness_WrongPortIsRefused :
    (on .host live).ready .host = true ∧ ¬ (Instr.fenceAcq).offeredOn .host ∧
    (on (.reader 0) live).ready (.reader 0) = true ∧ ¬ (Instr.rRelease 1 0).offeredOn (.reader 0) ∧
    ¬ (Instr.csrRd 0x10).offeredOn (.reader 0) ∧ ¬ (Instr.csrRd 0x20).offeredOn .host ∧ ¬ (Instr.bufStb 0 0).offeredOn .host := by
  refine ⟨by decide, ?_, by decide, ?_, ?_, ?_, ?_⟩ <;> simp [Instr.offeredOn]

theorem witness_UnconstructedFifoRefuses :
    start.ready start.beat.port = true ∧ start.cfg.valid = false ∧ (Instr.baseSlot 0).needsFifo = true ∧
      (Instr.csrRd 0x10).needsFifo = true := by decide

theorem witness_ReadyPortTakesEveryCommand :
    (on .writer live).ready .writer = true ∧ (on (.reader 0) bothAsleep).ready (.reader 0) = false := by decide

theorem witness_RefusalChangesNothing :
    exec .wAttach (on .writer live) = .next ((on .writer live).refusedOn .writer) ∧
    ((on .writer live).refusedOn .writer).out = (on .writer live).out ++ [{ port := .writer, resp := { refused := true } }] := by
  exact ⟨rfl, rfl⟩

theorem witness_BaseNp2AnswersTheLeastPowerOfTwo :
    start.ready start.beat.port = true ∧ (1 ≤ (1 : Word).toNat ∧ (1 : Word).toNat ≤ 2 ^ 31) ∧
    (1 ≤ (0x80000000 : Word).toNat ∧ (0x80000000 : Word).toNat ≤ 2 ^ 31) ∧ (0 : Word).toNat = 0 ∧
    2 ^ 31 < (0x80000001 : Word).toNat := by decide

theorem witness_BaseSlotMasksTheIndex :
    live.ready live.beat.port = true ∧ leastPow live.cfg.n.toNat 3 ∧ live.cfg.valid = true ∧
    leastPow start.cfg.n.toNat 0 ∧ start.cfg.valid = false :=
  ⟨by decide, test_leastPow.1, by decide, leastPow_of _ _ (by decide) (by decide), by decide⟩

/-- `k = N + 1`; an ill-formed index with `k = N`; a well-formed one at each side of the boundary. -/
theorem witness_BaseSumAdvancesAndSkips :
    live.ready live.beat.port = true ∧ leastPow live.cfg.n.toNat 3 ∧ live.cfg.n.toNat < (7 : Word).toNat ∧
    (live.cfg.valid = true ∧ (6 : Word).toNat ≤ live.cfg.n.toNat ∧ live.cfg.n.toNat ≤ (6 : Word).toNat % 2 ^ 3) ∧
    ((5 : Word).toNat % 2 ^ 3 < live.cfg.n.toNat ∧ live.cfg.n.toNat ≤ (5 : Word).toNat % 2 ^ 3 + (1 : Word).toNat ∧
      ¬ live.cfg.n.toNat ≤ (5 : Word).toNat % 2 ^ 3 + (0 : Word).toNat) ∧ start.cfg.valid = false :=
  ⟨by decide, test_leastPow.1, by decide, by decide, by decide, by decide⟩

/-- The five outcomes of R176 at their boundaries: `frames = N`, `N + 1`, a delta of `-2³¹`, slot `N`. -/
theorem witness_BaseDiffClassifiesInOrder :
    live.ready live.beat.port = true ∧ live.cfg.legal = true ∧ leastPow live.cfg.n.toNat 3 ∧ live.cfg.valid = true ∧
    6 ≤ (6 : Word).toNat % 2 ^ 3 ∧
    ((0x80000000 : Word).toNat % 2 ^ 3 < 6 ∧ ((0x80000000 : Word) - 0).toInt < 0) ∧
    ((9 : Word).toNat % 2 ^ 3 < 6 ∧ live.cfg.frames 9 0 = 7) ∧ ((8 : Word).toNat % 2 ^ 3 < 6 ∧ live.cfg.frames 8 0 = 6) ∧
    (start.cfg.valid = false ∧ { start.cfg with n := 6, size := 4 }.legal = true) :=
  ⟨by decide, by decide, test_leastPow.1, by decide, by decide, by decide, by decide, by decide, by decide⟩

theorem witness_BaseBackGoesOneGenerationBack :
    live.ready live.beat.port = true ∧ leastPow live.cfg.n.toNat 3 ∧ live.cfg.valid = true ∧ live.cfg.legal = true ∧
    live.cfg.n.toNat ≤ (6 : Word).toNat % 2 ^ 3 ∧ (5 : Word).toNat % 2 ^ 3 < live.cfg.n.toNat ∧ start.cfg.valid = false :=
  ⟨by decide, test_leastPow.1, by decide, by decide, by decide, by decide, by decide⟩

/-- An advance inside a generation and one across its end; `j + k = N`. -/
theorem witness_SumLaws :
    live.cfg.legal = true ∧ live.cfg.wellFormed 4 = true ∧ (live.cfg.slotNat 4 + 1 < live.cfg.cap) ∧
    (live.cfg.cap ≤ live.cfg.slotNat 4 + 2) ∧ 2 + 4 ≤ live.cfg.cap := by decide

/-- A chain of exactly `N` frames, and one of 20 (95 program 3). -/
theorem witness_DiffCountsAChainOfSums :
    live.cfg.legal = true ∧ live.cfg.wellFormed 0 = true ∧ (∀ k ∈ [4, 2], k ≤ live.cfg.cap) ∧
    ([4, 2].sum + (live.cfg.slotNat 0 + [4, 2].sum) / live.cfg.cap * live.cfg.fudge < 2 ^ 31 ∧ [4, 2].sum ≤ live.cfg.cap) ∧
    ((∀ k ∈ [6, 6, 6, 2], k ≤ live.cfg.cap) ∧
      [6, 6, 6, 2].sum + (live.cfg.slotNat 0 + [6, 6, 6, 2].sum) / live.cfg.cap * live.cfg.fudge < 2 ^ 31 ∧
      live.cfg.cap < [6, 6, 6, 2].sum) := by decide

theorem witness_LostCountsTheFramesSkipped :
    live.cfg.legal = true ∧ live.cfg.diff 9 0 true = .overflow 1 ∧
    live.cfg.diff 0x7FFFFFF8 0 true = .overflow 1610612724 := by decide

theorem witness_GrayCommandsAnswerInverseCodes : start.ready start.beat.port = true := by decide

theorem witness_IdxInitRestartsTheCell :
    (on .host live).beat.port = .host ∧ live.par.frontBuilt = true ∧ (live.cfg.valid = true → live.cfg.thr = true) ∧
    (start.beat.port = .host ∧ start.par.frontBuilt = true ∧ start.cfg.valid = false) ∧
    ({ live with cfg := { live.cfg with thr := false } } : State).cfg.thr = false ∧
    ({ start with par := { start.par with frontBuilt := false } } : State).par.frontBuilt = false := by decide

theorem witness_IdxLdaqObservesWithLag :
    let s := on .peer threeRears
    s.beat.port = .peer ∧ s.peer.wait = none ∧ s.cfg.valid = true ∧ s.peer.obs.pos .rear ≤ (s.cell .rear).newest ∧
      s.par.xing = .lagging ∧ (s.cell .rear).hist[1]? = some 8 ∧ (s.cell .rear).hist[2]? = some 16 ∧ s.cfg.thr = true ∧
      ({ s.cfg with thr := false } : CfgRegs).thr = false := by decide

theorem witness_IdxStrlAppendsAndReleases :
    let s := on .peer live
    s.beat.port = .peer ∧ s.peer.wait = none ∧ s.cfg.valid = true ∧ s.cfg.thr = true := by decide

theorem witness_IdxCasComparesTheCurrentValue :
    let s := on .peer (cells 8 0 live)
    s.beat.port = .peer ∧ s.peer.wait = none ∧ s.cfg.valid = true ∧ s.cfg.thr = true ∧ (s.cell .rear).current = 8 ∧
      (s.cell .rear).current ≠ 0 := by decide

theorem witness_IdxWaitAnswersOrParks :
    let s := on .peer (cells 8 0 live)
    s.beat.port = .peer ∧ s.peer.wait = none ∧ s.cfg.valid = true ∧ s.cfg.thr = true ∧ (1 : Word) ≠ 0 ∧
      (s.cell .rear).current = 8 ∧ (s.cell .rear).current ≠ 0 ∧ Agent.peer ∉ s.wq .rear := by decide

/-- The peer is parked on `REAR` and its turn comes. -/
def peerAsleep (cause : Cause) (woken : Option Seen) : State :=
  { live with
    peer := { wait := some { cell := .rear, expected := 0, timer := 9, woken := woken } }
    wqRear := [.peer]
    sched := [{ who := .peer, burst := 0, cause := cause }] }

/-- A changed-value turn of an unchanged cell; a timeout; a wake. -/
theorem witness_ParkedPeerReturnsByItsCause :
    ((peerAsleep .changed none).nextTurn = some ({ who := .peer, burst := 0, cause := .changed },
        { peerAsleep .changed none with sched := [] }) ∧
      (peerAsleep .changed none).peer.obs.pos .rear ≤ ((peerAsleep .changed none).cell .rear).newest ∧
      ((peerAsleep .changed none).cell .rear).current = 0) ∧
    ((peerAsleep .timeout none).nextTurn.isSome = true ∧ Cause.timeout ≠ Cause.changed) ∧
    ((peerAsleep .changed (some {})).nextTurn.isSome = true ∧ (some ({} : Seen)) ≠ none) := by decide

theorem witness_IdxWakesReleaseMembers :
    let s := on .peer bothAsleep
    s.beat.port = .peer ∧ s.peer.wait = none ∧ s.cfg.valid = true ∧ s.cfg.thr = true ∧ s.wq .front = [] ∧
      Agent.reader 1 ∈ s.wq .rear ∧ ({ s.cfg with thr := false } : CfgRegs).thr = false := by decide

/-- 40_index_cell R145: a wake of a `FRONT` that does not exist is refused. -/
theorem test_idxWakes_absent :
    let s := on .peer { live with cfg := { live.cfg with thr := false } }
    resp (exec (.idxWake1 .front) s) = some { refused := true } ∧
      resp (exec (.idxWakeall .front) s) = some { refused := true } := by decide

theorem witness_FencesOnlyOrder :
    let s := on (.reader 1) live
    s.beat.port ≠ .host ∧ s.hasPort s.beat.port = true ∧ s.ready s.beat.port = true ∧ s.cfg.valid = true := by decide

/-- The bounds: `N·s = 2³¹ - 1`, `N = 2³⁰`; and each condition of R201 and R203 just outside. -/
theorem witness_FifoInitGivesTheResetState :
    ((on .host live).beat.port = .host ∧ 1 ≤ (1 : Word).toNat ∧ 1 ≤ (0x7FFFFFFF : Word).toNat ∧
      (1 : Word).toNat * (0x7FFFFFFF : Word).toNat ≤ 2 ^ 31 - 1 ∧ (0x40000000 : Word).toNat ≤ 2 ^ 30 ∧
      live.par.rearAddr % 4 = 0 ∧ live.par.frontAddr % 4 = 0 ∧ live.par.frontBuilt = true ∧ live.w.ph = .idle ∧
      ∀ r ∈ live.readers, r.ph = .idle ∨ r.ph = .detached) ∧
    (on .host live).ready .host = true ∧ Agent.writer ≠ .host ∧ (0 : Word).toNat = 0 ∧
    2 ^ 31 - 1 < (1 : Word).toNat * (0x80000000 : Word).toNat ∧ 2 ^ 30 < (0x40000001 : Word).toNat ∧
    ({ live.par with rearAddr := 1 } : Params).rearAddr % 4 ≠ 0 ∧
    ∃ r ∈ bothAsleep.readers, r.ph.isBusy = true ∨ r.ph.isParked = true := by decide

theorem witness_CsrRdReadsTheRegisterTable :
    (start.ready start.beat.port = true ∧ start.par.nReaders < 2 ^ 32 ∧ start.cfg.n = 0) ∧
    (1 ≤ live.cfg.n.toNat ∧ live.cfg.n.toNat ≤ 2 ^ 30 ∧ leastPow live.cfg.n.toNat 3) ∧
    ((on .writer live).ready .writer = true ∧ (on .writer live).beat.port = .writer ∧ live.cfg.valid = true) ∧
    ((on (.reader 1) live).ready (.reader 1) = true ∧ (on (.reader 1) live).beat.port = .reader 1 ∧ 1 < live.readers.length) :=
  ⟨by decide, ⟨by decide, by decide, test_leastPow.1⟩, by decide, by decide⟩

theorem witness_BufStbStoresOneByte :
    let s := on .writer live
    s.ready s.beat.port = true ∧ s.cfg.valid = true ∧ s.beat.port = .writer ∧ s.w.ph.isDetached = false ∧
      (23 : Word).toNat < s.cfg.n.toNat * s.cfg.size.toNat ∧ s.cfg.n.toNat * s.cfg.size.toNat ≤ (24 : Word).toNat ∧
      (on .peer (start.constructed 6 4 true false)).ready .peer = true ∧
      (start.constructed 6 4 true false).w.ph.isDetached = true := by decide

/-- One byte written by the writer, which knows it; reader 0 does not. -/
def oneByte : State :=
  { live with
    buf := [(23, 0x41)]
    writes := [⟨23, 0x41, false, ⟨1, 0⟩⟩]
    w := { live.w with obs := { view := { seen := ⟨1, 0⟩ } } } }

theorem oneByte_buffer : oneByte.bufferInv := by
  intro off
  simp only [oneByte, lastWrite, Memory.find, List.filter]
  by_cases h : off = 23
  · subst h; rfl
  · have h' : (23 == off) = false := by simpa using Ne.symm h
    simp [h, h']

/-- Two writes of one byte; reader 0 knows the first. -/
def twice : State :=
  { live with
    buf := [(23, 0x42)]
    writes := [⟨23, 0x41, false, ⟨1, 0⟩⟩, ⟨23, 0x42, false, ⟨2, 0⟩⟩]
    readers := [{ live.rd 0 with obs := { view := { seen := ⟨1, 0⟩ } } }, live.rd 1] }

theorem twice_buffer : twice.bufferInv := by
  intro off
  simp only [twice, lastWrite, Memory.find, List.filter]
  by_cases h : off = 23
  · subst h; rfl
  · have h' : (23 == off) = false := by simpa using Ne.symm h
    simp [h, h']

/-- A write of the writer, and one of the peer after it, on the same byte; reader 0 knows both. -/
def twoWriters : State :=
  { live with
    buf := [(23, 0x42)]
    writes := [⟨23, 0x41, false, ⟨1, 0⟩⟩, ⟨23, 0x42, true, ⟨1, 1⟩⟩]
    w := { live.w with obs := { view := { seen := ⟨1, 0⟩ } } }
    readers := [{ live.rd 0 with obs := { view := { seen := ⟨1, 1⟩ } } }, live.rd 1]
    peer := { obs := { view := { seen := ⟨1, 1⟩ } } } }

theorem twoWriters_buffer : twoWriters.bufferInv := by
  intro off
  simp only [twoWriters, lastWrite, Memory.find, List.filter]
  by_cases h : off = 23
  · subst h; rfl
  · have h' : (23 == off) = false := by simpa using Ne.symm h
    simp [h, h']

/-- The last byte, ordered and racing; an offset just outside; a byte nothing has written. -/
theorem witness_BufLdbLoadsOrDraws :
    (let s := on .writer oneByte
     s.ready s.beat.port = true ∧ s.hasPort s.beat.port = true ∧ s.cfg.valid = true ∧ s.beat.port ≠ .host ∧
      s.w.ph.isDetached = false ∧ (23 : Word).toNat < s.cfg.n.toNat * s.cfg.size.toNat ∧
      s.cfg.n.toNat * s.cfg.size.toNat ≤ (24 : Word).toNat) ∧
    (let s := on (.reader 0) twoWriters
     s.ready s.beat.port = true ∧ s.hasPort s.beat.port = true ∧ (s.rd 0).ph.isDetached = false ∧ s.orderInv ∧
      (∀ x ∈ s.writes, x.off = 23 → x.idx ≤ (s.obs (.reader 0)).view.seen.count x.byPeer) ∧
      (s.writes.filter (·.off == 23)).Pairwise (fun x y => x.idx ≤ y.seen.count x.byPeer) ∧
      lastWrite s.writes 23 = some 0x42) ∧
    twoWriters.bufferInv ∧
    (let s := on (.reader 0) oneByte
     s.ready s.beat.port = true ∧ s.hasPort s.beat.port = true ∧ (s.rd 0).ph.isDetached = false ∧
      s.settledByte 23 (s.obs (.reader 0)).view.seen = none ∧ knownByte s.writes 23 (s.obs (.reader 0)).view.seen = false ∧
      ⟨23, 0x41, false, ⟨1, 0⟩⟩ ∈ readable s.writes 23 (s.obs (.reader 0)).view.seen ∧ ∀ x ∈ s.writes, x.off ≠ 0) ∧
    (let s := on (.reader 0) twice
     s.ready s.beat.port = true ∧ s.hasPort s.beat.port = true ∧ (s.rd 0).ph.isDetached = false ∧
      s.settledByte 23 (s.obs (.reader 0)).view.seen = none ∧ knownByte s.writes 23 (s.obs (.reader 0)).view.seen = true ∧
      readable s.writes 23 (s.obs (.reader 0)).view.seen = s.writes) ∧ twice.bufferInv :=
  ⟨by decide, by decide, twoWriters_buffer, by decide, by decide, twice_buffer⟩

/-- A batch that wraps, and one that ends with the buffer. -/
theorem witness_FragmentsTileTheBatch :
    live.cfg.legal = true ∧ live.cfg.wellFormed 4 = true ∧ 6 ≤ live.cfg.cap ∧ ¬ live.cfg.slotNat 4 + 6 ≤ live.cfg.cap ∧
    live.cfg.slotNat 4 + 2 ≤ live.cfg.cap ∧
    (({ op := .obtain, count := 6, tmo := none, f0 := live.cfg.frag0 4 6, f1 := live.cfg.frag1 4 6, point := .load } : Task).f0 =
      live.cfg.frag0 4 6) ∧ 23 < 6 * live.cfg.size.toNat := by decide

theorem witness_WAttachAdoptsTheRear :
    let s := on .writer (start.constructed 6 4 true false)
    s.beat.port = .writer ∧ s.w.ph = .detached ∧ s.cfg.valid = true ∧ s.w.att = false ∧ s.w.obs.posRear ≤ s.rear.newest ∧
      live.w.att = true ∧ live.w.ph = .idle := by decide

/-- `W_LR` below, at and above slot `N`. -/
theorem witness_WObtainUnthrottledGrants :
    let s := on .writer { live with cfg := { live.cfg with thr := false } }
    s.beat.port = .writer ∧ s.w.ph = .idle ∧ s.cfg.valid = true ∧ s.cfg.thr = false ∧ s.cfg.legal = true ∧
      s.cfg.slotNat s.w.lr ≤ s.cfg.n.toNat ∧ s.cfg.slotNat 6 = s.cfg.n.toNat ∧ ¬ s.cfg.slotNat 7 ≤ s.cfg.n.toNat := by decide

/-- The writer at index 8 with the front at 0: the FIFO is full. -/
def full : State := { cells 8 0 live with w := { live.w with lr := 8 } }

/-- One frame free; full and non-blocking; full and blocking; a corrupt front. -/
theorem witness_WObtainThrottledGrantsOrWaits :
    let s := on .writer full 1
    s.beat.port = .writer ∧ s.w.ph = .idle ∧ s.cfg.valid = true ∧ s.cfg.thr = true ∧ s.w.obs.posFront ≤ s.front.newest ∧
      s.front.hist = [0] ∧ s.cfg.diff s.w.lr 0 false = .ok 6 ∧ s.w.eff.toNat = 6 ∧ blocking (some 1) = true ∧
      blocking (some 0) = false ∧ (0 : Word) = s.front.current ∧ 1 ≤ s.beat.burst ∧ Agent.writer ∉ s.wqFront ∧
      s.cfg.diff 5 0 false = .ok 5 ∧ s.cfg.diff s.w.lr 16 false = .eio := by decide

/-- The writer stands inside an operation. -/
def inside (o : Op) (p : Point) : Task := { op := o, count := 1, tmo := some 9, grant := 1, point := p }

/-- A pass of `W.OBTAIN`: a corrupt front; a full FIFO that waits, and one whose timeout has expired; a grant. -/
theorem witness_WObtainThrottledGrantsOrWaits_pass :
    let s : State := { full with w := { full.w with ph := .busy (inside .obtain .load) } }
    s.w.ph = .busy (inside .obtain .load) ∧ (inside .obtain .load).op = .obtain ∧ s.cfg.thr = true ∧
      s.w.obs.posFront ≤ s.front.newest ∧ s.front.hist = [0] ∧ s.cfg.diff s.w.lr 6 false = .eio ∧
      s.cfg.diff s.w.lr 0 false = .ok 6 ∧ (s.w.eff.toNat ≤ 6 ∧ blocking (some 9) = true ∧ s.w.exp = false) ∧
      ¬ (s.w.eff.toNat ≤ 6 ∧ blocking (some 9) = true ∧ true = false) ∧
      (s.cfg.diff s.w.lr 4 false = .ok 2 ∧ ¬ s.w.eff.toNat ≤ 2) := by decide

/-- 43_writer R222, R224 with one atomic step a turn: the full FIFO's obtain stands before its compare-and-park. -/
theorem test_wObtain_burst0 :
    part (fun t => t.w.ph) (exec (.wObtain 1 (some 9)) (on .writer full)) =
      some (.busy { op := .obtain, count := 1, tmo := some 9, point := .wait 0 }) := by decide

/-- `k` one above the batch; an ill-formed `W_LR`; with and without a throttling front. -/
theorem witness_WReleasePublishesAndTriggers :
    let s := on .writer { cells 4 4 live with w := { live.w with lr := 4, obt := 4 } } 2
    s.beat.port = .writer ∧ s.w.ph = .idle ∧ s.cfg.valid = true ∧ s.w.obt.toNat < (5 : Word).toNat ∧
      (4 : Word).toNat ≤ s.w.obt.toNat ∧ s.cfg.sum 6 4 = none ∧ s.cfg.sum s.w.lr 4 = some 0xA ∧ s.cfg.thr = true ∧
      2 ≤ s.beat.burst ∧ s.w.obs.posFront ≤ s.front.newest ∧ s.front.hist = [4] ∧ s.cfg.diff 0xA 4 false = .ok 4 ∧
      s.w.armed = true ∧ s.w.hlt.toNat ≤ 4 ∧ ¬ (7 ≤ 4) ∧ s.cfg.diff 0xA 0x10 false = .eio ∧
      ({ s.cfg with thr := false } : CfgRegs).thr = false := by decide

/-- The three atomic steps of a release: an index that `SUM` refuses, and one it advances, with and without a throttling
front; a corrupt front, a fill at the trigger and one below it; the wake. -/
theorem witness_WReleasePublishesAndTriggers_steps :
    let s : State := { live with w := { live.w with hlt := 4, ph := .busy (inside .release .publish) } }
    s.w.ph = .busy (inside .release .publish) ∧ s.cfg.sum 6 1 = none ∧ s.cfg.sum s.w.lr 1 = some 1 ∧ s.cfg.thr = true ∧
      (inside .transfer .fresh).point = .fresh ∧ s.w.obs.posFront ≤ s.front.newest ∧ s.front.hist = [0] ∧
      s.cfg.diff s.w.lr 6 false = .eio ∧ s.cfg.diff s.w.lr 0 false = .ok 0 ∧ s.w.armed = true ∧ s.w.hlt.toNat ≤ 6 ∧
      ¬ s.w.hlt.toNat ≤ 0 ∧ (inside .release (.wake 6)).point = .wake 6 := by decide

/-- A throttled write of one frame, an unthrottled one, and a write of nothing. -/
theorem witness_WWriteCopiesAndPublishes :
    let s := on .writer live 7 [0xA0, 0xA1, 0xA2, 0xA3]
    s.beat.port = .writer ∧ s.w.ph = .idle ∧ s.cfg.valid = true ∧ s.cfg.legal = true ∧ s.w.obs.posFront ≤ s.front.newest ∧
      (1 : Word).toNat * s.cfg.size.toNat + 3 ≤ s.beat.burst ∧ s.beat.din.length = (1 : Word).toNat * s.cfg.size.toNat ∧
      s.cfg.wellFormed s.w.lr = true ∧ s.cfg.sum s.w.lr 1 = some 1 ∧ 1 ≤ s.cfg.cap ∧ s.cfg.thr = true ∧
      s.front.hist = [0] ∧ s.cfg.diff s.w.lr 0 false = .ok 0 ∧ 0 + 1 ≤ s.w.eff.toNat ∧
      (0 : Word).toNat * s.cfg.size.toNat = ([] : List Byte).length ∧ s.cfg.sum s.w.lr 0 = some 0 ∧
      s.cfg.batchOff s.w.lr 3 = 3 ∧ ∀ k, k < 4 → s.cfg.batchOff s.w.lr k ≠ 4 := by decide

/-- The writer stands at a pass of `W.WRITE`. -/
def writing (done : Nat) (tmo : Timeout) (s : State) : State :=
  { s with w := { s.w with ph := .busy { op := .transfer, count := 2, tmo := tmo, done := done, point := .load } } }

/-- Unthrottled: nothing left; a grant; a grant from an ill-formed `W_LR`. -/
theorem witness_WWriteCopiesAndPublishes_unthrottled :
    let s := { live with cfg := { live.cfg with thr := false } }
    (writing 2 none s).atWritePass { op := .transfer, count := 2, tmo := none, done := 2, point := .load } ∧
    min ((2 : Word).toNat - 2) s.cfg.cap = 0 ∧
    (writing 1 none s).atWritePass { op := .transfer, count := 2, tmo := none, done := 1, point := .load } ∧
    1 ≤ min ((2 : Word).toNat - 1) s.cfg.cap ∧ s.cfg.legal = true ∧ s.cfg.thr = false ∧ s.cfg.wellFormed s.w.lr = true ∧
    s.cfg.wellFormed 6 = false := by decide

/-- Throttled: a corrupt front; a full FIFO that waits, and one that may not; a grant. -/
theorem witness_WWriteCopiesAndPublishes_throttled :
    (writing 0 (some 9) full).atWritePass { op := .transfer, count := 2, tmo := some 9, point := .load } ∧
    full.cfg.legal = true ∧ full.cfg.thr = true ∧ full.w.eff.toNat ≤ full.cfg.cap ∧
    full.w.obs.posFront ≤ full.front.newest ∧ full.front.hist = [0] ∧ full.cfg.diff full.w.lr 6 false = .eio ∧
    full.cfg.diff full.w.lr 0 false = .ok 6 ∧ (full.w.eff.toNat ≤ 6 ∧ blocking (some 9) = true ∧ full.w.exp = false) ∧
    (blocking none = false ∧ min ((2 : Word).toNat - 0) (full.w.eff.toNat - 6) = 0) ∧
    (full.cfg.diff full.w.lr 4 false = .ok 2 ∧ 1 ≤ min ((2 : Word).toNat - 0) (full.w.eff.toNat - 2)) := by decide

/-- A copy step whose byte has a place, and one whose byte has none (an ill-formed `W_LR`); a byte that `DIN` offers. -/
theorem witness_WWriteCopiesAndPublishes_copy :
    let t : Task := { inside .transfer (.copy [0, 3]) with din := [1, 2, 3, 4], f0 := ⟨0, 4⟩ }
    ({ live with w := { live.w with ph := .busy t } } : State).w.ph = .busy t ∧ [0, 3] ≠ ([] : List Nat) ∧
      t.byteOff 3 < live.cfg.bytes ∧ t.din[t.done * live.cfg.size.toNat + 3]? = some 4 ∧
      live.cfg.bytes ≤ ({ t with f0 := ⟨24, 4⟩ } : Task).byteOff 0 := by decide

theorem witness_WriterSettersClamp :
    let s := on .writer live
    s.beat.port = .writer ∧ s.w.ph = .idle ∧ s.cfg.valid = true := by decide

/-- Attaching as a throttling reader and not; refused as attached, without `FRONT`, and beside another throttling reader. -/
theorem witness_RAttachAdoptsAnIndex :
    let s := on (.reader 1) (start.constructed 6 4 true false)
    s.beat.port = .reader 1 ∧ (1 : BitVec 8).toNat < s.readers.length ∧ (s.rd 1).ph = .detached ∧ s.cfg.valid = true ∧
      (s.rd 1).att = false ∧ s.cfg.thr = true ∧ (s.rd 0).thr = false ∧ (s.rd 1).obs.pos .front ≤ (s.cell .front).newest ∧
      (s.rd 1).obs.pos .rear ≤ (s.cell .rear).newest ∧ (live.rd 1).att = true ∧ (live.rd 0).thr = true ∧ (0 : Nat) ≠ 1 ∧
      ({ s.cfg with thr := false } : CfgRegs).thr = false := by decide

theorem witness_RAttachAdoptsAnIndex_others :
    let s := start.constructed 6 4 true false
    ∀ j, j ≠ 1 → (s.rd j).thr = false := by
  intro s j _
  show (s.readers[j]?.getD {}).thr = false
  match j with
  | 0 => rfl
  | 1 => rfl
  | n + 2 => rfl

/-- A fill, an overflow (one frame too many), a corrupt rear, and an empty FIFO that blocks. -/
theorem witness_RObtainGrantsResyncsOrWaits :
    let s := on (.reader 1) live 1
    s.beat.port = .reader 1 ∧ (1 : BitVec 8).toNat < s.readers.length ∧ (s.rd 1).ph = .idle ∧ s.cfg.valid = true ∧
      1 ≤ s.beat.burst ∧ (s.rd 1).obs.posRear ≤ s.rear.newest ∧ s.rear.hist = [0] ∧
      s.cfg.diff 0 (s.rd 1).lf true = .ok 0 ∧ blocking (some 1) = true ∧ (0 : Word) = s.rear.current ∧
      Agent.reader 1 ∉ s.wqRear ∧ s.cfg.diff 1 (s.rd 1).lf true = .ok 1 ∧ s.cfg.diff 9 (s.rd 1).lf true = .overflow 1 ∧
      s.cfg.diff 6 (s.rd 1).lf true = .eio ∧ (s.rd 1).thr = false ∧ (s.rd 0).thr = true := by decide

/-- A pass of `R.OBTAIN`: a corrupt rear, an overflow with and without throttling, a wait, an expired timeout, a grant; and a
throttling reader about to publish its resynchronised front. -/
theorem witness_RObtainGrantsResyncsOrWaits_pass :
    let s : State := { live with readers := [{ live.rd 0 with ph := .busy (inside .obtain (.resync 1)) },
      { live.rd 1 with ph := .busy (inside .obtain .load) }] }
    (s.rd 1).ph = .busy (inside .obtain .load) ∧ (inside .obtain .load).op = .obtain ∧ 1 < s.readers.length ∧
      (s.rd 1).obs.posRear ≤ s.rear.newest ∧ s.rear.hist = [0] ∧ s.cfg.diff 6 (s.rd 1).lf true = .eio ∧
      s.cfg.diff 9 (s.rd 1).lf true = .overflow 1 ∧ (s.rd 1).thr = false ∧ (s.rd 0).thr = true ∧
      s.cfg.diff 0 (s.rd 1).lf true = .ok 0 ∧ blocking (some 9) = true ∧ (s.rd 1).exp = false ∧
      s.cfg.diff 2 (s.rd 1).lf true = .ok 2 ∧ (s.rd 0).ph = .busy (inside .obtain (.resync 1)) := by decide

/-- 44_reader R252, R254 with one atomic step a turn: the empty FIFO's obtain stands before its compare-and-park. -/
theorem test_rObtain_burst0 :
    part (fun t => (t.rd 1).ph) (exec (.rObtain 1 1 (some 9) true) (on (.reader 1) live)) =
      some (.busy { op := .obtain, count := 1, tmo := some 9, lv := true, point := .wait 0 }) := by decide

theorem witness_OverflowThenNextObtainSucceeds :
    let s := on (.reader 1) (cells 9 0 live) 1
    s.beat.port = .reader 1 ∧ (1 : BitVec 8).toNat < s.readers.length ∧ (s.rd 1).ph = .idle ∧ s.cfg.valid = true ∧
      s.cfg.legal = true ∧ 1 ≤ s.beat.burst ∧ s.par.xing = .sc ∧
      s.cfg.diff s.rear.current (s.rd 1).lf true = .overflow 1 ∧
      (lagging.par.xing = .lagging ∧ (lagging.rd 1).obs.posRear = lagging.rear.newest) ∧
      (part (fun t => t.out.map Answer.resp) (exec (.rObtain 1 6 none true) s)) = some [{ ret := 0xFFFFFFB5, lost := 1 }] := by
  decide

/-- `k` one above the batch; an ill-formed `R_LF`; with and without a throttling front; each class of the fresh fill. -/
theorem witness_RReleaseAdvancesAndTriggers :
    let s := on (.reader 0) { cells 8 0 live with readers := [{ live.rd 0 with obt := 6 }, { live.rd 1 with obt := 6 }] } 2
    s.beat.port = .reader 0 ∧ (0 : BitVec 8).toNat < s.readers.length ∧ (s.rd 0).ph = .idle ∧ s.cfg.valid = true ∧
      (s.rd 0).obt.toNat < (7 : Word).toNat ∧ (6 : Word).toNat ≤ (s.rd 0).obt.toNat ∧ s.cfg.sum 6 6 = none ∧
      s.cfg.sum (s.rd 0).lf 6 = some 8 ∧ (s.rd 0).thr = true ∧ (s.rd 1).thr = false ∧ 2 ≤ s.beat.burst ∧
      (s.rd 0).obs.posRear ≤ s.rear.newest ∧ s.rear.hist = [8] ∧ s.cfg.diff 8 8 true = .ok 0 ∧ (s.rd 0).armed = true ∧
      0 ≤ (s.rd 0).llt.toNat ∧ s.cfg.diff 6 8 true = .eio ∧ s.cfg.diff 0x11 8 true = .overflow 1 := by decide

/-- The three atomic steps of a reader's release: an index that `SUM` refuses, and one it advances, with and without throttling;
a corrupt rear, an overflow, a fill at the trigger and one above it; the wake. -/
theorem witness_RReleaseAdvancesAndTriggers_steps :
    let s : State := { live with readers := [{ live.rd 0 with llt := 2, ph := .busy (inside .release .publish) },
      { live.rd 1 with ph := .busy (inside .transfer .publish) }] }
    (s.rd 0).ph = .busy (inside .release .publish) ∧ (s.rd 1).ph = .busy (inside .transfer .publish) ∧
      1 < s.readers.length ∧ s.cfg.sum 6 1 = none ∧ s.cfg.sum (s.rd 0).lf 1 = some 1 ∧ (s.rd 0).thr = true ∧
      (s.rd 1).thr = false ∧ (s.rd 0).obs.posRear ≤ s.rear.newest ∧ s.rear.hist = [0] ∧
      s.cfg.diff 6 (s.rd 0).lf true = .eio ∧ s.cfg.diff 9 (s.rd 0).lf true = .overflow 1 ∧
      s.cfg.diff 0 (s.rd 0).lf true = .ok 0 ∧ (s.rd 0).armed = true ∧ 0 ≤ (s.rd 0).llt.toNat ∧
      s.cfg.diff 8 (s.rd 0).lf true = .ok 6 ∧ ¬ 6 ≤ (s.rd 0).llt.toNat ∧
      (inside .release (.wake 0)).point = .wake 0 := by decide

/-- A throttling reader about to publish its resynchronised front inside `R.READ`, on its first pass and on a later one; and a
copy step whose load is ordered after every write of the byte. -/
theorem witness_RReadCopiesAndReleases_steps :
    let t := inside .transfer (.resync 2)
    let u : Task := { inside .transfer (.copy [3]) with f0 := ⟨20, 4⟩ }
    let s : State := { oneByte with readers := [{ oneByte.rd 0 with ph := .busy t },
      { oneByte.rd 1 with ph := .busy u, obs := { view := { seen := ⟨1, 0⟩ } } }] }
    (s.rd 0).ph = .busy t ∧ t.op = .transfer ∧ t.point = .resync 2 ∧ t.done = 0 ∧ 1 ≤ ({ t with done := 1 } : Task).done ∧
      (s.rd 1).ph = .busy u ∧ 1 < s.readers.length ∧ [3] ≠ ([] : List Nat) ∧
      s.settledByte (u.byteOff 3) (s.rd 1).obs.view.seen = some 0x41 := by decide

theorem witness_RReadCopiesAndReleases :
    let s := on (.reader 1) live 27
    s.beat.port = .reader 1 ∧ (1 : BitVec 8).toNat < s.readers.length ∧ (s.rd 1).ph = .idle ∧ s.cfg.valid = true ∧
      s.cfg.legal = true ∧ s.cfg.bytes + 3 ≤ s.beat.burst ∧ blocking none = false ∧
      (s.rd 1).obs.posRear ≤ s.rear.newest ∧
      oneByte.settledByte (live.cfg.batchOff 0 23) ⟨1, 0⟩ = some 0x41 := by decide

/-- Reader 1 stands at the second pass of an `R.READ` that has produced one frame of four bytes. -/
def readTask (tmo : Timeout) : Task :=
  { op := .transfer, count := 3, tmo := tmo, done := 1, dout := [(0, 1), (1, 2), (2, 3), (3, 4)], point := .load }

/-- A corrupt rear; an overflow of a throttling reader and of another; an empty FIFO that waits, and one that may not; a
grant. -/
theorem witness_RReadCopiesAndReleases_pass :
    let s : State := { live with readers := [live.rd 0, { live.rd 1 with ph := .busy (readTask (some 9)) }] }
    s.atReadPass 1 (readTask (some 9)) ∧ s.cfg.legal = true ∧ (s.rd 1).obs.posRear ≤ s.rear.newest ∧
      s.rear.hist = [0] ∧ s.cfg.diff 6 (s.rd 1).lf true = .eio ∧ 1 ≤ (readTask none).done ∧
      s.cfg.diff 9 (s.rd 1).lf true = .overflow 1 ∧ (s.rd 1).thr = false ∧ (s.rd 0).thr = true ∧
      s.cfg.diff 0 (s.rd 1).lf true = .ok 0 ∧ blocking (some 9) = true ∧ (s.rd 1).exp = false ∧
      min ((readTask none).count.toNat - 1) 0 = 0 ∧ s.cfg.diff 2 (s.rd 1).lf true = .ok 2 ∧
      1 ≤ min ((readTask none).count.toNat - 1) 2 := by decide

theorem witness_ReaderSettersClamp :
    let s := on (.reader 1) live
    s.beat.port = .reader 1 ∧ (1 : BitVec 8).toNat < s.readers.length ∧ (s.rd 1).ph = .idle ∧ s.cfg.valid = true := by decide

/-- The writer is parked on `FRONT`, reader 0 on `REAR`, and a turn comes. -/
def asleep (who : Agent) (cause : Cause) : State :=
  { live with
    w := { live.w with
      ph := .parked { op := .obtain, count := 1, tmo := some 9, point := .wait 0 } { cell := .front, expected := 0, timer := 9 } }
    readers := [{ live.rd 0 with ph := sleeping }, live.rd 1]
    wqFront := [.writer]
    wqRear := [.reader 0]
    sched := [{ who := who, burst := 0, cause := cause }] }

theorem witness_ParkedEndpointUnparks :
    (let s := asleep .writer .changed
     (s.nextTurn = some ({ who := .writer, burst := 0, cause := .changed }, { s with sched := [] })) ∧
      s.w.ph.isParked = true ∧ s.w.obs.pos .front ≤ (s.cell .front).newest ∧ (s.cell .front).current = 0) ∧
    ((asleep .writer .timeout).nextTurn.isSome = true ∧ (asleep (.reader 0) .timeout).nextTurn.isSome = true) ∧
    (((asleep (.reader 0) .timeout).rd 0).ph = sleeping ∧
      ((asleep (.reader 0) .timeout).rd 0).obs.pos .rear ≤ ((asleep (.reader 0) .timeout).cell .rear).newest) := by decide

/-- An operation about to load after its timeout. -/
def afterTimeout (o : Op) : Task := { op := o, count := 1, tmo := some 9, point := .load }

theorem witness_PassAfterTimeoutNeverWaits :
    let s : State := { live with
      w := { live.w with ph := .busy (afterTimeout .obtain), exp := true }
      readers := [{ live.rd 0 with ph := .busy (afterTimeout .transfer), exp := true }, live.rd 1] }
    (afterTimeout .obtain).point = .load ∧ s.w.ph = .busy (afterTimeout .obtain) ∧ s.w.exp = true ∧
      (afterTimeout .transfer).point = .load ∧ (s.rd 0).ph = .busy (afterTimeout .transfer) ∧ (s.rd 0).exp = true := by decide

/-- The cell changed since the load, and did not. -/
theorem witness_CompareAndParkIsOneStep :
    let task : Task := { afterTimeout .obtain with point := .wait 0 }
    let s : State := { live with w := { live.w with ph := .busy task }, readers := [{ live.rd 0 with ph := .busy task }, live.rd 1] }
    task.point = .wait 0 ∧ s.w.ph = .busy task ∧ (s.rd 0).ph = .busy task ∧ s.front.current = 0 ∧ s.rear.current = 0 ∧
      Agent.writer ∉ s.wqFront ∧ Agent.reader 0 ∉ s.wqRear ∧ (cells 1 1 s).front.current ≠ 0 ∧ (cells 1 1 s).rear.current ≠ 0 := by
  decide

/-- One frame of one byte is written to a FIFO of one frame; under a lagging crossing. -/
def roundTrip : State :=
  on .writer { lagging with
    cfg := { lagging.cfg with n := 1, size := 1 }
    w := { lagging.w with eff := 1 } } 4 [0x5A]

theorem witness_ReadReturnsTheBytesWritten :
    let s := roundTrip
    (s.beat.port = .writer ∧ s.w.ph = .idle ∧ s.cfg.valid = true ∧ s.cfg.legal = true ∧ (1 : BitVec 8).toNat < s.readers.length ∧
      (s.rd 1).ph = .idle) ∧
    (s.orderInv ∧ s.posInv ∧ (∀ x ∈ s.writes, x.byPeer = false) ∧ s.par.legal = true ∧ 1 ≤ (1 : Word).toNat ∧
      (1 : Word).toNat ≤ s.cfg.cap ∧ s.beat.din.length = (1 : Word).toNat * s.cfg.size.toNat ∧
      (1 : Word).toNat * s.cfg.size.toNat + 3 ≤ s.beat.burst ∧ s.cfg.bytes + 3 ≤ 4) ∧
    (s.cfg.wellFormed s.w.lr = true ∧ s.rear.current = s.w.lr ∧ (s.rd 1).lf = s.w.lr ∧
      (s.rd 1).obs.posRear = s.rear.newest) ∧
    part (fun t => t.out) (exec (.wWrite 1 none) s) = some (s.out ++ [{ port := .writer, resp := { ret := 1 } }]) := by decide

theorem witness_ReadReturnsTheBytesWritten_buffer : roundTrip.bufferInv := fun _ => rfl

theorem witness_EveryStateHasOneWriter :
    let s := presented .writer 0x36000000 4 0 live
    s.nextTurn = some ({ who := .writer, burst := 0, cause := .timeout }, { s with sched := [] }) ∧
      (part (fun t => t.w.eff) (step s)) = some 4 := by decide

/-- The peer's wake of both readers marks their phases. -/
theorem witness_EveryStateHasOneWriter_wake :
    let s := presented .peer 0x06000000 0 0 bothAsleep
    s.nextTurn = some ({ who := .peer, burst := 0, cause := .timeout }, { s with sched := [] }) ∧ s.attachInv ∧
      (part (fun t => t.readers.map Reader.ph) (step s)) =
        some (s.readers.map fun r => r.ph.wakeUp s.peer.obs.view.seen) := by decide

theorem witness_HistoriesGrowAndPositionsAdvance :
    let s := presented .writer 0x32000000 0 0 live
    s.posInv ∧ s.nextTurn = some ({ who := .writer, burst := 0, cause := .timeout }, { s with sched := [] }) ∧
      (part (fun t => t.rear.hist) (step s)) = some [0, 0] := by decide

theorem live_levels : live.levelsInv := by decide

theorem witness_LocalIndicesNeverGoBack :
    let s : State := { live with
      w := { live.w with obt := 2, ph := .busy { afterTimeout .release with grant := 2, point := .publish } } }
    s.levelsInv ∧ s.cfg.valid = true ∧ s.stepWriter.w.lr = 2 := by decide

/-- A store of a byte. -/
theorem witness_StepKeepsBufferSound :
    let s := presented .writer 0x61000000 5 0x41 oneByte
    s.memoryInv ∧ oneByte.bufferInv ∧ s.orderInv ∧ (part (fun t => t.buf) (step s)) = some [(5, 0x41), (23, 0x41)] := by
  refine ⟨⟨by decide, ?_, ?_⟩, oneByte_buffer, by decide, by decide⟩
  · trivial
  · intro r hr
    rcases List.mem_cons.mp hr with rfl | hr
    · trivial
    · rcases List.mem_cons.mp hr with rfl | hr
      · trivial
      · exact absurd hr (by simp)

theorem witness_StepKeepsRegisterRanges :
    let s := presented .writer 0x34000000 9 0 live
    s.levelsInv ∧ (part (fun t => t.w.hlt) (step s)) = some 6 := by decide

theorem witness_StepKeepsAtMostOneThrottlingReader :
    let s := presented (.reader 1) 0x40010400 0 0 (start.constructed 6 4 true false)
    s.attachInv ∧ s.throttleInv ∧ (part (fun t => (t.rd 1).thr) (step s)) = some true := by decide

theorem witness_StepKeepsParkedSets_step :
    (part (fun t => t.wqRear) (step (presented .peer 0x06000000 0 0 (asleep .host .changed)))) = some [] := by decide

theorem witness_StepKeepsParkedSets : (asleep .host .changed).parkedInv := by
  refine ⟨by decide, by decide, by decide, by decide, by decide, fun i => ?_⟩
  match i with
  | 0 => decide
  | 1 => decide
  | n + 2 => exact ⟨rfl, fun h => absurd h (by show ¬ false = true; decide)⟩

/-- Without a foreign peer: a write of no frame is waiting. -/
def alone : State := { presented .writer 0x32000000 0 0 live with par := { live.par with foreign := false } }

theorem alone_noCellInit : alone.noCellInit := by
  intro c hc x h
  rcases List.mem_singleton.mp hc with rfl
  cases x <;> revert h <;> decide

theorem witness_StepKeepsOwnersInStepWithCells :
    (alone.par.foreign = false ∧ alone.attachInv ∧ alone.throttleInv ∧ alone.ownerInv) ∧ alone.noCellInit ∧
    part (fun t => t.rear.hist) (step alone) = some [0, 0] :=
  ⟨by decide, alone_noCellInit, by decide⟩

theorem witness_StepKeepsIndicesWellFormed :
    alone.par.foreign = false ∧ alone.levelsInv ∧ alone.indexInv ∧ alone.cfg.ext = false ∧ alone.cfg.valid = true :=
  ⟨rfl, by decide, fun _ _ => ⟨by decide, fun v hv => by cases List.mem_singleton.mp hv; decide,
    fun _ v hv => by cases List.mem_singleton.mp hv; decide, by decide, by decide⟩, rfl, rfl⟩

theorem alone_sound : alone.sound := by
  refine ⟨by decide, by decide, by decide, by decide, ?_⟩
  intro _ _ _
  refine ⟨[0], [0], by decide, by decide, by decide, by decide, by decide, by decide, by decide, ?_⟩
  decide

theorem witness_ThrottledFillStaysBounded :
    alone.par.foreign = false ∧ alone.noCellInit ∧ alone.sound ∧ alone.cfg.valid = true ∧ alone.cfg.ext = false ∧
    alone.cfg.thr = true ∧ part (fun t => t.rear.hist) (step alone) = some [0, 0] :=
  ⟨rfl, alone_noCellInit, alone_sound, rfl, rfl, rfl, by decide⟩

end Sys2Proof.Tests
end

