-- ==== Sys2Proof/Proofs/State/Moves.lean ====
section
/-! PROOF. The atomic changes a state can undergo, and the fact that every step is a chain of them. Each invariant is then a
property that every change keeps. -/

namespace Sys2Proof.Machine

open Sys2Proof

/-! ### The atomic changes -/

/-- The endpoint is attached and awake: no parked set can hold it. -/
def Phase.isActive : Phase → Bool
  | .idle => true
  | .busy _ => true
  | _ => false

/-- The place of the newest value of each cell. -/
def State.newest (s : State) (c : CellSel) : Nat := (s.cell c).newest

/-- `y` is what an observer with `x` may hold next: it knows no fewer writes, and its positions do not go back (20_memory R88). -/
structure Observer.Advances (newest : CellSel → Nat) (x y : Observer) : Prop where
  writer : x.view.seen.writer ≤ y.view.seen.writer
  peer : x.view.seen.peer ≤ y.view.seen.peer
  pos : ∀ c, x.pos c ≤ newest c → x.pos c ≤ y.pos c ∧ y.pos c ≤ newest c

/-- A change of the writer's own registers that is no grant, no publication and no attachment. -/
structure Writer.Adjusts (n : Nat) (w w' : Writer) : Prop where
  lr : w'.lr = w.lr
  att : w'.att = w.att
  obs : w'.obs = w.obs
  active : w.ph.isActive = true
  active' : w'.ph.isActive = true
  out : w.ph.outWf → w'.ph.outWf
  obt : w'.obt.toNat ≤ w.obt.toNat
  levels : w.levels n → w'.levels n
  pending : w.ph.pending ≤ w.obt.toNat → w'.ph.pending ≤ w'.obt.toNat

/-- The same for a reader. -/
structure Reader.Adjusts (n : Nat) (r r' : Reader) : Prop where
  lf : r'.lf = r.lf
  thr : r'.thr = r.thr
  att : r'.att = r.att
  obs : r'.obs = r.obs
  active : r.ph.isActive = true
  active' : r'.ph.isActive = true
  calm : r.ph.resyncing = false
  calm' : r'.ph.resyncing = false
  out : r.ph.outWf → r'.ph.outWf
  obt : r'.obt.toNat ≤ r.obt.toNat
  levels : r.levels n → r'.levels n
  pending : r.ph.pending ≤ r.obt.toNat → r'.ph.pending ≤ r'.obt.toNat

/-- The frames the writer may be granted: without throttling any number up to `N`, else those free below `W_EFF` against the
front it has observed last (43_writer R222). -/
def State.writerRoom (s : State) (g : Nat) : Prop :=
  if s.cfg.thr then ∃ fill, s.cfg.diff s.w.lr (s.front.valueAt s.w.obs.posFront) false = .ok fill ∧ g ≤ s.w.eff.toNat - fill
  else g ≤ s.cfg.cap

/-- A change of who sleeps on a cell: an agent parks, un-parks or is released (40_index_cell R148 to R151). -/
inductive SleepMove : State → State → Prop
  /-- The writer parks on `FRONT`. -/
  | parkWriter (s : State) (t : Task) (e timer : Word) (hp : s.w.ph = .busy t) (ht : t.point = .wait e) :
      SleepMove s (({ s with
        w := { s.w with ph := .parked t { cell := .front, expected := e, timer := timer } } } : State).enqueue .writer .front)
  /-- The writer leaves the parked set, before a fresh load. -/
  | unparkWriter (s : State) (t : Task) (p : Park) (exp : Bool) (hp : s.w.ph = .parked t p) :
      SleepMove s (({ s with
        w := { s.w with ph := .busy { t with point := .load }, exp := exp } } : State).dequeue .writer p.cell)
  /-- A reader parks on `REAR`. -/
  | parkReader (s : State) (i : Nat) (t : Task) (e timer : Word) (hp : (s.rd i).ph = .busy t)
      (ht : t.point = .wait e) :
      SleepMove s ((s.setRd i { s.rd i with
        ph := .parked t { cell := .rear, expected := e, timer := timer } }).enqueue (.reader i) .rear)
  /-- A reader leaves the parked set, before a fresh load. -/
  | unparkReader (s : State) (i : Nat) (t : Task) (p : Park) (exp : Bool) (hp : (s.rd i).ph = .parked t p) :
      SleepMove s ((s.setRd i { s.rd i with
        ph := .busy { t with point := .load }, exp := exp }).dequeue (.reader i) p.cell)
  /-- Some members of a parked set are released. -/
  | wake (s : State) (c : CellSel) (v : Seen) (q : List Agent) (hq : ∀ o ∈ q, o ∈ s.wq c) :
      SleepMove s ((q.foldl (State.release v) s).setWq c ((s.wq c).filter fun o => !q.contains o))
  /-- The foreign peer parks. -/
  | parkPeer (s : State) (c : CellSel) (e timer : Word) (hw : s.peer.wait = none) :
      SleepMove s (({ s with
        peer := { s.peer with wait := some { cell := c, expected := e, timer := timer } } } : State).enqueue .peer c)
  /-- The foreign peer leaves the parked set. -/
  | unparkPeer (s : State) (p : Park) (hp : s.peer.wait = some p) :
      SleepMove s (({ s with peer := { s.peer with wait := none } } : State).dequeue .peer p.cell)

/-- A change of a cell, of a local index, of a batch or of the configuration. `init` says whether `IDX.INIT` may be among the
commands. -/
inductive FlowMove (init : Prop) : State → State → Prop
  /-- The writer is granted frames. -/
  | grantWriter (s : State) (t : Task) (g : Nat) (hp : s.w.ph = .busy t) (ht : t.point = .load) (hg : s.writerRoom g) :
      FlowMove init s { s with w := { s.w with obt := BitVec.ofNat 32 g } }
  /-- The writer advances `W_LR` and stores it in `REAR`. -/
  | publishWriter (s : State) (t : Task) (p : Pub) (hp : s.w.ph = .busy t) (ht : t.point = .publish)
      (hs : s.cfg.sum s.w.lr t.grant = some p.value) :
      FlowMove init s { s with
        rear := s.rear.push p
        w := { s.w with lr := p.value, obt := s.w.obt - BitVec.ofNat 32 t.grant, ph := .busy { t with point := .fresh } } }
  /-- The writer attaches, with the rear it has observed. -/
  | attachWriter (s : State) (ha : s.w.att = false) (hp : s.w.ph.accepts = true) :
      FlowMove init s { s with
        w := { s.w with lr := s.rear.valueAt s.w.obs.posRear, obt := 0, att := true, exp := false, ph := .idle } }
  /-- A reader is granted frames up to the rear it has observed last. -/
  | grantReader (s : State) (i : Nat) (t : Task) (g fill : Nat) (hp : (s.rd i).ph = .busy t) (ht : t.point = .load)
      (hd : s.cfg.diff (s.rear.valueAt (s.rd i).obs.posRear) (s.rd i).lf true = .ok fill) (hg : g ≤ fill) :
      FlowMove init s (s.setRd i { s.rd i with obt := BitVec.ofNat 32 g })
  /-- A reader was lapped: it goes one generation back from the rear it has observed, and comes to publish if it throttles. -/
  | lapReader (s : State) (i : Nat) (t : Task) (lost : Nat) (hp : (s.rd i).ph = .busy t) (ht : t.point = .load)
      (hd : s.cfg.diff (s.rear.valueAt (s.rd i).obs.posRear) (s.rd i).lf true = .overflow lost) :
      FlowMove init s (s.setRd i { s.rd i with
        lf := (s.cfg.back (s.rear.valueAt (s.rd i).obs.posRear)).getD (s.rd i).lf
        lost := BitVec.ofNat 32 lost
        ph := if (s.rd i).thr then .busy { t with point := .resync lost } else .busy t })
  /-- A reader stores its front after it was lapped. -/
  | resyncReader (s : State) (i : Nat) (t : Task) (lost : Nat) (p : Pub) (hp : (s.rd i).ph = .busy t)
      (ht : t.point = .resync lost) (hv : p.value = (s.rd i).lf) :
      FlowMove init s (({ s with front := s.front.push p } : State).setRd i { s.rd i with ph := .idle })
  /-- A reader advances `R_LF`, and stores it in `FRONT` if it throttles. -/
  | publishReader (s : State) (i : Nat) (t : Task) (p : Pub) (hp : (s.rd i).ph = .busy t) (ht : t.point = .publish)
      (hs : s.cfg.sum (s.rd i).lf t.grant = some p.value) :
      FlowMove init s (({ s with front := if (s.rd i).thr then s.front.push p else s.front } : State).setRd i { s.rd i with
        lf := p.value, obt := (s.rd i).obt - BitVec.ofNat 32 t.grant, ph := .busy { t with point := .fresh } })
  /-- A reader attaches, with the front or the rear it has observed. -/
  | attachReader (s : State) (i : Nat) (thr : Bool) (hm : (s.rd i).att = false) (hi : i < s.readers.length)
      (hp : (s.rd i).ph.accepts = true) (ht : thr = true → s.cfg.thr = true ∧ s.noOtherThrottles i = true) :
      FlowMove init s (s.setRd i { s.rd i with
        lf := if thr then s.front.valueAt (s.rd i).obs.posFront else s.rear.valueAt (s.rd i).obs.posRear
        thr := thr, obt := 0, lost := 0, att := true, exp := false, ph := .idle })
  /-- The foreign peer stores a cell. -/
  | storePeer (s : State) (c : CellSel) (p : Pub) (hf : s.par.foreign = true) :
      FlowMove init s (s.setCell c ((s.cell c).push p))
  /-- The host initialises a cell. -/
  | initCell (s : State) (c : CellSel) (hi : init) : FlowMove init s ((s.setCell c (Cell.restart 0)).restartPos c)
  /-- The host constructs the FIFO. -/
  | construct (s : State) (n size : Word) (thr ext : Bool) (hm : s.mayConstruct n size thr ext = true) :
      FlowMove init s (s.constructed n size thr ext)

/-- One atomic change of the state. -/
inductive Move (init : Prop) : State → State → Prop
  /-- The schedule, the ports and the draws go on. -/
  | environment (s : State) (b : Beat) (rest : List Command) (out : List Answer) (q : List Turn) (cs : List Nat) (n : Nat)
      (hr : ∀ d ∈ rest, d ∈ s.inbox) :
      Move init s { s with beat := b, inbox := rest, out := out, sched := q, choices := cs, draws := n }
  /-- An agent observes. -/
  | observe (s : State) (o : Agent) (x : Observer) (hx : (s.obs o).Advances s.newest x) : Move init s (s.setObs o x)
  /-- A byte of the buffer is stored. -/
  | storeByte (s : State) (o : Agent) (off : Nat) (b : Byte) (ho : o = .writer ∨ o = .peer) :
      Move init s (s.storeByte o off b)
  /-- The writer changes registers of its own. -/
  | writer (s : State) (w : Writer) (hw : s.w.Adjusts s.cfg.cap w) : Move init s { s with w := w }
  /-- A reader changes registers of its own. -/
  | reader (s : State) (i : Nat) (r : Reader) (hr : (s.rd i).Adjusts s.cfg.cap r) : Move init s (s.setRd i r)
  /-- An agent parks, un-parks or is released. -/
  | sleep {s t : State} (h : SleepMove s t) : Move init s t
  /-- A cell, a local index, a batch or the configuration changes. -/
  | flow {s t : State} (h : FlowMove init s t) : Move init s t

/-- A chain of atomic changes. -/
abbrev Moves (init : Prop) : State → State → Prop := Relation.ReflTransGen (Move init)

end Sys2Proof.Machine
end

