-- ==== Sys2Proof/Proofs/State/Observations.lean ====
section
/-! PROOF. The writer's atomic steps, and every step of an operation that both endpoints share, as chains of atomic changes. -/

namespace Sys2Proof.Machine

open Sys2Proof

section
variable {init : Prop}

/-! ### Observing -/

@[simp] theorem Observer.pos_setView (x : Observer) (v : View) (c : CellSel) : (x.setView v).pos c = x.pos c := by
  cases c <;> rfl

@[simp] theorem Observer.pos_setPos_same (x : Observer) (c : CellSel) (j : Nat) : (x.setPos c j).pos c = j := by
  cases c <;> rfl

theorem Observer.pos_setPos_ne {c d : CellSel} (h : c ≠ d) (x : Observer) (j : Nat) : (x.setPos c j).pos d = x.pos d := by
  cases c <;> cases d <;> first | rfl | exact absurd rfl h

theorem Seen.le_join (a b : Seen) : a.writer ≤ (a.join b).writer ∧ a.peer ≤ (a.join b).peer :=
  ⟨Nat.le_max_left _ _, Nat.le_max_left _ _⟩

/-- Knowing more, at the same positions. -/
theorem Observer.Advances.view {k : CellSel → Nat} (x : Observer) {v : View}
    (hv : x.view.seen.writer ≤ v.seen.writer ∧ x.view.seen.peer ≤ v.seen.peer) : x.Advances k (x.setView v) :=
  ⟨hv.1, hv.2, fun c h => by simp [h]⟩

/-- Knowing more, at another position of one cell. -/
theorem Observer.Advances.move {k : CellSel → Nat} (x : Observer) {c : CellSel} {j : Nat} {v : View}
    (hv : x.view.seen.writer ≤ v.seen.writer ∧ x.view.seen.peer ≤ v.seen.peer)
    (hj : x.pos c ≤ k c → x.pos c ≤ j ∧ j ≤ k c) :
    x.Advances k ((x.setPos c j).setView v) := by
  refine ⟨hv.1, hv.2, fun d h => ?_⟩
  by_cases hcd : c = d
  · subst hcd; simpa using hj h
  · simpa [Observer.pos_setPos_ne hcd] using h

/-- Draws alone. -/
theorem Moves.draws (s : State) (cs : List Nat) (n : Nat) : Moves init s { s with choices := cs, draws := n } :=
  .single (.environment s s.beat s.inbox s.out s.sched cs n fun _ h => h)

theorem Moves.answer (s : State) (o : Agent) (r : Response) : Moves init s (s.answer o r) :=
  .single (.environment s s.beat s.inbox _ s.sched s.choices s.draws fun _ h => h)

theorem Moves.reply (s : State) (r : Response) : Moves init s (s.reply r) := Moves.answer s _ r

theorem Moves.pick (s : State) (k : Nat) : Moves init s (s.pick k).2 := by
  obtain ⟨cs, n, h⟩ := s.pick_frame k
  rw [h]; exact Moves.draws s cs n

theorem Moves.freeByte (s : State) : Moves init s s.freeByte.2 := by
  obtain ⟨cs, n, h⟩ := s.draw_frame
  rw [State.freeByte, h]; exact Moves.draws s cs n

theorem Moves.loadByte (s : State) (o : Agent) (off : Nat) : Moves init s (s.loadByte o off).2 := by
  unfold State.loadByte State.drawByte
  split
  · exact .refl
  · dsimp only
    split
    · exact Moves.pick s _
    · exact (Moves.pick s _).trans (Moves.freeByte _)

theorem Moves.observe (s : State) (o : Agent) (x : Observer) (hx : (s.obs o).Advances s.newest x) : Moves init s (s.setObs o x) :=
  .single (.observe s o x hx)

/-- A lagging position is no step back. -/
theorem State.lagPos_advances (s : State) (o : Agent) (c : CellSel) (h : (s.obs o).pos c ≤ (s.cell c).newest) :
    (s.obs o).pos c ≤ (s.lagPos o c).1 ∧ (s.lagPos o c).1 ≤ (s.cell c).newest :=
  ⟨(s.lagPos_spec o c h).1, s.lagPos_le o c⟩

theorem Moves.ldaq (s : State) (o : Agent) (c : CellSel) : Moves init s (s.ldaq o c).2 := by
  obtain ⟨cs, n, h⟩ := s.lagPos_frame o c
  have hj := s.lagPos_advances o c
  simp only [State.ldaq, h]
  exact (Moves.draws s cs n).trans (Moves.observe _ _ _ (.move _ (Seen.le_join _ _) hj))

theorem Moves.readNow (s : State) (o : Agent) (c : CellSel) : Moves init s (s.readNow o c) :=
  Moves.observe _ _ _ (.move _ (Seen.le_join _ _) fun h => ⟨h, Nat.le_refl _⟩)

theorem Moves.readParking (s : State) (o : Agent) (c : CellSel) : Moves init s (s.readParking o c) :=
  Moves.observe _ _ _ (.view _ (Seen.le_join _ _))

/-- The value a load returns is the one at the position it leaves. -/
theorem State.ldaq_value (s : State) {o : Agent} (ho : s.hasPort o = true) (hh : o ≠ .host) (c : CellSel) :
    (s.ldaq o c).1 = (s.cell c).valueAt (((s.ldaq o c).2.obs o).pos c) := by
  obtain ⟨cs, n, h⟩ := s.lagPos_frame o c
  have hp : (s.lagPos o c).2.hasPort o = true := by rw [h]; exact ho
  simp only [State.ldaq]
  rw [State.obs_setObs hp hh]
  simp

/-! ### Leaving a parked set, and wakes -/

/-- An agent un-parks: it leaves the set, then it observes. -/
theorem State.unpark_eq (s : State) (o : Agent) (p : Park) :
    ∃ cs n x, ((s.dequeue o p.cell).obs o).Advances (s.dequeue o p.cell).newest x ∧
      s.unpark o p = ({ s.dequeue o p.cell with choices := cs, draws := n } : State).setObs o x := by
  obtain ⟨cs, n, h⟩ := (s.dequeue o p.cell).lagPos_frame o p.cell
  let x := (s.dequeue o p.cell).obs o
  refine ⟨cs, n, (x.setPos p.cell ((s.dequeue o p.cell).lagPos o p.cell).1).setView
      { x.view with seen := x.view.seen.join (p.woken.getD {}) },
    .move x (Seen.le_join _ _) ((s.dequeue o p.cell).lagPos_advances o p.cell), ?_⟩
  unfold State.unpark
  simp only [h]
  cases o <;> rfl

theorem State.setWq_wq (s : State) (c : CellSel) : s.setWq c (s.wq c) = s := by cases c <;> rfl

/-- What a wake does: it releases some members of the set and takes them out. -/
theorem State.wakeOne_eq (s : State) (o : Agent) (c : CellSel) :
    ∃ (cs : List Nat) (n : Nat) (v : Seen) (q : List Agent), (∀ a ∈ q, a ∈ s.wq c) ∧ s.wakeOne o c =
      (q.foldl (State.release v) { s with choices := cs, draws := n }).setWq c ((s.wq c).filter fun a => !q.contains a) := by
  by_cases h : s.wq c = []
  · refine ⟨s.choices, s.draws, {}, [], by simp, ?_⟩
    rw [State.wakeOne_nil h]
    simpa using (s.setWq_wq c).symm
  · obtain ⟨who, hm, cs, n, e⟩ := State.wakeOne_spec h o
    refine ⟨cs, n, (s.obs o).view.seen, [who], by simpa using hm, e.trans ?_⟩
    have hf : (fun a => !([who] : List Agent).contains a) = (· != who) := by
      funext a; simp [bne, beq_eq_decide]
    rw [hf]
    cases c <;> cases who <;> rfl

theorem State.wakeAll_eq (s : State) (o : Agent) (c : CellSel) :
    s.wakeAll o c = ((s.wq c).foldl (State.release (s.obs o).view.seen) s).setWq c
      ((s.wq c).filter fun a => !(s.wq c).contains a) := by
  have hf : (s.wq c).filter (fun a => !(s.wq c).contains a) = [] := by
    rw [List.filter_eq_nil_iff]; intro a ha; simp [ha]
  rw [hf]; rfl

theorem Moves.wakeOne (s : State) (o : Agent) (c : CellSel) : Moves init s (s.wakeOne o c) := by
  obtain ⟨cs, n, v, q, hq, e⟩ := s.wakeOne_eq o c
  have hw : ({ s with choices := cs, draws := n } : State).wq c = s.wq c := by cases c <;> rfl
  rw [e, ← hw]
  exact (Moves.draws s cs n).tail (.sleep <| .wake _ c v q (by rwa [hw]))

theorem Moves.wakeAll (s : State) (o : Agent) (c : CellSel) : Moves init s (s.wakeAll o c) := by
  rw [State.wakeAll_eq]
  exact .single (.sleep <| .wake s c _ _ fun _ h => h)

theorem Moves.wakeOwn (s : State) (o : Agent) (c : CellSel) : Moves init s (s.wakeOwn o c) := by
  unfold State.wakeOwn
  split
  · exact Moves.wakeOne s o c
  · exact Moves.wakeAll s o c

/-- A phase is that of before, or that one released by a wake. -/
def Phase.Woken (p p' : Phase) : Prop := p' = p ∨ ∃ v, p' = p.wakeUp v

theorem State.releaseAll_writer (v : Seen) (q : List Agent) (s : State) :
    s.w.ph.Woken (q.foldl (State.release v) s).w.ph := by
  obtain ⟨hw, hk, -⟩ := State.releaseAll_spec v q s
  by_cases h : Agent.writer ∈ q
  · exact .inr ⟨v, hw _ h⟩
  · exact .inl (hk _ h)

theorem State.releaseAll_reader (v : Seen) (q : List Agent) (s : State) (i : Nat) :
    (s.rd i).ph.Woken ((q.foldl (State.release v) s).rd i).ph := by
  obtain ⟨hw, hk, -⟩ := State.releaseAll_spec v q s
  by_cases h : Agent.reader i ∈ q
  · exact .inr ⟨v, hw _ h⟩
  · exact .inl (hk _ h)

theorem Phase.Woken.busy {p : Phase} {t : Task} (h : (Phase.busy t).Woken p) : p = .busy t := by
  rcases h with rfl | ⟨v, rfl⟩ <;> rfl

/-- The wake of a trigger leaves every phase, but for a release by it. -/
theorem State.wakeOwn_phases (s : State) (o : Agent) (c : CellSel) :
    s.w.ph.Woken (s.wakeOwn o c).w.ph ∧ ∀ i, (s.rd i).ph.Woken ((s.wakeOwn o c).rd i).ph := by
  unfold State.wakeOwn
  split
  · obtain ⟨cs, n, v, q, -, e⟩ := s.wakeOne_eq o c
    rw [e]
    exact ⟨by simpa using State.releaseAll_writer v q { s with choices := cs, draws := n },
      fun i => by simpa [State.rd] using State.releaseAll_reader v q { s with choices := cs, draws := n } i⟩
  · rw [State.wakeAll_eq]
    exact ⟨by simpa using State.releaseAll_writer _ _ s,
      fun i => by simpa [State.rd] using State.releaseAll_reader _ _ s i⟩

end
end Sys2Proof.Machine
end

