-- ==== Sys2Proof/Proofs/State/WriterSteps.lean ====
section
/-! PROOF. The writer's atomic steps as chains of atomic changes. -/

namespace Sys2Proof.Machine

open Sys2Proof

section
variable {init : Prop}

/-- Nothing is about to be released before the load. -/
theorem Phase.pending_of_load {t : Task} (h : t.point = .load) : (Phase.busy t).pending = 0 := by
  simp [Phase.pending, h]

/-- A copy keeps the batch that the release will publish. -/
theorem Phase.pending_afterCopy (t : Task) (left : List Nat) :
    (Phase.busy { t with point := afterCopy left }).pending = t.grant := by
  unfold afterCopy
  split <;> rfl

theorem Phase.pending_of_copy {t : Task} {left : List Nat} (h : t.point = .copy left) : (Phase.busy t).pending = t.grant := by
  simp [Phase.pending, h]

theorem Moves.writer {s : State} {w : Writer} (h : s.w.Adjusts s.cfg.cap w) : Moves init s { s with w := w } :=
  .single (.writer s w h)

/-- A writer that goes over to another phase. -/
theorem Writer.Adjusts.phase {n : Nat} {w : Writer} {ph : Phase} (ha : w.ph.isActive = true) (ha' : ph.isActive = true)
    (ho : w.ph.outWf → ph.outWf) (hp : w.ph.pending ≤ w.obt.toNat → ph.pending ≤ w.obt.toNat) :
    w.Adjusts n { w with ph := ph } :=
  ⟨rfl, rfl, rfl, ha, ha', ho, Nat.le_refl _, id, hp⟩

theorem Moves.endWriter {s : State} (h : s.w.ph.isActive = true) (r : Response) : Moves init s (s.endWriter r) :=
  (Moves.writer (.phase (ph := .idle) h rfl (fun _ => trivial) fun _ => Nat.zero_le _)).trans (Moves.answer _ _ _)

/-- The writer's operation goes on at a task that has produced the same bytes. -/
theorem Moves.goWriter {s : State} {t t' : Task} (h : s.w.ph = .busy t) (ho : t'.dout = t.dout)
    (hp : (Phase.busy t).pending ≤ s.w.obt.toNat → (Phase.busy t').pending ≤ s.w.obt.toNat) : Moves init s (s.goWriter t') :=
  Moves.writer (.phase (by rw [h]; rfl) rfl (by rw [h]; simp only [Phase.outWf, ho]; exact id) (by rwa [h]))

theorem State.writerRoom_lt {s : State} {g : Nat} (h : s.writerRoom g) : g < 2 ^ 32 := by
  unfold State.writerRoom at h
  split at h
  · obtain ⟨fill, -, hg⟩ := h
    have := s.w.eff.isLt
    omega
  · have := s.cfg.n.isLt
    unfold CfgRegs.cap at h
    omega

theorem Moves.grantWriter {s : State} {t : Task} (hp : s.w.ph = .busy t) (ht : t.point = .load) {g : Nat}
    (hg : s.writerRoom g) : Moves init s (s.grantWriter t g) := by
  have hgn : (BitVec.ofNat 32 g).toNat = g := by
    rw [BitVec.toNat_ofNat, Nat.mod_eq_of_lt (State.writerRoom_lt hg)]
  refine Relation.ReflTransGen.head (.flow <| .grantWriter s t g hp ht hg) ?_
  unfold State.grantWriter
  generalize hs : ({ s with w := { s.w with obt := BitVec.ofNat 32 g } } : State) = s1
  have hp1 : s1.w.ph = .busy t := by rw [← hs]; exact hp
  have ho1 : s1.w.obt.toNat = g := by rw [← hs]; exact hgn
  obtain ⟨k, cs, n, -, hf⟩ := s1.fragments_spec s1.w.lr g
  have hd := Moves.draws (init := init) s1 cs n
  have ha : s1.w.ph.isActive = true := by rw [hp1]; rfl
  simp only [hf]
  cases t.op with
  | transfer =>
    dsimp only
    split
    · exact Moves.endWriter ha _
    · exact hd.trans (Moves.goWriter hp1 rfl fun _ => ho1.ge)
  | obtain => exact hd.trans (Moves.endWriter (s := { s1 with choices := cs, draws := n }) ha _)
  | release => exact hd.trans (Moves.endWriter (s := { s1 with choices := cs, draws := n }) ha _)

theorem Moves.loadWriter {s : State} {t : Task} (hp : s.w.ph = .busy t) (ht : t.point = .load) :
    Moves init s (s.loadWriter t) := by
  unfold State.loadWriter
  by_cases hthr : s.cfg.thr = true
  · rw [if_pos hthr]
    have hv : (s.ldaq .writer .front).1 = _ := s.ldaq_value (o := .writer) rfl (by decide) .front
    have hcfg := State.ldaq_cfg s .writer .front
    have hlr := State.ldaq_w_lr s .writer .front
    have heff := State.ldaq_w_eff s .writer .front
    have hp1 := (State.ldaq_w_ph s .writer .front).trans hp
    have hf : s.cell .front = (s.ldaq .writer .front).2.front := (State.ldaq_front s .writer .front).symm
    refine (Moves.ldaq s .writer .front).trans ?_
    rw [hf] at hv
    dsimp only
    generalize (s.ldaq .writer .front).1 = v at *
    generalize (s.ldaq .writer .front).2 = s1 at *
    rw [← hcfg, ← hlr, ← heff]
    split
    · rename_i fill hd
      split
      · exact Moves.goWriter hp1 rfl fun _ => Nat.zero_le _
      · refine Moves.grantWriter hp1 ht ?_
        rw [State.writerRoom, if_pos (hcfg ▸ hthr)]
        exact ⟨fill, hv ▸ hd, Nat.min_le_right _ _⟩
    · exact Moves.endWriter (by rw [hp1]; rfl) _
  · rw [if_neg hthr]
    refine Moves.grantWriter hp ht ?_
    rw [State.writerRoom, if_neg hthr]
    exact Nat.min_le_right _ _

theorem Moves.waitWriter {s : State} {t : Task} {e : Word} (hp : s.w.ph = .busy t) (ht : t.point = .wait e) :
    Moves init s (s.waitWriter t e) := by
  unfold State.waitWriter
  split
  · refine (Moves.readNow s .writer .front).trans (Moves.goWriter (t := t) ?_ rfl fun _ => Nat.zero_le _)
    rw [State.readNow_w_ph, hp]
  · refine (Moves.readParking s .writer .front).tail ?_
    exact .sleep <| .parkWriter (s.readParking .writer .front) t e (ticks t.tmo) (by rw [State.readParking_w_ph, hp]) ht

/-- The store of one byte of a copy leaves the writer's phase. -/
theorem Moves.copyByteWriter (s : State) (t : Task) (j : Nat) :
    Moves init s (s.copyByteWriter t j) ∧ (s.copyByteWriter t j).w.ph = s.w.ph := by
  have hb : ∀ p : Byte × State, Moves init s p.2 → p.2.w = s.w →
      let q := if t.byteOff j < s.cfg.bytes then p.2.storeByte .writer (t.byteOff j) p.1 else p.2
      Moves init s q ∧ q.w.ph = s.w.ph := by
    intro p hm hw
    dsimp only
    split
    · exact ⟨hm.tail (.storeByte _ _ _ _ (.inl rfl)), by simp [hw]⟩
    · exact ⟨hm, by rw [hw]⟩
  unfold State.copyByteWriter
  split
  · exact hb (_, s) .refl rfl
  · exact hb _ (Moves.freeByte s) (State.freeByte_w s)

theorem Moves.copyWriter {s : State} {t : Task} {left : List Nat} (hp : s.w.ph = .busy t) (ht : t.point = .copy left) :
    Moves init s (s.copyWriter t left) := by
  unfold State.copyWriter
  refine (Moves.pick s left.length).trans ?_
  have hp1 : (s.pick left.length).2.w.ph = .busy t := by rw [State.pick_w, hp]
  dsimp only
  split
  · rename_i j _
    obtain ⟨hm, hph⟩ := Moves.copyByteWriter (init := init) (s.pick left.length).2 t j
    refine hm.trans (Moves.goWriter (hph.trans hp1) rfl ?_)
    rw [Phase.pending_afterCopy, Phase.pending_of_copy ht]; exact id
  · refine Moves.goWriter hp1 rfl ?_
    rw [Phase.pending_of_copy ht]; exact id

/-- The end of a release does not look at the phase. -/
theorem State.releasedWriter_goWriter (s : State) (t t' : Task) (failed : Bool) :
    (s.goWriter t').releasedWriter t failed = s.releasedWriter t failed := by
  unfold State.releasedWriter
  cases t.op <;> rfl

theorem Moves.releasedWriter {s : State} {t t' : Task} (hp : s.w.ph = .busy t') (ho : t.dout = t'.dout) (failed : Bool) :
    Moves init s (s.releasedWriter t failed) := by
  have ha : s.w.ph.isActive = true := by rw [hp]; rfl
  unfold State.releasedWriter
  cases t.op with
  | transfer =>
    have hk : ∀ ph : Phase, ph.isActive = true → ph.pending = 0 → (s.w.ph.outWf → ph.outWf) →
        Moves init s { s with w := { s.w with obt := 0, ph := ph } } := fun ph h1 h2 h3 =>
      Moves.writer ⟨rfl, rfl, rfl, ha, h1, h3, Nat.zero_le _,
        fun ⟨e1, e2, e3, e4, e5⟩ => ⟨e1, e2, e3, e4, Nat.zero_le _⟩, fun _ => h2.le⟩
    dsimp only
    split
    · exact (hk .idle rfl rfl fun _ => trivial).trans (Moves.answer _ _ _)
    · exact hk _ rfl rfl (by rw [hp]; simp only [Phase.outWf, ho]; exact id)
  | obtain => exact Moves.endWriter ha _
  | release => exact Moves.endWriter ha _

theorem Moves.publishWriter {s : State} {t : Task} (hp : s.w.ph = .busy t) (ht : t.point = .publish) :
    Moves init s (s.publishWriter t) := by
  unfold State.publishWriter
  split
  · exact Moves.releasedWriter hp rfl true
  · rename_i nr hs
    generalize hs1 : ({ s with w := { s.w with lr := nr, obt := s.w.obt - BitVec.ofNat 32 t.grant } } : State).strl
      .writer .rear nr = s1
    have hm : Moves init s (s1.goWriter { t with point := .fresh }) := by
      refine (Relation.ReflTransGen.single (.flow <| .publishWriter s t ⟨nr, s.w.obs.view.seen⟩ hp ht hs)).trans ?_
      rw [← hs1]
      exact Moves.observe _ .writer (s.w.obs.setView s.w.obs.view.fenceRel) (.view _ ⟨Nat.le_refl _, Nat.le_refl _⟩)
    dsimp only
    split
    · exact hm
    · rw [← State.releasedWriter_goWriter s1 t { t with point := .fresh } false]
      exact hm.trans (Moves.releasedWriter (t' := { t with point := .fresh }) rfl rfl _)

theorem Moves.armWriter {s : State} (h : s.w.ph.isActive = true) (fill : Nat) : Moves init s (s.armWriter fill) :=
  Moves.writer ⟨rfl, rfl, rfl, h, h, id, Nat.le_refl _, id, id⟩

theorem Moves.freshWriter {s : State} {t : Task} (hp : s.w.ph = .busy t) : Moves init s (s.freshWriter t) := by
  unfold State.freshWriter
  refine (Moves.ldaq s .writer .front).trans ?_
  have hp1 := (State.ldaq_w_ph s .writer .front).trans hp
  dsimp only
  split
  · split
    · exact Moves.goWriter hp1 rfl fun _ => Nat.zero_le _
    · refine (Moves.armWriter (by rw [hp1]; rfl) _).trans (Moves.releasedWriter (t' := t) ?_ rfl _)
      exact hp1
  · exact Moves.releasedWriter hp1 rfl _

theorem Moves.wakeWriter {s : State} {t : Task} (hp : s.w.ph = .busy t) (fill : Nat) :
    Moves init s (s.wakeWriter t fill) := by
  have hp1 : (s.wakeOwn .writer .rear).w.ph = .busy t := (hp ▸ (s.wakeOwn_phases .writer .rear).1).busy
  unfold State.wakeWriter
  refine (Moves.wakeOwn s .writer .rear).trans ((Moves.armWriter (by rw [hp1]; rfl) fill).trans
    (Moves.releasedWriter (t' := t) ?_ rfl _))
  exact hp1

/-- Every atomic step of the writer is a chain of atomic changes. -/
theorem Moves.stepWriter (s : State) : Moves init s s.stepWriter := by
  unfold State.stepWriter
  split
  · rename_i t hp
    split
    · exact Moves.loadWriter hp ‹_›
    · exact Moves.waitWriter hp ‹_›
    · exact Moves.copyWriter hp ‹_›
    · exact Moves.publishWriter hp ‹_›
    · exact Moves.freshWriter hp
    · exact Moves.wakeWriter hp _
    · exact .refl
  · exact .refl

theorem Moves.runWriter (n : Nat) (s : State) : Moves init s (s.runWriter n) :=
  State.runWriter_keeps (I := Moves init s) (fun u _ h => h.trans (Moves.stepWriter u)) n s .refl

theorem Moves.unparkWriter {s : State} {t : Task} {p : Park} (hp : s.w.ph = .parked t p) (c : Cause) :
    Moves init s (s.unparkWriter t p c) := by
  obtain ⟨cs, n, x, hx, e⟩ := s.unpark_eq .writer p
  refine (Relation.ReflTransGen.single (.sleep <| .unparkWriter s t p (s.w.exp || p.timedOut c) hp)).trans
    ((Moves.draws _ cs n).trans ?_)
  unfold State.unparkWriter
  rw [e]
  obtain ⟨cell, expected, timer, woken⟩ := p
  cases cell <;> exact Moves.observe _ .writer x hx

end
end Sys2Proof.Machine
end

