-- ==== Sys2Proof/Proofs/State/ReaderSteps.lean ====
section
/-! PROOF. A reader's atomic steps as chains of atomic changes. -/

namespace Sys2Proof.Machine

open Sys2Proof

section
variable {init : Prop}

@[simp] theorem State.setRd_setRd (s : State) (i : Nat) (r r' : Reader) : (s.setRd i r).setRd i r' = s.setRd i r' := by
  simp [State.setRd]

theorem Moves.reader {s : State} {i : Nat} {r : Reader} (h : (s.rd i).Adjusts s.cfg.cap r) : Moves init s (s.setRd i r) :=
  .single (.reader s i r h)

/-- A reader that goes over to another phase. -/
theorem Reader.Adjusts.phase {n : Nat} {r : Reader} {ph : Phase} (ha : r.ph.isActive = true) (ha' : ph.isActive = true)
    (hc : r.ph.resyncing = false) (hc' : ph.resyncing = false) (ho : r.ph.outWf → ph.outWf)
    (hp : r.ph.pending ≤ r.obt.toNat → ph.pending ≤ r.obt.toNat) : r.Adjusts n { r with ph := ph } :=
  ⟨rfl, rfl, rfl, rfl, ha, ha', hc, hc', ho, Nat.le_refl _, id, hp⟩

theorem Moves.endReader {s : State} {i : Nat} (h : (s.rd i).ph.isActive = true) (hc : (s.rd i).ph.resyncing = false)
    (r : Response) : Moves init s (s.endReader i r) :=
  (Moves.reader (.phase (ph := .idle) h rfl hc rfl (fun _ => trivial) fun _ => Nat.zero_le _)).trans (Moves.answer _ _ _)

/-- Reader `i`'s operation goes on at another task. -/
theorem Moves.goReader {s : State} {i : Nat} {t t' : Task} (h : (s.rd i).ph = .busy t)
    (hc : (Phase.busy t).resyncing = false) (hc' : (Phase.busy t').resyncing = false)
    (ho : t.dout.wf → t'.dout.wf)
    (hp : (Phase.busy t).pending ≤ (s.rd i).obt.toNat → (Phase.busy t').pending ≤ (s.rd i).obt.toNat) :
    Moves init s (s.goReader i t') :=
  Moves.reader (.phase (by rw [h]; rfl) rfl (by rw [h]; exact hc) hc' (by rw [h]; exact ho) (by rwa [h]))

/-- Only the publication of a resynchronised front makes a busy phase one of a resynchronisation. -/
theorem Phase.resyncing_of_point {t : Task} (h : ∀ lost, t.point ≠ .resync lost) : (Phase.busy t).resyncing = false := by
  cases hp : t.point with
  | resync lost => exact absurd hp (h lost)
  | _ => simp [Phase.resyncing, hp]

theorem Moves.grantReader {s : State} {i : Nat} {t : Task} (hp : (s.rd i).ph = .busy t) (ht : t.point = .load)
    {g fill : Nat} (hd : s.cfg.diff (s.rear.valueAt (s.rd i).obs.posRear) (s.rd i).lf true = .ok fill) (hg : g ≤ fill) :
    Moves init s (s.grantReader i t g) := by
  have hi := State.lt_of_busy hp
  have hgn : (BitVec.ofNat 32 g).toNat = g := by
    have h1 := CfgRegs.diff_ok_le hd
    have h2 : s.cfg.cap < 2 ^ 32 := s.cfg.n.isLt
    rw [BitVec.toNat_ofNat, Nat.mod_eq_of_lt (by omega)]
  refine Relation.ReflTransGen.head (.flow <| .grantReader s i t g fill hp ht hd hg) ?_
  unfold State.grantReader
  dsimp only
  generalize hs : s.setRd i { s.rd i with obt := BitVec.ofNat 32 g } = s1
  have hp1 : (s1.rd i).ph = .busy t := by rw [← hs, State.rd_setRd_same hi]; exact hp
  have ho1 : (s1.rd i).obt.toNat = g := by rw [← hs, State.rd_setRd_same hi]; exact hgn
  have hc : (Phase.busy t).resyncing = false := Phase.resyncing_of_point (by simp [ht])
  have ha1 : (s1.rd i).ph.isActive = true := by rw [hp1]; rfl
  have hc1 : (s1.rd i).ph.resyncing = false := by rw [hp1]; exact hc
  cases t.op with
  | transfer =>
    dsimp only
    split
    · exact Moves.endReader ha1 hc1 _
    · exact Moves.goReader hp1 hc rfl id fun _ => ho1.ge
  | obtain => exact Moves.endReader ha1 hc1 _
  | release => exact Moves.endReader ha1 hc1 _

theorem Moves.loadReader {s : State} {i : Nat} {t : Task} (hp : (s.rd i).ph = .busy t) (ht : t.point = .load) :
    Moves init s (s.loadReader i t) := by
  have hi := State.lt_of_busy hp
  have hv : (s.ldaq (.reader i) .rear).1 = _ :=
    s.ldaq_value (o := .reader i) (by simpa [State.hasPort] using hi) (by simp) .rear
  have hcfg := State.ldaq_cfg s (.reader i) .rear
  have hp1 := (State.ldaq_rd_ph s (.reader i) .rear i).trans hp
  have hf : s.cell .rear = (s.ldaq (.reader i) .rear).2.rear := (State.ldaq_rear s (.reader i) .rear).symm
  unfold State.loadReader
  refine (Moves.ldaq s (.reader i) .rear).trans ?_
  rw [hf] at hv
  dsimp only
  generalize (s.ldaq (.reader i) .rear).1 = v at *
  generalize (s.ldaq (.reader i) .rear).2 = s1 at *
  have hc : (Phase.busy t).resyncing = false := Phase.resyncing_of_point (by simp [ht])
  have hc1 : (s1.rd i).ph.resyncing = false := by rw [hp1]; exact hc
  have hi1 := State.lt_of_busy hp1
  rw [← hcfg]
  split
  · exact Moves.endReader (by rw [hp1]; rfl) hc1 _
  · rename_i lost hd
    rw [hv] at hd ⊢
    refine Relation.ReflTransGen.head (.flow <| .lapReader s1 i t lost hp1 ht hd) ?_
    split
    · rename_i hthr
      rw [State.goReader, State.rd_setRd_same hi1, State.setRd_setRd]
      exact .refl
    · rename_i hthr
      rw [← hp1]
      exact Moves.endReader (by rw [State.rd_setRd_same hi1, hp1]; rfl) (by rw [State.rd_setRd_same hi1]; exact hc1) _
  · rename_i fill hd
    split
    · exact Moves.goReader hp1 hc rfl id fun _ => Nat.zero_le _
    · exact Moves.grantReader hp1 ht (hv ▸ hd) (Nat.min_le_right _ _)

/-- A reader observes, at any registers of its own. -/
theorem Moves.observeReader {s : State} {i : Nat} (hi : i < s.readers.length) {r : Reader} {x : Observer}
    (hx : r.obs.Advances s.newest x) : Moves init (s.setRd i r) (s.setRd i { r with obs := x }) := by
  have hr := State.rd_setRd_same hi r
  have h := Moves.observe (init := init) (s.setRd i r) (.reader i) x (by rw [State.obs, hr]; exact hx)
  rwa [State.setObs, hr, State.setRd_setRd] at h

/-- A release fence changes what the next store hands over, and nothing that the observer knows. -/
theorem Observer.Advances.fenceRel (k : CellSel → Nat) (x : Observer) : x.Advances k (x.setView x.view.fenceRel) :=
  .view x ⟨Nat.le_refl _, Nat.le_refl _⟩

/-- A store of `FRONT` by a reader whose phase is replaced. -/
theorem State.strl_front_setRd {s : State} {i : Nat} (hi : i < s.readers.length) (v : Word) (ph : Phase) :
    (s.strl (.reader i) .front v).setRd i { (s.strl (.reader i) .front v).rd i with ph := ph } =
      ({ s with front := s.front.push ⟨v, (s.rd i).obs.view.seen⟩ } : State).setRd i
        { s.rd i with ph := ph, obs := (s.rd i).obs.setView (s.rd i).obs.view.fenceRel } := by
  have h1 : (s.strl (.reader i) .front v).rd i =
      { s.rd i with obs := (s.rd i).obs.setView (s.rd i).obs.view.fenceRel } := by
    unfold State.strl
    rw [State.rd_congr (State.setCell_readers _ _ _)]
    exact State.rd_setRd_same hi _
  rw [h1]
  simp [State.strl, State.setObs, State.setCell, State.setRd, State.obs, State.cell, View.fenceRel]

theorem Moves.resyncReader {s : State} {i : Nat} {t : Task} {lost : Nat} (hp : (s.rd i).ph = .busy t)
    (ht : t.point = .resync lost) : Moves init s (s.resyncReader i t lost) := by
  have hi := State.lt_of_busy hp
  unfold State.resyncReader State.failReader State.endReader
  rw [State.strl_front_setRd hi]
  refine Relation.ReflTransGen.head (.flow <| .resyncReader s i t lost ⟨(s.rd i).lf, (s.rd i).obs.view.seen⟩ hp ht rfl)
    ((Moves.observeReader ?_ (.fenceRel _ _)).trans (Moves.answer _ _ _))
  exact hi

theorem Moves.waitReader {s : State} {i : Nat} {t : Task} {e : Word} (hp : (s.rd i).ph = .busy t)
    (ht : t.point = .wait e) : Moves init s (s.waitReader i t e) := by
  unfold State.waitReader
  split
  · refine (Moves.readNow s (.reader i) .rear).trans (Moves.goReader (t := t) ?_ ?_ rfl id fun _ => Nat.zero_le _)
    · rw [State.readNow_rd_ph, hp]
    · exact Phase.resyncing_of_point (by simp [ht])
  · refine (Moves.readParking s (.reader i) .rear).tail ?_
    exact .sleep <| .parkReader (s.readParking (.reader i) .rear) i t e (ticks t.tmo) (by rw [State.readParking_rd_ph, hp]) ht

theorem Phase.resyncing_afterCopy (t : Task) (left : List Nat) (m : Memory) :
    (Phase.busy { t with dout := m, point := afterCopy left }).resyncing = false := by
  unfold afterCopy
  split <;> rfl

theorem Moves.copyReader {s : State} {i : Nat} {t : Task} {left : List Nat} (hp : (s.rd i).ph = .busy t)
    (ht : t.point = .copy left) : Moves init s (s.copyReader i t left) := by
  have hc : (Phase.busy t).resyncing = false := Phase.resyncing_of_point (by simp [ht])
  unfold State.copyReader
  refine (Moves.pick s left.length).trans ?_
  have hp1 : ((s.pick left.length).2.rd i).ph = .busy t := by rw [State.rd_congr (State.pick_readers _ _), hp]
  dsimp only
  split
  · rename_i j _
    refine (Moves.loadByte _ (.reader i) (t.byteOff j)).trans (Moves.goReader (t := t) ?_ hc ?_ ?_ ?_)
    · rw [State.rd_congr (State.loadByte_readers _ _ _), hp1]
    · exact Phase.resyncing_afterCopy _ _ _
    · exact fun h => Memory.put_wf h _ _
    · rw [Phase.pending_of_copy ht]
      exact fun h => (Phase.pending_afterCopy { t with dout := _ } _).trans_le h
  · refine Moves.goReader hp1 hc rfl id ?_
    rw [Phase.pending_of_copy ht]; exact id

/-- The end of a release does not look at the phase. -/
theorem State.releasedReader_goReader {s : State} {i : Nat} (hi : i < s.readers.length) (t t' : Task) (failed : Bool) :
    (s.goReader i t').releasedReader i t failed = s.releasedReader i t failed := by
  unfold State.releasedReader State.goReader State.endReader
  have h1 : ∀ r : Reader, (s.setRd i r).rd i = r := fun r => State.rd_setRd_same hi r
  cases t.op <;> simp [h1]

theorem Moves.releasedReader {s : State} {i : Nat} {t t' : Task} (hp : (s.rd i).ph = .busy t')
    (hc : (Phase.busy t').resyncing = false) (ho : t'.dout = t.dout) (failed : Bool) :
    Moves init s (s.releasedReader i t failed) := by
  have hi := State.lt_of_busy hp
  have ha : (s.rd i).ph.isActive = true := by rw [hp]; rfl
  have hc1 : (s.rd i).ph.resyncing = false := by rw [hp]; exact hc
  unfold State.releasedReader
  cases t.op with
  | transfer =>
    have hk : ∀ (lost : Word) (ph : Phase), ph.isActive = true → ph.resyncing = false → ph.pending = 0 →
        ((s.rd i).ph.outWf → ph.outWf) →
        Moves init s (s.setRd i { s.rd i with obt := 0, lost := lost, ph := ph }) := fun lost ph h1 h2 h3 h4 =>
      Moves.reader ⟨rfl, rfl, rfl, rfl, ha, h1, hc1, h2, h4, Nat.zero_le _,
        fun ⟨e1, e2, e3⟩ => ⟨e1, e2, Nat.zero_le _⟩, fun _ => h3.le⟩
    have h1 : ∀ r : Reader, (s.setRd i r).rd i = r := fun r => State.rd_setRd_same hi r
    simp only [State.endReader, State.goReader, State.setRd_setRd, h1]
    split
    · exact (hk _ .idle rfl rfl rfl fun _ => trivial).trans (Moves.answer _ _ _)
    · exact hk _ _ rfl rfl rfl (by rw [hp]; simp only [Phase.outWf, ho]; exact id)
  | obtain => exact Moves.endReader ha hc1 _
  | release => exact Moves.endReader ha hc1 _

theorem Moves.publishReader {s : State} {i : Nat} {t : Task} (hp : (s.rd i).ph = .busy t) (ht : t.point = .publish) :
    Moves init s (s.publishReader i t) := by
  have hi := State.lt_of_busy hp
  unfold State.publishReader
  dsimp only
  split
  · exact Moves.releasedReader hp (Phase.resyncing_of_point (by simp [ht])) rfl true
  · rename_i nf hs
    generalize hr : ({ s.rd i with lf := nf, obt := (s.rd i).obt - BitVec.ofNat 32 t.grant } : Reader) = r
    refine Relation.ReflTransGen.head
      (.flow <| .publishReader s i t ⟨nf, (s.rd i).obs.view.seen⟩ hp ht hs) ?_
    have hi1 : i < (s.setRd i r).readers.length := by simpa using hi
    have hr1 : (s.setRd i r).rd i = r := State.rd_setRd_same hi r
    have hgo : (s.setRd i r).goReader i { t with point := .fresh } =
        s.setRd i { r with ph := .busy { t with point := .fresh } } := by
      rw [State.goReader, hr1, State.setRd_setRd]
    split
    · have e := State.strl_front_setRd hi1 nf (.busy { t with point := .fresh })
      rw [hr1] at e
      rw [State.goReader, e]
      have e2 : ∀ r2 : Reader, ({ s.setRd i r with front := (s.setRd i r).front.push ⟨nf, r.obs.view.seen⟩ } : State).setRd i
          r2 = ({ s with front := s.front.push ⟨nf, r.obs.view.seen⟩ } : State).setRd i r2 := fun r2 => by
        simp [State.setRd]
      rw [e2]
      subst hr
      refine Moves.observeReader ?_ (.fenceRel _ _)
      exact hi
    · rw [← State.releasedReader_goReader hi1 t { t with point := .fresh } false, hgo]
      subst hr
      exact Moves.releasedReader (t' := { t with point := .fresh }) (by rw [State.rd_setRd_same hi]) rfl rfl _

theorem Moves.armReader {s : State} {i : Nat} (h : (s.rd i).ph.isActive = true) (hc : (s.rd i).ph.resyncing = false)
    (fill : Nat) : Moves init s (s.armReader i fill) :=
  Moves.reader ⟨rfl, rfl, rfl, rfl, h, h, hc, hc, id, Nat.le_refl _, id, id⟩

/-- The trigger's end: the armed flag is set, and the release is over. -/
theorem Moves.armedReader {s : State} {i : Nat} {t : Task} (hp : (s.rd i).ph = .busy t)
    (hc : (Phase.busy t).resyncing = false) (fill : Nat) :
    Moves init s ((s.armReader i fill).releasedReader i t false) := by
  have hi := State.lt_of_busy hp
  refine (Moves.armReader (by rw [hp]; rfl) (by rw [hp]; exact hc) fill).trans (Moves.releasedReader (t' := t) ?_ hc rfl _)
  unfold State.armReader
  dsimp only
  rw [State.rd_setRd_same hi]
  exact hp

theorem Moves.freshReader {s : State} {i : Nat} {t : Task} (hp : (s.rd i).ph = .busy t) (ht : t.point = .fresh) :
    Moves init s (s.freshReader i t) := by
  have hc : (Phase.busy t).resyncing = false := Phase.resyncing_of_point (by simp [ht])
  unfold State.freshReader
  refine (Moves.ldaq s (.reader i) .rear).trans ?_
  have hp1 := (State.ldaq_rd_ph s (.reader i) .rear i).trans hp
  dsimp only
  split
  · exact Moves.releasedReader hp1 hc rfl _
  · exact Moves.releasedReader hp1 hc rfl _
  · split
    · exact Moves.goReader hp1 hc rfl id fun _ => Nat.zero_le _
    · exact Moves.armedReader hp1 hc _

theorem Moves.wakeReader {s : State} {i : Nat} {t : Task} {fill : Nat} (hp : (s.rd i).ph = .busy t)
    (ht : t.point = .wake fill) : Moves init s (s.wakeReader i t fill) := by
  have hp1 : ((s.wakeOwn (.reader i) .front).rd i).ph = .busy t :=
    (hp ▸ (s.wakeOwn_phases (.reader i) .front).2 i).busy
  unfold State.wakeReader
  exact (Moves.wakeOwn s (.reader i) .front).trans
    (Moves.armedReader hp1 (Phase.resyncing_of_point (by simp [ht])) fill)

/-- Every atomic step of a reader is a chain of atomic changes. -/
theorem Moves.stepReader (i : Nat) (s : State) : Moves init s (s.stepReader i) := by
  unfold State.stepReader
  split
  · rename_i t hp
    split
    · exact Moves.loadReader hp ‹_›
    · exact Moves.waitReader hp ‹_›
    · exact Moves.resyncReader hp ‹_›
    · exact Moves.copyReader hp ‹_›
    · exact Moves.publishReader hp ‹_›
    · exact Moves.freshReader hp ‹_›
    · exact Moves.wakeReader hp ‹_›
  · exact .refl

theorem Moves.runReader (i n : Nat) (s : State) : Moves init s (s.runReader i n) :=
  State.runReader_keeps (I := Moves init s) i (fun u _ h => h.trans (Moves.stepReader i u)) n s .refl

theorem State.dequeue_setRd (s : State) (o : Agent) (c : CellSel) (i : Nat) (r : Reader) :
    (s.setRd i r).dequeue o c = (s.dequeue o c).setRd i r := by cases c <;> rfl

theorem Moves.unparkReader {s : State} {i : Nat} {t : Task} {p : Park} (hp : (s.rd i).ph = .parked t p) (c : Cause) :
    Moves init s (s.unparkReader i t p c) := by
  have hi := State.lt_of_parked hp
  obtain ⟨cs, n, x, hx, e⟩ := s.unpark_eq (.reader i) p
  refine (Relation.ReflTransGen.single (.sleep <| .unparkReader s i t p ((s.rd i).exp || p.timedOut c) hp)).trans
    ((Moves.draws _ cs n).trans ?_)
  unfold State.unparkReader
  rw [e, State.dequeue_setRd]
  rw [State.obs, State.rd_congr (State.dequeue_readers s _ _)] at hx
  generalize hs1 : ({ s.dequeue (.reader i) p.cell with choices := cs, draws := n } : State) = s1
  have hn : (s.dequeue (.reader i) p.cell).newest = s1.newest := by subst hs1; rfl
  have hi1 : i < s1.readers.length := by subst hs1; simpa using hi
  have hr : s1.rd i = s.rd i := by subst hs1; exact State.rd_congr (State.dequeue_readers s _ _) i
  rw [hn] at hx
  simp only [State.setObs]
  rw [hr, State.rd_setRd_same hi1, State.setRd_setRd]
  subst hs1
  exact Moves.observeReader hi1 hx

end
end Sys2Proof.Machine
end

