-- ==== Sys2Proof/Proofs/State/Commands.lean ====
section
/-! PROOF. Every command, and so every step of the machine, is a chain of atomic changes. -/

namespace Sys2Proof.Machine

open Sys2Proof

section
variable {init : Prop}

/-- A command is refused, or its effect runs from a state in which its port is ready and its conditions hold. -/
theorem Moves.command {s s' : State} {legal : Bool} {f : State → State} (h : s.command legal f = .next s')
    (hf : s.ready s.beat.port = true → legal = true → Moves init s (f s)) : Moves init s s' := by
  obtain ⟨hr, ⟨-, rfl⟩ | ⟨hl, rfl⟩⟩ := State.command_next h
  · exact Moves.answer s _ _
  · exact hf hr hl

/-! ### The foreign peer -/

/-- The peer's port belongs to a foreign peer, and accepts no command while it is parked. -/
theorem State.peerMay_foreign {s : State} {c : CellSel} (hp : s.hasPort s.beat.port = true) (h : s.peerMay c = true) :
    s.beat.port = .peer ∧ s.par.foreign = true := by
  obtain ⟨hb, -, -⟩ := (s.peerMay_iff c).mp h
  rw [hb] at hp
  exact ⟨hb, hp⟩

theorem Moves.strlPeer {s : State} (hf : s.par.foreign = true) (c : CellSel) (v : Word) :
    Moves init s (s.strl .peer c v) := by
  unfold State.strl
  rw [← State.cell_setObs s .peer (s.peer.obs.setView s.peer.obs.view.fenceRel) c]
  exact (Moves.observe s .peer _ (.fenceRel _ _)).tail (.flow <| .storePeer _ c _ (by simpa using hf))

theorem Moves.cas {s : State} (hf : s.par.foreign = true) (c : CellSel) (e d : Word) : Moves init s (s.cas c e d) := by
  unfold State.cas
  refine (Moves.readNow s .peer c).trans ?_
  dsimp only
  split
  · refine (Moves.strlPeer (by simpa using hf) c d).trans ((Moves.observe _ .peer _ ?_).trans (Moves.reply _ _))
    have e : ∀ (x : Observer) (j : Nat), x.setPos c j = (x.setPos c j).setView x.view := fun x j => by cases c <;> rfl
    rw [e]
    exact .move _ ⟨Nat.le_refl _, Nat.le_refl _⟩ fun h => ⟨h, Nat.le_refl _⟩
  · exact Moves.reply _ _

theorem Moves.waitPeer {s : State} (hw : s.peer.wait = none) (c : CellSel) (e : Word) (tmo : Timeout) :
    Moves init s (s.waitPeer c e tmo) := by
  unfold State.waitPeer
  split
  · exact Moves.reply _ _
  · split
    · exact (Moves.readNow s .peer c).trans (Moves.reply _ _)
    · refine (Moves.readParking s .peer c).tail ?_
      have h := SleepMove.parkPeer (s.readParking .peer c) c e (ticks tmo) hw
      cases c <;> exact .sleep h

theorem Moves.unparkPeer {s : State} {p : Park} (hp : s.peer.wait = some p) (c : Cause) :
    Moves init s (s.unparkPeer p c) := by
  obtain ⟨cs, n, x, hx, e⟩ := s.unpark_eq .peer p
  refine (Relation.ReflTransGen.single (.sleep <| .unparkPeer s p hp)).trans ((Moves.draws _ cs n).trans ?_)
  unfold State.unparkPeer
  rw [e]
  refine Relation.ReflTransGen.trans ?_ (Moves.answer _ _ _)
  obtain ⟨cell, expected, timer, woken⟩ := p
  cases cell <;> exact Moves.observe _ .peer x hx

/-! ### The endpoints' commands -/

/-- What `writerMay` says of a port that is ready. -/
theorem State.writerMay_idle {s : State} (hr : s.ready s.beat.port = true) (h : s.writerMay = true) : s.w.ph = .idle := by
  obtain ⟨hb, -, hd⟩ := s.writerMay_iff.mp h
  rw [hb] at hr
  exact Phase.idle_of_accepts hr hd

theorem State.readerMay_idle {s : State} {i : Nat} (hr : s.ready s.beat.port = true) (h : s.readerMay i = true) :
    (s.rd i).ph = .idle ∧ i < s.readers.length := by
  obtain ⟨hb, -, hi, hd⟩ := (s.readerMay_iff i).mp h
  rw [hb] at hr
  exact ⟨Phase.idle_of_accepts hr hd, hi⟩

/-- An idle writer begins an operation that has produced no bytes, with at most the batch it has. -/
theorem Moves.startWriter {s : State} (hp : s.w.ph = .idle) {t : Task} (ho : t.dout = []) {obt : Word}
    (hb : obt.toNat ≤ s.w.obt.toNat) (hk : (Phase.busy t).pending ≤ obt.toNat) :
    Moves init s (({ s with w := { s.w with obt := obt } } : State).startWriter t) := by
  unfold State.startWriter
  refine (Moves.writer (w := { s.w with obt := obt, exp := false, ph := .busy t }) ?_).trans (Moves.runWriter _ _)
  refine ⟨rfl, rfl, rfl, by rw [hp]; rfl, rfl, fun _ => ?_, hb, ?_, fun _ => hk⟩
  · show t.dout.wf
    rw [ho]; exact List.Pairwise.nil
  · exact fun ⟨e1, e2, e3, e4, e5⟩ => ⟨e1, e2, e3, e4, Nat.le_trans hb e5⟩

theorem Moves.quickWriter {s : State} {f : Writer → Writer}
    (hf : s.w.Adjusts s.cfg.cap { f s.w with exp := false, ph := .idle }) : Moves init s (s.quickWriter f) :=
  (Moves.writer hf).trans (Moves.answer _ _ _)

/-- A change of the levels of an idle writer. -/
theorem Writer.Adjusts.levels' {n : Nat} {w : Writer} (hp : w.ph = .idle) {eff lla hlt : Word}
    (h : w.levels n → 1 ≤ eff.toNat ∧ eff.toNat ≤ n ∧ lla.toNat ≤ hlt.toNat ∧ hlt.toNat ≤ n) :
    w.Adjusts n { w with eff := eff, lla := lla, hlt := hlt, exp := false, ph := .idle } := by
  refine ⟨rfl, rfl, rfl, by rw [hp]; rfl, rfl, fun _ => trivial, Nat.le_refl _, fun hl => ?_, fun _ => Nat.zero_le _⟩
  obtain ⟨h1, h2, h3, h4⟩ := h hl
  obtain ⟨-, -, -, -, h5⟩ := hl
  exact ⟨h1, h2, h3, h4, h5⟩

theorem Moves.attachWriter {s : State} (ha : s.w.att = false) (hp : s.w.ph.accepts = true) :
    Moves init s (({ (s.ldaq .writer .rear).2 with w := { (s.ldaq .writer .rear).2.w with
      lr := (s.ldaq .writer .rear).1, obt := 0, att := true, exp := false } } : State).endWriter {}) := by
  have hv : (s.ldaq .writer .rear).1 = _ := s.ldaq_value (o := .writer) rfl (by decide) .rear
  have hf : s.cell .rear = (s.ldaq .writer .rear).2.rear := (State.ldaq_rear s .writer .rear).symm
  have hm := FlowMove.attachWriter (init := init) (s.ldaq .writer .rear).2 (by simpa using ha) (by simpa using hp)
  rw [hf] at hv
  rw [hv]
  exact (Moves.ldaq s .writer .rear).trans ((Relation.ReflTransGen.single (.flow hm)).trans (Moves.answer _ _ _))

theorem Moves.attachReader {s : State} {i : Nat} {thr : Bool} (h : s.mayAttach i thr = true)
    (hp : (s.rd i).ph.accepts = true) :
    let l := s.ldaq (.reader i) (if thr then .front else .rear)
    Moves init s ((l.2.setRd i { l.2.rd i with
      lf := l.1, thr := thr, obt := 0, lost := 0, att := true, exp := false }).endReader i {}) := by
  simp only [State.mayAttach, Bool.and_eq_true, decide_eq_true_eq, Bool.not_eq_true'] at h
  obtain ⟨⟨⟨⟨-, -⟩, hi⟩, ha⟩, ht⟩ := h
  generalize hc : (if thr then CellSel.front else CellSel.rear) = c
  have hv : (s.ldaq (.reader i) c).1 = _ := s.ldaq_value (o := .reader i) (by simpa [State.hasPort] using hi) (by simp) c
  have hf : s.cell c = (s.ldaq (.reader i) c).2.cell c := (State.cell_congr (by simp) (by simp) c).symm
  have hi1 : i < (s.ldaq (.reader i) c).2.readers.length := by simpa using hi
  have hm := FlowMove.attachReader (init := init) (s.ldaq (.reader i) c).2 i thr (by simpa using ha) hi1 (by simpa using hp)
    (fun e => by
      subst e
      simp only [Bool.not_true, Bool.false_or, Bool.and_eq_true] at ht
      simpa [State.noOtherThrottles] using ht)
  refine (Moves.ldaq s (.reader i) c).trans ?_
  rw [State.endReader, State.rd_setRd_same hi1, State.setRd_setRd, hv, hf]
  have hl : ((s.ldaq (.reader i) c).2.cell c).valueAt (((s.ldaq (.reader i) c).2.obs (.reader i)).pos c) =
      if thr then (s.ldaq (.reader i) c).2.front.valueAt ((s.ldaq (.reader i) c).2.rd i).obs.posFront
      else (s.ldaq (.reader i) c).2.rear.valueAt ((s.ldaq (.reader i) c).2.rd i).obs.posRear := by
    cases thr <;> subst hc <;> rfl
  rw [hl]
  exact (Relation.ReflTransGen.single (.flow hm)).trans (Moves.answer _ _ _)

theorem State.setRd_rd (s : State) (i : Nat) : s.setRd i (s.rd i) = s := by
  by_cases hi : i < s.readers.length
  · rw [State.setRd, State.rd_eq_getElem hi, List.set_getElem_self]
  · exact State.setRd_of_not_lt hi _

/-- An idle reader begins an operation that has produced no bytes, with at most the batch it has. -/
theorem Moves.startReader {s : State} {i : Nat} (hi : i < s.readers.length) (hp : (s.rd i).ph = .idle) {t : Task}
    (ho : t.dout = []) (hc : (Phase.busy t).resyncing = false) {obt lost : Word}
    (hb : obt.toNat ≤ (s.rd i).obt.toNat) (hk : (Phase.busy t).pending ≤ obt.toNat) :
    Moves init s ((s.setRd i { s.rd i with obt := obt, lost := lost }).startReader i t) := by
  unfold State.startReader
  rw [State.rd_setRd_same hi, State.setRd_setRd]
  refine (Moves.reader (r := { s.rd i with obt := obt, lost := lost, exp := false, ph := .busy t }) ?_).trans
    (Moves.runReader _ _ _)
  refine ⟨rfl, rfl, rfl, rfl, by rw [hp]; rfl, rfl, by rw [hp]; rfl, hc, fun _ => ?_, hb, ?_, fun _ => hk⟩
  · show t.dout.wf
    rw [ho]; exact List.Pairwise.nil
  · exact fun ⟨e1, e2, e3⟩ => ⟨e1, e2, Nat.le_trans hb e3⟩

/-- A change of the levels of an idle reader. -/
theorem Moves.quickReader {s : State} {i : Nat} (hi : i < s.readers.length) (hp : (s.rd i).ph = .idle)
    {f : Reader → Reader} {llt hla : Word} (he : f (s.rd i) = { s.rd i with llt := llt, hla := hla })
    (hf : (s.rd i).levels s.cfg.cap → llt.toNat ≤ hla.toNat ∧ hla.toNat ≤ s.cfg.cap) :
    Moves init s (s.quickReader i f) := by
  unfold State.quickReader State.endReader
  rw [he, State.rd_setRd_same hi, State.setRd_setRd]
  refine (Moves.reader (r := { s.rd i with llt := llt, hla := hla, exp := false, ph := .idle }) ⟨rfl, rfl, rfl, rfl,
    by rw [hp]; rfl, rfl, by rw [hp]; rfl, rfl, fun _ => trivial, Nat.le_refl _, fun hl => ?_,
    fun _ => Nat.zero_le _⟩).trans (Moves.answer _ _ _)
  obtain ⟨h1, h2⟩ := hf hl
  exact ⟨h1, h2, hl.2.2⟩

/-- A fence that forgets nothing is an observation. -/
theorem Moves.fence (s : State) {f : View → View}
    (hf : ∀ v : View, v.seen.writer ≤ (f v).seen.writer ∧ v.seen.peer ≤ (f v).seen.peer) : Moves init s (s.fence f) :=
  Moves.observe _ _ _ (.view _ (hf _))

/-- Every command is a chain of atomic changes. -/
theorem Moves.exec {s s' : State} {i : Instr} (hini : ∀ c, i = .idxInit c → init) (hp : s.hasPort s.beat.port = true)
    (h : exec i s = .next s') : Moves init s s' := by
  cases i with dsimp only [Machine.exec] at h
  | idxInit c =>
    exact Moves.command h fun _ _ => (Relation.ReflTransGen.single (.flow <| .initCell s c (hini c rfl))).trans (Moves.reply _ _)
  | idxLdaq c => exact Moves.command h fun _ _ => (Moves.ldaq s .peer c).trans (Moves.reply _ _)
  | idxStrl c v =>
    exact Moves.command h fun _ hl => (Moves.strlPeer (State.peerMay_foreign hp hl).2 c v).trans (Moves.reply _ _)
  | idxCas c e d => exact Moves.command h fun _ hl => Moves.cas (State.peerMay_foreign hp hl).2 c e d
  | idxWait c e tmo =>
    refine Moves.command h fun hr hl => Moves.waitPeer ?_ c e tmo
    rw [(State.peerMay_foreign hp hl).1] at hr
    exact Option.isNone_iff_eq_none.mp hr
  | idxWake1 c => exact Moves.command h fun _ _ => (Moves.wakeOne s .peer c).trans (Moves.reply _ _)
  | idxWakeall c => exact Moves.command h fun _ _ => (Moves.wakeAll s .peer c).trans (Moves.reply _ _)
  | baseNp2 n => exact Moves.command h fun _ _ => Moves.reply _ _
  | baseSlot x => exact Moves.command h fun _ _ => Moves.reply _ _
  | baseSum x k => exact Moves.command h fun _ _ => Moves.reply _ _
  | baseDiff r f rdr lv => exact Moves.command h fun _ _ => Moves.reply _ _
  | baseBack x => exact Moves.command h fun _ _ => Moves.reply _ _
  | fifoInit n size thr ext =>
    exact Moves.command h fun _ hl =>
      (Relation.ReflTransGen.single (.flow <| .construct s n size thr ext hl)).trans (Moves.reply _ _)
  | csrRd sel => exact Moves.command h fun _ _ => Moves.reply _ _
  | wAttach =>
    refine Moves.command h fun hr hl => ?_
    simp only [Bool.and_eq_true, decide_eq_true_eq, Bool.not_eq_true'] at hl
    obtain ⟨⟨hb, -⟩, ha⟩ := hl
    rw [hb] at hr
    exact Moves.attachWriter ha hr
  | wObtain n tmo =>
    exact Moves.command h fun hr hl => Moves.startWriter (State.writerMay_idle hr hl) rfl (Nat.zero_le _) (Nat.zero_le _)
  | wRelease k =>
    refine Moves.command h fun hr hl => ?_
    obtain ⟨hm, hk⟩ := Bool.and_eq_true_iff.mp hl
    exact Moves.startWriter (State.writerMay_idle hr hm) rfl (Nat.le_refl _) (of_decide_eq_true hk)
  | wWrite n tmo =>
    exact Moves.command h fun hr hl => Moves.startWriter (State.writerMay_idle hr hl) rfl (Nat.zero_le _) (Nat.zero_le _)
  | wSethlt l =>
    refine Moves.command h fun hr hl => Moves.quickWriter
      (.levels' (State.writerMay_idle hr hl) fun ⟨h1, h2, h3, h4, _⟩ => ⟨h1, h2, ?_, ?_⟩)
    · rw [wmin_toNat]; exact Nat.min_le_right _ _
    · rw [wmin_toNat]; exact Nat.min_le_right _ _
  | wSetlla l =>
    refine Moves.command h fun hr hl => Moves.quickWriter
      (.levels' (State.writerMay_idle hr hl) fun ⟨h1, h2, h3, h4, _⟩ => ⟨h1, h2, ?_, h4⟩)
    rw [wmin_toNat]; exact Nat.min_le_right _ _
  | wSeteff e =>
    refine Moves.command h fun hr hl => Moves.quickWriter
      (.levels' (State.writerMay_idle hr hl) fun ⟨h1, h2, h3, h4, _⟩ => ⟨?_, ?_, h3, h4⟩)
    · rw [wmax_toNat]; exact Nat.le_max_left _ _
    · rw [wmax_toNat, wmin_toNat]
      exact Nat.max_le.mpr ⟨Nat.le_trans h1 h2, Nat.min_le_right _ _⟩
  | rAttach sel thr =>
    refine Moves.command h fun hr hl => Moves.attachReader hl ?_
    simp only [State.mayAttach, Bool.and_eq_true, decide_eq_true_eq] at hl
    obtain ⟨⟨⟨⟨hb, -⟩, -⟩, -⟩, -⟩ := hl
    rw [hb] at hr
    exact hr
  | rObtain sel n tmo lv =>
    refine Moves.command h fun hr hl => ?_
    obtain ⟨hi, hlt⟩ := State.readerMay_idle hr hl
    exact Moves.startReader hlt hi rfl rfl (Nat.zero_le _) (Nat.zero_le _)
  | rRelease sel k =>
    refine Moves.command h fun hr hl => ?_
    obtain ⟨hm, hk⟩ := Bool.and_eq_true_iff.mp hl
    obtain ⟨hi, hlt⟩ := State.readerMay_idle hr hm
    have e : s.setRd sel.toNat { s.rd sel.toNat with obt := (s.rd sel.toNat).obt, lost := (s.rd sel.toNat).lost } = s :=
      s.setRd_rd sel.toNat
    have h1 := Moves.startReader (init := init) hlt hi
      (t := { op := .release, count := k, tmo := none, grant := k.toNat, point := .publish }) rfl rfl
      (lost := (s.rd sel.toNat).lost) (Nat.le_refl _) (of_decide_eq_true hk)
    rwa [e] at h1
  | rRead sel n tmo lv =>
    refine Moves.command h fun hr hl => ?_
    obtain ⟨hi, hlt⟩ := State.readerMay_idle hr hl
    exact Moves.startReader hlt hi rfl rfl (Nat.zero_le _) (Nat.zero_le _)
  | rSetllt sel l =>
    refine Moves.command h fun hr hl => ?_
    obtain ⟨hi, hlt⟩ := State.readerMay_idle hr hl
    refine Moves.quickReader hlt hi rfl fun ⟨h1, h2, _⟩ => ⟨?_, ?_⟩
    · rw [wmax_toNat]; exact Nat.le_max_right _ _
    · rw [wmax_toNat, wmin_toNat]
      exact Nat.max_le.mpr ⟨h2, Nat.min_le_right _ _⟩
  | rSethla sel l =>
    refine Moves.command h fun hr hl => ?_
    obtain ⟨hi, hlt⟩ := State.readerMay_idle hr hl
    refine Moves.quickReader (llt := (s.rd sel.toNat).llt) hlt hi rfl fun ⟨h1, h2, _⟩ => ⟨?_, ?_⟩
    · rw [wmax_toNat]; exact Nat.le_max_right _ _
    · rw [wmax_toNat, wmin_toNat]
      exact Nat.max_le.mpr ⟨Nat.min_le_right _ _, Nat.le_trans h1 h2⟩
  | xgEnc v => exact Moves.command h fun _ _ => Moves.reply _ _
  | xgDec g => exact Moves.command h fun _ _ => Moves.reply _ _
  | bufLdb off => exact Moves.command h fun _ _ => (Moves.loadByte s _ _).trans (Moves.reply _ _)
  | bufStb off v =>
    refine Moves.command h fun _ hl => (Relation.ReflTransGen.single (.storeByte s _ _ v ?_)).trans (Moves.reply _ _)
    simp only [State.mayStoreByte, Bool.and_eq_true, Bool.or_eq_true, decide_eq_true_eq] at hl
    exact hl.1.1.1
  | fenceAcq => exact Moves.command h fun _ _ => (Moves.fence s fun v => Seen.le_join _ _).trans (Moves.reply _ _)
  | fenceRel =>
    exact Moves.command h fun _ _ =>
      (Moves.fence s (f := View.fenceRel) fun v => ⟨Nat.le_refl _, Nat.le_refl _⟩).trans (Moves.reply _ _)

end

/-! ### Invariants by atomic changes -/

theorem Moves.keeps {init : Prop} {I : State → Prop} (hm : ∀ {s t}, Move init s t → I s → I t) {s t : State}
    (h : Moves init s t) (hs : I s) : I t := by
  induction h with
  | refl => exact hs
  | tail _ h ih => exact hm h ih

/-- An invariant that every atomic change keeps is kept by every step. -/
theorem step_keeps_of_moves {init : Prop} {I : State → Prop}
    (hini : ∀ (s : State) (c : Command) (x : CellSel), I s → c ∈ s.inbox → decode c.cmd.cw c.cmd.a c.cmd.b = .ok (.idxInit x) →
      init)
    (hm : ∀ {s t}, Move init s t → I s → I t) {s s' : State} (hs : I s) (h : step s = .next s') : I s' := by
  refine step_keeps (I := I) (ok := fun i => ∀ c, i = .idxInit c → init) ?_ hs h
  exact {
    env := fun s q cs n => hm (.environment s s.beat s.inbox s.out q cs n fun _ h => h)
    beat := fun s b rest hr => hm (.environment s b rest s.out s.sched s.choices s.draws hr)
    answer := fun s o r => Moves.keeps hm (Moves.answer s o r)
    allowed := fun s c i hi hc hd x e => hini s c x hi hc (e ▸ hd)
    stepWriter := fun s _ => Moves.keeps hm (Moves.stepWriter s)
    stepReader := fun s i _ => Moves.keeps hm (Moves.stepReader i s)
    unparkWriter := fun s t p c hp => Moves.keeps hm (Moves.unparkWriter hp c)
    unparkReader := fun s i t p c hp => Moves.keeps hm (Moves.unparkReader hp c)
    unparkPeer := fun s p c hp => Moves.keeps hm (Moves.unparkPeer hp c)
    exec := fun s s' i hok hp hi he => Moves.keeps hm (Moves.exec hok hp he) hi }

end Sys2Proof.Machine
end

