-- ==== Sys2Proof/Proofs/State/Quiet.lean ====
section
/-! PROOF. What a change that touches no cell, no local index and no batch leaves: most changes are of this kind, so an
invariant about indices has to look at the others only. -/

namespace Sys2Proof.Machine

open Sys2Proof

/-- The writer's levels, its batch and what it is about to release of it stay within `n` frames. -/
def Writer.Bounded (n : Nat) (w : Writer) : Prop := w.levels n ∧ w.ph.pending ≤ w.obt.toNat

/-- The same for a reader. -/
def Reader.Bounded (n : Nat) (r : Reader) : Prop := r.levels n ∧ r.ph.pending ≤ r.obt.toNat

/-- The positions of an observer that lay in the histories have not gone back, and still do. -/
def Observer.Forward (newest : CellSel → Nat) (x y : Observer) : Prop :=
  ∀ c, x.pos c ≤ newest c → x.pos c ≤ y.pos c ∧ y.pos c ≤ newest c

/-- The writer's index and attachment are those of before, and its batch is no larger. -/
structure Writer.Quiet (n : Nat) (newest : CellSel → Nat) (w w' : Writer) : Prop where
  lr : w'.lr = w.lr
  att : w'.att = w.att
  detached : w'.ph.isDetached = w.ph.isDetached
  obt : w'.obt.toNat ≤ w.obt.toNat
  bounded : w.Bounded n → w'.Bounded n
  out : w.ph.outWf → w'.ph.outWf
  obs : w.obs.Forward newest w'.obs

/-- A reader's index, attachment and duty to publish are those of before, and its batch is no larger. -/
structure Reader.Quiet (n : Nat) (newest : CellSel → Nat) (r r' : Reader) : Prop where
  lf : r'.lf = r.lf
  thr : r'.thr = r.thr
  att : r'.att = r.att
  detached : r'.ph.isDetached = r.ph.isDetached
  resyncing : r'.ph.resyncing = r.ph.resyncing
  obt : r'.obt.toNat ≤ r.obt.toNat
  bounded : r.Bounded n → r'.Bounded n
  out : r.ph.outWf → r'.ph.outWf
  obs : r.obs.Forward newest r'.obs

/-- No cell, no local index and no attachment differs, and no batch has grown. -/
structure State.Quiet (s t : State) : Prop where
  par : t.par = s.par
  cfg : t.cfg = s.cfg
  rear : t.rear = s.rear
  front : t.front = s.front
  inbox : ∀ d ∈ t.inbox, d ∈ s.inbox
  writer : s.w.Quiet s.cfg.cap s.newest t.w
  peer : s.peer.obs.Forward s.newest t.peer.obs
  length : t.readers.length = s.readers.length
  reader : ∀ i, (s.rd i).Quiet s.cfg.cap s.newest (t.rd i)

/-! ### One endpoint -/

theorem Observer.Forward.refl (k : CellSel → Nat) (x : Observer) : x.Forward k x := fun _ h => ⟨Nat.le_refl _, h⟩

theorem Observer.Advances.forward {k : CellSel → Nat} {x y : Observer} (h : x.Advances k y) : x.Forward k y := h.pos

theorem Writer.Quiet.refl (n : Nat) (k : CellSel → Nat) (w : Writer) : w.Quiet n k w :=
  ⟨rfl, rfl, rfl, Nat.le_refl _, id, id, .refl k _⟩

theorem Reader.Quiet.refl (n : Nat) (k : CellSel → Nat) (r : Reader) : r.Quiet n k r :=
  ⟨rfl, rfl, rfl, rfl, rfl, Nat.le_refl _, id, id, .refl k _⟩

theorem Writer.Quiet.observe {n : Nat} {k : CellSel → Nat} {w : Writer} {x : Observer} (h : w.obs.Forward k x) :
    w.Quiet n k { w with obs := x } :=
  ⟨rfl, rfl, rfl, Nat.le_refl _, id, id, h⟩

theorem Reader.Quiet.observe {n : Nat} {k : CellSel → Nat} {r : Reader} {x : Observer} (h : r.obs.Forward k x) :
    r.Quiet n k { r with obs := x } :=
  ⟨rfl, rfl, rfl, rfl, rfl, Nat.le_refl _, id, id, h⟩

theorem Phase.isDetached_of_isActive {p : Phase} (h : p.isActive = true) : p.isDetached = false := by
  cases p <;> first | rfl | cases h

theorem Writer.Adjusts.quiet {n : Nat} {w w' : Writer} (h : w.Adjusts n w') (k : CellSel → Nat) : w.Quiet n k w' where
  lr := h.lr
  att := h.att
  detached := by rw [Phase.isDetached_of_isActive h.active, Phase.isDetached_of_isActive h.active']
  obt := h.obt
  bounded := fun hb => ⟨h.levels hb.1, h.pending hb.2⟩
  out := h.out
  obs := by rw [h.obs]; exact .refl k _

theorem Reader.Adjusts.quiet {n : Nat} {r r' : Reader} (h : r.Adjusts n r') (k : CellSel → Nat) : r.Quiet n k r' where
  lf := h.lf
  thr := h.thr
  att := h.att
  detached := by rw [Phase.isDetached_of_isActive h.active, Phase.isDetached_of_isActive h.active']
  resyncing := by rw [h.calm, h.calm']
  obt := h.obt
  bounded := fun hb => ⟨h.levels hb.1, h.pending hb.2⟩
  out := h.out
  obs := by rw [h.obs]; exact .refl k _

/-- Two phases that no rule about indices tells apart. -/
structure Phase.Alike (p q : Phase) : Prop where
  detached : q.isDetached = p.isDetached
  resyncing : q.resyncing = p.resyncing
  pending : q.pending ≤ p.pending
  out : p.outWf → q.outWf

theorem Phase.Woken.alike {p q : Phase} (h : p.Woken q) : p.Alike q := by
  obtain rfl | ⟨v, rfl⟩ := h
  · exact ⟨rfl, rfl, Nat.le_refl _, id⟩
  · cases p <;> exact ⟨rfl, rfl, Nat.le_refl _, id⟩

theorem Writer.Quiet.phase {n : Nat} {k : CellSel → Nat} {w : Writer} {ph : Phase} (h : w.ph.Alike ph) (exp : Bool) :
    w.Quiet n k { w with ph := ph, exp := exp } :=
  ⟨rfl, rfl, h.detached, Nat.le_refl _, fun hb => ⟨hb.1, Nat.le_trans h.pending hb.2⟩, h.out, .refl k _⟩

theorem Reader.Quiet.phase {n : Nat} {k : CellSel → Nat} {r : Reader} {ph : Phase} (h : r.ph.Alike ph) (exp : Bool) :
    r.Quiet n k { r with ph := ph, exp := exp } :=
  ⟨rfl, rfl, rfl, h.detached, h.resyncing, Nat.le_refl _, fun hb => ⟨hb.1, Nat.le_trans h.pending hb.2⟩, h.out, .refl k _⟩

/-! ### The whole state -/

theorem State.Quiet.refl (s : State) : s.Quiet s :=
  ⟨rfl, rfl, rfl, rfl, fun _ h => h, .refl _ _ _, .refl _ _, rfl, fun _ => .refl _ _ _⟩

theorem State.Quiet.setWq {s t : State} (h : s.Quiet t) (c : CellSel) (q : List Agent) : s.Quiet (t.setWq c q) := by
  cases c <;> exact ⟨h.par, h.cfg, h.rear, h.front, h.inbox, h.writer, h.peer, h.length, h.reader⟩

theorem State.Quiet.setW {s : State} {w : Writer} (h : s.w.Quiet s.cfg.cap s.newest w) : s.Quiet { s with w := w } :=
  { State.Quiet.refl s with writer := h }

theorem State.Quiet.setRd {s : State} {i : Nat} {r : Reader} (h : (s.rd i).Quiet s.cfg.cap s.newest r) :
    s.Quiet (s.setRd i r) := by
  refine { State.Quiet.refl s with length := State.setRd_length s i r, reader := fun j => ?_ }
  rw [State.rd_setRd]
  split
  · rename_i hij; rw [← hij.1]; exact h
  · exact .refl _ _ _

theorem State.Quiet.setWait (s : State) (p : Option Park) : s.Quiet { s with peer := { s.peer with wait := p } } :=
  { State.Quiet.refl s with }

theorem State.Quiet.setObs {s : State} {o : Agent} {x : Observer} (h : (s.obs o).Forward s.newest x) :
    s.Quiet (s.setObs o x) := by
  cases o with
  | host => exact .refl s
  | writer => exact .setW (.observe h)
  | reader i => exact .setRd (.observe h)
  | peer => exact { State.Quiet.refl s with peer := h }

theorem State.Quiet.storeByte (s : State) (o : Agent) (off : Nat) (b : Byte) : s.Quiet (s.storeByte o off b) := by
  have h : s.Quiet (s.setObs o ((s.obs o).setView
      { (s.obs o).view with seen := (s.obs o).view.seen.bump (o == .peer) })) :=
    .setObs fun c hc => by simp [hc]
  exact ⟨h.par, h.cfg, h.rear, h.front, h.inbox, h.writer, h.peer, h.length, h.reader⟩

/-- A wake only marks phases, and the peer's wait. -/
theorem State.Quiet.releaseAll (v : Seen) (q : List Agent) (s : State) : s.Quiet (q.foldl (State.release v) s) := by
  obtain ⟨-, -, hr⟩ := State.releaseAll_spec v q s
  have hw := State.releaseAll_writer v q s
  have hrd := State.releaseAll_reader v q s
  obtain ⟨ph, rs, wait, hl, e⟩ := State.releaseAll_form v q s
  have hx : ∀ i, (s.rd i).Quiet s.cfg.cap s.newest ((q.foldl (State.release v) s).rd i) := fun i => by
    have e1 : (q.foldl (State.release v) s).rd i =
        { s.rd i with ph := ((q.foldl (State.release v) s).rd i).ph } := by
      rw [← hr i]
    rw [e1]
    exact .phase (hrd i).alike _
  rw [e] at hw hx ⊢
  exact ⟨rfl, rfl, rfl, rfl, fun _ h => h, .phase hw.alike _, .refl _ _, hl, hx⟩

theorem SleepMove.quiet {s t : State} (h : SleepMove s t) : s.Quiet t := by
  cases h with
  | parkWriter t e timer hp ht =>
    refine (State.Quiet.setW (.phase (ph := .parked t _) ?_ _)).setWq _ _
    rw [hp]; exact ⟨rfl, (Phase.resyncing_of_point (by simp [ht])).symm, Nat.zero_le _, id⟩
  | unparkWriter t p exp hp =>
    refine (State.Quiet.setW (.phase (ph := .busy _) ?_ _)).setWq _ _
    rw [hp]; exact ⟨rfl, rfl, Nat.zero_le _, id⟩
  | parkReader i t e timer hp ht =>
    refine (State.Quiet.setRd (.phase (ph := .parked t _) ?_ _)).setWq _ _
    rw [hp]; exact ⟨rfl, (Phase.resyncing_of_point (by simp [ht])).symm, Nat.zero_le _, id⟩
  | unparkReader i t p exp hp =>
    refine (State.Quiet.setRd (.phase (ph := .busy _) ?_ _)).setWq _ _
    rw [hp]; exact ⟨rfl, rfl, Nat.zero_le _, id⟩
  | wake c v q hq => exact (State.Quiet.releaseAll v q s).setWq _ _
  | parkPeer c e timer hw => exact (State.Quiet.setWait s _).setWq _ _
  | unparkPeer p hp => exact (State.Quiet.setWait s _).setWq _ _

/-- A change is quiet, or it is one of a cell, an index, a batch or the configuration. -/
theorem Move.quiet_or_flow {init : Prop} {s t : State} (h : Move init s t) : s.Quiet t ∨ FlowMove init s t := by
  cases h with
  | environment b rest out q cs n hr => exact .inl { State.Quiet.refl s with inbox := hr }
  | observe o x hx => exact .inl (.setObs hx.forward)
  | storeByte o off b ho => exact .inl (.storeByte s o off b)
  | writer w hw => exact .inl (.setW (hw.quiet _))
  | reader i r hr => exact .inl (.setRd (hr.quiet _))
  | sleep h => exact .inl h.quiet
  | flow h => exact .inr h

end Sys2Proof.Machine
end

