-- ==== Sys2Proof/Proofs/State/Levels.lean ====
section
/-! PROOF. The levels, the batches and the attachments of the endpoints: 10_state R37, R45, R46, R55 (5), (6). -/

open Sys2Proof Sys2Proof.Machine

namespace Sys2Proof.Machine

/-! ### What a change says of every reader -/

/-- A property of every reader, after one of them was replaced. -/
theorem State.forall_setRd {s : State} {P : Reader → Prop} (h : ∀ r ∈ s.readers, P r) {i : Nat} {r : Reader} (hr : P r) :
    ∀ r' ∈ (s.setRd i r).readers, P r' := fun r' hr' => by
  rcases List.mem_or_eq_of_mem_set hr' with hm | rfl
  · exact h r' hm
  · exact hr

/-- A reader that is busy is one of the readers. -/
theorem State.rd_mem {s : State} {i : Nat} {t : Task} (h : (s.rd i).ph = .busy t) : s.rd i ∈ s.readers := by
  rw [State.rd_eq_getElem (State.lt_of_busy h)]; exact List.getElem_mem _

theorem State.Quiet.forall_readers {s t : State} (h : s.Quiet t) {P Q : Reader → Prop}
    (hP : ∀ r r' : Reader, r.Quiet s.cfg.cap s.newest r' → P r → Q r') (hs : ∀ r ∈ s.readers, P r) :
    ∀ r ∈ t.readers, Q r := by
  rw [State.forall_readers] at hs ⊢
  exact fun i hi => hP _ _ (h.reader i) (hs i (h.length ▸ hi))

/-- The readers after `IDX.INIT`. -/
theorem State.mem_restartPos {s : State} {c : CellSel} {r : Reader} (h : r ∈ (s.restartPos c).readers) :
    ∃ r0 ∈ s.readers, r = { r0 with obs := r0.obs.setPos c 0 } := by
  obtain ⟨r0, h0, rfl⟩ := List.mem_map.mp h
  exact ⟨r0, h0, rfl⟩

theorem State.rd_restartPos (s : State) (c : CellSel) (k : Nat) :
    (s.restartPos c).rd k = { s.rd k with obs := (s.rd k).obs.setPos c 0 } := by
  simp only [State.rd, State.restartPos, List.getElem?_map]
  cases s.readers[k]? with
  | none => cases c <;> rfl
  | some r => rfl

/-- The readers after `FIFO.INIT`. -/
theorem State.mem_constructed {s : State} {n size : Word} {thr ext : Bool} {r : Reader}
    (h : r ∈ (s.constructed n size thr ext).readers) :
    ∃ r0 ∈ s.readers, r = { r0.constructed s.par n with obs := (r0.obs.setPos .rear 0).setPos .front 0 } := by
  obtain ⟨r1, h1, rfl⟩ := State.mem_restartPos h
  obtain ⟨r2, h2, rfl⟩ := State.mem_restartPos h1
  obtain ⟨r3, h3, rfl⟩ := List.mem_map.mp h2
  exact ⟨r3, h3, rfl⟩

/-- The bounds of a configuration that `FIFO.INIT` accepts. -/
theorem State.constructed_legal {s : State} {n size : Word} {thr ext : Bool} (h : s.mayConstruct n size thr ext = true) :
    (s.constructed n size thr ext).cfg.legal = true := by
  simp only [State.mayConstruct, Bool.and_eq_true] at h
  obtain ⟨⟨⟨⟨⟨-, hl⟩, -⟩, -⟩, -⟩, -⟩ := h
  exact hl

/-! ### Levels and batches (R55 (5), (6)) -/

theorem State.levelsInv_iff (s : State) : s.levelsInv ↔ (s.cfg.valid = true →
    s.cfg.legal = true ∧ s.w.Bounded s.cfg.cap ∧ ∀ r ∈ s.readers, r.Bounded s.cfg.cap) := by
  simp only [State.levelsInv, Writer.Bounded, Reader.Bounded, and_assoc]

/-- A publication takes what it publishes out of the batch. -/
theorem Word.toNat_sub_ofNat {b : Word} {k : Nat} (h : k ≤ b.toNat) : (b - BitVec.ofNat 32 k).toNat = b.toNat - k := by
  have hk : (BitVec.ofNat 32 k).toNat = k := by rw [BitVec.toNat_ofNat, Nat.mod_eq_of_lt (by omega)]
  rw [BitVec.toNat_sub_of_le (by rw [BitVec.le_def, hk]; exact h), hk]

theorem Phase.pending_of_publish {t : Task} (h : t.point = .publish) : (Phase.busy t).pending = t.grant := by
  simp [Phase.pending, h]

theorem Writer.constructed_bounded {w : Writer} (p : Params) {n : Word} (hn : 1 ≤ n.toNat) :
    (w.constructed p n).Bounded n.toNat := by
  refine ⟨⟨hn, Nat.le_refl _, ?_, ?_, Nat.zero_le _⟩, Nat.zero_le _⟩
  · show (wmin _ _).toNat ≤ _
    rw [wmin_toNat]; exact Nat.min_le_right _ _
  · show (wmin _ _).toNat ≤ _
    rw [wmin_toNat]; exact Nat.min_le_right _ _

theorem Reader.constructed_bounded {r : Reader} (p : Params) (n : Word) : (r.constructed p n).Bounded n.toNat := by
  refine ⟨⟨?_, ?_, Nat.zero_le _⟩, Nat.zero_le _⟩
  · show (wmin _ _).toNat ≤ _
    rw [wmin_toNat]; exact Nat.min_le_right _ _
  · show (wmin _ _).toNat ≤ _
    rw [wmin_toNat]; exact Nat.min_le_right _ _

/-- A word of a number that a bounded word reaches. -/
theorem Word.toNat_ofNat_le {g n : Nat} (h : g ≤ n) : (BitVec.ofNat 32 g).toNat ≤ n :=
  Nat.le_trans (by rw [BitVec.toNat_ofNat]; exact Nat.mod_le _ _) h

theorem State.writerRoom_le {s : State} {g : Nat} (h : s.writerRoom g) (hl : s.w.levels s.cfg.cap) : g ≤ s.cfg.cap := by
  obtain ⟨-, heff, -⟩ := hl
  unfold State.writerRoom at h
  split at h
  · obtain ⟨fill, -, hg⟩ := h
    omega
  · exact h

theorem FlowMove.levelsInv {init : Prop} {s t : State} (h : FlowMove init s t) (hi : s.levelsInv) : t.levelsInv := by
  rw [State.levelsInv_iff] at hi ⊢
  intro hv
  cases h with
  | grantWriter t g hp ht hg =>
    obtain ⟨hl, ⟨hw, hk⟩, hr⟩ := hi hv
    have hle := Word.toNat_ofNat_le (State.writerRoom_le hg hw)
    obtain ⟨e1, e2, e3, e4, -⟩ := hw
    refine ⟨hl, ⟨⟨e1, e2, e3, e4, hle⟩, ?_⟩, hr⟩
    show s.w.ph.pending ≤ _
    rw [hp, Phase.pending_of_load ht]; exact Nat.zero_le _
  | publishWriter t p hp ht hs =>
    obtain ⟨hl, ⟨⟨e1, e2, e3, e4, e5⟩, hk⟩, hr⟩ := hi hv
    rw [hp, Phase.pending_of_publish ht] at hk
    exact ⟨hl, ⟨⟨e1, e2, e3, e4, by rw [Word.toNat_sub_ofNat hk]; exact Nat.le_trans (Nat.sub_le _ _) e5⟩, Nat.zero_le _⟩, hr⟩
  | attachWriter ha hp =>
    obtain ⟨hl, ⟨⟨e1, e2, e3, e4, -⟩, -⟩, hr⟩ := hi hv
    exact ⟨hl, ⟨⟨e1, e2, e3, e4, Nat.zero_le _⟩, Nat.zero_le _⟩, hr⟩
  | grantReader i t g fill hp ht hd hg =>
    obtain ⟨hl, hw, hr⟩ := hi hv
    obtain ⟨⟨e1, e2, -⟩, -⟩ := hr _ (State.rd_mem hp)
    refine ⟨hl, hw, State.forall_setRd hr ⟨⟨e1, e2, Word.toNat_ofNat_le (Nat.le_trans hg (CfgRegs.diff_ok_le hd))⟩, ?_⟩⟩
    show (s.rd i).ph.pending ≤ _
    rw [hp, Phase.pending_of_load ht]; exact Nat.zero_le _
  | lapReader i t lost hp ht hd =>
    obtain ⟨hl, hw, hr⟩ := hi hv
    obtain ⟨e, -⟩ := hr _ (State.rd_mem hp)
    refine ⟨hl, hw, State.forall_setRd hr ⟨e, ?_⟩⟩
    dsimp only
    split
    · exact Nat.zero_le _
    · rw [Phase.pending_of_load ht]; exact Nat.zero_le _
  | resyncReader i t lost p hp ht hv' =>
    obtain ⟨hl, hw, hr⟩ := hi hv
    obtain ⟨e, -⟩ := hr _ (State.rd_mem hp)
    exact ⟨hl, hw, State.forall_setRd (s := { s with front := _ }) hr ⟨e, Nat.zero_le _⟩⟩
  | publishReader i t p hp ht hs =>
    obtain ⟨hl, hw, hr⟩ := hi hv
    obtain ⟨⟨e1, e2, e3⟩, hk⟩ := hr _ (State.rd_mem hp)
    rw [hp, Phase.pending_of_publish ht] at hk
    exact ⟨hl, hw, State.forall_setRd (s := { s with front := _ }) hr
      ⟨⟨e1, e2, by rw [Word.toNat_sub_ofNat hk]; exact Nat.le_trans (Nat.sub_le _ _) e3⟩, Nat.zero_le _⟩⟩
  | attachReader i thr hm hi' hp ht =>
    obtain ⟨hl, hw, hr⟩ := hi hv
    obtain ⟨⟨e1, e2, -⟩, -⟩ := hr (s.rd i) (by rw [State.rd_eq_getElem hi']; exact List.getElem_mem _)
    exact ⟨hl, hw, State.forall_setRd hr ⟨⟨e1, e2, Nat.zero_le _⟩, Nat.zero_le _⟩⟩
  | storePeer c p hf =>
    cases c <;> exact hi hv
  | initCell c hi' =>
    have hi : s.cfg.valid = true → _ := hi
    obtain ⟨hl, hw, hr⟩ := hi (by cases c <;> exact hv)
    refine ⟨by cases c <;> exact hl, by cases c <;> exact hw, fun r hm => ?_⟩
    obtain ⟨r0, h0, rfl⟩ := State.mem_restartPos hm
    cases c <;> exact hr r0 h0
  | construct n size thr ext hm =>
    have hl := State.constructed_legal hm
    refine ⟨hl, Writer.constructed_bounded (w := s.w) s.par ((CfgRegs.legal_iff _).mp hl).1, fun r h => ?_⟩
    obtain ⟨r0, -, rfl⟩ := State.mem_constructed h
    exact Reader.constructed_bounded (r := r0) s.par n

theorem State.Quiet.levelsInv {s t : State} (h : s.Quiet t) (hi : s.levelsInv) : t.levelsInv := by
  rw [State.levelsInv_iff] at hi ⊢
  rw [h.cfg]
  intro hv
  obtain ⟨hl, hw, hr⟩ := hi hv
  exact ⟨hl, h.writer.bounded hw, h.forall_readers (fun _ _ hq => hq.bounded) hr⟩

theorem Move.levelsInv {init : Prop} {s t : State} (h : Move init s t) (hi : s.levelsInv) : t.levelsInv :=
  h.quiet_or_flow.elim (·.levelsInv hi) (·.levelsInv hi)

/-! ### Attachment (R37, R45, R46) -/

/-- What `attachInv` says of one reader. -/
def Reader.Attached (r : Reader) : Prop := r.att = !r.ph.isDetached ∧ (r.ph.resyncing = true → r.thr = true)

theorem State.attachInv_iff (s : State) :
    s.attachInv ↔ s.w.att = !s.w.ph.isDetached ∧ ∀ r ∈ s.readers, r.Attached := Iff.rfl

theorem FlowMove.attachInv {init : Prop} {s t : State} (h : FlowMove init s t) (hi : s.attachInv) : t.attachInv := by
  rw [State.attachInv_iff] at hi ⊢
  obtain ⟨hw, hr⟩ := hi
  cases h with
  | grantWriter t g hp ht hg => exact ⟨hw, hr⟩
  | publishWriter t p hp ht hs => exact ⟨by rw [hp] at hw; exact hw, hr⟩
  | attachWriter ha hp => exact ⟨rfl, hr⟩
  | grantReader i t g fill hp ht hd hg =>
    have ha := hr _ (State.rd_mem hp)
    exact ⟨hw, State.forall_setRd hr ha⟩
  | lapReader i t lost hp ht hd =>
    obtain ⟨ha, hy⟩ := hr _ (State.rd_mem hp)
    rw [hp] at ha hy
    refine ⟨hw, State.forall_setRd hr ⟨?_, ?_⟩⟩
    · dsimp only; split <;> exact ha
    · dsimp only
      split
      · exact fun _ => ‹_›
      · exact hy
  | resyncReader i t lost p hp ht hv =>
    obtain ⟨ha, -⟩ := hr _ (State.rd_mem hp)
    rw [hp] at ha
    exact ⟨hw, State.forall_setRd (s := { s with front := _ }) hr ⟨ha, fun h => by cases h⟩⟩
  | publishReader i t p hp ht hs =>
    obtain ⟨ha, -⟩ := hr _ (State.rd_mem hp)
    rw [hp] at ha
    exact ⟨hw, State.forall_setRd (s := { s with front := _ }) hr ⟨ha, fun h => by cases h⟩⟩
  | attachReader i thr hm hi' hp ht => exact ⟨hw, State.forall_setRd hr ⟨rfl, fun h => by cases h⟩⟩
  | storePeer c p hf => cases c <;> exact ⟨hw, hr⟩
  | initCell c hi' =>
    refine ⟨by cases c <;> exact hw, fun r hm => ?_⟩
    obtain ⟨r0, h0, rfl⟩ := State.mem_restartPos hm
    cases c <;> exact hr r0 h0
  | construct n size thr ext hm =>
    refine ⟨rfl, fun r h => ?_⟩
    obtain ⟨r0, -, rfl⟩ := State.mem_constructed h
    exact ⟨rfl, fun h => by cases h⟩

theorem State.Quiet.attachInv {s t : State} (h : s.Quiet t) (hi : s.attachInv) : t.attachInv := by
  rw [State.attachInv_iff] at hi ⊢
  refine ⟨by rw [h.writer.att, h.writer.detached, hi.1], h.forall_readers (fun r r' hq ha => ?_) hi.2⟩
  rw [Reader.Attached, hq.att, hq.detached, hq.resyncing, hq.thr]
  exact ha

theorem Move.attachInv {init : Prop} {s t : State} (h : Move init s t) (hi : s.attachInv) : t.attachInv :=
  h.quiet_or_flow.elim (·.attachInv hi) (·.attachInv hi)

/-! ### At most one throttling reader (R37) -/

/-- A list has at most one member with a property exactly when no two places hold one. -/
theorem length_filter_le_one_iff {α : Type} (p : α → Bool) (l : List α) :
    (l.filter p).length ≤ 1 ↔ l.Pairwise fun a b => ¬(p a = true ∧ p b = true) := by
  induction l with
  | nil => simp
  | cons a l ih =>
    rw [List.pairwise_cons, ← ih]
    by_cases ha : p a = true
    · have hnil : (l.filter p).length = 0 ↔ ∀ b ∈ l, ¬(p a = true ∧ p b = true) := by
        simp [List.filter_eq_nil_iff, ha]
      rw [List.filter_cons_of_pos ha, List.length_cons, ← hnil]
      omega
    · rw [List.filter_cons_of_neg ha]
      simp [ha]

/-- No two readers throttle. -/
theorem State.throttle_unique_iff (s : State) : (s.readers.filter (·.thr)).length ≤ 1 ↔
    ∀ i j, (s.rd i).thr = true → (s.rd j).thr = true → i = j := by
  have hlt : ∀ i, (s.rd i).thr = true → i < s.readers.length := fun i h => by
    by_contra hn
    rw [State.rd_of_not_lt hn] at h
    cases h
  rw [length_filter_le_one_iff, List.pairwise_iff_getElem]
  constructor
  · intro h i j hi hj
    have hil := hlt i hi
    have hjl := hlt j hj
    rw [State.rd_eq_getElem hil] at hi
    rw [State.rd_eq_getElem hjl] at hj
    rcases Nat.lt_trichotomy i j with hij | hij | hij
    · exact absurd ⟨hi, hj⟩ (h i j hil hjl hij)
    · exact hij
    · exact absurd ⟨hj, hi⟩ (h j i hjl hil hij)
  · rintro h i j hil hjl hij ⟨hi, hj⟩
    rw [← State.rd_eq_getElem hil] at hi
    rw [← State.rd_eq_getElem hjl] at hj
    exact absurd (h i j hi hj) (Nat.ne_of_lt hij)

theorem State.throttleInv_iff (s : State) : s.throttleInv ↔ (s.cfg.valid = true →
    (∀ r ∈ s.readers, r.thr = true → r.att = true ∧ s.cfg.thr = true) ∧
    ∀ i j, (s.rd i).thr = true → (s.rd j).thr = true → i = j) := by
  rw [← State.throttle_unique_iff]

/-- A reader that throttles is one of the readers. -/
theorem State.mem_of_thr {s : State} {i : Nat} (h : (s.rd i).thr = true) : s.rd i ∈ s.readers := by
  by_cases hi : i < s.readers.length
  · rw [State.rd_eq_getElem hi]; exact List.getElem_mem _
  · rw [State.rd_of_not_lt hi] at h; cases h

/-- A replaced reader that throttles no more than it did keeps the throttling reader the only one. -/
theorem State.throttle_unique_setRd {s : State} (h : ∀ i j, (s.rd i).thr = true → (s.rd j).thr = true → i = j)
    {k : Nat} {r : Reader} (hr : r.thr = true → ∀ j, (s.rd j).thr = true → j = k) :
    ∀ i j, ((s.setRd k r).rd i).thr = true → ((s.setRd k r).rd j).thr = true → i = j := by
  intro i j hi hj
  rw [State.rd_setRd] at hi hj
  split at hi
  · rename_i hki
    split at hj
    · rename_i hkj; rw [← hki.1, ← hkj.1]
    · rw [hr hi j hj, hki.1]
  · split at hj
    · rename_i hkj; rw [hr hj i hi, hkj.1]
    · exact h i j hi hj

theorem State.noOtherThrottles_iff {s : State} {i : Nat} :
    s.noOtherThrottles i = true ↔ ∀ j, (s.rd j).thr = true → j = i := by
  simp only [State.noOtherThrottles, List.all_eq_true, List.mem_range, Bool.or_eq_true, beq_iff_eq, Bool.not_eq_true']
  constructor
  · intro h j hj
    by_cases hl : j < s.readers.length
    · rcases h j hl with e | e
      · exact e
      · rw [hj] at e; cases e
    · rw [State.rd_of_not_lt hl] at hj; cases hj
  · intro h j _
    cases hj : (s.rd j).thr with
    | true => exact .inl (h j hj)
    | false => exact .inr rfl

/-- A reader whose attachment and throttling stay leaves the rule as it is. -/
theorem State.throttleInv_setRd {s : State} (hi : s.throttleInv) {i : Nat} {t : Task} (hp : (s.rd i).ph = .busy t)
    {r : Reader} (h1 : r.thr = (s.rd i).thr) (h2 : r.att = (s.rd i).att) : (s.setRd i r).throttleInv := by
  rw [State.throttleInv_iff] at hi ⊢
  intro hv
  obtain ⟨ha, hu⟩ := hi hv
  refine ⟨State.forall_setRd ha (by rw [h1, h2]; exact ha _ (State.rd_mem hp)), ?_⟩
  exact State.throttle_unique_setRd hu fun ht j hj => hu j i hj (h1 ▸ ht)

theorem FlowMove.throttleInv {init : Prop} {s t : State} (h : FlowMove init s t) (hi : s.throttleInv) : t.throttleInv := by
  cases h with
  | grantWriter t g hp ht hg => exact hi
  | publishWriter t p hp ht hs => exact hi
  | attachWriter ha hp => exact hi
  | grantReader i t g fill hp ht hd hg => exact State.throttleInv_setRd hi hp rfl rfl
  | lapReader i t lost hp ht hd => exact State.throttleInv_setRd hi hp rfl rfl
  | resyncReader i t lost p hp ht hv => exact State.throttleInv_setRd (s := { s with front := s.front.push p }) hi hp rfl rfl
  | publishReader i t p hp ht hs =>
    exact State.throttleInv_setRd (s := { s with front := if (s.rd i).thr then s.front.push p else s.front }) hi hp rfl rfl
  | attachReader i thr hm hi' hp ht =>
    rw [State.throttleInv_iff] at hi ⊢
    intro hv
    obtain ⟨ha, hu⟩ := hi hv
    refine ⟨State.forall_setRd ha fun hthr => ⟨rfl, (ht hthr).1⟩, ?_⟩
    exact State.throttle_unique_setRd hu fun hthr => State.noOtherThrottles_iff.mp (ht hthr).2
  | storePeer c p hf => cases c <;> exact hi
  | initCell c hi' =>
    have hx : (s.setCell c (Cell.restart 0)).throttleInv := by cases c <;> exact hi
    generalize s.setCell c (Cell.restart 0) = s1 at hx ⊢
    rw [State.throttleInv_iff] at hx ⊢
    intro hv
    obtain ⟨ha, hu⟩ := hx hv
    refine ⟨fun r hm => ?_, fun i j => ?_⟩
    · obtain ⟨r0, h0, rfl⟩ := State.mem_restartPos hm
      exact ha r0 h0
    · rw [State.rd_restartPos, State.rd_restartPos]
      exact hu i j
  | construct n size thr ext hm =>
    rw [State.throttleInv_iff]
    intro _
    have hf : ∀ r ∈ (s.constructed n size thr ext).readers, r.thr = false := fun r h => by
      obtain ⟨r0, -, rfl⟩ := State.mem_constructed h
      rfl
    refine ⟨fun r h ht => ?_, fun i j hi _ => ?_⟩
    · rw [hf r h] at ht; cases ht
    · rw [hf _ (State.mem_of_thr hi)] at hi; cases hi

theorem State.Quiet.throttleInv {s t : State} (h : s.Quiet t) (hi : s.throttleInv) : t.throttleInv := by
  rw [State.throttleInv_iff] at hi ⊢
  rw [h.cfg]
  intro hv
  obtain ⟨ha, hu⟩ := hi hv
  refine ⟨h.forall_readers (fun r r' hq hr => by rw [hq.thr, hq.att]; exact hr) ha, fun i j => ?_⟩
  rw [(h.reader i).thr, (h.reader j).thr]
  exact hu i j

theorem Move.throttleInv {init : Prop} {s t : State} (h : Move init s t) (hi : s.throttleInv) : t.throttleInv :=
  h.quiet_or_flow.elim (·.throttleInv hi) (·.throttleInv hi)

/-! ### The obligations -/

/-- Settles O54: every atomic change keeps the levels and the batches within their ranges. -/
theorem stepKeepsRegisterRanges : Obligations.StepKeepsRegisterRanges := fun _ _ hs h =>
  step_keeps_of_moves (init := True) (fun _ _ _ _ _ _ => trivial) Move.levelsInv hs h

/-- Settles O55: every atomic change keeps the attachments, and with them the one throttling reader. -/
theorem stepKeepsAtMostOneThrottlingReader : Obligations.StepKeepsAtMostOneThrottlingReader := fun _ _ ha ht h =>
  step_keeps_of_moves (init := True) (I := fun s => s.attachInv ∧ s.throttleInv) (fun _ _ _ _ _ _ => trivial)
    (fun hm hi => ⟨hm.attachInv hi.1, hm.throttleInv hi.2⟩) ⟨ha, ht⟩ h

end Sys2Proof.Machine
end

