-- ==== Sys2Proof/Proofs/State/Buffer.lean ====
section
/-! PROOF. The buffer and the record of its writes: 10_state R23, 20_memory R84 (i). -/

open Sys2Proof Sys2Proof.Machine

namespace Sys2Proof.Machine

/-! ### The bytes that phases have produced -/

/-- The bytes produced by every operation in progress are listed canonically. -/
def State.OutWf (s : State) : Prop := s.w.ph.outWf ∧ ∀ r ∈ s.readers, r.ph.outWf

theorem FlowMove.outWf {init : Prop} {s t : State} (h : FlowMove init s t) (hi : s.OutWf) : t.OutWf := by
  obtain ⟨hw, hr⟩ := hi
  cases h with
  | grantWriter t g hp ht hg => exact ⟨hw, hr⟩
  | publishWriter t p hp ht hs => exact ⟨by rw [hp] at hw; exact hw, hr⟩
  | attachWriter ha hp => exact ⟨trivial, hr⟩
  | grantReader i t g fill hp ht hd hg =>
    have ho := hr _ (State.rd_mem hp)
    exact ⟨hw, State.forall_setRd hr ho⟩
  | lapReader i t lost hp ht hd =>
    have ho := hr _ (State.rd_mem hp)
    rw [hp] at ho
    refine ⟨hw, State.forall_setRd hr ?_⟩
    dsimp only
    split <;> exact ho
  | resyncReader i t lost p hp ht hv => exact ⟨hw, State.forall_setRd (s := { s with front := _ }) hr trivial⟩
  | publishReader i t p hp ht hs =>
    have ho := hr _ (State.rd_mem hp)
    rw [hp] at ho
    exact ⟨hw, State.forall_setRd (s := { s with front := _ }) hr ho⟩
  | attachReader i thr hm hi' hp ht => exact ⟨hw, State.forall_setRd hr trivial⟩
  | storePeer c p hf => cases c <;> exact ⟨hw, hr⟩
  | initCell c hi' =>
    refine ⟨by cases c <;> exact hw, fun r hm => ?_⟩
    obtain ⟨r0, h0, rfl⟩ := State.mem_restartPos hm
    cases c <;> exact hr r0 h0
  | construct n size thr ext hm =>
    refine ⟨trivial, fun r h => ?_⟩
    obtain ⟨r0, -, rfl⟩ := State.mem_constructed h
    trivial

theorem Move.outWf {init : Prop} {s t : State} (h : Move init s t) (hi : s.OutWf) : t.OutWf := by
  rcases h.quiet_or_flow with hq | hf
  · exact ⟨hq.writer.out hi.1, hq.forall_readers (fun _ _ h => h.out) hi.2⟩
  · exact hf.outWf hi

/-! ### The buffer -/

/-- The buffer and its record are those of before, and the two agents that write it have forgotten none of its writes. -/
structure State.SameBuffer (s t : State) : Prop where
  buf : t.buf = s.buf
  writes : t.writes = s.writes
  writer : s.w.obs.view.seen.writer ≤ t.w.obs.view.seen.writer
  peer : s.peer.obs.view.seen.peer ≤ t.peer.obs.view.seen.peer

theorem State.SameBuffer.refl (s : State) : s.SameBuffer s := ⟨rfl, rfl, Nat.le_refl _, Nat.le_refl _⟩

theorem State.SameBuffer.setWq {s t : State} (h : s.SameBuffer t) (c : CellSel) (q : List Agent) :
    s.SameBuffer (t.setWq c q) := by
  cases c <;> exact ⟨h.buf, h.writes, h.writer, h.peer⟩

/-- Only what an observer knows counts, whatever its positions. -/
theorem State.SameBuffer.of_seen {s t : State} (h1 : t.buf = s.buf) (h2 : t.writes = s.writes)
    (h3 : t.w.obs.view.seen = s.w.obs.view.seen) (h4 : t.peer.obs.view.seen = s.peer.obs.view.seen) : s.SameBuffer t :=
  ⟨h1, h2, by rw [h3], by rw [h4]⟩

theorem SleepMove.sameBuffer {s t : State} (h : SleepMove s t) : s.SameBuffer t := by
  cases h with
  | wake c v q hq =>
    obtain ⟨ph, rs, wait, -, e⟩ := State.releaseAll_form v q s
    rw [e]
    refine State.SameBuffer.setWq ?_ _ _
    exact .of_seen rfl rfl rfl rfl
  | _ =>
    refine State.SameBuffer.setWq ?_ _ _
    exact .of_seen rfl rfl rfl rfl

theorem FlowMove.sameBuffer {init : Prop} {s t : State} (h : FlowMove init s t) : s.SameBuffer t := by
  cases h with
  | storePeer c p hf => cases c <;> exact .of_seen rfl rfl rfl rfl
  | initCell c hi => cases c <;> exact .of_seen rfl rfl rfl rfl
  | _ => exact .of_seen rfl rfl rfl rfl

/-- A change leaves the buffer, or it is the store of one byte. -/
theorem Move.buffer {init : Prop} {s t : State} (h : Move init s t) :
    s.SameBuffer t ∨ ∃ o off b, (o = Agent.writer ∨ o = .peer) ∧ t = s.storeByte o off b := by
  cases h with
  | environment b rest out q cs n hr => exact .inl (.of_seen rfl rfl rfl rfl)
  | observe o x hx =>
    refine .inl ?_
    cases o with
    | writer => exact ⟨rfl, rfl, hx.writer, Nat.le_refl _⟩
    | peer => exact ⟨rfl, rfl, Nat.le_refl _, hx.peer⟩
    | host => exact .refl s
    | reader i => exact .of_seen rfl rfl rfl rfl
  | storeByte o off b ho => exact .inr ⟨o, off, b, ho, rfl⟩
  | writer w hw => exact .inl (.of_seen rfl rfl (by rw [← hw.obs]) rfl)
  | reader i r hr => exact .inl (.of_seen rfl rfl rfl rfl)
  | sleep h => exact .inl h.sameBuffer
  | flow h => exact .inl h.sameBuffer

theorem Move.memoryInv {init : Prop} {s t : State} (h : Move init s t) (hi : s.memoryInv) : t.memoryInv := by
  refine ⟨?_, h.outWf hi.2⟩
  rcases h.buffer with hb | ⟨o, off, b, -, rfl⟩
  · rw [hb.buf]; exact hi.1
  · exact State.storeByte_wf hi.1 o off b

/-- What a store adds to the record of writes. -/
theorem State.storeByte_writes (s : State) (o : Agent) (off : Nat) (b : Byte) : (s.storeByte o off b).writes =
    s.writes ++ [⟨off, b, o == .peer, (s.obs o).view.seen.bump (o == .peer)⟩] := by
  simp [State.storeByte]

theorem Move.bufferInv {init : Prop} {s t : State} (h : Move init s t) (hi : s.bufferInv) : t.bufferInv := by
  intro a
  rcases h.buffer with hb | ⟨o, off, b, -, rfl⟩
  · rw [hb.buf, hb.writes]; exact hi a
  · rw [State.storeByte_buf, State.storeByte_writes, Memory.find_put, lastWrite_append, hi a]
    simp only [eq_comm (a := a)]

/-- A write whose number is above those of an agent's writes comes last in that agent's order. -/
theorem pairwise_idx_append {ws : List BufWrite} {p : BufWrite → Bool} {x : BufWrite}
    (h : (ws.filter p).Pairwise fun x y => x.idx < y.idx) (hx : ∀ y ∈ ws, p y = true → y.idx < x.idx) :
    ((ws ++ [x]).filter p).Pairwise fun x y => x.idx < y.idx := by
  rw [List.filter_append, List.pairwise_append]
  refine ⟨h, (List.pairwise_singleton _ x).filter p, fun y hy z hz => ?_⟩
  obtain ⟨hm, hp⟩ := List.mem_filter.mp hy
  rw [List.mem_singleton.mp (List.mem_filter.mp hz).1]
  exact hx y hm hp

/-- A write of the other agent does not enter an agent's order. -/
theorem filter_append_of_not {ws : List BufWrite} {p : BufWrite → Bool} {x : BufWrite} (h : p x = false) :
    (ws ++ [x]).filter p = ws.filter p := by
  simp [List.filter_append, h]

theorem State.storeByte_orderInv {s : State} {o : Agent} (ho : o = .writer ∨ o = .peer) (off : Nat) (b : Byte)
    (hi : s.orderInv) : (s.storeByte o off b).orderInv := by
  obtain ⟨hw, hp, hwk, hpk⟩ := hi
  unfold State.orderInv
  rw [State.storeByte_writes]
  obtain rfl | rfl := ho
  · refine ⟨pairwise_idx_append hw fun y hy hb => Nat.lt_succ_of_le (hwk y hy (by simpa using hb)), ?_, ?_, ?_⟩
    · rw [filter_append_of_not rfl]; exact hp
    · intro x hx hb
      rcases List.mem_append.mp hx with hx | hx
      · exact Nat.le_succ_of_le (hwk x hx hb)
      · rw [List.mem_singleton.mp hx]; exact Nat.le_refl _
    · intro x hx hb
      rcases List.mem_append.mp hx with hx | hx
      · exact hpk x hx hb
      · rw [List.mem_singleton.mp hx] at hb; cases hb
  · refine ⟨?_, pairwise_idx_append hp fun y hy hb => Nat.lt_succ_of_le (hpk y hy (by simpa using hb)), ?_, ?_⟩
    · rw [filter_append_of_not rfl]; exact hw
    · intro x hx hb
      rcases List.mem_append.mp hx with hx | hx
      · exact hwk x hx hb
      · rw [List.mem_singleton.mp hx] at hb; cases hb
    · intro x hx hb
      rcases List.mem_append.mp hx with hx | hx
      · exact Nat.le_succ_of_le (hpk x hx hb)
      · rw [List.mem_singleton.mp hx]; exact Nat.le_refl _

theorem Move.orderInv {init : Prop} {s t : State} (h : Move init s t) (hi : s.orderInv) : t.orderInv := by
  rcases h.buffer with hb | ⟨o, off, b, ho, rfl⟩
  · obtain ⟨hw, hp, hwk, hpk⟩ := hi
    unfold State.orderInv
    rw [hb.writes]
    exact ⟨hw, hp, fun x hx he => Nat.le_trans (hwk x hx he) hb.writer, fun x hx he => Nat.le_trans (hpk x hx he) hb.peer⟩
  · exact State.storeByte_orderInv ho off b hi

/-- Settles O53: only a store of a byte touches the buffer, and it writes the record with it. -/
theorem stepKeepsBufferSound : Obligations.StepKeepsBufferSound := fun _ _ hm hb ho h =>
  step_keeps_of_moves (init := True) (I := fun s => s.memoryInv ∧ s.bufferInv ∧ s.orderInv) (fun _ _ _ _ _ _ => trivial)
    (fun hv hi => ⟨hv.memoryInv hi.1, hv.bufferInv hi.2.1, hv.orderInv hi.2.2⟩) ⟨hm, hb, ho⟩ h

end Sys2Proof.Machine
end

