-- ==== Sys2Proof/Proofs/State/Parked.lean ====
section
/-! PROOF. The parked sets hold the endpoints that sleep, each once: 10_state R48, 40_index_cell R148 to R151. -/

open Sys2Proof Sys2Proof.Machine

namespace Sys2Proof.Machine

/-! ### The rule, for every agent and every cell -/

/-- The cell an endpoint may sleep on: the writer on `FRONT`, a reader on `REAR`. -/
def Agent.maySleepOn : Agent → CellSel → Prop
  | .writer, c => c = .front
  | .reader _, c => c = .rear
  | _, _ => True

/-- `parkedInv`, said for an agent and a cell at a time. -/
structure State.Parked (s : State) : Prop where
  nodup : ∀ c, (s.wq c).Nodup
  asleep : ∀ c, ∀ o ∈ s.wq c, s.sleepsOn c o = true
  listed : ∀ c o, o ≠ .peer → s.sleepsOn c o = true → o ∈ s.wq c ∧ o.maySleepOn c

theorem State.parkedInv_iff (s : State) : s.parkedInv ↔ s.Parked := by
  constructor
  · rintro ⟨⟨hnr, hnf⟩, hr, hf, hwf, hwr, hrd⟩
    refine ⟨fun c => by cases c; exacts [hnr, hnf], fun c => by cases c; exacts [hr, hf], fun c o hp hs => ?_⟩
    cases o with
    | host => cases hs
    | peer => exact absurd rfl hp
    | writer =>
      cases c with
      | rear => exact absurd hs (by rw [State.sleepsOn, hwr]; decide)
      | front => exact ⟨hwf hs, rfl⟩
    | reader i =>
      cases c with
      | rear => exact ⟨(hrd i).2 hs, rfl⟩
      | front => exact absurd hs (by rw [State.sleepsOn, (hrd i).1]; decide)
  · rintro ⟨hn, ha, hl⟩
    refine ⟨⟨hn .rear, hn .front⟩, ha .rear, ha .front, fun h => (hl .front .writer (by decide) h).1, ?_, fun i => ⟨?_, ?_⟩⟩
    · exact Bool.eq_false_iff.mpr fun h => by cases (hl .rear .writer (by decide) h).2
    · exact Bool.eq_false_iff.mpr fun h => by cases (hl .front (.reader i) (by simp) h).2
    · exact fun h => (hl .rear (.reader i) (by simp) h).1

/-! ### Who sleeps -/

theorem Phase.sleepsOn_iff (p : Phase) (c : CellSel) :
    p.sleepsOn c = true ↔ ∃ t k, p = .parked t k ∧ k.cell = c ∧ k.woken = none := by
  cases p <;> simp [Phase.sleepsOn]

theorem Phase.sleepsOn_of_isActive {p : Phase} (h : p.isActive = true) (c : CellSel) : p.sleepsOn c = false := by
  cases p <;> first | rfl | cases h

theorem Phase.sleepsOn_of_accepts {p : Phase} (h : p.accepts = true) (c : CellSel) : p.sleepsOn c = false := by
  cases p <;> first | rfl | cases h

theorem Phase.sleepsOn_wakeUp (p : Phase) (v : Seen) (c : CellSel) : (p.wakeUp v).sleepsOn c = false := by
  cases p <;> simp [Phase.wakeUp, Phase.sleepsOn]

/-- An agent sleeps on one cell at most. -/
theorem State.sleepsOn_unique {s : State} {o : Agent} {c d : CellSel} (hc : s.sleepsOn c o = true)
    (hd : s.sleepsOn d o = true) : c = d := by
  have hph : ∀ p : Phase, p.sleepsOn c = true → p.sleepsOn d = true → c = d := fun p h1 h2 => by
    obtain ⟨t, k, rfl, rfl, -⟩ := (p.sleepsOn_iff c).mp h1
    obtain ⟨t', k', e, rfl, -⟩ := (Phase.sleepsOn_iff _ d).mp h2
    cases e; rfl
  cases o with
  | host => cases hc
  | writer => exact hph _ hc hd
  | reader i => exact hph _ hc hd
  | peer =>
    simp only [State.sleepsOn] at hc hd
    cases hw : s.peer.wait with
    | none => rw [hw] at hc; cases hc
    | some p =>
      rw [hw] at hc hd
      simp only [Bool.and_eq_true, beq_iff_eq] at hc hd
      rw [← hc.1, hd.1]

@[simp] theorem State.sleepsOn_setWq (s : State) (c : CellSel) (q : List Agent) (d : CellSel) (o : Agent) :
    (s.setWq c q).sleepsOn d o = s.sleepsOn d o := by
  cases c <;> cases o <;> rfl

theorem State.wq_setWq_ne {c d : CellSel} (h : d ≠ c) (s : State) (q : List Agent) : (s.setWq c q).wq d = s.wq d := by
  cases c <;> cases d <;> first | rfl | exact absurd rfl h

theorem State.sleepsOn_kept {s t : State} {o : Agent} (h : keptIn s t o) (d : CellSel) : t.sleepsOn d o = s.sleepsOn d o := by
  cases o with
  | host => rfl
  | writer => exact congrArg (Phase.sleepsOn d) h
  | reader i => exact congrArg (Phase.sleepsOn d) h
  | peer => simp only [State.sleepsOn, show t.peer.wait = s.peer.wait from h]

theorem State.sleepsOn_woken {v : Seen} {s t : State} {o : Agent} (h : wokenIn v s t o) (d : CellSel) :
    t.sleepsOn d o = false := by
  cases o with
  | host => rfl
  | writer => exact (congrArg (Phase.sleepsOn d) h).trans (Phase.sleepsOn_wakeUp _ v d)
  | reader i => exact (congrArg (Phase.sleepsOn d) h).trans (Phase.sleepsOn_wakeUp _ v d)
  | peer =>
    simp only [State.sleepsOn, show t.peer.wait = s.peer.wait.map _ from h]
    cases s.peer.wait <;> simp

/-! ### Changes that wake nobody and put nobody to sleep -/

/-- The parked sets are those of before, and the same agents sleep. -/
structure State.SameSleep (s t : State) : Prop where
  rear : t.wqRear = s.wqRear
  front : t.wqFront = s.wqFront
  writer : ∀ c, t.w.ph.sleepsOn c = s.w.ph.sleepsOn c
  reader : ∀ i c, (t.rd i).ph.sleepsOn c = (s.rd i).ph.sleepsOn c
  peer : t.peer.wait = s.peer.wait

theorem State.SameSleep.refl (s : State) : s.SameSleep s := ⟨rfl, rfl, fun _ => rfl, fun _ _ => rfl, rfl⟩

theorem State.SameSleep.parked {s t : State} (h : s.SameSleep t) (hi : s.Parked) : t.Parked := by
  have hq : ∀ c, t.wq c = s.wq c := fun c => by cases c; exacts [h.rear, h.front]
  have hs : ∀ c o, t.sleepsOn c o = s.sleepsOn c o := fun c o => by
    cases o with
    | host => rfl
    | writer => exact h.writer c
    | reader i => exact h.reader i c
    | peer => simp only [State.sleepsOn, h.peer]
  refine ⟨fun c => ?_, fun c o => ?_, fun c o => ?_⟩
  · rw [hq]; exact hi.nodup c
  · rw [hq, hs]; exact hi.asleep c o
  · rw [hq, hs]; exact hi.listed c o

theorem State.SameSleep.setW {s : State} {w : Writer} (h : ∀ c, w.ph.sleepsOn c = s.w.ph.sleepsOn c) :
    s.SameSleep { s with w := w } := { State.SameSleep.refl s with writer := h }

theorem State.SameSleep.setRd {s : State} {i : Nat} {r : Reader} (h : ∀ c, r.ph.sleepsOn c = (s.rd i).ph.sleepsOn c) :
    s.SameSleep (s.setRd i r) := by
  refine { State.SameSleep.refl s with reader := fun j c => ?_ }
  rw [State.rd_setRd]
  split
  · rename_i hij; rw [← hij.1]; exact h c
  · rfl

theorem State.SameSleep.setObs (s : State) (o : Agent) (x : Observer) : s.SameSleep (s.setObs o x) := by
  cases o with
  | reader i => exact .setRd fun _ => rfl
  | _ => exact ⟨rfl, rfl, fun _ => rfl, fun _ _ => rfl, rfl⟩

/-- A phase that accepts commands or is busy is one of nobody asleep. -/
theorem Phase.sleepsOn_busy {p : Phase} {t : Task} (h : p = .busy t) (c : CellSel) : false = p.sleepsOn c := by
  rw [h]; rfl

theorem FlowMove.parked {init : Prop} {s t : State} (h : FlowMove init s t) (hi : s.Parked) : t.Parked := by
  cases h with
  | grantWriter t g hp ht hg => exact State.SameSleep.parked (.setW fun _ => rfl) hi
  | publishWriter t p hp ht hs =>
    exact State.SameSleep.parked { State.SameSleep.refl s with writer := Phase.sleepsOn_busy hp } hi
  | attachWriter ha hp =>
    exact State.SameSleep.parked (.setW fun c => (Phase.sleepsOn_of_accepts hp c).symm) hi
  | grantReader i t g fill hp ht hd hg => exact State.SameSleep.parked (.setRd fun _ => rfl) hi
  | lapReader i t lost hp ht hd =>
    refine State.SameSleep.parked (.setRd fun c => ?_) hi
    rw [hp]
    dsimp only
    split <;> rfl
  | resyncReader i t lost p hp ht hv =>
    have h1 : ({ s with front := s.front.push p } : State).Parked := State.SameSleep.parked { State.SameSleep.refl s with } hi
    exact State.SameSleep.parked (.setRd (Phase.sleepsOn_busy hp)) h1
  | publishReader i t p hp ht hs =>
    have h1 : ({ s with front := if (s.rd i).thr then s.front.push p else s.front } : State).Parked :=
      State.SameSleep.parked { State.SameSleep.refl s with } hi
    exact State.SameSleep.parked (.setRd (Phase.sleepsOn_busy hp)) h1
  | attachReader i thr hm hi' hp ht =>
    exact State.SameSleep.parked (.setRd fun c => (Phase.sleepsOn_of_accepts hp c).symm) hi
  | storePeer c p hf => cases c <;> exact State.SameSleep.parked { State.SameSleep.refl s with } hi
  | initCell c hi' =>
    have h1 : s.SameSleep (s.setCell c (Cell.restart 0)) := by
      cases c <;> exact ⟨rfl, rfl, fun _ => rfl, fun _ _ => rfl, rfl⟩
    have h2 : (s.setCell c (Cell.restart 0)).SameSleep ((s.setCell c (Cell.restart 0)).restartPos c) :=
      ⟨rfl, rfl, fun _ => rfl, fun i d => by rw [State.rd_restartPos], rfl⟩
    exact h2.parked (h1.parked hi)
  | construct n size thr ext hm =>
    have hno : ∀ c o, o ≠ Agent.peer → (s.constructed n size thr ext).sleepsOn c o = false := fun c o hp => by
      cases o with
      | host => rfl
      | writer => rfl
      | peer => exact absurd rfl hp
      | reader i =>
        by_cases hl : i < (s.constructed n size thr ext).readers.length
        · obtain ⟨r0, -, e⟩ := State.mem_constructed (List.getElem_mem hl)
          rw [State.sleepsOn, State.rd_eq_getElem hl, e]
          rfl
        · rw [State.sleepsOn, State.rd_of_not_lt hl]
          rfl
    refine ⟨fun c => by cases c <;> exact List.nodup_nil, (fun c o ho => by cases c <;> cases ho), fun c o hp hs => ?_⟩
    rw [hno c o hp] at hs
    cases hs

/-! ### Parking, un-parking and wakes -/

/-- An agent that was awake parks. -/
theorem State.Parked.park {s t : State} (hi : s.Parked) {o : Agent} {c : CellSel} (ho : ∀ d, s.sleepsOn d o = false)
    (hc : o.maySleepOn c) (hs : ∀ d, t.sleepsOn d o = true → d = c) (hc' : t.sleepsOn c o = true)
    (hk : ∀ d a, a ≠ o → t.sleepsOn d a = s.sleepsOn d a) (hq : t.wq c = s.wq c) (hq' : ∀ d, d ≠ c → t.wq d = s.wq d) :
    (t.enqueue o c).Parked := by
  have hno : ∀ d, o ∉ s.wq d := fun d hm => by
    have := hi.asleep d o hm
    rw [ho d] at this
    cases this
  have hwc : (t.enqueue o c).wq c = s.wq c ++ [o] := by
    rw [State.enqueue, State.wq_setWq, hq, if_neg (by simpa using hno c)]
  have hwd : ∀ d, d ≠ c → (t.enqueue o c).wq d = s.wq d := fun d hd => by
    rw [State.enqueue, State.wq_setWq_ne hd, hq' d hd]
  have hsl : ∀ d a, (t.enqueue o c).sleepsOn d a = t.sleepsOn d a := fun d a => State.sleepsOn_setWq _ _ _ _ _
  refine ⟨fun d => ?_, fun d a ha => ?_, fun d a hp ha => ?_⟩
  · by_cases hd : d = c
    · subst hd
      rw [hwc]
      exact (hi.nodup d).append (List.nodup_singleton o) (by simpa using hno d)
    · rw [hwd d hd]; exact hi.nodup d
  · rw [hsl]
    by_cases hao : a = o
    · subst hao
      by_cases hd : d = c
      · rw [hd]; exact hc'
      · rw [hwd d hd] at ha; exact absurd ha (hno d)
    · rw [hk d a hao]
      by_cases hd : d = c
      · subst hd
        rw [hwc] at ha
        exact hi.asleep d a ((List.mem_append.mp ha).resolve_right (by simpa using hao))
      · rw [hwd d hd] at ha; exact hi.asleep d a ha
  · rw [hsl] at ha
    by_cases hao : a = o
    · subst hao
      obtain rfl := hs d ha
      rw [hwc]
      exact ⟨by simp, hc⟩
    · rw [hk d a hao] at ha
      obtain ⟨hm, hmay⟩ := hi.listed d a hp ha
      refine ⟨?_, hmay⟩
      by_cases hd : d = c
      · subst hd; rw [hwc]; exact List.mem_append_left _ hm
      · rw [hwd d hd]; exact hm

/-- Agents that slept on no other cell leave a parked set and are awake. -/
theorem State.Parked.leave {s t : State} (hi : s.Parked) {q : List Agent} {c : CellSel}
    (hon : ∀ o ∈ q, ∀ d, s.sleepsOn d o = true → d = c) (hs : ∀ o ∈ q, ∀ d, t.sleepsOn d o = false)
    (hk : ∀ o, o ∉ q → ∀ d, t.sleepsOn d o = s.sleepsOn d o)
    (hq : t.wq c = (s.wq c).filter fun o => !q.contains o) (hq' : ∀ d, d ≠ c → t.wq d = s.wq d) : t.Parked := by
  have hmem : ∀ d o, o ∈ t.wq d ↔ o ∈ s.wq d ∧ o ∉ q := fun d o => by
    by_cases hd : d = c
    · subst hd; rw [hq]; simp
    · rw [hq' d hd]
      exact ⟨fun h => ⟨h, fun hoq => hd (hon o hoq d (hi.asleep d o h))⟩, And.left⟩
  refine ⟨fun d => ?_, fun d o ho => ?_, fun d o hp ho => ?_⟩
  · by_cases hd : d = c
    · subst hd; rw [hq]; exact (hi.nodup d).filter _
    · rw [hq' d hd]; exact hi.nodup d
  · obtain ⟨hm, hoq⟩ := (hmem d o).mp ho
    rw [hk o hoq d]; exact hi.asleep d o hm
  · have hoq : o ∉ q := fun hoq => by rw [hs o hoq d] at ho; cases ho
    rw [hk o hoq d] at ho
    obtain ⟨hm, hmay⟩ := hi.listed d o hp ho
    exact ⟨(hmem d o).mpr ⟨hm, hoq⟩, hmay⟩

/-- One agent un-parks. -/
theorem State.Parked.dequeue {s t : State} (hi : s.Parked) {o : Agent} {c : CellSel}
    (hon : ∀ d, s.sleepsOn d o = true → d = c) (hs : ∀ d, t.sleepsOn d o = false)
    (hk : ∀ a, a ≠ o → ∀ d, t.sleepsOn d a = s.sleepsOn d a) (hq : ∀ d, t.wq d = s.wq d) : (t.dequeue o c).Parked := by
  have hf : (fun a => !([o] : List Agent).contains a) = (· != o) := by
    funext a; simp [bne, beq_eq_decide]
  refine hi.leave (q := [o]) (c := c) (by simpa using hon) (by simpa [State.dequeue] using hs) (fun a ha d => ?_) ?_
    fun d hd => ?_
  · rw [State.dequeue, State.sleepsOn_setWq]; exact hk a (by simpa using ha) d
  · rw [State.dequeue, State.wq_setWq, hf, hq]
  · rw [State.dequeue, State.wq_setWq_ne hd, hq]

/-- Another agent sleeps as before, when the phases of one endpoint are replaced. -/
theorem State.sleepsOn_setW_ne (s : State) (w : Writer) {a : Agent} (h : a ≠ .writer) (d : CellSel) :
    ({ s with w := w } : State).sleepsOn d a = s.sleepsOn d a := by
  cases a <;> first | rfl | exact absurd rfl h

theorem State.sleepsOn_setRd_ne (s : State) (i : Nat) (r : Reader) {a : Agent} (h : a ≠ .reader i) (d : CellSel) :
    (s.setRd i r).sleepsOn d a = s.sleepsOn d a := by
  cases a with
  | reader j => rw [State.sleepsOn, State.rd_setRd_ne (fun e => h (by rw [e]))]; rfl
  | _ => rfl

theorem State.sleepsOn_setRd {s : State} {i : Nat} (h : i < s.readers.length) (r : Reader) (d : CellSel) :
    (s.setRd i r).sleepsOn d (.reader i) = r.ph.sleepsOn d := by
  rw [State.sleepsOn, State.rd_setRd_same h]

theorem State.sleepsOn_setPeer_ne (s : State) (p : Peer) {a : Agent} (h : a ≠ .peer) (d : CellSel) :
    ({ s with peer := p } : State).sleepsOn d a = s.sleepsOn d a := by
  cases a <;> first | rfl | exact absurd rfl h

/-- A parked phase sleeps on its own cell only. -/
theorem Phase.cell_of_sleepsOn {p : Phase} {t : Task} {k : Park} (h : p = .parked t k) {d : CellSel}
    (hs : p.sleepsOn d = true) : d = k.cell := by
  rw [h] at hs
  obtain ⟨t', k', e, rfl, -⟩ := (Phase.sleepsOn_iff _ d).mp hs
  cases e; rfl

theorem SleepMove.parked {s t : State} (h : SleepMove s t) (hi : s.Parked) : t.Parked := by
  cases h with
  | parkWriter t e timer hp ht =>
    refine hi.park (fun d => (Phase.sleepsOn_busy hp d).symm) rfl
      (fun d hd => Phase.cell_of_sleepsOn (p := .parked t { cell := .front, expected := e, timer := timer }) rfl hd) rfl
      (fun d a ha => State.sleepsOn_setW_ne s _ ha d) rfl fun d _ => ?_
    cases d <;> rfl
  | unparkWriter t p exp hp =>
    refine hi.dequeue (fun d hd => Phase.cell_of_sleepsOn hp hd) (fun d => rfl)
      (fun a ha d => State.sleepsOn_setW_ne s _ ha d) fun d => ?_
    cases d <;> rfl
  | parkReader i t e timer hp ht =>
    have hl := State.lt_of_busy hp
    refine hi.park (fun d => (Phase.sleepsOn_busy hp d).symm) rfl (fun d hd => ?_) ?_
      (fun d a ha => State.sleepsOn_setRd_ne s i _ ha d) rfl fun d _ => ?_
    · rw [State.sleepsOn_setRd hl] at hd; exact Phase.cell_of_sleepsOn rfl hd
    · rw [State.sleepsOn_setRd hl]; rfl
    · cases d <;> rfl
  | unparkReader i t p exp hp =>
    have hl := State.lt_of_parked hp
    refine hi.dequeue (fun d hd => Phase.cell_of_sleepsOn hp hd) (fun d => ?_)
      (fun a ha d => State.sleepsOn_setRd_ne s i _ ha d) fun d => ?_
    · rw [State.sleepsOn_setRd hl]; rfl
    · cases d <;> rfl
  | wake c v q hq =>
    obtain ⟨hw, hk, -⟩ := State.releaseAll_spec v q s
    have hwq : ∀ d, (q.foldl (State.release v) s).wq d = s.wq d := fun d => by
      obtain ⟨ph, rs, wait, -, e⟩ := State.releaseAll_form v q s
      rw [e]; cases d <;> rfl
    refine hi.leave (q := q) (c := c) (fun o ho d hd => State.sleepsOn_unique hd (hi.asleep c o (hq o ho)))
      (fun o ho d => ?_) (fun o ho d => ?_) (State.wq_setWq _ _ _) fun d hd => ?_
    · rw [State.sleepsOn_setWq]; exact State.sleepsOn_woken (hw o ho) d
    · rw [State.sleepsOn_setWq]; exact State.sleepsOn_kept (hk o ho) d
    · rw [State.wq_setWq_ne hd, hwq]
  | parkPeer c e timer hw =>
    refine hi.park (fun d => by rw [State.sleepsOn, hw]) trivial (fun d hd => ?_) (by simp [State.sleepsOn])
      (fun d a ha => State.sleepsOn_setPeer_ne s _ ha d) (by cases c <;> rfl) fun d _ => by cases d <;> rfl
    simp only [State.sleepsOn, Bool.and_eq_true, beq_iff_eq] at hd
    exact hd.1.symm
  | unparkPeer p hp =>
    refine hi.dequeue (fun d hd => ?_) (fun d => rfl) (fun a ha d => State.sleepsOn_setPeer_ne s _ ha d) fun d => by
      cases d <;> rfl
    simp only [State.sleepsOn, hp, Bool.and_eq_true, beq_iff_eq] at hd
    exact hd.1.symm

theorem Move.parked {init : Prop} {s t : State} (h : Move init s t) (hi : s.Parked) : t.Parked := by
  cases h with
  | environment b rest out q cs n hr => exact State.SameSleep.parked { State.SameSleep.refl s with } hi
  | observe o x hx => exact (State.SameSleep.setObs s o x).parked hi
  | storeByte o off b ho =>
    have h1 := State.SameSleep.setObs s o ((s.obs o).setView
      { (s.obs o).view with seen := (s.obs o).view.seen.bump (o == .peer) })
    exact State.SameSleep.parked (t := s.storeByte o off b) ⟨h1.rear, h1.front, h1.writer, h1.reader, h1.peer⟩ hi
  | writer w hw =>
    refine State.SameSleep.parked (.setW fun c => ?_) hi
    rw [Phase.sleepsOn_of_isActive hw.active, Phase.sleepsOn_of_isActive hw.active']
  | reader i r hr =>
    refine State.SameSleep.parked (.setRd fun c => ?_) hi
    rw [Phase.sleepsOn_of_isActive hr.active, Phase.sleepsOn_of_isActive hr.active']
  | sleep h => exact h.parked hi
  | flow h => exact h.parked hi

/-- Settles O56: an agent enters a parked set as it falls asleep, and leaves it as it un-parks or is released. -/
theorem stepKeepsParkedSets : Obligations.StepKeepsParkedSets := fun s s' hs h => by
  rw [State.parkedInv_iff] at hs ⊢
  exact step_keeps_of_moves (init := True) (fun _ _ _ _ _ _ => trivial) Move.parked hs h

end Sys2Proof.Machine
end

