-- ==== Sys2Proof/Proofs/State/Indices.lean ====
section
/-! PROOF. The owners' local indices and the forms of the indices: 10_state R47, R55 (1) to (3). -/

open Sys2Proof Sys2Proof.Machine

namespace Sys2Proof.Machine

/-! ### Parameters and waiting commands -/

theorem FlowMove.kept {init : Prop} {s t : State} (h : FlowMove init s t) : t.par = s.par ∧ t.inbox = s.inbox := by
  cases h with
  | storePeer c p hf => cases c <;> exact ⟨rfl, rfl⟩
  | initCell c hi => cases c <;> exact ⟨rfl, rfl⟩
  | _ => exact ⟨rfl, rfl⟩

theorem Move.par {init : Prop} {s t : State} (h : Move init s t) : t.par = s.par :=
  h.quiet_or_flow.elim (·.par) (·.kept.1)

theorem Move.noCellInit {init : Prop} {s t : State} (h : Move init s t) (hi : s.noCellInit) : t.noCellInit := by
  intro c hc
  rcases h.quiet_or_flow with hq | hf
  · exact hi c (hq.inbox c hc)
  · exact hi c (hf.kept.2 ▸ hc)

/-- An invariant of a system without a foreign peer whose cells are initialised once is kept by every step if the changes that
neither a foreign peer nor `IDX.INIT` makes keep it. -/
theorem step_keeps_of_moves_alone {I : State → Prop} (hm : ∀ {s t}, Move False s t → s.par.foreign = false → I s → I t)
    {s s' : State} (hf : s.par.foreign = false) (hn : s.noCellInit) (hs : I s) (h : step s = .next s') :
    s'.noCellInit ∧ I s' := by
  have hall := step_keeps_of_moves (init := False) (I := fun s => s.par.foreign = false ∧ s.noCellInit ∧ I s)
    (fun s c x hi hc hd => hi.2.1 c hc x hd)
    (fun hx ⟨h1, h2, h3⟩ => ⟨hx.par ▸ h1, hx.noCellInit h2, hm hx h1 h3⟩) ⟨hf, hn, hs⟩ h
  exact hall.2

/-! ### The owner's local index is its cell (R55 (2), (3)) -/

/-- A property of every reader by its number; the reader of a number that does not exist is the one of the defaults. -/
theorem State.forall_readers_iff_rd {s : State} {P : Reader → Prop} (hd : P {}) : (∀ r ∈ s.readers, P r) ↔ ∀ i, P (s.rd i) := by
  rw [State.forall_readers]
  refine ⟨fun h i => ?_, fun h i _ => h i⟩
  by_cases hi : i < s.readers.length
  · exact h i hi
  · rw [State.rd_of_not_lt hi]; exact hd

/-- `ownerInv` of a constructed FIFO, by the readers' numbers. -/
structure State.Owners (s : State) : Prop where
  rearNew : s.w.att = false → s.rear.pubs = []
  rear : s.w.att = true → s.w.lr = s.rear.current
  frontNew : (∀ i, (s.rd i).thr = false) → s.front.pubs = []
  front : ∀ i, (s.rd i).thr = true → (s.rd i).ph.resyncing = false → (s.rd i).lf = s.front.current

theorem State.ownerInv_iff (s : State) : s.ownerInv ↔ (s.cfg.valid = true → s.Owners) := by
  have h1 : (∀ r ∈ s.readers, r.thr = false) ↔ ∀ i, (s.rd i).thr = false :=
    State.forall_readers_iff_rd (P := fun r => r.thr = false) rfl
  have h2 : (∀ r ∈ s.readers, r.thr = true → r.ph.resyncing = false → r.lf = s.front.current) ↔
      ∀ i, (s.rd i).thr = true → (s.rd i).ph.resyncing = false → (s.rd i).lf = s.front.current :=
    State.forall_readers_iff_rd (P := fun r => r.thr = true → r.ph.resyncing = false → r.lf = s.front.current)
      fun h => by cases h
  rw [State.ownerInv, h1, h2]
  exact ⟨fun h hv => let ⟨a, b, c, d⟩ := h hv; ⟨a, b, c, d⟩, fun h hv => let ⟨a, b, c, d⟩ := h hv; ⟨a, b, c, d⟩⟩

/-- A property of every reader by its number, after one was replaced. -/
theorem State.forall_rd_setRd {s : State} {i : Nat} {r : Reader} {P : Nat → Reader → Prop} (hl : i < s.readers.length)
    (hr : P i r) (h : ∀ j, j ≠ i → P j (s.rd j)) (j : Nat) : P j ((s.setRd i r).rd j) := by
  by_cases hj : j = i
  · subst hj; rw [State.rd_setRd_same hl]; exact hr
  · rw [State.rd_setRd_ne (Ne.symm hj)]; exact h j hj

/-- The throttling flags are those of before, when the replaced reader's is. -/
theorem State.thr_setRd {s : State} {i : Nat} {r : Reader} (h : r.thr = (s.rd i).thr) (j : Nat) :
    ((s.setRd i r).rd j).thr = (s.rd j).thr := by
  rw [State.rd_setRd]
  split
  · rename_i hij; rw [h, hij.1]
  · rfl

/-- What `attachInv` and `throttleInv` say where the owners' rule needs it. -/
structure State.Roles (s : State) : Prop where
  writer : ∀ t, s.w.ph = .busy t → s.w.att = true
  resync : ∀ i t lost, (s.rd i).ph = .busy t → t.point = .resync lost → (s.rd i).thr = true
  attached : ∀ i, (s.rd i).thr = true → (s.rd i).att = true
  unique : ∀ i j, (s.rd i).thr = true → (s.rd j).thr = true → i = j

theorem State.roles {s : State} (ha : s.attachInv) (ht : s.throttleInv) (hv : s.cfg.valid = true) : s.Roles := by
  obtain ⟨hw, hr⟩ := ha
  obtain ⟨hatt, hu⟩ := (State.throttleInv_iff s).mp ht hv
  refine ⟨fun t hp => by rw [hw, hp]; rfl, fun i t lost hp hpt => ?_, fun i hi => (hatt _ (State.mem_of_thr hi) hi).1, hu⟩
  exact (hr _ (State.rd_mem hp)).2 (by rw [hp]; simp [Phase.resyncing, hpt])

/-- A change of one reader that leaves its index, its throttling and its duty to publish. -/
theorem State.Owners.setRd {s : State} (h : s.Owners) {i : Nat} {r : Reader} (hl : i < s.readers.length)
    (ht : r.thr = (s.rd i).thr)
    (hr : r.thr = true → r.ph.resyncing = false → r.lf = s.front.current) : (s.setRd i r).Owners := by
  refine ⟨h.rearNew, h.rear, fun hn => h.frontNew fun j => ?_, ?_⟩
  · rw [← State.thr_setRd ht j]; exact hn j
  · exact State.forall_rd_setRd (P := fun _ r => r.thr = true → r.ph.resyncing = false → r.lf = s.front.current) hl hr
      fun j _ => h.front j

/-- The throttling reader stores `FRONT` and holds what it stored. -/
theorem State.Owners.store {s : State} (h : s.Owners) (hu : s.Roles) {i : Nat} {r : Reader} {p : Pub}
    (ht : (s.rd i).thr = true) (hr : r.thr = true) (hl : r.lf = p.value) :
    (({ s with front := s.front.push p } : State).setRd i r).Owners := by
  have hi : i < s.readers.length := by
    by_contra hn
    rw [State.rd_of_not_lt hn] at ht
    cases ht
  refine ⟨h.rearNew, h.rear, fun hn => ?_, ?_⟩
  · have := hn i
    rw [State.rd_setRd_same (by exact hi), hr] at this
    cases this
  · refine State.forall_rd_setRd (s := { s with front := _ })
      (P := fun _ r => r.thr = true → r.ph.resyncing = false → r.lf = (s.front.push p).current) hi ?_ ?_
    · rw [Cell.current_push]; exact fun _ _ => hl
    · exact fun j hj htj => absurd (hu.unique j i htj ht) hj

theorem FlowMove.owners {s t : State} (h : FlowMove False s t) (hf : s.par.foreign = false) (hx : s.cfg.valid = true → s.Roles)
    (hi : s.cfg.valid = true → s.Owners) (hv : t.cfg.valid = true) : t.Owners := by
  cases h with
  | grantWriter t g hp ht hg =>
    obtain ⟨h1, h2, h3, h4⟩ := hi hv
    exact ⟨h1, h2, h3, h4⟩
  | publishWriter t p hp ht hs =>
    obtain ⟨-, -, h3, h4⟩ := hi hv
    refine ⟨fun hn => ?_, fun _ => (Cell.current_push _ _).symm, h3, h4⟩
    cases ((hx hv).writer t hp).symm.trans hn
  | attachWriter ha hp =>
    obtain ⟨h1, -, h3, h4⟩ := hi hv
    refine ⟨nofun, fun _ => ?_, h3, h4⟩
    exact (Cell.valueAt_of_pubs (h1 ha) _).trans (Cell.current_of_pubs (h1 ha)).symm
  | grantReader i t g fill hp ht hd hg =>
    refine (hi hv).setRd (State.lt_of_busy hp) rfl ((hi hv).front i)
  | lapReader i t lost hp ht hd =>
    refine (hi hv).setRd (State.lt_of_busy hp) rfl fun hthr hn => ?_
    dsimp only at hthr hn
    rw [if_pos hthr] at hn
    cases hn
  | resyncReader i t lost p hp ht hw =>
    have hthr := (hx hv).resync i t lost hp ht
    exact (hi hv).store (hx hv) hthr hthr hw.symm
  | publishReader i t p hp ht hs =>
    by_cases hthr : (s.rd i).thr = true
    · rw [if_pos hthr]
      exact (hi hv).store (hx hv) hthr hthr rfl
    · rw [if_neg hthr]
      exact (hi hv).setRd (State.lt_of_busy hp) rfl fun h => absurd h hthr
  | attachReader i thr hm hi' hp ht =>
    have hnone : (s.rd i).thr = false := by
      refine Bool.eq_false_iff.mpr fun h => ?_
      rw [(hx hv).attached i h] at hm
      cases hm
    cases thr with
    | false => exact (hi hv).setRd hi' hnone.symm fun h => by cases h
    | true =>
      have hall : ∀ j, (s.rd j).thr = false := fun j => Bool.eq_false_iff.mpr fun h => by
        rw [State.noOtherThrottles_iff.mp (ht rfl).2 j h, hnone] at h
        cases h
      obtain ⟨h1, h2, h3, -⟩ := hi hv
      have hpub := h3 hall
      refine ⟨h1, h2, fun _ => hpub, ?_⟩
      refine State.forall_rd_setRd (P := fun _ r => r.thr = true → r.ph.resyncing = false → r.lf = s.front.current) hi' ?_ ?_
      · exact fun _ _ => (Cell.valueAt_of_pubs hpub _).trans (Cell.current_of_pubs hpub).symm
      · exact fun j _ h => by rw [hall j] at h; cases h
  | storePeer c p hf' => rw [hf] at hf'; cases hf'
  | initCell c hi' => exact hi'.elim
  | construct n size thr ext hm =>
    have hall : ∀ j, ((s.constructed n size thr ext).rd j).thr = false := by
      refine (State.forall_readers_iff_rd (P := fun r => r.thr = false) rfl).mp fun r h => ?_
      obtain ⟨r0, -, rfl⟩ := State.mem_constructed h
      rfl
    exact ⟨fun _ => rfl, nofun, fun _ => rfl, fun j h => absurd h (by rw [hall j]; decide)⟩

theorem State.Quiet.owners {s t : State} (h : s.Quiet t) (hi : s.Owners) : t.Owners := by
  obtain ⟨h1, h2, h3, h4⟩ := hi
  refine ⟨?_, ?_, fun hn => ?_, fun i => ?_⟩
  · rw [h.writer.att, h.rear]; exact h1
  · rw [h.writer.att, h.writer.lr, h.rear]; exact h2
  · rw [h.front]; exact h3 fun i => (h.reader i).thr ▸ hn i
  · rw [(h.reader i).thr, (h.reader i).resyncing, (h.reader i).lf, h.front]; exact h4 i

theorem Move.ownerInv {s t : State} (h : Move False s t) (hf : s.par.foreign = false) (ha : s.attachInv) (ht : s.throttleInv)
    (hi : s.ownerInv) : t.ownerInv := by
  rw [State.ownerInv_iff] at hi ⊢
  rcases h.quiet_or_flow with hq | hm
  · exact fun hv => hq.owners (hi (hq.cfg ▸ hv))
  · exact hm.owners hf (State.roles ha ht) hi

/-- Settles O57: the owner stores its cell and advances its local index in one change, and nobody else stores the cell. -/
theorem stepKeepsOwnersInStepWithCells : Obligations.StepKeepsOwnersInStepWithCells := fun _ _ hf hn ha ht ho h => by
  obtain ⟨hn', -, -, ho'⟩ := step_keeps_of_moves_alone (I := fun s => s.attachInv ∧ s.throttleInv ∧ s.ownerInv)
    (fun hm hf ⟨ha, ht, ho⟩ => ⟨hm.attachInv ha, hm.throttleInv ht, hm.ownerInv hf ha ht ho⟩) hf hn ⟨ha, ht, ho⟩ h
  exact ⟨hn', ho'⟩

/-! ### The forms of the indices (R55 (1), R169) -/

/-- The slot field of a sum of words. -/
theorem CfgRegs.slotNat_add_ofNat (c : CfgRegs) (x : Word) (k : Nat) :
    c.slotNat (x + BitVec.ofNat 32 k) = (c.slotNat x + k) % c.pow := by
  rw [CfgRegs.slotNat_eq, CfgRegs.slotNat_eq, BitVec.toNat_add, BitVec.toNat_ofNat, Nat.add_mod_mod,
    Nat.mod_mod_of_dvd _ c.pow_dvd, Nat.mod_add_mod]

theorem CfgRegs.wellFormed_iff_slotNat (c : CfgRegs) (x : Word) : c.wellFormed x = true ↔ c.slotNat x < c.cap := by
  simp [CfgRegs.wellFormed]

theorem CfgRegs.wellFormed_zero {c : CfgRegs} (h : c.legal = true) : c.wellFormed 0 = true := by
  obtain ⟨h1, -⟩ := c.legal_iff.mp h
  rw [CfgRegs.wellFormed_iff, show (0 : Word).toNat = 0 from rfl, Nat.zero_mod]
  exact h1

/-- `SUM` answers a well-formed index: it skips the unused slots (R172). -/
theorem CfgRegs.wellFormed_of_sum {c : CfgRegs} {x y : Word} {k : Nat} (hk : k ≤ c.cap) (h : c.sum x k = some y) :
    c.wellFormed y = true := by
  have hpow := c.pow_add_fudge
  rcases c.sum_spec x k with ⟨-, e⟩ | ⟨-, hlt, e⟩ | ⟨hw, hge, e⟩
  · rw [h] at e; cases e
  · rw [h] at e; cases e
    rw [CfgRegs.wellFormed_iff_slotNat, CfgRegs.slotNat_add_ofNat, Nat.mod_eq_of_lt (by omega)]
    exact hlt
  · rw [h] at e; cases e
    rw [CfgRegs.wellFormed_iff_slotNat] at hw ⊢
    rw [CfgRegs.slotNat_add_ofNat, show c.slotNat x + (k + c.fudge) = c.slotNat x + k - c.cap + c.pow by omega,
      Nat.add_mod_right, Nat.mod_eq_of_lt (by omega)]
    omega

/-- `BACK` keeps the slot. -/
theorem CfgRegs.wellFormed_of_back {c : CfgRegs} {x y : Word} (h : c.back x = some y) : c.wellFormed y = true := by
  rcases c.back_spec x with ⟨-, e⟩ | ⟨hw, e⟩
  · rw [h] at e; cases e
  · rw [h] at e; cases e
    rw [CfgRegs.wellFormed_iff_slotNat] at hw ⊢
    have hs : c.slotNat x = (c.slotNat (x - BitVec.ofNat 32 c.pow) + c.pow) % c.pow := by
      rw [← CfgRegs.slotNat_add_ofNat, BitVec.sub_add_cancel]
    rwa [hs, Nat.add_mod_right, Nat.mod_eq_of_lt (CfgRegs.slotNat_lt _ _)] at hw

/-- `indexInv` of a constructed FIFO that embeds its cells. -/
structure State.Indices (s : State) : Prop where
  rear : ∀ v ∈ s.rear.hist, s.cfg.wellFormed v = true
  front : s.cfg.thr = true → ∀ v ∈ s.front.hist, s.cfg.wellFormed v = true
  writer : s.cfg.wellFormed s.w.lr = true
  reader : ∀ r ∈ s.readers, s.cfg.wellFormed r.lf = true

/-- What is stored in a cell is well-formed, if all before was. -/
theorem Cell.forall_hist_push {x : Cell} {P : Word → Prop} (h : ∀ v ∈ x.hist, P v) {p : Pub} (hp : P p.value) :
    ∀ v ∈ (x.push p).hist, P v := fun v hv => by
  rw [Cell.hist_push] at hv
  rcases List.mem_append.mp hv with hm | hm
  · exact h v hm
  · rw [List.mem_singleton.mp hm]; exact hp

theorem State.Indices.setRd {s : State} (h : s.Indices) {i : Nat} {r : Reader} (hr : s.cfg.wellFormed r.lf = true) :
    (s.setRd i r).Indices :=
  ⟨h.rear, h.front, h.writer, State.forall_setRd h.reader hr⟩

theorem FlowMove.indices {init : Prop} {s t : State} (h : FlowMove init s t) (hf : s.par.foreign = false) (hl : s.levelsInv)
    (hi : s.cfg.valid = true → s.cfg.ext = false → s.Indices) (hv : t.cfg.valid = true) (he : t.cfg.ext = false) :
    t.Indices := by
  rw [State.levelsInv_iff] at hl
  cases h with
  | grantWriter t g hp ht hg =>
    obtain ⟨h1, h2, h3, h4⟩ := hi hv he
    exact ⟨h1, h2, h3, h4⟩
  | publishWriter t p hp ht hs =>
    obtain ⟨-, ⟨⟨-, -, -, -, hobt⟩, hk⟩, -⟩ := hl hv
    obtain ⟨h1, h2, -, h4⟩ := hi hv he
    rw [hp, Phase.pending_of_publish ht] at hk
    have hw := CfgRegs.wellFormed_of_sum (Nat.le_trans hk hobt) hs
    exact ⟨Cell.forall_hist_push h1 hw, h2, hw, h4⟩
  | attachWriter ha hp =>
    obtain ⟨h1, h2, -, h4⟩ := hi hv he
    exact ⟨h1, h2, h1 _ (Cell.valueAt_mem _ _), h4⟩
  | grantReader i t g fill hp ht hd hg =>
    have hlf := (hi hv he).reader _ (State.rd_mem hp)
    exact (hi hv he).setRd hlf
  | lapReader i t lost hp ht hd =>
    refine (hi hv he).setRd ?_
    dsimp only
    cases hb : s.cfg.back (s.rear.valueAt (s.rd i).obs.posRear) with
    | none => exact (hi hv he).reader _ (State.rd_mem hp)
    | some y => exact CfgRegs.wellFormed_of_back hb
  | resyncReader i t lost p hp ht hw =>
    obtain ⟨h1, h2, h3, h4⟩ := hi hv he
    have hlf := h4 _ (State.rd_mem hp)
    have hx : ({ s with front := s.front.push p } : State).Indices :=
      ⟨h1, fun hthr => Cell.forall_hist_push (h2 hthr) (by rw [hw]; exact hlf), h3, h4⟩
    exact hx.setRd hlf
  | publishReader i t p hp ht hs =>
    obtain ⟨-, -, hr⟩ := hl hv
    obtain ⟨⟨-, -, hobt⟩, hk⟩ := hr _ (State.rd_mem hp)
    obtain ⟨h1, h2, h3, h4⟩ := hi hv he
    rw [hp, Phase.pending_of_publish ht] at hk
    have hw := CfgRegs.wellFormed_of_sum (Nat.le_trans hk hobt) hs
    have hx : ({ s with front := if (s.rd i).thr then s.front.push p else s.front } : State).Indices := by
      refine ⟨h1, fun hthr => ?_, h3, h4⟩
      dsimp only
      split
      · exact Cell.forall_hist_push (h2 hthr) hw
      · exact h2 hthr
    exact hx.setRd hw
  | attachReader i thr hm hi' hp ht =>
    refine (hi hv he).setRd ?_
    dsimp only
    split
    · exact (hi hv he).front (ht ‹_›).1 _ (Cell.valueAt_mem _ _)
    · exact (hi hv he).rear _ (Cell.valueAt_mem _ _)
  | storePeer c p hf' => rw [hf] at hf'; cases hf'
  | initCell c hi' =>
    have h0 : s.cfg.legal = true → ∀ v ∈ (Cell.restart 0).hist, s.cfg.wellFormed v = true := fun hleg v hm => by
      rw [Cell.hist_restart, List.mem_singleton] at hm
      rw [hm]; exact CfgRegs.wellFormed_zero hleg
    have hx : (s.setCell c (Cell.restart 0)).Indices := by
      cases c with
      | rear => exact { hi hv he with rear := h0 (hl hv).1 }
      | front => exact { hi hv he with front := fun _ => h0 (hl hv).1 }
    refine ⟨hx.rear, hx.front, hx.writer, fun r hr => ?_⟩
    obtain ⟨r0, hr0, rfl⟩ := State.mem_restartPos hr
    exact hx.reader r0 hr0
  | construct n size thr ext hm =>
    have h0 := CfgRegs.wellFormed_zero (State.constructed_legal hm)
    obtain rfl : ext = false := he
    have hh : ∀ x : Cell, ∀ v ∈ (x.constructed true).hist, (s.constructed n size thr false).cfg.wellFormed v = true :=
      fun x v hm => by rw [List.mem_singleton.mp hm]; exact h0
    refine ⟨hh s.rear, fun hthr => ?_, h0, fun r hr => ?_⟩
    · obtain rfl : thr = true := hthr
      exact hh s.front
    · obtain ⟨r0, -, rfl⟩ := State.mem_constructed hr
      exact h0

theorem State.Quiet.indices {s t : State} (h : s.Quiet t) (hi : s.Indices) : t.Indices := by
  obtain ⟨h1, h2, h3, h4⟩ := hi
  refine ⟨by rw [h.cfg, h.rear]; exact h1, by rw [h.cfg, h.front]; exact h2, by rw [h.cfg, h.writer.lr]; exact h3, ?_⟩
  rw [h.cfg]
  exact h.forall_readers (fun r r' hq hr => by rw [hq.lf]; exact hr) h4

theorem State.indexInv_iff {s : State} (hl : s.levelsInv) :
    s.indexInv ↔ (s.cfg.valid = true → s.cfg.ext = false → s.Indices) :=
  ⟨fun h hv he => let ⟨_, a, b, c, d⟩ := h hv he; ⟨a, b, c, d⟩,
    fun h hv he => let ⟨a, b, c, d⟩ := h hv he; ⟨(hl hv).1, a, b, c, d⟩⟩

theorem Move.indexInv {init : Prop} {s t : State} (h : Move init s t) (hf : s.par.foreign = false) (hl : s.levelsInv)
    (hi : s.indexInv) : t.indexInv := by
  rw [State.indexInv_iff hl] at hi
  rw [State.indexInv_iff (h.levelsInv hl)]
  rcases h.quiet_or_flow with hq | hm
  · exact fun hv he => hq.indices (hi (hq.cfg ▸ hv) (hq.cfg ▸ he))
  · exact hm.indices hf hl hi

/-- Settles O58: what an owner stores is what `SUM` or `BACK` answered, and both answer well-formed indices. -/
theorem stepKeepsIndicesWellFormed : Obligations.StepKeepsIndicesWellFormed := fun _ _ hf hl hi h =>
  (step_keeps_of_moves (init := True) (I := fun s => s.par.foreign = false ∧ s.levelsInv ∧ s.indexInv)
    (fun _ _ _ _ _ _ => trivial)
    (fun hm ⟨h1, h2, h3⟩ => ⟨hm.par ▸ h1, hm.levelsInv h2, hm.indexInv h1 h2 h3⟩) ⟨hf, hl, hi⟩ h).2.2

end Sys2Proof.Machine
end

