-- ==== Sys2Proof/Proofs/State/LocalIndices.lean ====
section
/-! PROOF. The local indices never go back: 10_state R47, 70_reset R349 (P1). -/

open Sys2Proof Sys2Proof.Machine

namespace Sys2Proof.Machine

/-! ### Index arithmetic -/

/-- A word is not behind one that lies less than half the words before it. -/
theorem rawDelta_nonneg_of_add {x : Word} {k : Nat} (h : k < 2 ^ 31) : 0 ≤ rawDelta (x + BitVec.ofNat 32 k) x := by
  rw [rawDelta_nonneg_iff, BitVec.add_comm, BitVec.add_sub_cancel, BitVec.toNat_ofNat]
  omega

theorem rawDelta_self (x : Word) : rawDelta x x = 0 := by simp [rawDelta]

/-- `SUM` goes forward (R172). -/
theorem CfgRegs.rawDelta_of_sum {c : CfgRegs} (hl : c.legal = true) {x y : Word} {k : Nat} (hk : k ≤ c.cap)
    (h : c.sum x k = some y) : 0 ≤ rawDelta y x := by
  obtain ⟨h1, -, -, h30⟩ := c.legal_iff.mp hl
  have hf := CfgRegs.fudge_lt h1
  rcases c.sum_spec x k with ⟨-, e⟩ | ⟨-, -, e⟩ | ⟨-, -, e⟩
  · rw [h] at e; cases e
  · rw [h] at e; cases e; exact rawDelta_nonneg_of_add (by omega)
  · rw [h] at e; cases e; exact rawDelta_nonneg_of_add (by omega)

/-- An index is its generation and its slot (R169). -/
theorem CfgRegs.toNat_eq (c : CfgRegs) (x : Word) : x.toNat = c.pow * (x.toNat / c.pow) + c.slotNat x := by
  rw [CfgRegs.slotNat_eq, Nat.div_add_mod]

/-- No boundary lies between indices of one generation only (R175). -/
theorem CfgRegs.gen_eq_of_sweeps {c : CfgRegs} {rear front : Word} (h : c.sweeps rear front = 0) :
    rear.toNat / c.pow = front.toNat / c.pow := by
  rw [CfgRegs.sweeps_eq] at h
  have hr := c.gen_lt rear
  have hf := c.gen_lt front
  generalize rear.toNat / c.pow = r at *
  generalize front.toNat / c.pow = f at *
  generalize c.gens = g at *
  rcases Nat.lt_or_ge r f with hlt | hge
  · rw [Nat.mod_eq_of_lt (by omega)] at h
    omega
  · rw [show r + g - f = r - f + g by omega, Nat.add_mod_right, Nat.mod_eq_of_lt (by omega)] at h
    omega

/-- A reader that more than `N` frames were lost for is more than one `P` behind (R175, R177). -/
theorem CfgRegs.pow_lt_of_overflow {c : CfgRegs} (hl : c.legal = true) {rear front : Word} {lost : Nat}
    (h : c.diff rear front true = .overflow lost) : c.pow < (rear - front).toNat ∧ (rear - front).toNat < 2 ^ 31 := by
  obtain ⟨h1, -, -, h30⟩ := c.legal_iff.mp hl
  have hpow := c.pow_add_fudge
  rcases c.diff_spec rear front true with ⟨-, e⟩ | ⟨hwr, hwf, ⟨-, e⟩ | ⟨hd, hgt, -⟩ | ⟨-, -, e⟩⟩
  · rw [h] at e; cases e
  · rw [h] at e; cases e
  · have hlt := (rawDelta_nonneg_iff rear front).mp hd
    refine ⟨?_, hlt⟩
    rw [CfgRegs.frames, rawDelta_eq, if_pos hlt] at hgt
    rcases Nat.eq_zero_or_pos (c.sweeps rear front) with hz | hpos
    · have hg := CfgRegs.gen_eq_of_sweeps hz
      have er := c.toNat_eq rear
      have ef := c.toNat_eq front
      rw [CfgRegs.wellFormed_iff_slotNat] at hwr hwf
      have hr := rear.isLt
      have hf := front.isLt
      rw [hz] at hgt
      rw [BitVec.toNat_sub] at hlt hgt
      rw [hg] at er
      generalize c.pow * (front.toNat / c.pow) = q at *
      omega
    · have hmul : c.fudge ≤ c.sweeps rear front * c.fudge := Nat.le_mul_of_pos_left _ hpos
      have hz : (c.cap : Int) + (c.sweeps rear front * c.fudge : Nat) < ((rear - front).toNat : Int) := by
        push_cast
        omega
      omega
  · rw [h] at e; cases e

/-- One `P` back from the rear is not behind a front that was lapped (R178, R255). -/
theorem CfgRegs.rawDelta_of_back {c : CfgRegs} (hl : c.legal = true) {rear front y : Word} {lost : Nat}
    (h : c.diff rear front true = .overflow lost) (hb : c.back rear = some y) : 0 ≤ rawDelta y front := by
  obtain ⟨hgt, hlt⟩ := CfgRegs.pow_lt_of_overflow hl h
  rcases c.back_spec rear with ⟨-, e⟩ | ⟨-, e⟩
  · rw [hb] at e; cases e
  · rw [hb] at e; cases e
    have hsub : rear - BitVec.ofNat 32 c.pow - front = (rear - front) - BitVec.ofNat 32 c.pow := by
      simp only [BitVec.sub_eq_add_neg, BitVec.add_assoc, BitVec.add_comm (-_) (-_)]
    rw [rawDelta_nonneg_iff, hsub, Word.toNat_sub_ofNat (Nat.le_of_lt hgt)]
    omega

/-! ### Which step changes a local index -/

theorem State.grantWriter_lr (s : State) (t : Task) (g : Nat) : (s.grantWriter t g).w.lr = s.w.lr := by
  unfold State.grantWriter
  generalize hs : ({ s with w := { s.w with obt := BitVec.ofNat 32 g } } : State) = s1
  obtain ⟨k, cs, n, -, hf⟩ := s1.fragments_spec s1.w.lr g
  have e : s1.w.lr = s.w.lr := by rw [← hs]
  simp only [hf]
  cases t.op with
  | transfer => dsimp only; split <;> exact e
  | _ => exact e

theorem State.loadWriter_lr (s : State) (t : Task) : (s.loadWriter t).w.lr = s.w.lr := by
  have e := State.ldaq_w_lr s .writer .front
  unfold State.loadWriter
  dsimp only
  split
  · split
    · split
      · exact e
      · rw [State.grantWriter_lr, e]
    · exact e
  · rw [State.grantWriter_lr]

theorem State.waitWriter_lr (s : State) (t : Task) (e : Word) : (s.waitWriter t e).w.lr = s.w.lr := by
  unfold State.waitWriter
  split
  · exact State.readNow_w_lr s .writer .front
  · exact State.readParking_w_lr s .writer .front

theorem State.copyByteWriter_lr (s : State) (t : Task) (j : Nat) : (s.copyByteWriter t j).w.lr = s.w.lr := by
  have hb : ∀ p : Byte × State, p.2.w = s.w →
      (if t.byteOff j < s.cfg.bytes then p.2.storeByte .writer (t.byteOff j) p.1 else p.2).w.lr = s.w.lr := fun p hp => by
    split
    · rw [State.storeByte_w_lr, hp]
    · rw [hp]
  unfold State.copyByteWriter
  split
  · exact hb (_, s) rfl
  · exact hb _ (State.freeByte_w s)

theorem State.copyWriter_lr (s : State) (t : Task) (left : List Nat) : (s.copyWriter t left).w.lr = s.w.lr := by
  have e : (s.pick left.length).2.w.lr = s.w.lr := by rw [State.pick_w]
  unfold State.copyWriter
  dsimp only
  split
  · exact (State.copyByteWriter_lr _ t _).trans e
  · exact e

theorem State.releasedWriter_lr (s : State) (t : Task) (failed : Bool) : (s.releasedWriter t failed).w.lr = s.w.lr := by
  unfold State.releasedWriter
  cases t.op with
  | transfer => dsimp only; split <;> rfl
  | _ => rfl

theorem State.freshWriter_lr (s : State) (t : Task) : (s.freshWriter t).w.lr = s.w.lr := by
  have e := State.ldaq_w_lr s .writer .front
  unfold State.freshWriter
  dsimp only
  split
  · split
    · exact e
    · exact (State.releasedWriter_lr _ t _).trans e
  · exact (State.releasedWriter_lr _ t _).trans e

theorem State.publishWriter_lr (s : State) (t : Task) :
    (s.publishWriter t).w.lr = (s.cfg.sum s.w.lr t.grant).getD s.w.lr := by
  unfold State.publishWriter
  cases s.cfg.sum s.w.lr t.grant with
  | none => exact State.releasedWriter_lr s t true
  | some nr =>
    dsimp only
    split
    · exact State.strl_w_lr _ .writer .rear nr
    · exact (State.releasedWriter_lr _ t _).trans (State.strl_w_lr _ .writer .rear nr)

/-- The writer's local index stays, or it is what `SUM` answers for the frames published. -/
theorem State.stepWriter_lr (s : State) : s.stepWriter.w.lr = s.w.lr ∨
    ∃ t, s.w.ph = .busy t ∧ t.point = .publish ∧ s.cfg.sum s.w.lr t.grant = some s.stepWriter.w.lr := by
  cases hp : s.w.ph with
  | busy t =>
    unfold State.stepWriter
    rw [hp]
    dsimp only
    cases ht : t.point with
    | load => exact .inl (s.loadWriter_lr t)
    | wait e => exact .inl (s.waitWriter_lr t e)
    | copy left => exact .inl (s.copyWriter_lr t left)
    | publish =>
      dsimp only
      rw [s.publishWriter_lr t]
      cases hs : s.cfg.sum s.w.lr t.grant with
      | none => exact .inl rfl
      | some nr => exact .inr ⟨t, rfl, ht, hs⟩
    | fresh => exact .inl (s.freshWriter_lr t)
    | wake fill => exact .inl ((State.releasedWriter_lr _ t _).trans (State.wakeOwn_w_lr s .writer .rear))
    | resync lost => exact .inl rfl
  | _ => unfold State.stepWriter; rw [hp]; exact .inl rfl

/-- The local index of a reader that is replaced. -/
theorem State.setRd_lf {s : State} {i : Nat} {r : Reader} (h : r.lf = (s.rd i).lf) : ((s.setRd i r).rd i).lf = (s.rd i).lf := by
  rw [State.rd_setRd]
  split
  · exact h
  · rfl

theorem State.endReader_lf (s : State) (i : Nat) (r : Response) : ((s.endReader i r).rd i).lf = (s.rd i).lf :=
  State.setRd_lf rfl

theorem State.goReader_lf (s : State) (i : Nat) (t : Task) : ((s.goReader i t).rd i).lf = (s.rd i).lf :=
  State.setRd_lf rfl

theorem State.grantReader_lf (s : State) (i : Nat) (t : Task) (g : Nat) : ((s.grantReader i t g).rd i).lf = (s.rd i).lf := by
  have e : ((s.setRd i { s.rd i with obt := BitVec.ofNat 32 g }).rd i).lf = (s.rd i).lf := State.setRd_lf rfl
  unfold State.grantReader
  cases t.op with
  | transfer =>
    dsimp only
    split
    · exact (State.endReader_lf _ i _).trans e
    · exact (State.goReader_lf _ i _).trans e
  | _ => exact (State.endReader_lf _ i _).trans e

/-- Loading `REAR` leaves the reader's local index, or goes one generation back from the rear that laps it. -/
theorem State.loadReader_lf (s : State) (i : Nat) (t : Task) : ((s.loadReader i t).rd i).lf = (s.rd i).lf ∨
    ∃ v lost, s.cfg.diff v (s.rd i).lf true = .overflow lost ∧
      ((s.loadReader i t).rd i).lf = (s.cfg.back v).getD (s.rd i).lf := by
  have e := State.ldaq_rd_lf s (.reader i) .rear i
  have hc := State.ldaq_cfg s (.reader i) .rear
  unfold State.loadReader
  dsimp only
  generalize (s.ldaq (.reader i) .rear).1 = v at *
  generalize (s.ldaq (.reader i) .rear).2 = s1 at *
  rw [← e, ← hc]
  split
  · exact .inl (State.endReader_lf _ i _)
  · rename_i lost hd
    refine or_iff_not_imp_left.mpr fun hne => ⟨v, lost, hd, ?_⟩
    generalize hr : ({ s1.rd i with lf := (s1.cfg.back v).getD (s1.rd i).lf, lost := BitVec.ofNat 32 lost } : Reader) = r at *
    have hset : ((s1.setRd i r).rd i).lf = (s1.rd i).lf ∨ ((s1.setRd i r).rd i).lf = (s1.cfg.back v).getD (s1.rd i).lf := by
      rw [State.rd_setRd]
      split
      · exact .inr (by rw [← hr])
      · exact .inl rfl
    split at hne <;> rename_i hthr
    · rw [if_pos hthr]
      rw [State.goReader_lf] at hne ⊢
      exact hset.resolve_left hne
    · rw [if_neg hthr]
      rw [State.failReader, State.endReader_lf] at hne ⊢
      exact hset.resolve_left hne
  · split
    · exact .inl (State.goReader_lf _ i _)
    · exact .inl (State.grantReader_lf _ i t _)

theorem State.resyncReader_lf (s : State) (i : Nat) (t : Task) (lost : Nat) :
    ((s.resyncReader i t lost).rd i).lf = (s.rd i).lf :=
  (State.endReader_lf _ i _).trans (State.strl_rd_lf s (.reader i) .front _ i)

theorem State.waitReader_lf (s : State) (i : Nat) (t : Task) (e : Word) : ((s.waitReader i t e).rd i).lf = (s.rd i).lf := by
  unfold State.waitReader
  split
  · exact (State.goReader_lf _ i _).trans (State.readNow_rd_lf s (.reader i) .rear i)
  · refine Eq.trans ?_ (State.readParking_rd_lf s (.reader i) .rear i)
    exact State.setRd_lf (s := (s.readParking (.reader i) .rear).enqueue (.reader i) .rear) rfl

theorem State.copyReader_lf (s : State) (i : Nat) (t : Task) (left : List Nat) :
    ((s.copyReader i t left).rd i).lf = (s.rd i).lf := by
  have e : (s.pick left.length).2.rd i = s.rd i := State.rd_congr (State.pick_readers _ _) i
  unfold State.copyReader
  dsimp only
  split
  · refine (State.goReader_lf _ i _).trans ?_
    rw [State.rd_congr (State.loadByte_readers _ _ _), e]
  · exact (State.goReader_lf _ i _).trans (congrArg Reader.lf e)

theorem State.releasedReader_lf (s : State) (i : Nat) (t : Task) (failed : Bool) :
    ((s.releasedReader i t failed).rd i).lf = (s.rd i).lf := by
  have e : ((s.setRd i { s.rd i with obt := 0 }).rd i).lf = (s.rd i).lf := State.setRd_lf rfl
  unfold State.releasedReader
  cases t.op with
  | transfer =>
    dsimp only
    split
    · exact (State.endReader_lf _ i _).trans e
    · refine (State.goReader_lf _ i _).trans (Eq.trans ?_ e)
      exact State.setRd_lf rfl
  | _ => exact State.endReader_lf s i _

theorem State.armReader_lf (s : State) (i fill : Nat) : ((s.armReader i fill).rd i).lf = (s.rd i).lf := State.setRd_lf rfl

theorem State.freshReader_lf (s : State) (i : Nat) (t : Task) : ((s.freshReader i t).rd i).lf = (s.rd i).lf := by
  have e := State.ldaq_rd_lf s (.reader i) .rear i
  unfold State.freshReader
  dsimp only
  split
  · exact (State.releasedReader_lf _ i t _).trans e
  · exact (State.releasedReader_lf _ i t _).trans e
  · split
    · exact (State.goReader_lf _ i _).trans e
    · exact (State.releasedReader_lf _ i t _).trans ((State.armReader_lf _ i _).trans e)

theorem State.publishReader_lf {s : State} {i : Nat} (hi : i < s.readers.length) (t : Task) :
    ((s.publishReader i t).rd i).lf = (s.cfg.sum (s.rd i).lf t.grant).getD (s.rd i).lf := by
  unfold State.publishReader
  dsimp only
  cases s.cfg.sum (s.rd i).lf t.grant with
  | none => exact State.releasedReader_lf s i t true
  | some nf =>
    have e := congrArg Reader.lf (State.rd_setRd_same hi
      { s.rd i with lf := nf, obt := (s.rd i).obt - BitVec.ofNat 32 t.grant })
    dsimp only
    split
    · exact (State.goReader_lf _ i _).trans ((State.strl_rd_lf _ (.reader i) .front nf i).trans e)
    · exact (State.releasedReader_lf _ i t _).trans e

/-- A reader's local index stays, or it is what `SUM` answers for the frames consumed, or what `BACK` answers for a rear that
laps it. -/
theorem State.stepReader_lf (s : State) (i : Nat) : ((s.stepReader i).rd i).lf = (s.rd i).lf ∨
    (∃ t, (s.rd i).ph = .busy t ∧ t.point = .publish ∧ s.cfg.sum (s.rd i).lf t.grant = some ((s.stepReader i).rd i).lf) ∨
    ∃ v lost, s.cfg.diff v (s.rd i).lf true = .overflow lost ∧
      ((s.stepReader i).rd i).lf = (s.cfg.back v).getD (s.rd i).lf := by
  cases hp : (s.rd i).ph with
  | busy t =>
    unfold State.stepReader
    rw [hp]
    dsimp only
    cases ht : t.point with
    | load => exact (s.loadReader_lf i t).imp_right .inr
    | wait e => exact .inl (s.waitReader_lf i t e)
    | resync lost => exact .inl (s.resyncReader_lf i t lost)
    | copy left => exact .inl (s.copyReader_lf i t left)
    | publish =>
      dsimp only
      rw [State.publishReader_lf (State.lt_of_busy hp) t]
      cases hs : s.cfg.sum (s.rd i).lf t.grant with
      | none => exact .inl rfl
      | some nf => exact .inr (.inl ⟨t, rfl, ht, hs⟩)
    | fresh => exact .inl (s.freshReader_lf i t)
    | wake fill =>
      exact .inl ((State.releasedReader_lf _ i t _).trans ((State.armReader_lf _ i fill).trans
        (State.wakeOwn_rd_lf s (.reader i) .front i)))
  | _ => unfold State.stepReader; rw [hp]; exact .inl rfl

/-- Settles O52: a local index moves by a `SUM` of at most `N` frames, or by one `BACK` over more than a whole `P`. -/
theorem localIndicesNeverGoBack : Obligations.LocalIndicesNeverGoBack := by
  intro s hl hv
  obtain ⟨hleg, ⟨⟨-, -, -, -, hobt⟩, hk⟩, hr⟩ := (State.levelsInv_iff s).mp hl hv
  refine ⟨?_, fun i => ?_⟩
  · rcases s.stepWriter_lr with e | ⟨t, hp, ht, hs⟩
    · rw [e, rawDelta_self]
    · rw [hp, Phase.pending_of_publish ht] at hk
      exact CfgRegs.rawDelta_of_sum hleg (Nat.le_trans hk hobt) hs
  · rcases s.stepReader_lf i with e | ⟨t, hp, ht, hs⟩ | ⟨v, lost, hd, e⟩
    · rw [e, rawDelta_self]
    · obtain ⟨⟨-, -, hobt'⟩, hk'⟩ := hr _ (State.rd_mem hp)
      rw [hp, Phase.pending_of_publish ht] at hk'
      exact CfgRegs.rawDelta_of_sum hleg (Nat.le_trans hk' hobt') hs
    · rw [e]
      cases hb : s.cfg.back v with
      | none => exact (rawDelta_self _).ge
      | some y => exact CfgRegs.rawDelta_of_back hleg hd hb

end Sys2Proof.Machine
end

