-- ==== Sys2Proof/Proofs/State/FrameNumbers.lean ====
section
/-! PROOF. Indices as frame numbers, cells as lists of them, and the positions of the observers: 41_base_arith R169 to R175,
10_state R50. -/

open Sys2Proof Sys2Proof.Machine

namespace Sys2Proof.Machine

/-! ### Raw indices of frame numbers (R169, R172, R175) -/

/-- A frame number's raw index exceeds it by the unused slots of the generations passed. -/
theorem CfgRegs.rawOf_eq (c : CfgRegs) (m : Nat) : c.rawOf m = BitVec.ofNat 32 (m + m / c.cap * c.fudge) := by
  have hdiv := Nat.div_add_mod m c.cap
  have hmul : m / c.cap * c.pow = c.cap * (m / c.cap) + m / c.cap * c.fudge := by
    rw [← c.pow_add_fudge]; ring
  rw [CfgRegs.rawOf]
  congr 1
  omega

theorem CfgRegs.rawOf_zero (c : CfgRegs) : c.rawOf 0 = 0 := by simp [CfgRegs.rawOf]

theorem CfgRegs.slotNat_rawOf {c : CfgRegs} (h : c.legal = true) (m : Nat) : c.slotNat (c.rawOf m) = m % c.cap := by
  obtain ⟨h1, -⟩ := c.legal_iff.mp h
  have hm := Nat.mod_lt m h1
  have hp := c.cap_le_pow
  rw [CfgRegs.slotNat_eq, CfgRegs.rawOf, BitVec.toNat_ofNat, Nat.mod_mod_of_dvd _ c.pow_dvd, Nat.mul_add_mod_self_right,
    Nat.mod_eq_of_lt (by omega)]

theorem CfgRegs.wellFormed_rawOf {c : CfgRegs} (h : c.legal = true) (m : Nat) : c.wellFormed (c.rawOf m) = true := by
  rw [CfgRegs.wellFormed_iff_slotNat, CfgRegs.slotNat_rawOf h]
  exact Nat.mod_lt m (c.legal_iff.mp h).1

theorem CfgRegs.gen_rawOf {c : CfgRegs} (h : c.legal = true) (m : Nat) :
    (c.rawOf m).toNat / c.pow = m / c.cap % c.gens := by
  obtain ⟨h1, -⟩ := c.legal_iff.mp h
  have hm := Nat.mod_lt m h1
  have hp := c.cap_le_pow
  rw [CfgRegs.rawOf, BitVec.toNat_ofNat, ← c.pow_mul_gens, Nat.mod_mul_right_div_self, Nat.add_comm,
    Nat.add_mul_div_right _ _ c.pow_pos, Nat.div_eq_of_lt (by omega), Nat.zero_add]

/-- The generation `k` frames on, for at most `N` of them. -/
theorem div_add_of_le {n m k : Nat} (hn : 1 ≤ n) (hk : k ≤ n) :
    (m + k) / n = m / n + if n ≤ m % n + k then 1 else 0 := by
  have hm := Nat.mod_lt m hn
  have hdiv := Nat.div_add_mod m n
  split
  · rw [show m + k = m % n + k - n + n * (m / n + 1) by rw [Nat.mul_add]; omega, Nat.add_mul_div_left _ _ hn,
      Nat.div_eq_of_lt (by omega), Nat.zero_add]
  · rw [show m + k = m % n + k + n * (m / n) by omega, Nat.add_mul_div_left _ _ hn, Nat.div_eq_of_lt (by omega),
      Nat.zero_add, Nat.add_zero]

/-- `SUM` counts frames. -/
theorem CfgRegs.sum_rawOf {c : CfgRegs} (h : c.legal = true) {m k : Nat} (hk : k ≤ c.cap) :
    c.sum (c.rawOf m) k = some (c.rawOf (m + k)) := by
  obtain ⟨h1, -⟩ := c.legal_iff.mp h
  rw [CfgRegs.sum, if_pos (CfgRegs.wellFormed_rawOf h m), CfgRegs.slotNat_rawOf h, CfgRegs.rawOf_eq, CfgRegs.rawOf_eq,
    div_add_of_le h1 hk, ← BitVec.ofNat_add]
  split
  · rw [Nat.add_mul]; congr 2; omega
  · rw [Nat.add_zero]; congr 2; omega

/-- The boundaries between two frames at most `N` apart. -/
theorem CfgRegs.sweeps_rawOf {c : CfgRegs} (h : c.legal = true) {n k : Nat} (hk : k ≤ c.cap) :
    c.sweeps (c.rawOf (n + k)) (c.rawOf n) = (n + k) / c.cap - n / c.cap := by
  obtain ⟨h1, -, -, h30⟩ := c.legal_iff.mp h
  have hg : 2 ≤ c.gens := by
    have hx := CfgRegs.pexp_le_30 h30
    exact Nat.pow_le_pow_right (n := 2) (by decide) (show 1 ≤ 32 - c.pexp by omega)
  rw [CfgRegs.sweeps_eq, CfgRegs.gen_rawOf h, CfgRegs.gen_rawOf h, div_add_of_le h1 hk]
  have hq := Nat.mod_lt (n / c.cap) (show 0 < c.gens by omega)
  generalize n / c.cap = q at *
  split
  · rw [Nat.add_mod, Nat.mod_eq_of_lt (show 1 < c.gens by omega)]
    generalize q % c.gens = x at *
    generalize c.gens = g at *
    rcases Nat.lt_or_ge (x + 1) g with hlt | hge
    · rw [Nat.mod_eq_of_lt hlt, show x + 1 + g - x = 1 + g by omega, Nat.add_mod_right, Nat.mod_eq_of_lt (by omega)]
      omega
    · obtain rfl : g = x + 1 := by omega
      rw [Nat.mod_self, show 0 + (x + 1) - x = 1 by omega, Nat.mod_eq_of_lt (by omega)]
      omega
  · rw [Nat.add_zero, Nat.add_sub_cancel_left, Nat.mod_self, Nat.sub_self]

/-- `DIFF` counts frames, up to `N` of them. -/
theorem CfgRegs.diff_rawOf {c : CfgRegs} (h : c.legal = true) {m n : Nat} (hn : n ≤ m) (hm : m ≤ n + c.cap) (who : Bool) :
    c.diff (c.rawOf m) (c.rawOf n) who = .ok (m - n) := by
  obtain ⟨k, rfl⟩ := Nat.exists_eq_add_of_le hn
  have hk : k ≤ c.cap := by omega
  obtain ⟨h1, -, -, h30⟩ := c.legal_iff.mp h
  have hfudge := CfgRegs.fudge_lt h1
  have hgen := div_add_of_le (m := n) h1 hk
  have hle : n / c.cap ≤ (n + k) / c.cap := Nat.div_le_div_right (Nat.le_add_right n k)
  have hdelta : c.rawOf (n + k) - c.rawOf n = BitVec.ofNat 32 (k + ((n + k) / c.cap - n / c.cap) * c.fudge) := by
    have hsum : n + k + (n + k) / c.cap * c.fudge =
        k + ((n + k) / c.cap - n / c.cap) * c.fudge + (n + n / c.cap * c.fudge) := by
      obtain ⟨d, hd⟩ := Nat.exists_eq_add_of_le hle
      rw [hd, Nat.add_sub_cancel_left]; ring
    rw [CfgRegs.rawOf_eq, CfgRegs.rawOf_eq, hsum, BitVec.ofNat_add, BitVec.add_sub_cancel]
  have hone : ((n + k) / c.cap - n / c.cap) * c.fudge ≤ c.fudge := by
    rw [hgen, Nat.add_sub_cancel_left]
    split <;> omega
  have hraw : rawDelta (c.rawOf (n + k)) (c.rawOf n) = (k + ((n + k) / c.cap - n / c.cap) * c.fudge : Nat) := by
    have hx : (c.rawOf (n + k) - c.rawOf n).toNat = k + ((n + k) / c.cap - n / c.cap) * c.fudge := by
      rw [hdelta, BitVec.toNat_ofNat, Nat.mod_eq_of_lt (by omega)]
    rw [rawDelta_eq, hx, if_pos (by omega)]
  have hframes : c.frames (c.rawOf (n + k)) (c.rawOf n) = k := by
    rw [CfgRegs.frames, hraw, CfgRegs.sweeps_rawOf h hk]
    push_cast
    ring
  rcases c.diff_spec (c.rawOf (n + k)) (c.rawOf n) who with ⟨hw, -⟩ | ⟨-, -, ⟨hneg, -⟩ | ⟨-, hgt, -⟩ | ⟨-, -, e⟩⟩
  · rw [CfgRegs.wellFormed_rawOf h, CfgRegs.wellFormed_rawOf h] at hw
    simp at hw
  · rw [hraw] at hneg; omega
  · rw [hframes] at hgt; omega
  · rw [e, hframes, Int.toNat_natCast, Nat.add_sub_cancel_left]

/-! ### A cell as a list of frame numbers -/

/-- The values a cell has held, as frame numbers that only grow. -/
structure Cell.Counts (c : CfgRegs) (x : Cell) (l : List Nat) : Prop where
  hist : x.hist = l.map c.rawOf
  grows : l.Pairwise (· ≤ ·)

theorem Cell.Counts.length {c : CfgRegs} {x : Cell} {l : List Nat} (h : x.Counts c l) : l.length = x.newest + 1 := by
  rw [← x.hist_length, h.hist, List.length_map]

theorem Cell.Counts.valueAt {c : CfgRegs} {x : Cell} {l : List Nat} (h : x.Counts c l) {j : Nat} (hj : j ≤ x.newest) :
    x.valueAt j = c.rawOf (l.getD j 0) := by
  have hl : j < l.length := by rw [h.length]; omega
  rw [Cell.valueAt, h.hist, List.getD_eq_getElem _ _ (by rw [List.length_map]; exact hl), List.getElem_map,
    List.getD_eq_getElem _ _ hl]

theorem Cell.Counts.last {c : CfgRegs} {x : Cell} {l : List Nat} (h : x.Counts c l) : l.getLastD 0 = l.getD x.newest 0 := by
  rw [List.getLastD_eq_getLast?, List.getLast?_eq_getElem?, h.length, List.getD_eq_getElem?_getD, Nat.add_sub_cancel]

theorem Cell.Counts.current {c : CfgRegs} {x : Cell} {l : List Nat} (h : x.Counts c l) :
    x.current = c.rawOf (l.getLastD 0) := by
  rw [h.last]; exact h.valueAt (Nat.le_refl _)

theorem Cell.Counts.mono {c : CfgRegs} {x : Cell} {l : List Nat} (h : x.Counts c l) {i j : Nat} (hij : i ≤ j)
    (hj : j ≤ x.newest) : l.getD i 0 ≤ l.getD j 0 := by
  have hl : j < l.length := by rw [h.length]; omega
  rcases Nat.eq_or_lt_of_le hij with rfl | hlt
  · exact Nat.le_refl _
  · rw [List.getD_eq_getElem _ _ hl, List.getD_eq_getElem _ _ (Nat.lt_trans hlt hl)]
    exact List.pairwise_iff_getElem.mp h.grows i j _ hl hlt

theorem Cell.Counts.le_last {c : CfgRegs} {x : Cell} {l : List Nat} (h : x.Counts c l) {j : Nat} (hj : j ≤ x.newest) :
    l.getD j 0 ≤ l.getLastD 0 := by
  rw [h.last]; exact h.mono hj (Nat.le_refl _)

/-- A store of an index that lies `k` frames ahead. -/
theorem Cell.Counts.push {c : CfgRegs} {x : Cell} {l : List Nat} (h : x.Counts c l) {k : Nat} {p : Pub}
    (hp : p.value = c.rawOf (l.getLastD 0 + k)) : (x.push p).Counts c (l ++ [l.getLastD 0 + k]) := by
  refine ⟨by rw [Cell.hist_push, h.hist, List.map_append, hp]; rfl,
    List.pairwise_append.mpr ⟨h.grows, List.pairwise_singleton _ _, ?_⟩⟩
  intro a ha b hb
  obtain ⟨j, hj, rfl⟩ := List.getElem_of_mem ha
  rw [List.mem_singleton.mp hb, ← List.getD_eq_getElem _ 0 hj]
  exact Nat.le_trans (h.le_last (by rw [h.length] at hj; omega)) (Nat.le_add_right _ _)

/-- A store leaves what an observer has observed. -/
theorem Cell.Counts.getD_push {c : CfgRegs} {x : Cell} {l : List Nat} (h : x.Counts c l) {j : Nat} (hj : j ≤ x.newest)
    (m : Nat) : (l ++ [m]).getD j 0 = l.getD j 0 :=
  List.getD_append _ _ _ _ (by rw [h.length]; omega)

theorem Cell.counts_restart (c : CfgRegs) : (Cell.restart 0).Counts c [0] :=
  ⟨by rw [Cell.hist_restart, List.map_singleton, CfgRegs.rawOf_zero], List.pairwise_singleton _ _⟩

/-! ### Positions (R50) -/

theorem State.posInv_iff (s : State) :
    s.posInv ↔ s.w.obs.inHist s ∧ s.peer.obs.inHist s ∧ ∀ i, (s.rd i).obs.inHist s := by
  rw [State.posInv, State.forall_readers_iff_rd (P := fun r => r.obs.inHist s) ⟨Nat.zero_le _, Nat.zero_le _⟩]

theorem Observer.Forward.inHist {s t : State} {x y : Observer} (h : x.Forward s.newest y) (hr : t.rear = s.rear)
    (hf : t.front = s.front) (hx : x.inHist s) : y.inHist t := by
  rw [Observer.inHist, hr, hf]
  exact ⟨(h .rear hx.1).2, (h .front hx.2).2⟩

theorem State.Quiet.posInv {s t : State} (h : s.Quiet t) (hi : s.posInv) : t.posInv := by
  rw [State.posInv_iff] at hi ⊢
  obtain ⟨hw, hp, hr⟩ := hi
  exact ⟨h.writer.obs.inHist h.rear h.front hw, h.peer.inHist h.rear h.front hp,
    fun i => (h.reader i).obs.inHist h.rear h.front (hr i)⟩

/-- Histories that grow keep the positions of observers that do not move within them. -/
theorem State.posInv_of_grow {s t : State} (hi : s.posInv) (h1 : s.rear.newest ≤ t.rear.newest)
    (h2 : s.front.newest ≤ t.front.newest) (hw : t.w.obs = s.w.obs) (hp : t.peer = s.peer)
    (hr : ∀ r ∈ t.readers, ∃ r0 ∈ s.readers, r.obs = r0.obs) : t.posInv := by
  have hx : ∀ x : Observer, x.inHist s → x.inHist t := fun x ⟨a, b⟩ => ⟨Nat.le_trans a h1, Nat.le_trans b h2⟩
  obtain ⟨a, b, d⟩ := hi
  refine ⟨by rw [hw]; exact hx _ a, by rw [hp]; exact hx _ b, fun r h => ?_⟩
  obtain ⟨r0, h0, e⟩ := hr r h
  rw [e]; exact hx _ (d r0 h0)

/-- The readers' observers, after a busy or attaching reader was replaced by one that observes the same. -/
theorem State.obs_setRd {s : State} {i : Nat} {r : Reader} (hm : s.rd i ∈ s.readers) (h : r.obs = (s.rd i).obs) :
    ∀ r' ∈ (s.setRd i r).readers, ∃ r0 ∈ s.readers, r'.obs = r0.obs :=
  State.forall_setRd (fun r' h' => ⟨r', h', rfl⟩) ⟨s.rd i, hm, h⟩

theorem FlowMove.posInv {init : Prop} {s t : State} (h : FlowMove init s t) (hi : s.posInv) : t.posInv := by
  have hself : ∀ r ∈ s.readers, ∃ r0 ∈ s.readers, r.obs = r0.obs := fun r hr => ⟨r, hr, rfl⟩
  have hpush : ∀ (x : Cell) (p : Pub), x.newest ≤ (x.push p).newest := fun x p => by
    rw [Cell.newest_push]; exact Nat.le_succ _
  cases h with
  | grantWriter t g hp ht hg => exact hi
  | publishWriter t p hp ht hs => exact State.posInv_of_grow hi (hpush _ _) (Nat.le_refl _) rfl rfl hself
  | attachWriter ha hp => exact hi
  | grantReader i t g fill hp ht hd hg =>
    exact State.posInv_of_grow hi (Nat.le_refl _) (Nat.le_refl _) rfl rfl (State.obs_setRd (State.rd_mem hp) rfl)
  | lapReader i t lost hp ht hd =>
    exact State.posInv_of_grow hi (Nat.le_refl _) (Nat.le_refl _) rfl rfl (State.obs_setRd (State.rd_mem hp) rfl)
  | resyncReader i t lost p hp ht hw =>
    exact State.posInv_of_grow hi (Nat.le_refl _) (hpush _ _) rfl rfl (State.obs_setRd (State.rd_mem hp) rfl)
  | publishReader i t p hp ht hs =>
    refine State.posInv_of_grow hi (Nat.le_refl _) ?_ rfl rfl (State.obs_setRd (State.rd_mem hp) rfl)
    show s.front.newest ≤ (if (s.rd i).thr = true then s.front.push p else s.front).newest
    split
    · exact hpush _ _
    · exact Nat.le_refl _
  | attachReader i thr hm hi' hp ht =>
    have hmem : s.rd i ∈ s.readers := by rw [State.rd_eq_getElem hi']; exact List.getElem_mem _
    exact State.posInv_of_grow hi (Nat.le_refl _) (Nat.le_refl _) rfl rfl (State.obs_setRd hmem rfl)
  | storePeer c p hf =>
    cases c with
    | rear => exact State.posInv_of_grow hi (hpush _ _) (Nat.le_refl _) rfl rfl hself
    | front => exact State.posInv_of_grow hi (Nat.le_refl _) (hpush _ _) rfl rfl hself
  | initCell c hi' =>
    have hx : ∀ x : Observer, x.inHist s → (x.setPos c 0).inHist (s.setCell c (Cell.restart 0)) := fun x ⟨a, b⟩ => by
      cases c
      · exact ⟨Nat.le_refl _, b⟩
      · exact ⟨a, Nat.le_refl _⟩
    obtain ⟨a, b, d⟩ := hi
    refine ⟨by cases c <;> exact hx _ a, by cases c <;> exact hx _ b, fun r hr => ?_⟩
    obtain ⟨r0, h0, rfl⟩ := State.mem_restartPos hr
    cases c <;> exact hx _ (d r0 h0)
  | construct n size thr ext hm =>
    refine ⟨⟨Nat.le_refl _, Nat.le_refl _⟩, ⟨Nat.le_refl _, Nat.le_refl _⟩, fun r hr => ?_⟩
    obtain ⟨r0, -, rfl⟩ := State.mem_constructed hr
    exact ⟨Nat.le_refl _, Nat.le_refl _⟩

theorem Move.posInv {init : Prop} {s t : State} (h : Move init s t) (hi : s.posInv) : t.posInv :=
  h.quiet_or_flow.elim (·.posInv hi) (·.posInv hi)

end Sys2Proof.Machine
end

