-- ==== Sys2Proof/Proofs/State/Flow.lean ====
section
/-! PROOF. The fill of a throttled FIFO stays at most `N`: 10_state R55 (4), 42_fifo R208, R209. -/

open Sys2Proof Sys2Proof.Machine

namespace Sys2Proof.Machine

/-! ### The rule, part by part -/

/-- What `flowInv` says of the writer: unattached it has stored nothing; else its batch stays within `N` frames of the front it
has observed. -/
structure Writer.InFlow (c : CfgRegs) (R F : List Nat) (w : Writer) : Prop where
  fresh : w.att = false → R = [0]
  index : w.att = true → w.lr = c.rawOf (R.getLastD 0)
  batch : w.att = true → R.getLastD 0 + w.obt.toNat ≤ F.getD w.obs.posFront 0 + c.cap

/-- What `flowInv` says of a throttling reader: its batch stays behind the rear it has observed. -/
structure Reader.InFlow (c : CfgRegs) (R F : List Nat) (r : Reader) : Prop where
  calm : r.ph.resyncing = false
  index : r.lf = c.rawOf (F.getLastD 0)
  batch : F.getLastD 0 + r.obt.toNat ≤ R.getD r.obs.posRear 0

/-- `flowInv` of a constructed FIFO, for the frame numbers that `REAR` and `FRONT` have held. -/
structure State.Flow (s : State) (R F : List Nat) : Prop where
  rear : s.rear.Counts s.cfg R
  front : s.front.Counts s.cfg F
  writer : s.w.InFlow s.cfg R F
  fresh : (∀ i, (s.rd i).thr = false) → F = [0]
  reader : ∀ i, (s.rd i).thr = true → (s.rd i).InFlow s.cfg R F

theorem State.flowInv_iff (s : State) : s.flowInv ↔
    (s.cfg.valid = true → s.cfg.ext = false → s.cfg.thr = true → ∃ R F, s.Flow R F) := by
  have hr : ∀ R F : List Nat, (∀ r ∈ s.readers, r.thr = true → r.ph.resyncing = false ∧
      r.lf = s.cfg.rawOf (F.getLastD 0) ∧ F.getLastD 0 + r.obt.toNat ≤ R.getD r.obs.posRear 0) ↔ ∀ i, (s.rd i).thr = true → (s.rd i).InFlow s.cfg R F := by
    intro R F
    rw [State.forall_readers_iff_rd (fun h => by cases h)]
    exact ⟨fun h i ht => let ⟨a, b, d⟩ := h i ht; ⟨a, b, d⟩, fun h i ht => let ⟨a, b, d⟩ := h i ht; ⟨a, b, d⟩⟩
  have hn : (∀ r ∈ s.readers, r.thr = false) ↔ ∀ i, (s.rd i).thr = false :=
    State.forall_readers_iff_rd (P := fun r => r.thr = false) rfl
  rw [State.flowInv]
  constructor
  · intro h hv he ht
    obtain ⟨R, F, h1, h2, h3, h4, h5, h6, h7, h8⟩ := h hv he ht
    exact ⟨R, F, ⟨h1, h3⟩, ⟨h2, h4⟩, ⟨h5, fun ha => (h7 ha).1, fun ha => (h7 ha).2⟩, fun hx => h6 (hn.mpr hx), (hr R F).mp h8⟩
  · intro h hv he ht
    obtain ⟨R, F, ⟨h1, h3⟩, ⟨h2, h4⟩, ⟨h5, h7, h7'⟩, h6, h8⟩ := h hv he ht
    exact ⟨R, F, h1, h2, h3, h4, h5, fun hx => h6 (hn.mp hx), fun ha => ⟨h7 ha, h7' ha⟩, (hr R F).mpr h8⟩

/-! ### The order of the frame numbers (R208) -/

/-- What the flow needs of the rest of a sound state. -/
structure State.Supported (s : State) : Prop where
  legal : s.cfg.legal = true
  writer : s.w.Bounded s.cfg.cap
  reader : ∀ i, (s.rd i).Bounded s.cfg.cap
  roles : s.Roles
  posWriter : s.w.obs.inHist s
  posReader : ∀ i, (s.rd i).obs.inHist s

theorem State.Flow.observedFront_le {s : State} {R F : List Nat} (h : s.Flow R F) (hx : s.Supported) :
    F.getD s.w.obs.posFront 0 ≤ F.getLastD 0 := h.front.le_last hx.posWriter.2

theorem State.Flow.observedRear_le {s : State} {R F : List Nat} (h : s.Flow R F) (hx : s.Supported) (i : Nat) :
    R.getD (s.rd i).obs.posRear 0 ≤ R.getLastD 0 := h.rear.le_last (hx.posReader i).1

/-- The front never passes the rear. -/
theorem State.Flow.front_le_rear {s : State} {R F : List Nat} (h : s.Flow R F) (hx : s.Supported) :
    F.getLastD 0 ≤ R.getLastD 0 := by
  by_cases hn : ∀ i, (s.rd i).thr = false
  · rw [h.fresh hn]; exact Nat.zero_le _
  · obtain ⟨i, hi⟩ := not_forall.mp hn
    have hb := (h.reader i (Bool.eq_true_of_not_eq_false hi)).batch
    have hl := h.observedRear_le hx i
    omega

/-- The rear is at most `N` frames ahead of every front the writer may have observed. -/
theorem State.Flow.rear_le_front {s : State} {R F : List Nat} (h : s.Flow R F) (hx : s.Supported) :
    R.getLastD 0 ≤ F.getLastD 0 + s.cfg.cap := by
  cases ha : s.w.att with
  | false => rw [h.writer.fresh ha]; exact Nat.zero_le _
  | true =>
    have hb := h.writer.batch ha
    have hl := h.observedFront_le hx
    omega

/-- The throttling reader's `DIFF` is a fill. -/
theorem State.Flow.diff_reader {s : State} {R F : List Nat} (h : s.Flow R F) (hx : s.Supported) {i : Nat}
    (ht : (s.rd i).thr = true) : s.cfg.diff (s.rear.valueAt (s.rd i).obs.posRear) (s.rd i).lf true =
      .ok (R.getD (s.rd i).obs.posRear 0 - F.getLastD 0) := by
  obtain ⟨-, hlf, hb⟩ := h.reader i ht
  have hl := h.observedRear_le hx i
  have hr := h.rear_le_front hx
  rw [h.rear.valueAt (hx.posReader i).1, hlf]
  exact CfgRegs.diff_rawOf hx.legal (by omega) (by omega) true

/-- The writer's `DIFF` is a fill. -/
theorem State.Flow.diff_writer {s : State} {R F : List Nat} (h : s.Flow R F) (hx : s.Supported) (ha : s.w.att = true) :
    s.cfg.diff s.w.lr (s.front.valueAt s.w.obs.posFront) false = .ok (R.getLastD 0 - F.getD s.w.obs.posFront 0) := by
  have hb := h.writer.batch ha
  have hf := h.observedFront_le hx
  have hr := h.front_le_rear hx
  rw [h.front.valueAt hx.posWriter.2, h.writer.index ha]
  exact CfgRegs.diff_rawOf hx.legal (by omega) (by omega) false

/-! ### The changes -/

/-- A change of one reader's registers that leaves its throttling. -/
theorem State.Flow.setRd {s : State} {R F : List Nat} (h : s.Flow R F) {i : Nat} {r : Reader} (hl : i < s.readers.length)
    (ht : r.thr = (s.rd i).thr) (hr : r.thr = true → r.InFlow s.cfg R F) : (s.setRd i r).Flow R F := by
  refine ⟨h.rear, h.front, h.writer, fun hn => h.fresh fun j => ?_, ?_⟩
  · rw [← State.thr_setRd ht j]; exact hn j
  · exact State.forall_rd_setRd (P := fun _ r => r.thr = true → r.InFlow s.cfg R F) hl hr fun j _ => h.reader j

/-- The writer is granted frames against the front it has observed (R222). -/
theorem State.Flow.grantWriter {s : State} {R F : List Nat} (h : s.Flow R F) (hx : s.Supported) (hthr : s.cfg.thr = true)
    (ha : s.w.att = true) {g : Nat} (hg : s.writerRoom g) :
    ({ s with w := { s.w with obt := BitVec.ofNat 32 g } } : State).Flow R F := by
  refine ⟨h.rear, h.front, ⟨h.writer.fresh, h.writer.index, fun _ => ?_⟩, h.fresh, h.reader⟩
  rw [State.writerRoom, if_pos hthr] at hg
  obtain ⟨fill, hd, hle⟩ := hg
  rw [h.diff_writer hx ha] at hd
  cases hd
  obtain ⟨⟨-, heff, -⟩, -⟩ := hx.writer
  have hb := h.writer.batch ha
  have hgn := Word.toNat_ofNat_le (Nat.le_refl g)
  show R.getLastD 0 + (BitVec.ofNat 32 g).toNat ≤ F.getD s.w.obs.posFront 0 + s.cfg.cap
  omega

/-- The writer publishes frames of its batch (R225). -/
theorem State.Flow.publishWriter {s : State} {R F : List Nat} (h : s.Flow R F) (hx : s.Supported) {t : Task} {p : Pub}
    (hp : s.w.ph = .busy t) (ht : t.point = .publish) (hs : s.cfg.sum s.w.lr t.grant = some p.value) (ph : Phase) :
    ({ s with
      rear := s.rear.push p
      w := { s.w with lr := p.value, obt := s.w.obt - BitVec.ofNat 32 t.grant, ph := ph } } : State).Flow
        (R ++ [R.getLastD 0 + t.grant]) F := by
  have ha := hx.roles.writer t hp
  obtain ⟨⟨-, -, -, -, hobt⟩, hk⟩ := hx.writer
  rw [hp, Phase.pending_of_publish ht] at hk
  have hb := h.writer.batch ha
  have hv : p.value = s.cfg.rawOf (R.getLastD 0 + t.grant) := by
    rw [h.writer.index ha, CfgRegs.sum_rawOf hx.legal (by omega)] at hs
    exact (Option.some.inj hs).symm
  refine ⟨h.rear.push hv, h.front, ⟨fun hn => absurd (ha.symm.trans hn) (by decide), fun _ => ?_, fun _ => ?_⟩, h.fresh,
    fun i hi => ?_⟩
  · rw [List.getLastD_concat]; exact hv
  · dsimp only
    rw [List.getLastD_concat, Word.toNat_sub_ofNat hk]
    omega
  · obtain ⟨h1, h2, h3⟩ := h.reader i hi
    exact ⟨h1, h2, h3.trans_eq (h.rear.getD_push (hx.posReader i).1 _).symm⟩

/-- The writer attaches to a rear that nobody has stored yet (R221). -/
theorem State.Flow.attachWriter {s : State} {R F : List Nat} (h : s.Flow R F) (hx : s.Supported) (ha : s.w.att = false) :
    ({ s with w := { s.w with
      lr := s.rear.valueAt s.w.obs.posRear, obt := 0, att := true, exp := false, ph := .idle } } : State).Flow R F := by
  obtain rfl := h.writer.fresh ha
  have hz : s.w.obs.posRear = 0 := by
    have h1 := hx.posWriter.1
    have h2 := h.rear.length
    rw [List.length_singleton] at h2
    omega
  refine ⟨h.rear, h.front, ⟨nofun, fun _ => ?_, fun _ => Nat.zero_le _⟩, h.fresh, h.reader⟩
  exact (h.rear.valueAt hx.posWriter.1).trans (by rw [hz]; rfl)

/-- The throttling reader consumes frames of its batch (R256). -/
theorem State.Flow.publishReader {s : State} {R F : List Nat} (h : s.Flow R F) (hx : s.Supported) {i : Nat} {t : Task} {p : Pub}
    (hp : (s.rd i).ph = .busy t) (ht : t.point = .publish) (hs : s.cfg.sum (s.rd i).lf t.grant = some p.value)
    (hthr : (s.rd i).thr = true) :
    (({ s with front := s.front.push p } : State).setRd i { s.rd i with
      lf := p.value, obt := (s.rd i).obt - BitVec.ofNat 32 t.grant, ph := .busy { t with point := .fresh } }).Flow
        R (F ++ [F.getLastD 0 + t.grant]) := by
  have hi := State.lt_of_busy hp
  obtain ⟨⟨-, -, hobt⟩, hk⟩ := hx.reader i
  rw [hp, Phase.pending_of_publish ht] at hk
  obtain ⟨-, hlf, hb⟩ := h.reader i hthr
  have hv : p.value = s.cfg.rawOf (F.getLastD 0 + t.grant) := by
    rw [hlf, CfgRegs.sum_rawOf hx.legal (by omega)] at hs
    exact (Option.some.inj hs).symm
  refine ⟨h.rear, h.front.push hv, ⟨h.writer.fresh, h.writer.index, fun ha => ?_⟩, fun hn => ?_, ?_⟩
  · have hobs := h.front.getD_push hx.posWriter.2 (F.getLastD 0 + t.grant)
    exact (h.writer.batch ha).trans_eq (congrArg (· + s.cfg.cap) hobs.symm)
  · have := hn i
    rw [State.rd_setRd_same (by exact hi)] at this
    exact absurd (hthr.symm.trans this) (by decide)
  · refine State.forall_rd_setRd (s := { s with front := _ })
      (P := fun _ r => r.thr = true → r.InFlow s.cfg R (F ++ [F.getLastD 0 + t.grant])) hi (fun _ => ⟨rfl, ?_, ?_⟩) ?_
    · rw [List.getLastD_concat]; exact hv
    · dsimp only
      rw [List.getLastD_concat, Word.toNat_sub_ofNat hk]
      omega
    · exact fun j hj htj => absurd (hx.roles.unique j i htj hthr) hj

/-- A throttling reader attaches to a front that nobody has stored yet (R251). -/
theorem State.Flow.attachReader {s : State} {R F : List Nat} (h : s.Flow R F) (hx : s.Supported) {i : Nat}
    (hi : i < s.readers.length) (hall : ∀ j, (s.rd j).thr = false) :
    (s.setRd i { s.rd i with
      lf := s.front.valueAt (s.rd i).obs.posFront
      thr := true, obt := 0, lost := 0, att := true, exp := false, ph := .idle }).Flow R F := by
  obtain rfl := h.fresh hall
  have hz : (s.rd i).obs.posFront = 0 := by
    have h1 := (hx.posReader i).2
    have h2 := h.front.length
    rw [List.length_singleton] at h2
    omega
  refine ⟨h.rear, h.front, h.writer, fun _ => rfl, ?_⟩
  refine State.forall_rd_setRd (P := fun _ r => r.thr = true → r.InFlow s.cfg R [0]) hi
    (fun _ => ⟨rfl, ?_, Nat.zero_le _⟩) ?_
  · exact (h.front.valueAt (hx.posReader i).2).trans (by rw [hz]; rfl)
  · exact fun j _ htj => absurd ((hall j).symm.trans htj) (by decide)

theorem State.constructed_flow {s : State} {n size : Word} : (s.constructed n size true false).Flow [0] [0] := by
  have hall : ∀ j, ((s.constructed n size true false).rd j).thr = false := by
    refine (State.forall_readers_iff_rd (P := fun r => r.thr = false) rfl).mp fun r h => ?_
    obtain ⟨r0, -, rfl⟩ := State.mem_constructed h
    rfl
  exact ⟨Cell.counts_restart _, Cell.counts_restart _, ⟨fun _ => rfl, nofun, nofun⟩, fun _ => rfl,
    fun j h => absurd ((hall j).symm.trans h) (by decide)⟩

theorem FlowMove.flow {s t : State} (h : FlowMove False s t) (hf : s.par.foreign = false)
    (hi : s.cfg.valid = true → s.cfg.ext = false → s.cfg.thr = true → s.Supported ∧ ∃ R F, s.Flow R F)
    (hv : t.cfg.valid = true) (he : t.cfg.ext = false) (hc : t.cfg.thr = true) : ∃ R F, t.Flow R F := by
  cases h with
  | grantWriter t g hp ht hg =>
    obtain ⟨hx, R, F, hi⟩ := hi hv he hc
    exact ⟨R, F, hi.grantWriter hx hc (hx.roles.writer t hp) hg⟩
  | publishWriter t p hp ht hs =>
    obtain ⟨hx, R, F, hi⟩ := hi hv he hc
    exact ⟨_, F, hi.publishWriter hx hp ht hs _⟩
  | attachWriter ha hp =>
    obtain ⟨hx, R, F, hi⟩ := hi hv he hc
    exact ⟨R, F, hi.attachWriter hx ha⟩
  | grantReader i t g fill hp ht hd hg =>
    obtain ⟨hx, R, F, hi⟩ := hi hv he hc
    refine ⟨R, F, hi.setRd (State.lt_of_busy hp) rfl fun hthr => ?_⟩
    obtain ⟨h1, h2, h3⟩ := hi.reader i hthr
    rw [hi.diff_reader hx hthr] at hd
    cases hd
    have hgn := Word.toNat_ofNat_le (Nat.le_refl g)
    refine ⟨h1, h2, ?_⟩
    show F.getLastD 0 + (BitVec.ofNat 32 g).toNat ≤ R.getD (s.rd i).obs.posRear 0
    omega
  | lapReader i t lost hp ht hd =>
    obtain ⟨hx, R, F, hi⟩ := hi hv he hc
    refine ⟨R, F, hi.setRd (State.lt_of_busy hp) rfl fun hthr => ?_⟩
    rw [hi.diff_reader hx hthr] at hd
    cases hd
  | resyncReader i t lost p hp ht hw =>
    obtain ⟨hx, R, F, hi⟩ := hi hv he hc
    have hcalm := (hi.reader i (hx.roles.resync i t lost hp ht)).calm
    rw [hp] at hcalm
    simp [Phase.resyncing, ht] at hcalm
  | publishReader i t p hp ht hs =>
    obtain ⟨hx, R, F, hi⟩ := hi hv he hc
    by_cases hthr : (s.rd i).thr = true
    · rw [if_pos hthr]
      exact ⟨R, _, hi.publishReader hx hp ht hs hthr⟩
    · rw [if_neg hthr]
      exact ⟨R, F, hi.setRd (State.lt_of_busy hp) rfl fun h => absurd h hthr⟩
  | attachReader i thr hm hi' hp ht =>
    obtain ⟨hx, R, F, hi⟩ := hi hv he hc
    have hnone : (s.rd i).thr = false := Bool.eq_false_iff.mpr fun h => by
      rw [hx.roles.attached i h] at hm
      cases hm
    cases thr with
    | false => exact ⟨R, F, hi.setRd hi' hnone.symm fun h => by cases h⟩
    | true =>
      refine ⟨R, F, hi.attachReader hx hi' fun j => Bool.eq_false_iff.mpr fun h => ?_⟩
      rw [State.noOtherThrottles_iff.mp (ht rfl).2 j h, hnone] at h
      cases h
  | storePeer c p hf' => rw [hf] at hf'; cases hf'
  | initCell c hi' => exact hi'.elim
  | construct n size thr ext hm =>
    obtain rfl : ext = false := he
    obtain rfl : thr = true := hc
    exact ⟨[0], [0], State.constructed_flow⟩

theorem State.Quiet.flow {s t : State} {R F : List Nat} (h : s.Quiet t) (hx : s.Supported) (hi : s.Flow R F) : t.Flow R F := by
  refine ⟨by rw [h.cfg, h.rear]; exact hi.rear, by rw [h.cfg, h.front]; exact hi.front, ?_, fun hn => ?_, fun i ht => ?_⟩
  · obtain ⟨h1, h2, h3⟩ := hi.writer
    obtain ⟨hle, hin⟩ := h.writer.obs .front hx.posWriter.2
    have hobt := h.writer.obt
    have hmono := hi.front.mono hle hin
    rw [h.cfg]
    refine ⟨by rw [h.writer.att]; exact h1, by rw [h.writer.att, h.writer.lr]; exact h2, fun ha => ?_⟩
    have hb := h3 (h.writer.att.symm.trans ha)
    exact (Nat.add_le_add_left hobt _).trans (hb.trans (Nat.add_le_add_right hmono _))
  · exact hi.fresh fun i => (h.reader i).thr ▸ hn i
  · have hq := h.reader i
    obtain ⟨h1, h2, h3⟩ := hi.reader i (hq.thr.symm.trans ht)
    obtain ⟨hle, hin⟩ := hq.obs .rear (hx.posReader i).1
    rw [h.cfg]
    refine ⟨hq.resyncing.trans h1, hq.lf.trans h2, ?_⟩
    exact (Nat.add_le_add_left hq.obt _).trans (h3.trans (hi.rear.mono hle hin))

/-! ### The obligation -/

theorem State.supported {s : State} (ha : s.attachInv) (ht : s.throttleInv) (hl : s.levelsInv) (hp : s.posInv)
    (hv : s.cfg.valid = true) : s.Supported := by
  obtain ⟨hleg, hw, hr⟩ := (State.levelsInv_iff s).mp hl hv
  obtain ⟨hpw, -, hpr⟩ := (State.posInv_iff s).mp hp
  refine ⟨hleg, hw, ?_, State.roles ha ht hv, hpw, hpr⟩
  exact (State.forall_readers_iff_rd (P := fun r => r.Bounded s.cfg.cap)
    ⟨⟨Nat.zero_le _, Nat.zero_le _, Nat.zero_le _⟩, Nat.zero_le _⟩).mp hr

theorem Move.sound {s t : State} (h : Move False s t) (hf : s.par.foreign = false) (hi : s.sound) : t.sound := by
  obtain ⟨ha, ht, hl, hp, hw⟩ := hi
  refine ⟨h.attachInv ha, h.throttleInv ht, h.levelsInv hl, h.posInv hp, ?_⟩
  rw [State.flowInv_iff] at hw ⊢
  have hsup := State.supported ha ht hl hp
  rcases h.quiet_or_flow with hq | hm
  · intro hv he hc
    rw [hq.cfg] at hv he hc
    obtain ⟨R, F, hflow⟩ := hw hv he hc
    exact ⟨R, F, hq.flow (hsup hv) hflow⟩
  · exact hm.flow hf fun hv he hc => ⟨hsup hv, hw hv he hc⟩

/-- The fill that a sound state holds. -/
theorem State.sound.diff {s : State} (h : s.sound) (hv : s.cfg.valid = true) (he : s.cfg.ext = false)
    (hc : s.cfg.thr = true) (who : Bool) :
    ∃ fill, fill ≤ s.cfg.cap ∧ s.cfg.diff s.rear.current s.front.current who = .ok fill := by
  obtain ⟨ha, ht, hl, hp, hw⟩ := h
  have hx := State.supported ha ht hl hp hv
  obtain ⟨R, F, hi⟩ := (State.flowInv_iff s).mp hw hv he hc
  have hr := hi.rear_le_front hx
  refine ⟨R.getLastD 0 - F.getLastD 0, by omega, ?_⟩
  rw [hi.rear.current, hi.front.current]
  exact CfgRegs.diff_rawOf hx.legal (hi.front_le_rear hx) hr who

/-- Settles O59: every grant is made against a front that was stored, and every batch is consumed behind a
rear that was stored. -/
theorem throttledFillStaysBounded : Obligations.ThrottledFillStaysBounded :=
  ⟨fun _ _ hf hn hs h => (step_keeps_of_moves_alone Move.sound hf hn hs h).2, fun _ hs hv he hc who => hs.diff hv he hc who⟩

end Sys2Proof.Machine
end

