-- ==== Sys2Proof/Proofs/State/PowerUp.lean ====
section
/-! PROOF. Before the first `FIFO.INIT`, and at power-up: 10_state R54, 70_reset R330. -/

open Sys2Proof Sys2Proof.Machine

namespace Sys2Proof.Machine

/-! ### What an unconstructed FIFO does not permit -/

section
variable {s : State} (hv : s.cfg.valid = false)
include hv

theorem State.writerMay_of_unconstructed : s.writerMay = false := by simp [State.writerMay, hv]

theorem State.readerMay_of_unconstructed (i : Nat) : s.readerMay i = false := by simp [State.readerMay, hv]

theorem State.peerMay_of_unconstructed (c : CellSel) : s.peerMay c = false := by simp [State.peerMay, hv]

theorem State.mayAttach_of_unconstructed (i : Nat) (thr : Bool) : s.mayAttach i thr = false := by simp [State.mayAttach, hv]

theorem State.mayFence_of_unconstructed : s.mayFence = false := by simp [State.mayFence, hv]

/-- The configuration registers lie below `0x10` (R53). -/
theorem State.readReg_of_unconstructed (o : Agent) {sel : BitVec 8} (h : 0x10 ≤ sel.toNat) : s.readReg o sel = none := by
  have hc : s.cfgReg sel = none := by
    unfold State.cfgReg
    split <;> first | omega | rfl
  unfold State.readReg
  rw [hc, hv]
  rfl

end

/-- Settles O8: every operation that needs a FIFO asks for `VALID = 1`. -/
theorem unconstructedFifoRefuses : Obligations.UnconstructedFifoRefuses := by
  intro i s hr hv hn
  have hno : ∀ (legal : Bool) (f : State → State), legal = false → s.command legal f = .next (s.refusedOn s.beat.port) :=
    fun _ _ hl => State.command_illegal hr hl
  have hw := State.writerMay_of_unconstructed hv
  have hrd := State.readerMay_of_unconstructed hv
  have hp := State.peerMay_of_unconstructed hv
  have hf := State.mayFence_of_unconstructed hv
  cases i with dsimp only [exec]
  | fifoInit n size thr ext => cases hn
  | idxInit c => cases hn
  | baseNp2 n => cases hn
  | xgEnc v => cases hn
  | xgDec v => cases hn
  | csrRd sel =>
    refine hno _ _ ?_
    rw [State.readReg_of_unconstructed hv _ (of_decide_eq_true hn)]
    rfl
  | idxLdaq c | idxStrl c v | idxCas c e d | idxWait c e t | idxWake1 c | idxWakeall c => exact hno _ _ (hp c)
  | baseSlot x | baseDiff r f w l | baseBack x => exact hno _ _ hv
  | baseSum x k => exact hno _ _ (by rw [hv]; rfl)
  | wAttach => exact hno _ _ (by simp [hv])
  | wObtain k t | wWrite k t | wSethlt k | wSetlla k | wSeteff k => exact hno _ _ hw
  | wRelease k => exact hno _ _ (by rw [hw]; rfl)
  | rAttach i thr => exact hno _ _ (State.mayAttach_of_unconstructed hv _ _)
  | rObtain i k t l | rRead i k t l | rSetllt i k | rSethla i k => exact hno _ _ (hrd _)
  | rRelease i k => exact hno _ _ (by rw [hrd]; rfl)
  | bufLdb off | bufStb off v => exact hno _ _ (by simp [hv])
  | fenceAcq | fenceRel => exact hno _ _ hf

/-! ### Power-up -/

/-- Settles O30: the power-up state, evaluated. -/
theorem powerUpState : Obligations.PowerUpState :=
  ⟨rfl, rfl, rfl, by decide, rfl, rfl, rfl, by decide, rfl, rfl, rfl⟩

theorem State.rd_reset : (i : Nat) → State.reset.rd i = {}
  | 0 => rfl
  | 1 => rfl
  | _ + 2 => rfl

/-- An invariant of a constructed FIFO says nothing of the power-up state. -/
theorem State.reset_not_valid {P : Prop} (h : State.reset.cfg.valid = true) : P := by cases h

/-- Settles O60: no FIFO is constructed, nobody sleeps, no byte is stored and no command waits. -/
theorem invariantsHoldAtPowerUp : Obligations.InvariantsHoldAtPowerUp := by
  have hlevels : State.reset.levelsInv := State.reset_not_valid
  have hattach : State.reset.attachInv := by decide
  have hthrottle : State.reset.throttleInv := State.reset_not_valid
  have hpos : State.reset.posInv := by decide
  have hmemory : State.reset.memoryInv :=
    ⟨List.Pairwise.nil, trivial, (State.forall_readers_iff_rd (P := fun r => r.ph.outWf) trivial).mpr fun i => by
      rw [State.rd_reset]; trivial⟩
  have hparked : State.reset.parkedInv :=
    ⟨⟨List.nodup_nil, List.nodup_nil⟩, nofun, nofun, nofun, rfl, fun i => by rw [State.rd_reset]; exact ⟨rfl, nofun⟩⟩
  exact ⟨hmemory, fun _ => rfl, by decide, hlevels, hattach, hthrottle, hparked, hpos, nofun, State.reset_not_valid,
    State.reset_not_valid, hattach, hthrottle, hlevels, hpos, State.reset_not_valid⟩

end Sys2Proof.Machine
end

section
/-! PROOF. Until the host initialises, histories only grow and observers do not go back: 20_memory R81, R88, 10_state R49,
R50. A chain of atomic changes (`Moves`) does not say whose turn it is and may construct the FIFO anew, so the operations
are followed here themselves. -/

open Sys2Proof Sys2Proof.Machine

namespace Sys2Proof.Machine

/-! ### Growth -/

/-- Every history of `t` continues the one of `s`, and every position that lay in it has not gone back, and still lies in it. -/
structure State.Grows (s t : State) : Prop where
  base : ∀ c, (t.cell c).base = (s.cell c).base
  pubs : ∀ c, (s.cell c).pubs <+: (t.cell c).pubs
  pos : ∀ o c, (s.obs o).pos c ≤ s.newest c → (s.obs o).pos c ≤ (t.obs o).pos c ∧ (t.obs o).pos c ≤ t.newest c

theorem State.Grows.trans {s t u : State} (h : s.Grows t) (k : t.Grows u) : s.Grows u where
  base c := (k.base c).trans (h.base c)
  pubs c := (h.pubs c).trans (k.pubs c)
  pos o c hs := by
    obtain ⟨h1, h2⟩ := h.pos o c hs
    obtain ⟨k1, k2⟩ := k.pos o c h2
    exact ⟨h1.trans k1, k2⟩

/-- Cells that stay, and observers that stay or advance in them. -/
theorem State.Grows.of_forward {s t : State} (hr : t.rear = s.rear) (hf : t.front = s.front)
    (ho : ∀ o, (s.obs o).Forward s.newest (t.obs o)) : s.Grows t := by
  have hc : ∀ c, t.cell c = s.cell c := State.cell_congr hr hf
  refine ⟨fun c => by rw [hc], fun c => by rw [hc], fun o c h => ?_⟩
  rw [State.newest, hc]
  exact ho o c h

theorem State.Quiet.grows {s t : State} (h : s.Quiet t) : s.Grows t :=
  .of_forward h.rear h.front fun
    | .host => .refl _ _
    | .writer => h.writer.obs
    | .reader i => (h.reader i).obs
    | .peer => h.peer

theorem State.Grows.refl (s : State) : s.Grows s := (State.Quiet.refl s).grows

/-- Cells and observers that stay. -/
theorem State.Grows.of_eq {s t : State} (hr : t.rear = s.rear) (hf : t.front = s.front) (ho : ∀ o, t.obs o = s.obs o) :
    s.Grows t :=
  .of_forward hr hf fun o => by rw [ho]; exact .refl _ _

/-- A change of the writer that is no observation. -/
theorem State.Grows.setW {s : State} {w : Writer} (h : w.obs = s.w.obs) : s.Grows { s with w := w } :=
  .of_eq rfl rfl fun
    | .writer => h
    | .host | .reader _ | .peer => rfl

/-- A change of a reader that is no observation. -/
theorem State.Grows.setRd {s : State} {i : Nat} {r : Reader} (h : r.obs = (s.rd i).obs) : s.Grows (s.setRd i r) := by
  have hobs : ∀ j, ((s.setRd i r).rd j).obs = (s.rd j).obs := fun j => by
    rw [State.rd_setRd]
    split
    · rename_i hij; rw [h, hij.1]
    · rfl
  exact .of_eq rfl rfl fun
    | .reader j => hobs j
    | .host | .writer | .peer => rfl

/-- A store of a cell appends to its history, and leaves every position. -/
theorem State.Grows.push (s : State) (c : CellSel) (p : Pub) : s.Grows (s.setCell c ((s.cell c).push p)) := by
  have hobs : ∀ o, (s.setCell c ((s.cell c).push p)).obs o = s.obs o := fun o => by cases c <;> cases o <;> rfl
  have hcell : ∀ d, ((s.setCell c ((s.cell c).push p)).cell d).base = (s.cell d).base ∧
      (s.cell d).pubs <+: ((s.setCell c ((s.cell c).push p)).cell d).pubs := fun d => by
    by_cases hcd : c = d
    · subst hcd
      rw [State.cell_setCell]
      exact ⟨rfl, List.prefix_append _ _⟩
    · rw [State.cell_setCell_ne hcd]
      exact ⟨rfl, List.prefix_rfl⟩
  refine ⟨fun d => (hcell d).1, fun d => (hcell d).2, fun o d h => ?_⟩
  rw [hobs]
  exact ⟨Nat.le_refl _, h.trans (hcell d).2.length_le⟩

/-! ### The operations on the state -/

/-- The schedule, the ports and the draws are no part of a history. -/
theorem State.Grows.environment (s : State) (b : Beat) (rest : List Command) (out : List Answer) (q : List Turn)
    (cs : List Nat) (n : Nat) :
    s.Grows { s with beat := b, inbox := rest, out := out, sched := q, choices := cs, draws := n } :=
  .of_eq rfl rfl fun o => by cases o <;> rfl

theorem State.Grows.draws (s : State) (cs : List Nat) (n : Nat) : s.Grows { s with choices := cs, draws := n } :=
  .environment s s.beat s.inbox s.out s.sched cs n

theorem State.Grows.answer (s : State) (o : Agent) (r : Response) : s.Grows (s.answer o r) :=
  .environment s s.beat s.inbox _ s.sched s.choices s.draws

theorem State.Grows.pick (s : State) (k : Nat) : s.Grows (s.pick k).2 := by
  obtain ⟨cs, n, h⟩ := s.pick_frame k
  rw [h]; exact .draws s cs n

theorem State.Grows.freeByte (s : State) : s.Grows s.freeByte.2 := by
  obtain ⟨cs, n, h⟩ := s.draw_frame
  rw [State.freeByte, h]; exact .draws s cs n

theorem State.Grows.loadByte (s : State) (o : Agent) (off : Nat) : s.Grows (s.loadByte o off).2 := by
  unfold State.loadByte State.drawByte
  split
  · exact .refl s
  · dsimp only
    split
    · exact .pick s _
    · exact (State.Grows.pick s _).trans (.freeByte _)

theorem State.Grows.observe {s : State} {o : Agent} {x : Observer} (h : (s.obs o).Advances s.newest x) :
    s.Grows (s.setObs o x) :=
  (State.Quiet.setObs h.forward).grows

theorem State.Grows.ldaq (s : State) (o : Agent) (c : CellSel) : s.Grows (s.ldaq o c).2 := by
  obtain ⟨cs, n, h⟩ := s.lagPos_frame o c
  have hj := s.lagPos_advances o c
  simp only [State.ldaq, h]
  exact (State.Grows.draws s cs n).trans (.observe (.move _ (Seen.le_join _ _) hj))

theorem State.Grows.readNow (s : State) (o : Agent) (c : CellSel) : s.Grows (s.readNow o c) :=
  .observe (.move _ (Seen.le_join _ _) fun h => ⟨h, Nat.le_refl _⟩)

theorem State.Grows.readParking (s : State) (o : Agent) (c : CellSel) : s.Grows (s.readParking o c) :=
  .observe (.view _ (Seen.le_join _ _))

theorem State.Grows.strl (s : State) (o : Agent) (c : CellSel) (v : Word) : s.Grows (s.strl o c v) := by
  unfold State.strl
  rw [← State.cell_setObs s o ((s.obs o).setView (s.obs o).view.fenceRel) c]
  exact (State.Grows.observe (.fenceRel _ _)).trans (.push _ c _)

theorem State.Grows.setWq (s : State) (c : CellSel) (q : List Agent) : s.Grows (s.setWq c q) :=
  ((State.Quiet.refl s).setWq c q).grows

theorem State.Grows.wakeAll (s : State) (o : Agent) (c : CellSel) : s.Grows (s.wakeAll o c) :=
  ((State.Quiet.releaseAll _ _ s).setWq c []).grows

theorem State.Grows.wakeOne (s : State) (o : Agent) (c : CellSel) : s.Grows (s.wakeOne o c) := by
  obtain ⟨cs, n, v, q, -, e⟩ := s.wakeOne_eq o c
  rw [e]
  exact (State.Grows.draws s cs n).trans ((State.Quiet.releaseAll v q _).setWq c _).grows

theorem State.Grows.wakeOwn (s : State) (o : Agent) (c : CellSel) : s.Grows (s.wakeOwn o c) := by
  unfold State.wakeOwn
  split
  · exact .wakeOne s o c
  · exact .wakeAll s o c

theorem State.Grows.unpark (s : State) (o : Agent) (p : Park) : s.Grows (s.unpark o p) := by
  obtain ⟨cs, n, x, hx, e⟩ := s.unpark_eq o p
  rw [e]
  exact (State.Grows.setWq s p.cell _).trans ((State.Grows.draws _ cs n).trans (.observe hx))

/-! ### The writer -/

theorem State.Grows.goWriter (s : State) (t : Task) : s.Grows (s.goWriter t) := .setW rfl

theorem State.Grows.endWriter (s : State) (r : Response) : s.Grows (s.endWriter r) :=
  State.Grows.trans (t := { s with w := { s.w with ph := .idle } }) (.setW rfl) (.answer _ _ _)

theorem State.Grows.grantWriter (s : State) (t : Task) (g : Nat) : s.Grows (s.grantWriter t g) := by
  unfold State.grantWriter
  refine State.Grows.trans (t := { s with w := { s.w with obt := BitVec.ofNat 32 g } }) (.setW rfl) ?_
  generalize ({ s with w := { s.w with obt := BitVec.ofNat 32 g } } : State) = s1
  obtain ⟨k, cs, n, -, hf⟩ := s1.fragments_spec s1.w.lr g
  have hd := State.Grows.draws s1 cs n
  simp only [hf]
  cases t.op with
  | transfer =>
    dsimp only
    split
    · exact .endWriter s1 _
    · exact hd.trans (.goWriter _ _)
  | obtain | release => exact hd.trans (.endWriter _ _)

theorem State.Grows.loadWriter (s : State) (t : Task) : s.Grows (s.loadWriter t) := by
  have hl := State.Grows.ldaq s .writer .front
  unfold State.loadWriter
  dsimp only
  split
  · split
    · split
      · exact hl.trans (.goWriter _ _)
      · exact hl.trans (.grantWriter _ _ _)
    · exact hl.trans (.endWriter _ _)
  · exact .grantWriter s t _

theorem State.Grows.waitWriter (s : State) (t : Task) (e : Word) : s.Grows (s.waitWriter t e) := by
  unfold State.waitWriter
  split
  · exact (State.Grows.readNow s .writer .front).trans (.goWriter _ _)
  · exact (State.Grows.readParking s .writer .front).trans ((State.Grows.setWq _ .front _).trans (.setW rfl))

theorem State.Grows.copyByteWriter (s : State) (t : Task) (j : Nat) : s.Grows (s.copyByteWriter t j) := by
  have hb : ∀ p : Byte × State, s.Grows p.2 →
      s.Grows (if t.byteOff j < s.cfg.bytes then p.2.storeByte .writer (t.byteOff j) p.1 else p.2) := fun p hp => by
    split
    · exact hp.trans (State.Quiet.storeByte _ _ _ _).grows
    · exact hp
  unfold State.copyByteWriter
  split
  · exact hb (_, s) (.refl s)
  · exact hb _ (.freeByte s)

theorem State.Grows.copyWriter (s : State) (t : Task) (left : List Nat) : s.Grows (s.copyWriter t left) := by
  have hk := State.Grows.pick s left.length
  unfold State.copyWriter
  dsimp only
  split
  · exact hk.trans ((State.Grows.copyByteWriter _ t _).trans (.goWriter _ _))
  · exact hk.trans (.goWriter _ _)

theorem State.Grows.releasedWriter (s : State) (t : Task) (failed : Bool) : s.Grows (s.releasedWriter t failed) := by
  unfold State.releasedWriter
  cases t.op with
  | transfer =>
    have hw : s.Grows { s with w := { s.w with obt := 0 } } := .setW rfl
    dsimp only
    split
    · exact hw.trans (.endWriter _ _)
    · exact hw.trans (.goWriter _ _)
  | obtain | release => exact .endWriter s _

theorem State.Grows.publishWriter (s : State) (t : Task) : s.Grows (s.publishWriter t) := by
  unfold State.publishWriter
  split
  · exact .releasedWriter s t true
  · rename_i nr _
    have hw : s.Grows { s with w := { s.w with lr := nr, obt := s.w.obt - BitVec.ofNat 32 t.grant } } := .setW rfl
    have hp := hw.trans (.strl _ .writer .rear nr)
    dsimp only
    split
    · exact hp.trans (.goWriter _ _)
    · exact hp.trans (.releasedWriter _ t false)

theorem State.Grows.armedWriter (s : State) (t : Task) (fill : Nat) :
    s.Grows ((s.armWriter fill).releasedWriter t false) :=
  State.Grows.trans (t := s.armWriter fill) (.setW rfl) (.releasedWriter _ t false)

theorem State.Grows.freshWriter (s : State) (t : Task) : s.Grows (s.freshWriter t) := by
  have hl := State.Grows.ldaq s .writer .front
  unfold State.freshWriter
  dsimp only
  split
  · split
    · exact hl.trans (.goWriter _ _)
    · exact hl.trans (.armedWriter _ t _)
  · exact hl.trans (.releasedWriter _ t true)

/-- No atomic step of the writer shortens a history or takes a position back. -/
theorem State.Grows.stepWriter (s : State) : s.Grows s.stepWriter := by
  unfold State.stepWriter
  split
  · rename_i t _
    split
    · exact .loadWriter s t
    · exact .waitWriter s t _
    · exact .copyWriter s t _
    · exact .publishWriter s t
    · exact .freshWriter s t
    · exact (State.Grows.wakeOwn s .writer .rear).trans (.armedWriter _ t _)
    · exact .refl s
  · exact .refl s

theorem State.Grows.runWriter (s : State) (n : Nat) : s.Grows (s.runWriter n) :=
  State.runWriter_keeps (I := s.Grows) (fun u _ h => h.trans (.stepWriter u)) n s (.refl s)

theorem State.Grows.unparkWriter (s : State) (t : Task) (p : Park) (c : Cause) : s.Grows (s.unparkWriter t p c) :=
  (State.Grows.unpark s .writer p).trans (.setW rfl)

theorem State.Grows.startWriter (s : State) (t : Task) : s.Grows (s.startWriter t) :=
  State.Grows.trans (t := { s with w := { s.w with exp := false, ph := .busy t } }) (.setW rfl) (.runWriter _ _)

/-- A change of the writer's levels, with its response. -/
theorem State.Grows.quickWriter (s : State) {f : Writer → Writer} (h : (f s.w).obs = s.w.obs) : s.Grows (s.quickWriter f) :=
  State.Grows.trans (t := { s with w := { f s.w with exp := false } }) (.setW h) (.endWriter _ _)

/-! ### A reader -/

theorem State.Grows.goReader (s : State) (i : Nat) (t : Task) : s.Grows (s.goReader i t) := .setRd rfl

theorem State.Grows.endReader (s : State) (i : Nat) (r : Response) : s.Grows (s.endReader i r) :=
  State.Grows.trans (t := s.setRd i { s.rd i with ph := .idle }) (.setRd rfl) (.answer _ _ _)

theorem State.Grows.grantReader (s : State) (i : Nat) (t : Task) (g : Nat) : s.Grows (s.grantReader i t g) := by
  have hg : s.Grows (s.setRd i { s.rd i with obt := BitVec.ofNat 32 g }) := .setRd rfl
  unfold State.grantReader
  cases t.op with
  | transfer =>
    dsimp only
    split
    · exact hg.trans (.endReader _ i _)
    · exact hg.trans (.goReader _ i _)
  | obtain | release => exact hg.trans (.endReader _ i _)

theorem State.Grows.loadReader (s : State) (i : Nat) (t : Task) : s.Grows (s.loadReader i t) := by
  unfold State.loadReader
  refine (State.Grows.ldaq s (.reader i) .rear).trans ?_
  dsimp only
  generalize (s.ldaq (.reader i) .rear).1 = v
  generalize (s.ldaq (.reader i) .rear).2 = s1
  split
  · exact .endReader s1 i _
  · rename_i lost _
    have hlap : s1.Grows (s1.setRd i { s1.rd i with
      lf := (s1.cfg.back v).getD (s1.rd i).lf, lost := BitVec.ofNat 32 lost }) := .setRd rfl
    split
    · exact hlap.trans (.goReader _ i _)
    · exact hlap.trans (.endReader _ i _)
  · split
    · exact .goReader s1 i _
    · exact .grantReader s1 i t _

theorem State.Grows.waitReader (s : State) (i : Nat) (t : Task) (e : Word) : s.Grows (s.waitReader i t e) := by
  unfold State.waitReader
  split
  · exact (State.Grows.readNow s (.reader i) .rear).trans (.goReader _ i _)
  · exact (State.Grows.readParking s (.reader i) .rear).trans ((State.Grows.setWq _ .rear _).trans (.setRd rfl))

theorem State.Grows.copyReader (s : State) (i : Nat) (t : Task) (left : List Nat) : s.Grows (s.copyReader i t left) := by
  have hk := State.Grows.pick s left.length
  unfold State.copyReader
  dsimp only
  split
  · exact hk.trans ((State.Grows.loadByte _ (.reader i) _).trans (.goReader _ i _))
  · exact hk.trans (.goReader _ i _)

theorem State.Grows.releasedReader (s : State) (i : Nat) (t : Task) (failed : Bool) :
    s.Grows (s.releasedReader i t failed) := by
  unfold State.releasedReader
  cases t.op with
  | transfer =>
    have hr : s.Grows (s.setRd i { s.rd i with obt := 0 }) := .setRd rfl
    dsimp only
    split
    · exact hr.trans (.endReader _ i _)
    · refine hr.trans (State.Grows.trans ?_ (.goReader _ i _))
      exact .setRd rfl
  | obtain | release => exact .endReader s i _

theorem State.Grows.publishReader (s : State) (i : Nat) (t : Task) : s.Grows (s.publishReader i t) := by
  unfold State.publishReader
  dsimp only
  split
  · exact .releasedReader s i t true
  · rename_i nf _
    have hr : s.Grows (s.setRd i { s.rd i with lf := nf, obt := (s.rd i).obt - BitVec.ofNat 32 t.grant }) := .setRd rfl
    split
    · exact hr.trans ((State.Grows.strl _ (.reader i) .front nf).trans (.goReader _ i _))
    · exact hr.trans (.releasedReader _ i t false)

theorem State.Grows.armedReader (s : State) (i : Nat) (t : Task) (fill : Nat) :
    s.Grows ((s.armReader i fill).releasedReader i t false) :=
  State.Grows.trans (t := s.armReader i fill) (.setRd rfl) (.releasedReader _ i t false)

theorem State.Grows.freshReader (s : State) (i : Nat) (t : Task) : s.Grows (s.freshReader i t) := by
  have hl := State.Grows.ldaq s (.reader i) .rear
  unfold State.freshReader
  dsimp only
  split
  · exact hl.trans (.releasedReader _ i t true)
  · exact hl.trans (.releasedReader _ i t false)
  · split
    · exact hl.trans (.goReader _ i _)
    · exact hl.trans (.armedReader _ i t _)

/-- No atomic step of a reader shortens a history or takes a position back. -/
theorem State.Grows.stepReader (s : State) (i : Nat) : s.Grows (s.stepReader i) := by
  unfold State.stepReader
  split
  · rename_i t _
    split
    · exact .loadReader s i t
    · exact .waitReader s i t _
    · exact (State.Grows.strl s (.reader i) .front _).trans (.endReader _ i _)
    · exact .copyReader s i t _
    · exact .publishReader s i t
    · exact .freshReader s i t
    · exact (State.Grows.wakeOwn s (.reader i) .front).trans (.armedReader _ i t _)
  · exact .refl s

theorem State.Grows.runReader (s : State) (i n : Nat) : s.Grows (s.runReader i n) :=
  State.runReader_keeps (I := s.Grows) i (fun u _ h => h.trans (.stepReader u i)) n s (.refl s)

theorem State.Grows.unparkReader (s : State) (i : Nat) (t : Task) (p : Park) (c : Cause) :
    s.Grows (s.unparkReader i t p c) :=
  (State.Grows.unpark s (.reader i) p).trans (.setRd rfl)

theorem State.Grows.startReader (s : State) (i : Nat) (t : Task) : s.Grows (s.startReader i t) :=
  State.Grows.trans (t := s.setRd i { s.rd i with exp := false, ph := .busy t }) (.setRd rfl) (.runReader _ i _)

/-- A change of a reader's levels, with its response. -/
theorem State.Grows.quickReader (s : State) (i : Nat) {f : Reader → Reader} (h : (f (s.rd i)).obs = (s.rd i).obs) :
    s.Grows (s.quickReader i f) :=
  State.Grows.trans (t := s.setRd i { f (s.rd i) with exp := false }) (.setRd h) (.endReader _ i _)

/-! ### The foreign peer -/

theorem State.Grows.setWait (s : State) (p : Option Park) : s.Grows { s with peer := { s.peer with wait := p } } :=
  (State.Quiet.setWait s p).grows

theorem State.Grows.cas (s : State) (c : CellSel) (e d : Word) : s.Grows (s.cas c e d) := by
  have hr := State.Grows.readNow s .peer c
  unfold State.cas
  dsimp only
  split
  · refine hr.trans ((State.Grows.strl _ .peer c d).trans (State.Grows.trans ?_ (.answer _ _ _)))
    refine (State.Quiet.setObs fun a h => ?_).grows
    by_cases hca : c = a
    · subst hca
      rw [Observer.pos_setPos_same]
      exact ⟨h, Nat.le_refl _⟩
    · rw [Observer.pos_setPos_ne hca]
      exact ⟨Nat.le_refl _, h⟩
  · exact hr.trans (.answer _ _ _)

theorem State.Grows.waitPeer (s : State) (c : CellSel) (e : Word) (tmo : Timeout) : s.Grows (s.waitPeer c e tmo) := by
  unfold State.waitPeer
  split
  · exact .answer s _ _
  · split
    · exact (State.Grows.readNow s .peer c).trans (.answer _ _ _)
    · exact (State.Grows.readParking s .peer c).trans ((State.Grows.setWq _ c _).trans (.setWait _ _))

theorem State.Grows.unparkPeer (s : State) (p : Park) (c : Cause) : s.Grows (s.unparkPeer p c) :=
  (State.Grows.unpark s .peer p).trans ((State.Grows.setWait _ _).trans (.answer _ _ _))

/-! ### Commands and turns -/

/-- A command is refused, or its effect runs. -/
theorem State.Grows.command {s s' : State} {legal : Bool} {f : State → State} (h : s.command legal f = .next s')
    (hf : legal = true → s.Grows (f s)) : s.Grows s' := by
  obtain ⟨-, ⟨-, rfl⟩ | ⟨hl, rfl⟩⟩ := State.command_next h
  · exact .answer s _ _
  · exact hf hl

theorem State.port_of_mayInitCell {s : State} {c : CellSel} (h : s.mayInitCell c = true) : s.beat.port = .host :=
  of_decide_eq_true (Bool.and_eq_true_iff.mp h).1

theorem State.port_of_mayConstruct {s : State} {n size : Word} {thr ext : Bool} (h : s.mayConstruct n size thr ext = true) :
    s.beat.port = .host := by
  simp only [State.mayConstruct, Bool.and_eq_true, decide_eq_true_eq] at h
  obtain ⟨⟨⟨⟨⟨hport, -⟩, -⟩, -⟩, -⟩, -⟩ := h
  exact hport

/-- An effect that grows, with its response. -/
theorem State.Grows.replied {s t : State} (h : s.Grows t) (r : Response) : s.Grows (t.reply r) := h.trans (.answer _ _ _)

/-- Only the host restarts a history: no command on another port does. -/
theorem State.Grows.exec {s s' : State} {i : Instr} (hp : s.beat.port ≠ .host) (h : exec i s = .next s') : s.Grows s' := by
  cases i with dsimp only [Machine.exec] at h
  | idxInit c => exact .command h fun hl => absurd (State.port_of_mayInitCell hl) hp
  | fifoInit n size thr ext => exact .command h fun hl => absurd (State.port_of_mayConstruct hl) hp
  | idxLdaq c => exact .command h fun _ => .replied (.ldaq s .peer c) _
  | idxStrl c v => exact .command h fun _ => .replied (.strl s .peer c v) _
  | idxCas c e d => exact .command h fun _ => .cas s c e d
  | idxWait c e tmo => exact .command h fun _ => .waitPeer s c e tmo
  | idxWake1 c => exact .command h fun _ => .replied (.wakeOne s .peer c) _
  | idxWakeall c => exact .command h fun _ => .replied (.wakeAll s .peer c) _
  | baseNp2 | baseSlot | baseSum | baseDiff | baseBack | csrRd | xgEnc | xgDec =>
    exact .command h fun _ => .replied (.refl s) _
  | wAttach =>
    refine .command h fun _ => (State.Grows.ldaq s .writer .rear).trans (State.Grows.trans ?_ (.endWriter _ _))
    exact .setW rfl
  | wObtain n tmo | wWrite n tmo =>
    exact .command h fun _ =>
      State.Grows.trans (t := { s with w := { s.w with obt := 0 } }) (.setW rfl) (.startWriter _ _)
  | wRelease k => exact .command h fun _ => .startWriter s _
  | wSethlt l | wSetlla l | wSeteff e => exact .command h fun _ => .quickWriter s rfl
  | rAttach sel thr =>
    refine .command h fun _ => (State.Grows.ldaq s (.reader sel.toNat) (if thr then .front else .rear)).trans
      (State.Grows.trans ?_ (.endReader _ _ _))
    exact .setRd rfl
  | rObtain sel n tmo lv | rRead sel n tmo lv =>
    exact .command h fun _ => State.Grows.trans (t := s.clearReader sel.toNat) (.setRd rfl) (.startReader _ _ _)
  | rRelease sel k => exact .command h fun _ => .startReader s _ _
  | rSetllt sel l | rSethla sel l => exact .command h fun _ => .quickReader s _ rfl
  | bufLdb off => exact .command h fun _ => .replied (.loadByte s _ _) _
  | bufStb off v => exact .command h fun _ => .replied (State.Quiet.storeByte s _ _ _).grows _
  | fenceAcq => exact .command h fun _ => .replied (.observe (.view _ (Seen.le_join _ _))) _
  | fenceRel => exact .command h fun _ => .replied (.observe (.fenceRel _ _)) _

/-- No turn of another agent than the host shortens a history or takes a position back. -/
theorem TurnDid.grows {s s' : State} {o : Agent} (h : TurnDid s o s') (ho : o ≠ .host) : s.Grows s' := by
  have hbeat : ∀ (c : Command) rest burst, s.Grows (s.beatOf c rest burst) := fun c rest burst =>
    .environment s _ rest s.out s.sched s.choices s.draws
  cases h with
  | idle => exact .refl s
  | illegal c rest burst => exact (hbeat c rest burst).trans (.answer _ _ _)
  | ran c rest burst i _ _ _ _ _ he => exact (hbeat c rest burst).trans (.exec ho he)
  | writer t n => exact .runWriter s n
  | writerWoke t p c n => exact (State.Grows.unparkWriter s t p c).trans (.runWriter _ n)
  | reader i t n => exact .runReader s i n
  | readerWoke i t p c n => exact (State.Grows.unparkReader s i t p c).trans (.runReader _ i n)
  | peerWoke p c => exact .unparkPeer s p c

/-- One step whose turn is not the host's. -/
theorem step_grows {s s' s1 : State} {t : Turn} (hn : s.nextTurn = some (t, s1)) (h : step s = .next s')
    (ht : t.who ≠ .host) : s.Grows s' := by
  rcases step_cases h with rfl | ⟨t', s2, hn', hd⟩
  · exact .refl s'
  · obtain ⟨rfl, rfl⟩ : t' = t ∧ s2 = s1 := by simpa using hn'.symm.trans hn
    obtain ⟨q, cs, n, rfl⟩ := State.nextTurn_frame hn
    exact (State.Grows.environment s s.beat s.inbox s.out q cs n).trans (hd.grows ht)

/-! ### The obligation -/

theorem State.posInv.pos_le {s : State} (h : s.posInv) (o : Agent) (c : CellSel) : (s.obs o).pos c ≤ s.newest c := by
  obtain ⟨hw, hp, hr⟩ := (State.posInv_iff s).mp h
  have hx : ∀ x : Observer, x.inHist s → x.pos c ≤ s.newest c := fun x ⟨a, b⟩ => by cases c <;> assumption
  cases o with
  | host => cases c <;> exact Nat.zero_le _
  | writer => exact hx _ hw
  | reader i => exact hx _ (hr i)
  | peer => exact hx _ hp

/-- Settles O51: `posInv` is kept by every atomic change, and every turn but the host's grows. -/
theorem historiesGrowAndPositionsAdvance : Obligations.HistoriesGrowAndPositionsAdvance := by
  intro s s' s1 t hi hn h
  refine ⟨step_keeps_of_moves (init := True) (fun _ _ _ _ _ _ => trivial) Move.posInv hi h, fun ht c => ?_⟩
  have hg := step_grows hn h ht
  have hpos : ∀ o, (s.obs o).pos c ≤ (s'.obs o).pos c := fun o => (hg.pos o c (hi.pos_le o c)).1
  exact ⟨hg.base c, hg.pubs c, hpos .writer, hpos .peer, fun i => hpos (.reader i)⟩

end Sys2Proof.Machine
end

section
/-! PROOF. The decoder is the inverse of the encoder: a command decodes to an instruction exactly when its word is the word
the encoder writes and its operands agree where the instruction reads them (30_encoding R111 to R118). -/

open Sys2Proof Sys2Proof.Machine

namespace Sys2Proof

/-! ### Command words and their fields (R112) -/

/-- The command word with these fields and reserved bits 0. -/
def CwFields.word (f : CwFields) : Word := packCw f.unit f.func f.sel f.flg

/-- A command word whose reserved bits are 0 is the word packed from its fields. -/
theorem word_cwFields {w : Word} (h : (cwFields w).rsv = 0) : (cwFields w).word = w := by
  apply BitVec.eq_of_getLsbD_eq
  intro i hi
  have hrsv : i < 8 → w.getLsbD i = false := fun h8 => by
    simpa [cwFields, h8] using congrArg (BitVec.getLsbD · i) h
  simp only [CwFields.word, packCw, cwFields, BitVec.getLsbD_append, BitVec.getLsbD_extractLsb']
  repeat' split
  · simp [hrsv ‹_›]
  all_goals
    rw [decide_eq_true (by omega), Bool.true_and]
    congr 1
    omega

theorem CwFields.func_eq {f : CwFields} {n : Nat} (h : f.func.toNat = n) : f.func = BitVec.ofNat 4 n := by
  rw [← h, BitVec.ofNat_toNat, BitVec.setWidth_eq]

theorem CwFields.unit_eq {f : CwFields} {n : Nat} (h : f.unit.toNat = n) : f.unit = BitVec.ofNat 4 n := by
  rw [← h, BitVec.ofNat_toNat, BitVec.setWidth_eq]

/-! ### Flags, timeouts and cells (R113, R115, R145) -/

theorem flagIf_masked (on : Bool) (p : BitVec 8) : flagIf on p &&& ~~~p = 0 := by
  cases on <;> simp [flagIf]

/-- The flags an encoder sets are among those it lists. -/
theorem flagIf_or_masked (on on' : Bool) (p q : BitVec 8) : (flagIf on p ||| flagIf on' q) &&& ~~~(p ||| q) = 0 := by
  have hp : p &&& (~~~p &&& ~~~q) = 0 := by simp [← BitVec.and_assoc]
  have hq : q &&& (~~~p &&& ~~~q) = 0 := by rw [BitVec.and_comm (~~~p)]; simp [← BitVec.and_assoc]
  cases on <;> cases on' <;> simp_all [flagIf, BitVec.not_or, BitVec.and_or_distrib_right]

theorem and_eq_of_masked {x p : BitVec 8} (h : x &&& ~~~p = 0) : x &&& p = x := by
  calc x &&& p = (x &&& p) ||| (x &&& ~~~p) := by rw [h]; exact (BitVec.or_zero).symm
    _ = x &&& (p ||| ~~~p) := BitVec.and_or_distrib_left.symm
    _ = x := by rw [BitVec.or_not_self, BitVec.and_allOnes]

/-- The flags, each one bit of `FLG` (R113). -/
def flagBits : List (BitVec 8) := [flagTV, flagLV, flagTHR, flagRDR, flagEXT]

theorem CwFields.flagIf_has (f : CwFields) {p : BitVec 8} (hp : p ∈ flagBits) : flagIf (f.has p) p = f.flg &&& p := by
  have hbit : ∀ p ∈ flagBits, ∀ x : BitVec 8, flagIf (x &&& p != 0) p = x &&& p := by decide
  exact hbit p hp f.flg

/-- A flag that was set as one of two reads back. -/
theorem CwFields.has_flagIf_or {f : CwFields} {p q : BitVec 8} (hp : p ∈ flagBits) (hq : q ∈ flagBits) (hne : p ≠ q) {on on' : Bool}
    (h : f.flg = flagIf on p ||| flagIf on' q) : f.has p = on := by
  have hbit : ∀ p ∈ flagBits, ∀ q ∈ flagBits, p ≠ q → ∀ on on' : Bool,
      ((flagIf on p ||| flagIf on' q) &&& p != 0) = on := by decide
  rw [CwFields.has, h, hbit p hp q hq hne]

theorem CwFields.has_flagIf {f : CwFields} {p : BitVec 8} (hp : p ∈ flagBits) {on : Bool} (h : f.flg = flagIf on p) :
    f.has p = on := by
  have hbit : ∀ p ∈ flagBits, ∀ on : Bool, (flagIf on p &&& p != 0) = on := by decide
  rw [CwFields.has, h, hbit p hp]

/-- Reading the flag that a row lists, and setting it again, gives `FLG` back. -/
theorem CwFields.flg_eq_flag {f : CwFields} {p : BitVec 8} (hp : p ∈ flagBits) (h : f.flg &&& ~~~p = 0) :
    f.flg = flagIf (f.has p) p := by
  rw [f.flagIf_has hp, and_eq_of_masked h]

theorem CwFields.flg_eq_or {f : CwFields} {p q : BitVec 8} (hp : p ∈ flagBits) (hq : q ∈ flagBits)
    (h : f.flg &&& ~~~(p ||| q) = 0) : f.flg = flagIf (f.has p) p ||| flagIf (f.has q) q := by
  rw [f.flagIf_has hp, f.flagIf_has hq, ← BitVec.and_or_distrib_left, and_eq_of_masked h]

theorem CwFields.flg_eq_zero {f : CwFields} (h : f.flg &&& ~~~(0 : BitVec 8) = 0) : f.flg = 0 := by
  rw [← and_eq_of_masked h]
  exact BitVec.and_zero

theorem CwFields.isSome_timeout (f : CwFields) (b : Word) : (f.timeout b).isSome = f.has flagTV := by
  unfold CwFields.timeout
  cases f.has flagTV <;> rfl

theorem CwFields.tmoFlag_timeout (f : CwFields) (b : Word) : tmoFlag (f.timeout b) = flagIf (f.has flagTV) flagTV := by
  rw [tmoFlag, isSome_timeout]

theorem CwFields.flg_eq_tmo (f : CwFields) (b : Word) (h : f.flg &&& ~~~flagTV = 0) : f.flg = tmoFlag (f.timeout b) := by
  rw [f.tmoFlag_timeout, ← CwFields.flg_eq_flag (by decide) h]

/-- `B` is the timeout's word if there is one; else it is not read (R115). -/
theorem CwFields.tmoWord_timeout (f : CwFields) (b : Word) :
    tmoWord (f.timeout b) = if (f.timeout b).isSome then b else 0 := by
  unfold CwFields.timeout
  cases f.has flagTV <;> rfl

/-- A cell select of 0 or 1 is the one of the cell it names. -/
theorem CwFields.sel_cell {f : CwFields} (h : f.sel.toNat ≤ 1) : f.cell.sel = f.sel := by
  unfold CwFields.cell
  split
  · exact ‹f.sel = 0›.symm
  · rename_i hne
    have h0 : f.sel.toNat ≠ 0 := fun h0 => hne (BitVec.eq_of_toNat_eq h0)
    exact (BitVec.eq_of_toNat_eq (show f.sel.toNat = 1 by omega)).symm

/-! ### The three shapes of a row (R118) -/

theorem CwFields.anyRow_eq_ok {f : CwFields} {flags : BitVec 8} {i j : Instr} :
    f.anyRow flags i = .ok j ↔ f.flg &&& ~~~flags = 0 ∧ i = j := by
  unfold CwFields.anyRow
  split <;> simp_all

theorem CwFields.zeroRow_eq_ok {f : CwFields} {flags : BitVec 8} {i j : Instr} :
    f.zeroRow flags i = .ok j ↔ f.sel = 0 ∧ f.flg &&& ~~~flags = 0 ∧ i = j := by
  unfold CwFields.zeroRow
  split <;> simp_all [CwFields.anyRow_eq_ok]

theorem CwFields.cellRow_eq_ok {f : CwFields} {flags : BitVec 8} {i : CellSel → Instr} {j : Instr} :
    f.cellRow flags i = .ok j ↔ f.sel.toNat ≤ 1 ∧ f.flg &&& ~~~flags = 0 ∧ i f.cell = j := by
  unfold CwFields.cellRow
  split
  · simp; omega
  · simp [CwFields.anyRow_eq_ok]; omega

/-! ### What an operation reads of its operands -/

/-- What the operation reads of `A`; 0 if it does not read it. -/
def Instr.keepA (i : Instr) (a : Word) : Word := if i.readsA then a else 0

/-- What the operation reads of `B`: all of it, its low byte (R114), or nothing. -/
def Instr.keepB : Instr → Word → Word
  | .bufStb _ _, b => (b.setWidth 8).setWidth 32
  | i, b => if i.readsB then b else 0

theorem Instr.keepA_of_not_reads {i : Instr} (h : i.readsA = false) (a : Word) : i.keepA a = 0 := by
  simp [Instr.keepA, h]

theorem Instr.keepB_of_not_reads {i : Instr} (h : i.readsB = false) (b : Word) : i.keepB b = 0 := by
  cases i with
  | bufStb off v => cases h
  | _ => simp only [Instr.keepB, h]; rfl

/-! ### What decodes was encoded -/

section
variable {f : CwFields} {a b : Word} {i : Instr} {u : BitVec 4} {n : Nat} {sel flg : BitVec 8}

theorem encode_of_anyRow {flags : BitVec 8} {j : Instr} (hu : f.unit = u) (hn : f.func.toNat = n)
    (h : f.anyRow flags j = .ok i) (hg : f.flg &&& ~~~flags = 0 → f.flg = flg)
    (he : encode j = ⟨packCw u (BitVec.ofNat 4 n) f.sel flg, j.keepA a, j.keepB b⟩) :
    encode i = ⟨f.word, i.keepA a, i.keepB b⟩ := by
  obtain ⟨hm, rfl⟩ := CwFields.anyRow_eq_ok.mp h
  rw [he, CwFields.word, hu, CwFields.func_eq hn, hg hm]

theorem encode_of_zeroRow {flags : BitVec 8} {j : Instr} (hu : f.unit = u) (hn : f.func.toNat = n)
    (h : f.zeroRow flags j = .ok i) (hg : f.flg &&& ~~~flags = 0 → f.flg = flg)
    (he : encode j = ⟨packCw u (BitVec.ofNat 4 n) 0 flg, j.keepA a, j.keepB b⟩) :
    encode i = ⟨f.word, i.keepA a, i.keepB b⟩ := by
  obtain ⟨hs, hm⟩ := CwFields.zeroRow_eq_ok.mp h
  exact encode_of_anyRow hu hn (CwFields.anyRow_eq_ok.mpr hm) hg (hs ▸ he)

theorem encode_of_cellRow {flags : BitVec 8} {g : CellSel → Instr} (hu : f.unit = u) (hn : f.func.toNat = n)
    (h : f.cellRow flags g = .ok i) (hg : f.flg &&& ~~~flags = 0 → f.flg = flg)
    (he : encode (g f.cell) = ⟨packCw u (BitVec.ofNat 4 n) f.cell.sel flg, (g f.cell).keepA a, (g f.cell).keepB b⟩) :
    encode i = ⟨f.word, i.keepA a, i.keepB b⟩ := by
  obtain ⟨hs, hm⟩ := CwFields.cellRow_eq_ok.mp h
  exact encode_of_anyRow hu hn (CwFields.anyRow_eq_ok.mpr hm) hg (CwFields.sel_cell hs ▸ he)

theorem encode_of_decodeIdx (hu : f.unit = 0) (h : decodeIdx f a b = .ok i) :
    encode i = ⟨f.word, i.keepA a, i.keepB b⟩ := by
  unfold decodeIdx at h
  split at h
  case h_8 => cases h
  case h_5 hn => exact encode_of_cellRow hu hn h (f.flg_eq_tmo b) (congrArg (Beat96.mk _ _) (f.tmoWord_timeout b))
  all_goals exact encode_of_cellRow hu ‹f.func.toNat = _› h CwFields.flg_eq_zero rfl

theorem encode_of_decodeBase (hu : f.unit = 1) (h : decodeBase f a b = .ok i) :
    encode i = ⟨f.word, i.keepA a, i.keepB b⟩ := by
  unfold decodeBase at h
  split at h
  case h_6 => cases h
  case h_4 hn =>
    rw [BitVec.or_comm] at h
    exact encode_of_zeroRow hu hn h (CwFields.flg_eq_or (by decide) (by decide)) rfl
  all_goals exact encode_of_zeroRow hu ‹f.func.toNat = _› h CwFields.flg_eq_zero rfl

theorem encode_of_decodeFifo (hu : f.unit = 2) (h : decodeFifo f a b = .ok i) :
    encode i = ⟨f.word, i.keepA a, i.keepB b⟩ := by
  unfold decodeFifo at h
  split at h
  · exact encode_of_zeroRow hu ‹f.func.toNat = _› h (CwFields.flg_eq_or (by decide) (by decide)) rfl
  · exact encode_of_anyRow hu ‹f.func.toNat = _› h CwFields.flg_eq_zero rfl
  · cases h

theorem encode_of_decodeWriter (hu : f.unit = 3) (h : decodeWriter f a b = .ok i) :
    encode i = ⟨f.word, i.keepA a, i.keepB b⟩ := by
  unfold decodeWriter at h
  split at h
  case h_8 => cases h
  case h_2 hn | h_4 hn => exact encode_of_zeroRow hu hn h (f.flg_eq_tmo b) (congrArg (Beat96.mk _ _) (f.tmoWord_timeout b))
  all_goals exact encode_of_zeroRow hu ‹f.func.toNat = _› h CwFields.flg_eq_zero rfl

theorem encode_of_decodeReader (hu : f.unit = 4) (h : decodeReader f a b = .ok i) :
    encode i = ⟨f.word, i.keepA a, i.keepB b⟩ := by
  unfold decodeReader at h
  split at h
  case h_7 => cases h
  case h_1 hn => exact encode_of_anyRow hu hn h (CwFields.flg_eq_flag (by decide)) rfl
  case h_2 hn | h_4 hn =>
    refine encode_of_anyRow hu hn h (CwFields.flg_eq_or (by decide) (by decide)) ?_
    rw [← f.tmoFlag_timeout b]
    exact congrArg (Beat96.mk _ _) (f.tmoWord_timeout b)
  all_goals exact encode_of_anyRow hu ‹f.func.toNat = _› h CwFields.flg_eq_zero rfl

theorem encode_of_decodeXg (hu : f.unit = 5) (h : decodeXg f a = .ok i) :
    encode i = ⟨f.word, i.keepA a, i.keepB b⟩ := by
  unfold decodeXg at h
  split at h
  case h_3 => cases h
  all_goals exact encode_of_zeroRow hu ‹f.func.toNat = _› h CwFields.flg_eq_zero rfl

theorem encode_of_decodeBuf (hu : f.unit = 6) (h : decodeBuf f a b = .ok i) :
    encode i = ⟨f.word, i.keepA a, i.keepB b⟩ := by
  unfold decodeBuf at h
  split at h
  case h_3 => cases h
  all_goals exact encode_of_zeroRow hu ‹f.func.toNat = _› h CwFields.flg_eq_zero rfl

theorem encode_of_decodeFence (hu : f.unit = 7) (h : decodeFence f = .ok i) :
    encode i = ⟨f.word, i.keepA a, i.keepB b⟩ := by
  unfold decodeFence at h
  split at h
  case h_3 => cases h
  all_goals exact encode_of_zeroRow hu ‹f.func.toNat = _› h CwFields.flg_eq_zero rfl

/-- What a command decodes to is encoded as its word and what is read of its operands. -/
theorem encode_of_decode {cw : Word} (h : decode cw a b = .ok i) : encode i = ⟨cw, i.keepA a, i.keepB b⟩ := by
  unfold decode at h
  dsimp only at h
  split at h
  case isTrue => cases h
  case isFalse hr =>
    rw [← word_cwFields (not_not.mp hr)]
    split at h
    · exact encode_of_decodeIdx (CwFields.unit_eq ‹_›) h
    · exact encode_of_decodeBase (CwFields.unit_eq ‹_›) h
    · exact encode_of_decodeFifo (CwFields.unit_eq ‹_›) h
    · exact encode_of_decodeWriter (CwFields.unit_eq ‹_›) h
    · exact encode_of_decodeReader (CwFields.unit_eq ‹_›) h
    · exact encode_of_decodeXg (CwFields.unit_eq ‹_›) h
    · exact encode_of_decodeBuf (CwFields.unit_eq ‹_›) h
    · exact encode_of_decodeFence (CwFields.unit_eq ‹_›) h
    · cases h

end

/-! ### What is encoded decodes -/

section
variable {u fn : BitVec 4} {sel flg flags : BitVec 8} {c : CellSel} {a b : Word} {t : Timeout} {i : Instr}

theorem CellSel.toNat_sel_le (c : CellSel) : c.sel.toNat ≤ 1 := by cases c <;> decide

theorem CwFields.cell_mk (u f : BitVec 4) (c : CellSel) (flg rsv : BitVec 8) :
    (CwFields.mk u f c.sel flg rsv).cell = c := by cases c <;> rfl

theorem CwFields.timeout_eq {f : CwFields} (hf : f.has flagTV = t.isSome) (hb : tmoWord t = if t.isSome then b else 0) :
    f.timeout b = t := by
  unfold CwFields.timeout
  rw [hf]
  cases t with
  | none => rfl
  | some w => exact congrArg some hb.symm

theorem decode_of_cellRow {g : CellSel → Instr}
    (h : decode (packCw 0 fn c.sel flg) a b = (CwFields.mk 0 fn c.sel flg 0).cellRow flags g) (hg : flg &&& ~~~flags = 0)
    (hi : g c = i) : decode (packCw 0 fn c.sel flg) a b = .ok i :=
  h.trans (CwFields.cellRow_eq_ok.mpr ⟨c.toNat_sel_le, hg, by rw [CwFields.cell_mk, hi]⟩)

theorem decode_of_zeroRow (h : decode (packCw u fn 0 flg) a b = (CwFields.mk u fn 0 flg 0).zeroRow flags i)
    (hg : flg &&& ~~~flags = 0) : decode (packCw u fn 0 flg) a b = .ok i :=
  h.trans (CwFields.zeroRow_eq_ok.mpr ⟨rfl, hg, rfl⟩)

theorem decode_of_anyRow (h : decode (packCw u fn sel flg) a b = (CwFields.mk u fn sel flg 0).anyRow flags i)
    (hg : flg &&& ~~~flags = 0) : decode (packCw u fn sel flg) a b = .ok i :=
  h.trans (CwFields.anyRow_eq_ok.mpr ⟨hg, rfl⟩)

theorem decode_of_encode (ha : (encode i).a = i.keepA a) (hb : (encode i).b = i.keepB b) :
    decode (encode i).cw a b = .ok i := by
  have hp := fun u f sel flg => decode_packCw u f sel flg a b
  have hz : (0 : BitVec 8) &&& ~~~(0 : BitVec 8) = 0 := by decide
  cases i with
  | idxInit c | idxLdaq c | idxWake1 c | idxWakeall c => exact decode_of_cellRow (hp ..) hz rfl
  | idxStrl c v =>
    cases ha
    exact decode_of_cellRow (g := (.idxStrl · a)) (hp ..) hz rfl
  | idxCas c e d =>
    cases ha
    cases hb
    exact decode_of_cellRow (g := (.idxCas · a b)) (hp ..) hz rfl
  | idxWait c e t =>
    cases ha
    refine decode_of_cellRow (g := (.idxWait · a _)) (hp ..) (flagIf_masked ..) ?_
    rw [CwFields.timeout_eq (CwFields.has_flagIf (by decide) rfl) hb]
  | baseNp2 n | baseSlot n | baseBack n | wRelease n | wSethlt n | wSetlla n | wSeteff n | xgEnc n | xgDec n | bufLdb n =>
    cases ha
    exact decode_of_zeroRow (hp ..) hz
  | wAttach | fenceAcq | fenceRel => exact decode_of_zeroRow (hp ..) hz
  | baseSum x k =>
    cases ha
    cases hb
    exact decode_of_zeroRow (hp ..) hz
  | baseDiff r f rdr lv =>
    cases ha
    cases hb
    refine (decode_of_zeroRow (hp ..) (BitVec.or_comm flagLV _ ▸ flagIf_or_masked ..)).trans ?_
    rw [CwFields.has_flagIf_or (p := flagRDR) (by decide) (by decide) (by decide) rfl,
      CwFields.has_flagIf_or (p := flagLV) (by decide) (by decide) (by decide) (BitVec.or_comm ..)]
  | fifoInit n size thr ext =>
    cases ha
    cases hb
    refine (decode_of_zeroRow (hp ..) (flagIf_or_masked ..)).trans ?_
    rw [CwFields.has_flagIf_or (p := flagTHR) (by decide) (by decide) (by decide) rfl,
      CwFields.has_flagIf_or (p := flagEXT) (by decide) (by decide) (by decide) (BitVec.or_comm ..)]
  | wObtain n t | wWrite n t =>
    cases ha
    refine (decode_of_zeroRow (hp ..) (flagIf_masked ..)).trans ?_
    rw [CwFields.timeout_eq (CwFields.has_flagIf (by decide) rfl) hb]
  | bufStb off v =>
    cases ha
    refine (decode_of_zeroRow (hp ..) hz).trans ?_
    have hv : v = b.setWidth 8 := by simpa [encode, Instr.keepB] using congrArg (BitVec.setWidth 8) hb
    rw [hv]
  | csrRd sel => exact decode_of_anyRow (hp ..) hz
  | rRelease sel k | rSetllt sel k | rSethla sel k =>
    cases ha
    exact decode_of_anyRow (hp ..) hz
  | rAttach sel thr =>
    refine (decode_of_anyRow (hp ..) (flagIf_masked ..)).trans ?_
    rw [CwFields.has_flagIf (by decide) rfl]
  | rObtain sel n t lv | rRead sel n t lv =>
    cases ha
    refine (decode_of_anyRow (hp ..) (flagIf_or_masked ..)).trans ?_
    rw [CwFields.timeout_eq (CwFields.has_flagIf_or (by decide) (by decide) (by decide) rfl) hb,
      CwFields.has_flagIf_or (p := flagLV) (by decide) (by decide) (by decide) (BitVec.or_comm ..)]

end

/-- A command decodes to an instruction exactly when the instruction is encoded as the command's word and what it reads of the
operands. -/
theorem decode_eq_ok_iff {cw a b : Word} {i : Instr} : decode cw a b = .ok i ↔ encode i = ⟨cw, i.keepA a, i.keepB b⟩ := by
  refine ⟨encode_of_decode, fun h => ?_⟩
  have hcw : (encode i).cw = cw := congrArg Beat96.cw h
  exact hcw ▸ decode_of_encode (congrArg Beat96.a h) (congrArg Beat96.b h)

/-- The encoder writes only operands that are read (R111). -/
theorem keepA_encode (i : Instr) : i.keepA (encode i).a = (encode i).a := by
  cases i <;> rfl

theorem keepB_encode (i : Instr) : i.keepB (encode i).b = (encode i).b := by
  have htmo : ∀ t : Timeout, (if t.isSome then tmoWord t else 0) = tmoWord t := fun t => by cases t <;> rfl
  cases i with
  | bufStb off v => simp [encode, Instr.keepB]
  | idxWait c e t | wObtain n t | wWrite n t | rObtain i n t lv | rRead i n t lv => exact htmo t
  | _ => rfl

/-- Settles O1: every beat the encoder writes holds what its instruction reads. -/
theorem decodeOfEncodeIsTheInstruction : Obligations.DecodeOfEncodeIsTheInstruction := fun i =>
  decode_eq_ok_iff.mpr (by rw [keepA_encode, keepB_encode])

/-- Settles O3: what is read of an operand does not depend on the rest of it. -/
theorem unreadOperandsAreIgnored : Obligations.UnreadOperandsAreIgnored := by
  intro cw a b i h
  rw [decode_eq_ok_iff] at h
  refine ⟨fun hr a' => ?_, fun hr b' => ?_, fun off v hi b' hb => ?_⟩
  · rw [decode_eq_ok_iff, h, Instr.keepA_of_not_reads hr, Instr.keepA_of_not_reads hr]
  · rw [decode_eq_ok_iff, h, Instr.keepB_of_not_reads hr, Instr.keepB_of_not_reads hr]
  · subst hi
    rw [decode_eq_ok_iff, h, Instr.keepB, Instr.keepB, hb]

end Sys2Proof
end

section
/-! PROOF. The rows of the opcode map field by field: a word selects a row exactly when it has the row's `UNIT` and `FUNC`, and
is 0 outside the bits that the row leaves free (30_encoding R118). -/

open Sys2Proof Sys2Proof.Machine

namespace Sys2Proof

/-! ### Rows by fields -/

theorem cwFields_and (x y : Word) : cwFields (x &&& y) =
    { unit := (cwFields x).unit &&& (cwFields y).unit, func := (cwFields x).func &&& (cwFields y).func,
      sel := (cwFields x).sel &&& (cwFields y).sel, flg := (cwFields x).flg &&& (cwFields y).flg,
      rsv := (cwFields x).rsv &&& (cwFields y).rsv } := by
  simp only [cwFields, BitVec.extractLsb'_and]

theorem cwFields_not (x : Word) : cwFields (~~~x) =
    { unit := ~~~(cwFields x).unit, func := ~~~(cwFields x).func, sel := ~~~(cwFields x).sel,
      flg := ~~~(cwFields x).flg, rsv := ~~~(cwFields x).rsv } := by
  unfold cwFields
  congr 1
  all_goals
    ext i hi
    simp
    try omega

/-- A row of the opcode map: its `UNIT` and `FUNC`, the bits of `SEL` that it leaves free, and the flags that it lists. -/
structure RowShape where
  unit : BitVec 4
  func : BitVec 4
  free : BitVec 8
  flags : BitVec 8

/-- The two columns of the map that select the row. -/
def RowShape.opRow (r : RowShape) : OpRow where
  mask := ~~~packCw 0 0 r.free r.flags
  value := packCw r.unit r.func 0 0

/-- The opcode map by fields, in the table's order. -/
def rowShapes : List RowShape :=
  [⟨0, 0, 1, 0⟩, ⟨0, 1, 1, 0⟩, ⟨0, 2, 1, 0⟩, ⟨0, 3, 1, 0⟩, ⟨0, 4, 1, flagTV⟩, ⟨0, 5, 1, 0⟩, ⟨0, 6, 1, 0⟩,
   ⟨1, 0, 0, 0⟩, ⟨1, 1, 0, 0⟩, ⟨1, 2, 0, 0⟩, ⟨1, 3, 0, flagLV ||| flagRDR⟩, ⟨1, 4, 0, 0⟩,
   ⟨2, 0, 0, flagTHR ||| flagEXT⟩, ⟨2, 1, 0xFF, 0⟩,
   ⟨3, 0, 0, 0⟩, ⟨3, 1, 0, flagTV⟩, ⟨3, 2, 0, 0⟩, ⟨3, 3, 0, flagTV⟩, ⟨3, 4, 0, 0⟩, ⟨3, 5, 0, 0⟩, ⟨3, 6, 0, 0⟩,
   ⟨4, 0, 0xFF, flagTHR⟩, ⟨4, 1, 0xFF, flagTV ||| flagLV⟩, ⟨4, 2, 0xFF, 0⟩, ⟨4, 3, 0xFF, flagTV ||| flagLV⟩, ⟨4, 4, 0xFF, 0⟩,
   ⟨4, 5, 0xFF, 0⟩,
   ⟨5, 0, 0, 0⟩, ⟨5, 1, 0, 0⟩, ⟨6, 0, 0, 0⟩, ⟨6, 1, 0, 0⟩, ⟨7, 0, 0, 0⟩, ⟨7, 1, 0, 0⟩]

theorem opRows_eq_map_opRow : opRows = rowShapes.map RowShape.opRow := by decide

/-- A word that selects a row is packed from the row's `UNIT` and `FUNC`, a select and flags within its free bits. -/
theorem RowShape.eq_packCw_of_selects {r : RowShape} {w : Word} (h : r.opRow.selects w = true) :
    ∃ sel flg : BitVec 8, w = packCw r.unit r.func sel flg ∧ sel &&& ~~~r.free = 0 ∧ flg &&& ~~~r.flags = 0 := by
  have hf := congrArg cwFields (eq_of_beq h)
  simp only [RowShape.opRow, cwFields_and, cwFields_not, cwFields_packCw, CwFields.mk.injEq] at hf
  obtain ⟨hunit, hfunc, hsel, hflg, hrsv⟩ := hf
  have hu : (cwFields w).unit = r.unit := BitVec.and_allOnes.symm.trans hunit
  have hn : (cwFields w).func = r.func := BitVec.and_allOnes.symm.trans hfunc
  refine ⟨_, _, ?_, hsel, hflg⟩
  rw [← hu, ← hn]
  exact (word_cwFields (BitVec.and_allOnes.symm.trans hrsv)).symm

/-! ### The row selected is the operation read -/

theorem CellSel.exists_sel_eq {sel : BitVec 8} (h : sel &&& ~~~1 = 0) : ∃ c : CellSel, sel = c.sel := by
  have hbit : ∀ x : BitVec 8, x &&& ~~~1 = 0 → x = 0 ∨ x = 1 := by decide
  exact (hbit sel h).elim (⟨.rear, ·⟩) (⟨.front, ·⟩)

theorem exists_decode_of_shape {k : Nat} {r : RowShape} (h : rowShapes[k]? = some r) {sel flg : BitVec 8}
    (hs : sel &&& ~~~r.free = 0) (hg : flg &&& ~~~r.flags = 0) (a b : Word) :
    ∃ i, decode (packCw r.unit r.func sel flg) a b = .ok i ∧ i.row = k := by
  have hp := decode_packCw r.unit r.func sel flg a b
  match k, h with
  | 0, h | 1, h | 5, h | 6, h =>
    obtain rfl := Option.some.inj h
    obtain ⟨c, rfl⟩ := CellSel.exists_sel_eq hs
    exact ⟨_, decode_of_cellRow hp hg rfl, rfl⟩
  | 2, h =>
    obtain rfl := Option.some.inj h
    obtain ⟨c, rfl⟩ := CellSel.exists_sel_eq hs
    exact ⟨_, decode_of_cellRow (g := (.idxStrl · a)) hp hg rfl, rfl⟩
  | 3, h =>
    obtain rfl := Option.some.inj h
    obtain ⟨c, rfl⟩ := CellSel.exists_sel_eq hs
    exact ⟨_, decode_of_cellRow (g := (.idxCas · a b)) hp hg rfl, rfl⟩
  | 4, h =>
    obtain rfl := Option.some.inj h
    obtain ⟨c, rfl⟩ := CellSel.exists_sel_eq hs
    exact ⟨_, decode_of_cellRow (g := (.idxWait · a _)) hp hg rfl, rfl⟩
  | 13, h | 21, h | 22, h | 23, h | 24, h | 25, h | 26, h =>
    obtain rfl := Option.some.inj h
    exact ⟨_, decode_of_anyRow hp hg, rfl⟩
  | 7, h | 8, h | 9, h | 10, h | 11, h | 12, h | 14, h | 15, h | 16, h | 17, h | 18, h | 19, h | 20, h | 27, h | 28, h | 29, h
  | 30, h | 31, h | 32, h =>
    obtain rfl := Option.some.inj h
    obtain rfl : sel = 0 := BitVec.and_allOnes.symm.trans hs
    exact ⟨_, decode_of_zeroRow hp hg, rfl⟩
  | k + 33, h => cases h

theorem exists_decode_of_selects {cw : Word} {k : Nat} {r : OpRow} (h : opRows[k]? = some r) (hs : r.selects cw = true)
    (a b : Word) : ∃ i, decode cw a b = .ok i ∧ i.row = k := by
  rw [opRows_eq_map_opRow, List.getElem?_map, Option.map_eq_some_iff] at h
  obtain ⟨shape, hk, rfl⟩ := h
  obtain ⟨sel, flg, rfl, hsel, hflg⟩ := RowShape.eq_packCw_of_selects hs
  exact exists_decode_of_shape hk hsel hflg a b

/-- No word selects two rows: the decoder reads one operation. -/
theorem index_eq_of_selects {cw : Word} {j k : Nat} {q r : OpRow} (hj : opRows[j]? = some q) (hk : opRows[k]? = some r)
    (hq : q.selects cw = true) (hr : r.selects cw = true) : j = k := by
  obtain ⟨i, hi, rfl⟩ := exists_decode_of_selects hj hq 0 0
  obtain ⟨i', hi', rfl⟩ := exists_decode_of_selects hk hr 0 0
  cases hi.symm.trans hi'
  rfl

theorem Instr.row_lt (i : Instr) : i.row < opRows.length := by
  change i.row < 33
  cases i <;> simp [Instr.row]

/-- Every operation has a row of the map, and its command word selects it. -/
theorem exists_row_selects_encode (i : Instr) : ∃ r ∈ opRows, r.selects (encode i).cw = true := by
  have hrow : Laws.RowMatch.Statement i := by
    cases i with
    | idxInit c => exact Laws.RowMatch.idxInit c
    | idxLdaq c => exact Laws.RowMatch.idxLdaq c
    | idxStrl c v => exact Laws.RowMatch.idxStrl c v
    | idxCas c e d => exact Laws.RowMatch.idxCas c e d
    | idxWait c e t => exact Laws.RowMatch.idxWait c e t
    | idxWake1 c => exact Laws.RowMatch.idxWake1 c
    | idxWakeall c => exact Laws.RowMatch.idxWakeall c
    | baseNp2 n => exact Laws.RowMatch.baseNp2 n
    | baseSlot x => exact Laws.RowMatch.baseSlot x
    | baseSum x k => exact Laws.RowMatch.baseSum x k
    | baseDiff r f rdr lv => exact Laws.RowMatch.baseDiff r f rdr lv
    | baseBack x => exact Laws.RowMatch.baseBack x
    | fifoInit n size thr ext => exact Laws.RowMatch.fifoInit n size thr ext
    | csrRd sel => exact Laws.RowMatch.csrRd sel
    | wAttach => exact Laws.RowMatch.wAttach
    | wObtain n t => exact Laws.RowMatch.wObtain n t
    | wRelease k => exact Laws.RowMatch.wRelease k
    | wWrite n t => exact Laws.RowMatch.wWrite n t
    | wSethlt l => exact Laws.RowMatch.wSethlt l
    | wSetlla l => exact Laws.RowMatch.wSetlla l
    | wSeteff e => exact Laws.RowMatch.wSeteff e
    | rAttach i thr => exact Laws.RowMatch.rAttach i thr
    | rObtain i n t lv => exact Laws.RowMatch.rObtain i n t lv
    | rRelease i k => exact Laws.RowMatch.rRelease i k
    | rRead i n t lv => exact Laws.RowMatch.rRead i n t lv
    | rSetllt i l => exact Laws.RowMatch.rSetllt i l
    | rSethla i l => exact Laws.RowMatch.rSethla i l
    | xgEnc v => exact Laws.RowMatch.xgEnc v
    | xgDec g => exact Laws.RowMatch.xgDec g
    | bufLdb off => exact Laws.RowMatch.bufLdb off
    | bufStb off v => exact Laws.RowMatch.bufStb off v
    | fenceAcq => exact Laws.RowMatch.fenceAcq
    | fenceRel => exact Laws.RowMatch.fenceRel
  exact ⟨opRows[i.row]'i.row_lt, List.getElem_mem _, hrow _ (List.getElem?_eq_getElem _)⟩

theorem length_filter_le_one {α : Type} {l : List α} {p : α → Bool}
    (h : l.Pairwise fun x y => p x = true → ¬ p y = true) : (l.filter p).length ≤ 1 := by
  have hsel : ∀ x ∈ l.filter p, p x = true := fun x hx => (List.mem_filter.mp hx).2
  have hpair := h.filter p
  generalize l.filter p = m at hsel hpair
  match m with
  | [] => exact Nat.zero_le 1
  | [_] => exact Nat.le_refl 1
  | x :: y :: _ => exact absurd (hsel y (by simp)) (List.rel_of_pairwise_cons hpair (by simp) (hsel x (by simp)))

/-- Settles O2: a selected row is the operation the decoder reads, so no word selects two, and what the decoder reads was
encoded, so its row is selected. -/
theorem decoderFollowsTheOpcodeMap : Obligations.DecoderFollowsTheOpcodeMap := by
  refine ⟨rfl, fun w => ?_, fun cw a b k r hk hs => exists_decode_of_selects hk hs a b, fun cw a b hno => ?_⟩
  · exact length_filter_le_one (List.pairwise_iff_getElem.mpr fun j k hj hk hjk hq hr =>
      Nat.ne_of_lt hjk (index_eq_of_selects (List.getElem?_eq_getElem hj) (List.getElem?_eq_getElem hk) hq hr))
  · cases h : decode cw a b with
    | error e => exact ⟨e, rfl⟩
    | ok i =>
      obtain ⟨r, hr, hs⟩ := exists_row_selects_encode i
      rw [encode_of_decode h, hno r hr] at hs
      cases hs

/-- Settles O4: the words, evaluated. -/
theorem sampleCommandWordsDecode : Obligations.SampleCommandWordsDecode := by
  unfold Obligations.SampleCommandWordsDecode
  decide

end Sys2Proof
end

section
/-! PROOF. Who may issue what: a ready port takes every command, a command on a port its row is not offered on is refused, and
so is an illegal command word (30_encoding R110, R119, R120). -/

open Sys2Proof Sys2Proof.Machine

namespace Sys2Proof.Machine

/-! ### Commands and ports (R110, R119) -/

/-- Every operation is a command: legal or not, with an effect. -/
theorem exec_eq_command (i : Instr) (s : State) : ∃ legal effect, exec i s = s.command legal effect := by
  cases i <;> dsimp only [exec, execIdxInit, execIdxLdaq, execIdxStrl, execIdxCas, execIdxWait, execIdxWake1, execIdxWakeall,
    execBaseNp2, execBaseSlot, execBaseSum, execBaseDiff, execBaseBack, execFifoInit, execCsrRd, execWAttach, execWObtain,
    execWRelease, execWWrite, execWSethlt, execWSetlla, execWSeteff, execRAttach, execRObtain, execRRelease, execRRead,
    execRSetllt, execRSethla, execXgEnc, execXgDec, execBufLdb, execBufStb, execFenceAcq, execFenceRel] <;>
    exact ⟨_, _, rfl⟩

/-- A command on a port that is not ready is the model's fault (log 14). -/
theorem State.command_not_ready {s : State} {legal : Bool} {f : State → State} (h : s.ready s.beat.port = false) :
    s.command legal f = .fault .portNotReady := by
  simp [State.command, h]

/-- Settles O9: every operation is a command, and readiness is all that a command asks of its port. -/
theorem readyPortTakesEveryCommand : Obligations.ReadyPortTakesEveryCommand := by
  intro i s
  obtain ⟨legal, effect, he⟩ := exec_eq_command i s
  rw [he]
  refine ⟨fun hr => ?_, State.command_not_ready⟩
  cases hl : legal with
  | true => exact ⟨_, State.command_legal hr rfl⟩
  | false => exact ⟨_, State.command_illegal hr rfl⟩

section
variable {s : State} {o : Agent} {sel : BitVec 8}

theorem State.cfgReg_eq_none (h : 0x05 < sel.toNat) : s.cfgReg sel = none := by
  unfold State.cfgReg
  split
  case h_7 => rfl
  all_goals omega

theorem Writer.reg_eq_none {w : Writer} (h : sel.toNat < 0x10 ∨ 0x15 < sel.toNat) : w.reg sel = none := by
  unfold Writer.reg
  split
  case h_7 => rfl
  all_goals omega

theorem Reader.reg_eq_none {r : Reader} (h : sel.toNat < 0x20 ∨ 0x25 < sel.toNat) : r.reg sel = none := by
  unfold Reader.reg
  split
  case h_7 => rfl
  all_goals omega

/-- A register that is no configuration register is read on no port but its owner's (R53, R119). -/
theorem State.readReg_eq_none (hc : 0x05 < sel.toNat) (hw : o = .writer → sel.toNat < 0x10 ∨ 0x15 < sel.toNat)
    (hr : ∀ i, o = .reader i → sel.toNat < 0x20 ∨ 0x25 < sel.toNat) : s.readReg o sel = none := by
  unfold State.readReg
  rw [State.cfgReg_eq_none hc]
  cases o with
  | host | peer => simp
  | writer => simp [Writer.reg_eq_none (hw rfl)]
  | reader i => simp [Reader.reg_eq_none (hr i rfl)]

theorem mem_csrNumbers_iff (sel : BitVec 8) : sel ∈ csrNumbers ↔
    sel.toNat ≤ 0x05 ∨ (0x10 ≤ sel.toNat ∧ sel.toNat ≤ 0x15) ∨ (0x20 ≤ sel.toNat ∧ sel.toNat ≤ 0x25) := by
  revert sel
  decide

end

/-- A register number that R53 does not list is refused on every port (R120, log 25). -/
theorem exec_refuses_of_not_wellFormed {i : Instr} {s : State} (hr : s.ready s.beat.port = true) (h : i.wellFormed = false) :
    exec i s = .next (s.refusedOn s.beat.port) := by
  cases i with
  | csrRd sel =>
    have hn : sel ∉ csrNumbers := by simpa [Instr.wellFormed] using h
    rw [mem_csrNumbers_iff] at hn
    refine State.command_illegal hr ?_
    rw [State.readReg_eq_none (by omega) (fun _ => by omega) (fun _ _ => by omega)]
    rfl
  | _ => cases h

/-- Settles O7: what makes a command legal names its port. -/
theorem wrongPortIsRefused : Obligations.WrongPortIsRefused := by
  intro i s hr ho
  have hno : ∀ (legal : Bool) (f : State → State), legal = false → s.command legal f = .next (s.refusedOn s.beat.port) :=
    fun _ _ hl => State.command_illegal hr hl
  cases i with dsimp only [exec, Instr.offeredOn] at ho ⊢
  | fifoInit n size thr ext => exact hno _ _ (by simp [State.mayConstruct, ho])
  | idxInit c => exact hno _ _ (by simp [State.mayInitCell, ho])
  | idxLdaq c | idxStrl c v | idxCas c e d | idxWait c e t | idxWake1 c | idxWakeall c =>
    exact hno _ _ (by simp [State.peerMay, ho])
  | wAttach => exact hno _ _ (by simp [ho])
  | wObtain k t | wWrite k t | wSethlt k | wSetlla k | wSeteff k | wRelease k =>
    exact hno _ _ (by simp [State.writerMay, ho])
  | rAttach i thr => exact hno _ _ (by simp [State.mayAttach, ho])
  | rObtain i k t l | rRead i k t l | rSetllt i k | rSethla i k | rRelease i k =>
    exact hno _ _ (by simp [State.readerMay, ho])
  | csrRd sel =>
    simp only [not_or, not_and, not_exists] at ho
    obtain ⟨hcfg, hwriter, hreader⟩ := ho
    refine hno _ _ ?_
    rw [State.readReg_eq_none (by omega) (fun hw => ?_) (fun j hj => ?_)]
    · rfl
    · exact .inr (by by_contra hlt; exact hwriter (by omega) hw)
    · exact .inl (by by_contra hlt; exact hreader (by omega) j hj)
  | bufStb off v =>
    obtain ⟨hwriter, hpeer⟩ := not_or.mp ho
    exact hno _ _ (by simp [State.mayStoreByte, hwriter, hpeer])
  | bufLdb off => exact hno _ _ (by simp [State.mayLoadByte, not_not.mp ho])
  | fenceAcq | fenceRel => exact hno _ _ (by simp [State.mayFence, not_not.mp ho])
  | baseNp2 | baseSlot | baseSum | baseDiff | baseBack | xgEnc | xgDec => exact absurd trivial ho

/-! ### The turn of a ready port (R110) -/

/-- A turn of an agent whose port is ready takes the port's next command. -/
theorem State.turn_of_ready {s : State} {t : Turn} (h : s.ready t.who = true) : s.turn t = s.acceptNext t.who t.burst := by
  obtain ⟨who, burst, cause⟩ := t
  cases who with
  | host => rfl
  | writer =>
    simp only [State.turn, State.turnWriter]
    split
    case h_1 hph | h_2 hph =>
      rw [State.ready, hph] at h
      cases h
    case h_3 => rfl
  | reader i =>
    simp only [State.turn, State.turnReader]
    split
    case h_1 hph | h_2 hph =>
      rw [State.ready, hph] at h
      cases h
    case h_3 => rfl
  | peer =>
    simp only [State.turn, State.turnPeer]
    split
    case h_1 hwait =>
      rw [State.ready, hwait] at h
      cases h
    case h_2 => rfl

/-- The step whose turn finds a ready port with a command accepts that command. -/
theorem step_eq_accept {s s1 : State} {t : Turn} {c : Command} {rest : List Command} (hn : s.nextTurn = some (t, s1))
    (hr : s1.ready t.who = true) (hc : takeCommand t.who s1.inbox = some (c, rest)) (hp : s1.hasPort t.who = true) :
    step s = s1.accept c rest t.burst := by
  unfold step
  rw [hn]
  dsimp only
  rw [State.turn_of_ready hr, State.acceptNext, hc]
  simp [hp]

theorem State.accept_of_ok {s : State} {c : Command} {rest : List Command} {burst : Nat} {i : Instr}
    (h : decode c.cmd.cw c.cmd.a c.cmd.b = .ok i) : s.accept c rest burst = exec i (s.beatOf c rest burst) := by
  unfold State.accept
  rw [h]
  rfl

theorem State.accept_of_error {s : State} {c : Command} {rest : List Command} {burst : Nat} {e : DecodeError}
    (h : decode c.cmd.cw c.cmd.a c.cmd.b = .error e) :
    s.accept c rest burst = .next ((s.beatOf c rest burst).refusedOn c.port) := by
  unfold State.accept
  rw [h]
  rfl

/-- Settles O5: the port's command is accepted, and the schedule is all that moved before. -/
theorem stepRunsTheDecodedInstruction : Obligations.StepRunsTheDecodedInstruction := by
  intro s s1 t c rest i hn hr hc hp hd
  obtain ⟨hport, -, -⟩ := takeCommand_spec hc
  exact ⟨(step_eq_accept hn hr hc hp).trans (State.accept_of_ok hd), hport, State.nextTurn_frame hn⟩

/-! ### Illegal command words (R120) -/

/-- R120 by the fields of the word. -/
theorem illegalOn_iff_fields (o : Agent) (cw : Word) : illegalOn o cw ↔
    let f := cwFields cw
    f.unit.toNat ≥ 8 ∨ f.func.toNat ≥ funcsOf f.unit.toNat ∨ f.rsv ≠ 0 ∨
    f.flg &&& ~~~flagsOf f.unit.toNat f.func.toNat ≠ 0 ∨
    (selectIsZero f.unit.toNat f.func.toNat = true ∧ f.sel.toNat ≠ 0) ∨ (f.unit.toNat = 0 ∧ f.sel.toNat > 1) ∨
    (f.unit.toNat = 2 ∧ f.func.toNat = 1 ∧ f.sel ∉ csrNumbers) ∨ (f.unit.toNat = 4 ∧ o ≠ .reader f.sel.toNat) := by
  have hunit : (cw >>> 28).toNat = (cwFields cw).unit.toNat := by
    rw [cwFields, BitVec.extractLsb'_toNat, BitVec.toNat_ushiftRight]
    have := cw.isLt
    omega
  have hfunc : (cw >>> 24).toNat % 16 = (cwFields cw).func.toNat := by
    rw [cwFields, BitVec.extractLsb'_toNat, BitVec.toNat_ushiftRight]
  have hsel : (cw >>> 16).toNat % 256 = (cwFields cw).sel.toNat := by
    rw [cwFields, BitVec.extractLsb'_toNat, BitVec.toNat_ushiftRight]
  have hflg : (cw >>> 8).setWidth 8 = (cwFields cw).flg := BitVec.setWidth_ushiftRight_eq_extractLsb
  have hrsv : cw.setWidth 8 = (cwFields cw).rsv := BitVec.setWidth_eq_extractLsb' (by decide)
  simp only [illegalOn, hunit, hfunc, hsel, hflg, hrsv, BitVec.ofNat_toNat, BitVec.setWidth_eq]

/-- A word without any of the conditions of R120. -/
theorem not_illegalOn_packCw {o : Agent} {u f : BitVec 4} {sel flg : BitVec 8} (hu : u.toNat < 8)
    (hf : f.toNat < funcsOf u.toNat) (hg : flg &&& ~~~flagsOf u.toNat f.toNat = 0)
    (hs : selectIsZero u.toNat f.toNat = true → sel.toNat = 0) (hc : u.toNat = 0 → sel.toNat ≤ 1)
    (hn : u.toNat = 2 → f.toNat = 1 → sel ∈ csrNumbers) (hp : u.toNat = 4 → o = .reader sel.toNat) :
    ¬ illegalOn o (packCw u f sel flg) := by
  rw [illegalOn_iff_fields, cwFields_packCw]
  dsimp only
  rintro (h | h | h | h | ⟨hz, h⟩ | ⟨h0, h⟩ | ⟨h2, h1, h⟩ | ⟨h4, h⟩)
  · omega
  · omega
  · exact h rfl
  · exact h hg
  · exact h (hs hz)
  · exact absurd (hc h0) (by omega)
  · exact h (hn h2 h1)
  · exact h (hp h4)

theorem not_illegalOn_cellRow {o : Agent} {f : BitVec 4} (c : CellSel) {flg : BitVec 8} (hf : f.toNat < 7)
    (hg : flg &&& ~~~flagsOf 0 f.toNat = 0) : ¬ illegalOn o (packCw 0 f c.sel flg) :=
  not_illegalOn_packCw (by decide) hf hg nofun (fun _ => c.toNat_sel_le) nofun nofun

theorem not_illegalOn_zeroRow {o : Agent} {u f : BitVec 4} {flg : BitVec 8} (hz : selectIsZero u.toNat f.toNat = true)
    (hu : u.toNat < 8) (hf : f.toNat < funcsOf u.toNat) (hg : flg &&& ~~~flagsOf u.toNat f.toNat = 0) :
    ¬ illegalOn o (packCw u f 0 flg) :=
  not_illegalOn_packCw hu hf hg (fun _ => rfl) (fun _ => Nat.zero_le 1) (fun _ _ => by decide)
    (fun h4 => by simp [selectIsZero, h4] at hz)

theorem not_illegalOn_readerRow {o : Agent} {f : BitVec 4} {sel flg : BitVec 8} (hp : o = .reader sel.toNat) (hf : f.toNat < 6)
    (hg : flg &&& ~~~flagsOf 4 f.toNat = 0) : ¬ illegalOn o (packCw 4 f sel flg) :=
  not_illegalOn_packCw (by decide) hf hg nofun nofun nofun (fun _ => hp)

/-- A well-formed instruction is encoded legally for the ports it is offered on. -/
theorem not_illegalOn_encode {i : Instr} {o : Agent} (hw : i.wellFormed = true) (ho : i.offeredOn o) :
    ¬ illegalOn o (encode i).cw := by
  cases i with dsimp only [encode]
  | idxInit c | idxLdaq c | idxStrl c v | idxCas c e d | idxWake1 c | idxWakeall c =>
    exact not_illegalOn_cellRow c (by decide) (by decide)
  | idxWait c e t => exact not_illegalOn_cellRow c (by decide) (flagIf_masked ..)
  | baseNp2 | baseSlot | baseSum | baseBack | wAttach | wRelease | wSethlt | wSetlla | wSeteff | xgEnc | xgDec | bufLdb
  | bufStb | fenceAcq | fenceRel => exact not_illegalOn_zeroRow (by decide) (by decide) (by decide) (by decide)
  | baseDiff r f rdr lv => exact not_illegalOn_zeroRow (by decide) (by decide) (by decide) (flagIf_or_masked ..)
  | fifoInit n size thr ext => exact not_illegalOn_zeroRow (by decide) (by decide) (by decide) (flagIf_or_masked ..)
  | wObtain n t | wWrite n t => exact not_illegalOn_zeroRow (by decide) (by decide) (by decide) (flagIf_masked ..)
  | csrRd sel =>
    exact not_illegalOn_packCw (by decide) (by decide) (by decide) nofun nofun (fun _ _ => List.contains_iff_mem.mp hw) nofun
  | rRelease sel k | rSetllt sel k | rSethla sel k => exact not_illegalOn_readerRow ho (by decide) (by decide)
  | rAttach sel thr => exact not_illegalOn_readerRow ho (by decide) (flagIf_masked ..)
  | rObtain sel n t lv | rRead sel n t lv => exact not_illegalOn_readerRow ho (by decide) (flagIf_or_masked ..)

/-- Settles O6: an illegal word does not decode, or its register number is not listed, or its port is not the one offered. -/
theorem illegalCommandWordIsRefused : Obligations.IllegalCommandWordIsRefused := by
  intro s s1 t c rest hn hr hc hp hill
  obtain ⟨hport, -, -⟩ := takeCommand_spec hc
  rw [step_eq_accept hn hr hc hp]
  cases hd : decode c.cmd.cw c.cmd.a c.cmd.b with
  | error e => exact State.accept_of_error hd
  | ok i =>
    rw [State.accept_of_ok hd]
    have hready : (s1.beatOf c rest t.burst).ready c.port = true := hport ▸ hr
    by_cases hw : i.wellFormed = true
    · refine wrongPortIsRefused i _ hready fun ho => not_illegalOn_encode hw ho ?_
      rw [encode_of_decode hd]
      exact hill
    · exact exec_refuses_of_not_wellFormed hready (Bool.eq_false_of_not_eq_true hw)

end Sys2Proof.Machine
end

section
/-! PROOF. The Gray transport (40_index_cell R156 to R158): both codes bit by bit, their inverse laws, and the step of one. -/

open Sys2Proof Sys2Proof.Machine

namespace Sys2Proof.Machine

/-! ### The codes, bit by bit -/

/-- The parity of `n` bits of a word, from bit `i` up. -/
def bitParity (v : Word) : Nat → Nat → Bool
  | 0, _ => false
  | n + 1, i => v.getLsbD i ^^ bitParity v n (i + 1)

theorem bitParity_add (v : Word) (m n i : Nat) : bitParity v (m + n) i = (bitParity v m i ^^ bitParity v n (i + m)) := by
  induction m generalizing i with
  | zero => simp [bitParity]
  | succ m ih =>
    rw [Nat.succ_add, bitParity, bitParity, ih, Bool.xor_assoc, Nat.succ_add_eq_add_succ]

/-- The parity down from bit 31, as R157 writes it. -/
theorem bitParity_eq_foldl (v : Word) {n : Nat} (h : n ≤ 32) :
    bitParity v n (32 - n) = (List.range n).foldl (fun acc j => acc ^^ v.getLsbD (31 - j)) false := by
  induction n with
  | zero => rfl
  | succ n ih =>
    have hi : 32 - (n + 1) = 31 - n := by omega
    have hs : 31 - n + 1 = 32 - n := by omega
    rw [List.range_succ, List.foldl_append, ← ih (by omega), bitParity, hi, hs, Bool.xor_comm]
    rfl

/-- Bits above bit 31 add nothing. -/
theorem bitParity_of_le (v : Word) (n : Nat) {i : Nat} (h : 32 ≤ i) : bitParity v n i = false := by
  induction n generalizing i with
  | zero => rfl
  | succ n ih => rw [bitParity, BitVec.getLsbD_of_ge v i h, ih (by omega)]; rfl

theorem grayRound_getLsbD (v : Word) (k i : Nat) : (grayRound v k).getLsbD i = (v.getLsbD i ^^ v.getLsbD (i + k)) := by
  rw [grayRound, BitVec.getLsbD_xor, BitVec.getLsbD_ushiftRight, Nat.add_comm k]

/-- R156. -/
theorem grayEnc_getLsbD (v : Word) (i : Nat) : (grayEnc v).getLsbD i = (v.getLsbD i ^^ v.getLsbD (i + 1)) :=
  grayRound_getLsbD v 1 i

/-- A round doubles the bits whose parity stands at each place. -/
theorem grayRound_parity {g w : Word} {k : Nat} (h : ∀ i, w.getLsbD i = bitParity g k i) (i : Nat) :
    (grayRound w k).getLsbD i = bitParity g (k + k) i := by
  rw [grayRound_getLsbD, h, h, bitParity_add]

/-- R157: after five rounds every bit is the parity of all bits from it up. -/
theorem grayDec_getLsbD (g : Word) (i : Nat) : (grayDec g).getLsbD i = bitParity g 32 i :=
  have h1 : ∀ i, g.getLsbD i = bitParity g 1 i := fun i => by simp [bitParity]
  grayRound_parity (grayRound_parity (grayRound_parity (grayRound_parity (grayRound_parity h1)))) i

/-- The parity of a code telescopes. -/
theorem bitParity_grayEnc (v : Word) (n i : Nat) : bitParity (grayEnc v) n i = (v.getLsbD i ^^ v.getLsbD (i + n)) := by
  induction n generalizing i with
  | zero => simp [bitParity]
  | succ n ih =>
    rw [bitParity, ih, grayEnc_getLsbD, Nat.succ_add_eq_add_succ, Bool.xor_assoc, ← Bool.xor_assoc (v.getLsbD (i + 1)),
      Bool.xor_self, Bool.false_xor]

theorem grayDec_grayEnc (v : Word) : grayDec (grayEnc v) = v := by
  refine BitVec.eq_of_getLsbD_eq fun i _ => ?_
  rw [grayDec_getLsbD, bitParity_grayEnc, BitVec.getLsbD_of_ge v (i + 32) (by omega), Bool.xor_false]

theorem grayEnc_grayDec (g : Word) : grayEnc (grayDec g) = g := by
  refine BitVec.eq_of_getLsbD_eq fun i _ => ?_
  have hup : bitParity g (32 + 1) i = bitParity g 32 i := by
    rw [bitParity_add, bitParity_of_le g 1 (by omega), Bool.xor_false]
  rw [grayEnc_getLsbD, grayDec_getLsbD, grayDec_getLsbD, ← hup, bitParity, Bool.xor_assoc, Bool.xor_self, Bool.xor_false]

/-! ### An advance of one (R158) -/

theorem grayEnc_xor (v w : Word) : grayEnc v ^^^ grayEnc w = grayEnc (v ^^^ w) := by
  refine BitVec.eq_of_getLsbD_eq fun i _ => ?_
  simp only [BitVec.getLsbD_xor, grayEnc_getLsbD, Bool.xor_assoc, Bool.xor_left_comm]

/-- A carry goes on from the bits that it changed from 1. -/
theorem xor_add_one_getLsbD_succ (v : Word) {i : Nat} (h : i + 1 < 32) :
    (v ^^^ (v + 1)).getLsbD (i + 1) = (v.getLsbD i && (v ^^^ (v + 1)).getLsbD i) := by
  simp only [BitVec.getLsbD_xor, BitVec.getLsbD_add h, BitVec.getLsbD_add (Nat.lt_of_succ_lt h), BitVec.carry_succ]
  cases i <;> cases v.getLsbD _ <;> simp [Bool.atLeastTwo]

/-- Bits that stand from 0 up without a gap end at a last one. -/
theorem exists_last_of_downward {p : Nat → Bool} {n : Nat} (h0 : p 0 = true)
    (hd : ∀ i, i < n → p (i + 1) = true → p i = true) : ∃ k, k ≤ n ∧ ∀ i, i ≤ n → p i = decide (i ≤ k) := by
  refine ⟨Nat.findGreatest (fun i => p i = true) n, Nat.findGreatest_le n, fun i hi => ?_⟩
  by_cases hik : i ≤ Nat.findGreatest (fun i => p i = true) n
  · rw [decide_eq_true hik]
    exact Nat.decreasingInduction' (fun j hj _ => hd j (Nat.lt_of_lt_of_le hj (Nat.findGreatest_le n))) hik
      (Nat.findGreatest_spec (P := fun i => p i = true) (Nat.zero_le n) h0)
  · rw [decide_eq_false hik]
    exact Bool.eq_false_of_not_eq_true (Nat.findGreatest_is_greatest (Nat.not_le.mp hik) hi)

/-- An advance of one changes the bits up to some place, and no others. -/
theorem exists_xor_add_one (v : Word) : ∃ k, k ≤ 31 ∧ ∀ i, i ≤ 31 → (v ^^^ (v + 1)).getLsbD i = decide (i ≤ k) := by
  refine exists_last_of_downward ?_ fun i hi hc => ?_
  · rw [BitVec.getLsbD_xor, BitVec.getLsbD_add (by decide)]
    cases v.getLsbD 0 <;> simp
  · rw [xor_add_one_getLsbD_succ v (Nat.succ_lt_succ hi), Bool.and_eq_true] at hc
    exact hc.2

/-- R158: of the bits that the advance changes, the code shows the last alone. -/
theorem exists_grayEnc_succ (v : Word) : ∃ k, k < 32 ∧ grayEnc v ^^^ grayEnc (v + 1) = 1#32 <<< k := by
  obtain ⟨k, hk, hbits⟩ := exists_xor_add_one v
  refine ⟨k, Nat.lt_succ_of_le hk, BitVec.eq_of_getLsbD_eq fun i hi => ?_⟩
  have hup : (v ^^^ (v + 1)).getLsbD (i + 1) = decide (i + 1 ≤ k) := by
    rcases Nat.lt_or_ge (i + 1) 32 with h | h
    · exact hbits _ (Nat.le_of_lt_succ h)
    · rw [BitVec.getLsbD_of_ge _ _ h, decide_eq_false (by omega)]
  rw [grayEnc_xor, grayEnc_getLsbD, hbits i (Nat.le_of_lt_succ hi), hup, BitVec.getLsbD_shiftLeft]
  rcases Nat.lt_trichotomy i k with h | rfl | h
  · simp [h, Nat.le_of_lt h, Nat.succ_le_of_lt h]
  · simp [hi]
  · have hne : i - k ≠ 0 := Nat.sub_ne_zero_of_lt h
    simp [Nat.not_le.mpr h, Nat.le_of_lt h, BitVec.getLsbD_one, hne]

/-! ### The commands -/

section
variable {s : State} (hr : s.ready s.beat.port = true)
include hr

theorem exec_xgEnc (v : Word) : exec (.xgEnc v) s = .next (s.answer s.beat.port { val := grayEnc v }) :=
  State.command_legal hr rfl

theorem exec_xgDec (g : Word) : exec (.xgDec g) s = .next (s.answer s.beat.port { val := grayDec g }) :=
  State.command_legal hr rfl

end

/-- Settles O19: each code's bits, and that each undoes the other. -/
theorem grayCommandsAnswerInverseCodes : Obligations.GrayCommandsAnswerInverseCodes := by
  refine ⟨fun s v hr => ⟨grayEnc v, grayDec v, exec_xgEnc hr v, exec_xgDec hr v, ?_, fun i _ => ?_, fun i hi => ?_, ?_, ?_⟩,
    exists_grayEnc_succ, by decide, by decide⟩
  · rw [grayEnc_getLsbD, BitVec.getLsbD_of_ge v (31 + 1) (by decide), Bool.xor_false]
  · rw [grayEnc_getLsbD, Bool.xor_comm]
  · have htop := bitParity_add v (32 - i) i i
    rw [Nat.sub_add_cancel (by omega), bitParity_of_le v i (by omega), Bool.xor_false] at htop
    have hi' : 32 - (32 - i) = i := by omega
    rw [grayDec_getLsbD, htop, ← bitParity_eq_foldl v (Nat.sub_le 32 i), hi']
  · rw [exec_xgDec hr, grayDec_grayEnc]
  · rw [exec_xgEnc hr, grayEnc_grayDec]

end Sys2Proof.Machine
end

section
/-! PROOF. The commands on the index cells and the fences: what an initialisation, a lagging load, a store and a compare-and-swap
leave (40_index_cell R141 to R145, R153, R154). -/

open Sys2Proof Sys2Proof.Machine

namespace Sys2Proof.Machine

/-! ### How the commands of these units end (30_encoding R119, 40_index_cell R145) -/

theorem State.reply_eq {s : State} {o : Agent} (h : s.beat.port = o) (r : Response) : s.reply r = s.answer o r := by
  rw [State.reply, h]

section
variable {s : State} {c : CellSel}

/-- A command on a cell that exists takes effect. -/
theorem State.command_peer {f : State → State} (hp : s.beat.port = .peer) (hw : s.peer.wait = none) (hv : s.cfg.valid = true)
    (hc : c = .rear ∨ s.cfg.thr = true) : s.command (s.peerMay c) f = .next (f s) :=
  State.command_legal (by rw [hp, State.ready, hw]; rfl) ((s.peerMay_iff c).mpr ⟨hp, hv, hc⟩)

/-- A command on a `FRONT` that does not exist is refused. -/
theorem State.command_peer_refused {f : State → State} (hp : s.beat.port = .peer) (hw : s.peer.wait = none) (hc : c = .front)
    (ht : s.cfg.thr = false) : s.command (s.peerMay c) f = .next (s.refusedOn .peer) := by
  have hno : s.peerMay c = false := by
    rw [Bool.eq_false_iff, Ne, State.peerMay_iff, hc, ht]
    simp
  rw [State.command_illegal (by rw [hp, State.ready, hw]; rfl) hno, State.refuse_eq, hp]

end

/-! ### What each operation does where it is legal -/

theorem exec_idxInit (c : CellSel) (s : State) : exec (.idxInit c) s =
    s.command (s.mayInitCell c) fun s => ((s.setCell c (Cell.restart 0)).restartPos c).reply {} := rfl

theorem exec_idxLdaq (c : CellSel) (s : State) : exec (.idxLdaq c) s =
    s.command (s.peerMay c) fun s => (s.ldaq .peer c).2.reply { val := (s.ldaq .peer c).1 } := rfl

theorem exec_idxStrl (c : CellSel) (v : Word) (s : State) : exec (.idxStrl c v) s =
    s.command (s.peerMay c) fun s => (s.strl .peer c v).reply {} := rfl

theorem exec_idxCas (c : CellSel) (e d : Word) (s : State) : exec (.idxCas c e d) s =
    s.command (s.peerMay c) fun s => s.cas c e d := rfl

theorem exec_idxWait (c : CellSel) (e : Word) (tmo : Timeout) (s : State) : exec (.idxWait c e tmo) s =
    s.command (s.peerMay c) fun s => s.waitPeer c e tmo := rfl

theorem exec_idxWake1 (c : CellSel) (s : State) : exec (.idxWake1 c) s =
    s.command (s.peerMay c) fun s => (s.wakeOne .peer c).reply {} := rfl

theorem exec_idxWakeall (c : CellSel) (s : State) : exec (.idxWakeall c) s =
    s.command (s.peerMay c) fun s => (s.wakeAll .peer c).reply {} := rfl

theorem exec_fenceAcq (s : State) : exec .fenceAcq s =
    s.command s.mayFence fun s => (s.fence View.fenceAcq).reply {} := rfl

theorem exec_fenceRel (s : State) : exec .fenceRel s =
    s.command s.mayFence fun s => (s.fence View.fenceRel).reply {} := rfl

/-! ### `IDX.INIT` (R141) -/

/-- Settles O20: where the cell may be initialised, it and every position restart. -/
theorem idxInitRestartsTheCell : Obligations.IdxInitRestartsTheCell := by
  intro s hp
  have hr : s.ready s.beat.port = true := by rw [hp]; rfl
  have hdo : ∀ c, s.mayInitCell c = true →
      exec (.idxInit c) s = .next (((s.setCell c (Cell.restart 0)).restartPos c).answer .host {}) := fun c hc => by
    rw [exec_idxInit, State.command_legal hr hc, State.reply_eq (by cases c <;> exact hp)]
  refine ⟨hdo .rear (by simp [State.mayInitCell, hp]), fun hb ht => hdo .front ?_, fun hno => ?_⟩
  · cases hv : s.cfg.valid <;> simp [State.mayInitCell, hp, hb, hv, ht]
  · have hno' : s.mayInitCell .front = false := by
      rcases hno with hb | ⟨hv, ht⟩
      · simp [State.mayInitCell, hb]
      · simp [State.mayInitCell, hv, ht]
    rw [exec_idxInit, State.command_illegal hr hno', State.refuse_eq, hp]

/-! ### `IDX.LDAQ` (R142) -/

theorem Cell.hist_getElem?_eq_some_iff (x : Cell) {j : Nat} {v : Word} :
    x.hist[j]? = some v ↔ j ≤ x.newest ∧ x.valueAt j = v := by
  rw [List.getElem?_eq_some_iff]
  constructor
  · rintro ⟨hj, hv⟩
    have hj' : j ≤ x.newest := by rw [Cell.hist_length] at hj; omega
    exact ⟨hj', (x.valueAt_eq_getElem hj').trans hv⟩
  · rintro ⟨hj, hv⟩
    exact ⟨by rw [Cell.hist_length]; omega, (x.valueAt_eq_getElem hj).symm.trans hv⟩

/-- The pick that the environment has fixed, of any number of possibilities. -/
theorem State.pick_of_choices {s : State} {k n : Nat} {cs : List Nat} (h : s.choices = k :: cs) (hk : k < n) :
    (s.pick n).1 = k := by
  unfold State.pick
  split
  · show 0 = k
    omega
  · simp [State.draw, h, Nat.mod_eq_of_lt hk]

/-- Every position from the observer's own on is drawn, where the environment fixes it (20_memory R88, R52). -/
theorem State.lagPos_of_choices {s : State} {o : Agent} {c : CellSel} {j : Nat} {cs : List Nat} (hx : s.par.xing = .lagging)
    (hlo : (s.obs o).pos c ≤ j) (hhi : j ≤ (s.cell c).newest) (hch : s.choices = (j - (s.obs o).pos c) :: cs) :
    (s.lagPos o c).1 = j := by
  unfold State.lagPos
  rw [if_neg (by rw [hx]; decide)]
  dsimp only
  rw [State.pick_of_choices hch (by omega)]
  omega

theorem State.ldaq_fst (s : State) (o : Agent) (c : CellSel) : (s.ldaq o c).1 = (s.cell c).valueAt (s.lagPos o c).1 := rfl

theorem State.pos_ldaq_peer (s : State) (c : CellSel) : (s.ldaq .peer c).2.peer.obs.pos c = (s.lagPos .peer c).1 := by
  rw [State.ldaq, State.setObs, Observer.pos_setView, Observer.pos_setPos_same]

/-- Settles O21: the load is the lagging load of any observer. -/
theorem idxLdaqObservesWithLag : Obligations.IdxLdaqObservesWithLag := by
  intro s c hp hw hv
  refine ⟨fun hc ht => (exec_idxLdaq c s).trans (State.command_peer_refused hp hw hc ht),
    fun hc hpos => ⟨?_, fun j v hx hlo hjv => ?_⟩⟩
  · obtain ⟨j, cs, n, hlo, hhi, hsc, hval, hst⟩ := s.ldaq_spec .peer c hpos
    refine ⟨j, _, cs, n, hlo, hhi, hsc, (Cell.hist_getElem?_eq_some_iff _).mpr ⟨hhi, hval.symm⟩, ?_⟩
    rw [exec_idxLdaq, State.command_peer hp hw hv hc, State.reply_eq (by simpa using hp), hst]
    rfl
  · obtain ⟨hhi, hval⟩ := (Cell.hist_getElem?_eq_some_iff _).mp hjv
    have hcell : ({ s with choices := [j - s.peer.obs.pos c] } : State).cell c = s.cell c := State.cell_congr rfl rfl c
    have hj : (({ s with choices := [j - s.peer.obs.pos c] } : State).lagPos .peer c).1 = j :=
      State.lagPos_of_choices hx hlo (by rwa [hcell]) rfl
    refine ⟨[j - s.peer.obs.pos c], _, (exec_idxLdaq c _).trans (State.command_peer hp hw hv hc), ?_, ?_⟩
    · rw [State.reply_eq (by simpa using hp), State.answer, State.ldaq_out, State.ldaq_fst, hj, hcell, hval]
    · rw [State.reply_peer, State.pos_ldaq_peer, hj]

/-! ### `IDX.STRL` and `IDX.CAS` (R143, R144) -/

/-- What a store by the peer leaves: the value at the end of the history, and what the peer's later stores hand over. -/
theorem State.strl_peer (s : State) (c : CellSel) (v : Word) : s.strl .peer c v =
    ({ s with peer := { s.peer with obs := s.peer.obs.setView s.peer.obs.view.fenceRel } } : State).setCell c
      { s.cell c with pubs := (s.cell c).pubs ++ [{ value := v, seen := s.peer.obs.view.seen }] } := rfl

/-- Settles O22: the store, and the response. -/
theorem idxStrlAppendsAndReleases : Obligations.IdxStrlAppendsAndReleases := by
  intro s v hp hw hv
  have hdo : ∀ c, c = .rear ∨ s.cfg.thr = true →
      exec (.idxStrl c v) s = .next ((s.strl .peer c v).answer .peer {}) := fun c hc => by
    rw [exec_idxStrl, State.command_peer hp hw hv hc, State.reply_eq (by simpa using hp)]
  refine ⟨?_, fun ht => ?_, fun ht => ?_⟩
  · rw [hdo .rear (.inl rfl), State.strl_peer]
    rfl
  · rw [hdo .front (.inr ht), State.strl_peer]
    rfl
  · rw [exec_idxStrl, State.command_peer_refused hp hw rfl ht]

section
variable {s : State} {c : CellSel} {e : Word} (d : Word)

theorem State.cas_of_ne (hp : s.beat.port = .peer) (h : (s.cell c).current ≠ e) :
    s.cas c e d = (s.readNow .peer c).answer .peer { ret := 0, val := (s.cell c).current } := by
  rw [State.cas, if_neg h, State.reply_eq (by simpa using hp)]

/-- Where the value is the one expected: the read, the store, and the position of the value stored. -/
theorem State.cas_of_eq (hp : s.beat.port = .peer) (h : (s.cell c).current = e) : s.cas c e d =
    ((((s.readNow .peer c).strl .peer c d).setObs .peer
      ((((s.readNow .peer c).strl .peer c d).peer.obs).setPos c ((s.cell c).newest + 1))).answer .peer { ret := 1, val := e }) := by
  have hn : (((s.readNow .peer c).strl .peer c d).cell c).newest = (s.cell c).newest + 1 := by
    rw [State.strl_cell, Cell.newest_push, State.readNow, State.cell_setObs]
  simp only [State.cas, if_pos h, hn]
  rw [State.reply_eq (by simpa using hp), h]

end

/-- Settles O23: the read of the current value, and the store that follows it in the same step. -/
theorem idxCasComparesTheCurrentValue : Obligations.IdxCasComparesTheCurrentValue := by
  intro s c e d hp hw hv
  refine ⟨fun hc ht => (exec_idxCas c e d s).trans (State.command_peer_refused hp hw hc ht), fun hc => ⟨fun h => ?_, fun h => ?_⟩⟩
  · rw [exec_idxCas, State.command_peer hp hw hv hc, State.cas_of_ne d hp h]
    rfl
  · rw [exec_idxCas, State.command_peer hp hw hv hc, State.cas_of_eq d hp h]
    cases c <;> rfl

/-! ### The fences (R153, R154) -/

/-- Settles O27: a fence on any port but the host's. -/
theorem fencesOnlyOrder : Obligations.FencesOnlyOrder := by
  intro s hh _ hr hv
  have hm : s.mayFence = true := by simp [State.mayFence, hh, hv]
  have hdo : ∀ f : View → View, (s.fence f).reply {} = (s.setObs s.beat.port { s.obs s.beat.port with
      view := f (s.obs s.beat.port).view }).answer s.beat.port {} := fun f => State.reply_eq (by simp [State.fence]) _
  exact ⟨⟨(s.obs s.beat.port).view.fenceAcq, by rw [exec_fenceAcq, State.command_legal hr hm, hdo], rfl, rfl⟩,
    ⟨(s.obs s.beat.port).view.fenceRel, by rw [exec_fenceRel, State.command_legal hr hm, hdo], rfl, rfl⟩⟩

end Sys2Proof.Machine
end

section
/-! PROOF. The wait adapter: compare-and-park, the un-park of a parked agent, and the wakes (40_index_cell R148 to R151). -/

open Sys2Proof Sys2Proof.Machine

namespace Sys2Proof.Machine

/-! ### Compare-and-park (R148) -/

theorem State.enqueue_of_not_mem {s : State} {o : Agent} {c : CellSel} (h : o ∉ s.wq c) :
    s.enqueue o c = s.setWq c (s.wq c ++ [o]) := by
  rw [State.enqueue, if_neg (by simpa using h)]

theorem blocking_eq_false_iff (tmo : Timeout) : blocking tmo = false ↔ tmo = none ∨ tmo = some 0 := by
  cases tmo <;> simp [blocking]

theorem blocking_some {b : Word} (h : b ≠ 0) : blocking (some b) = true := bne_iff_ne.mpr h

section
variable {s : State} {c : CellSel} {e : Word} {tmo : Timeout}

theorem State.waitPeer_of_not_blocking (hp : s.beat.port = .peer) (hb : blocking tmo = false) :
    s.waitPeer c e tmo = s.answer .peer { ret := 1 } := by
  rw [State.waitPeer, if_pos hb, State.reply_eq hp]

theorem State.waitPeer_of_ne (hp : s.beat.port = .peer) (hb : blocking tmo = true) (h : (s.cell c).current ≠ e) :
    s.waitPeer c e tmo = (s.readNow .peer c).answer .peer { ret := 0 } := by
  rw [State.waitPeer, if_neg (by rw [hb]; decide), if_pos h, State.reply_eq (by simpa using hp)]

theorem State.waitPeer_of_eq (hb : blocking tmo = true) (h : (s.cell c).current = e) (hq : Agent.peer ∉ s.wq c) :
    s.waitPeer c e tmo = ({ s with peer :=
      { wait := some { cell := c, expected := e, timer := ticks tmo }
        obs := s.peer.obs.setView (s.peer.obs.view.acquire ((s.cell c).handsOver (s.cell c).newest)) } } : State).setWq c
          (s.wq c ++ [.peer]) := by
  have hq' : Agent.peer ∉ (s.readParking .peer c).wq c := by cases c <;> exact hq
  rw [State.waitPeer, if_neg (by rw [hb]; decide), if_neg (not_not.mpr h), State.enqueue_of_not_mem hq']
  cases c <;> rfl

end

/-- Settles O24: the three outcomes of `IDX.WAIT`. -/
theorem idxWaitAnswersOrParks : Obligations.IdxWaitAnswersOrParks := by
  intro s c e tmo hp hw hv
  refine ⟨fun hc ht => (exec_idxWait c e tmo s).trans (State.command_peer_refused hp hw hc ht), fun hc => ?_⟩
  rw [exec_idxWait, State.command_peer hp hw hv hc]
  refine ⟨fun htmo => ?_, fun b hb htmo => ⟨fun h => ?_, fun h hq => ?_⟩⟩
  · rw [State.waitPeer_of_not_blocking hp ((blocking_eq_false_iff tmo).mpr htmo)]
  · rw [State.waitPeer_of_ne hp (htmo ▸ blocking_some hb) h]
    rfl
  · rw [State.waitPeer_of_eq (htmo ▸ blocking_some hb) h hq, htmo]
    rfl

section
variable {s : State} {t : Task} {e : Word}

theorem State.stepWriter_of_wait (hp : s.w.ph = .busy t) (ht : t.point = .wait e) : s.stepWriter = s.waitWriter t e := by
  simp only [State.stepWriter, hp, ht]

theorem State.stepReader_of_wait {i : Nat} (hp : (s.rd i).ph = .busy t) (ht : t.point = .wait e) :
    s.stepReader i = s.waitReader i t e := by
  simp only [State.stepReader, hp, ht]

end

section
variable {s : State} {i : Nat}

theorem State.rd_setObs (hi : i < s.readers.length) (x : Observer) :
    (s.setObs (.reader i) x).rd i = { s.rd i with obs := x } := State.rd_setRd_same hi _

theorem State.setRd_setObs (x : Observer) (r : Reader) : (s.setObs (.reader i) x).setRd i r = s.setRd i r :=
  State.setRd_setRd s i _ r

theorem State.rd_setWq (c : CellSel) (q : List Agent) : (s.setWq c q).rd i = s.rd i := State.rd_congr (by simp) i

theorem State.setRd_setWq (c : CellSel) (q : List Agent) (r : Reader) :
    (s.setWq c q).setRd i r = (s.setRd i r).setWq c q := by
  cases c <;> rfl

end

/-- Settles O48: an endpoint's compare, and its parking in the same step. -/
theorem compareAndParkIsOneStep : Obligations.CompareAndParkIsOneStep := by
  intro s task e ht
  refine ⟨fun hp => ⟨fun h => ?_, fun h hq => ?_⟩, fun i hp => ⟨fun h => ?_, fun h hq => ?_⟩⟩
  · rw [State.stepWriter_of_wait hp ht, State.waitWriter, if_pos h]
    rfl
  · have hq' : Agent.writer ∉ (s.readParking .writer .front).wq .front := hq
    rw [State.stepWriter_of_wait hp ht, State.waitWriter, if_neg (not_not.mpr h), State.enqueue_of_not_mem hq']
    rfl
  · have hi := State.lt_of_busy hp
    rw [State.stepReader_of_wait hp ht, State.waitReader, if_pos h]
    rw [State.readNow, State.goReader, State.setRd_setObs, State.rd_setObs hi]
    rfl
  · have hi := State.lt_of_busy hp
    have hq' : Agent.reader i ∉ (s.readParking (.reader i) .rear).wq .rear := hq
    rw [State.stepReader_of_wait hp ht, State.waitReader, if_neg (not_not.mpr h), State.enqueue_of_not_mem hq']
    dsimp only
    rw [State.rd_setWq, State.setRd_setWq, State.readParking, State.setRd_setObs, State.rd_setObs hi]
    rfl

/-! ### The un-park (R149) -/

theorem Seen.join_zero (a : Seen) : a.join {} = a := by
  simp [Seen.join]

/-- What an un-park leaves: the agent is out of the set, at a position R88 allows, and knows what a wake handed over. -/
theorem State.unpark_spec (s : State) (o : Agent) (p : Park) (h : (s.obs o).pos p.cell ≤ (s.cell p.cell).newest) :
    ∃ (j : Nat) (view : View) (cs : List Nat) (n : Nat), (s.obs o).pos p.cell ≤ j ∧ j ≤ (s.cell p.cell).newest ∧
      (p.woken = none → view = (s.obs o).view) ∧
      (∀ v, p.woken = some v → view = { (s.obs o).view with seen := (s.obs o).view.seen.join v }) ∧
      s.unpark o p = (({ s with choices := cs, draws := n } : State).setObs o (((s.obs o).setPos p.cell j).setView view)).setWq
        p.cell ((s.wq p.cell).filter (· != o)) := by
  have hobs : (s.dequeue o p.cell).obs o = s.obs o := by cases o <;> cases p.cell <;> rfl
  have hcell : (s.dequeue o p.cell).cell p.cell = s.cell p.cell := State.cell_congr (by simp) (by simp) _
  obtain ⟨hlo, hhi, -⟩ := (s.dequeue o p.cell).lagPos_spec o p.cell (by rwa [hobs, hcell])
  obtain ⟨cs, n, hf⟩ := (s.dequeue o p.cell).lagPos_frame o p.cell
  rw [hobs] at hlo
  rw [hcell] at hhi
  refine ⟨_, { (s.obs o).view with seen := (s.obs o).view.seen.join (p.woken.getD {}) }, cs, n, hlo, hhi, fun hw => ?_,
    fun v hw => ?_, ?_⟩
  · rw [hw, Option.getD_none, Seen.join_zero]
  · rw [hw, Option.getD_some]
  · simp only [State.unpark, hf]
    cases o <;> cases p.cell <;> rfl

theorem State.unparkEnabled_iff (s : State) (p : Park) (c : Cause) : s.unparkEnabled p c = true ↔
    p.woken ≠ none ∨ c ≠ .changed ∨ (s.cell p.cell).current ≠ p.expected := by
  simp [State.unparkEnabled, Option.isSome_iff_ne_none, or_assoc]

theorem Park.timedOut_eq (p : Park) (c : Cause) : p.timedOut c = decide (p.woken = none ∧ c = .timeout) := by
  cases h : p.woken <;> simp [Park.timedOut, h]

theorem step_of_nextTurn {s s1 : State} {t : Turn} (h : s.nextTurn = some (t, s1)) : step s = s1.turn t := by
  rw [step, h]

theorem State.turn_peer {s : State} {t : Turn} {p : Park} (ho : t.who = .peer) (hp : s.peer.wait = some p) :
    s.turn t = .next (if s.unparkEnabled p t.cause then s.unparkPeer p t.cause else s) := by
  simp only [State.turn, ho, State.turnPeer, hp]
  split <;> rfl

theorem State.turn_writer_parked {s : State} {t : Turn} {k : Task} {p : Park} (ho : t.who = .writer) (hb : t.burst = 0)
    (hp : s.w.ph = .parked k p) : s.turn t = .next (if s.unparkEnabled p t.cause then s.unparkWriter k p t.cause else s) := by
  simp only [State.turn, ho, State.turnWriter, hp, hb]
  split <;> rfl

theorem State.turn_reader_parked {s : State} {t : Turn} {i : Nat} {k : Task} {p : Park} (ho : t.who = .reader i)
    (hb : t.burst = 0) (hp : (s.rd i).ph = .parked k p) :
    s.turn t = .next (if s.unparkEnabled p t.cause then s.unparkReader i k p t.cause else s) := by
  simp only [State.turn, ho, State.turnReader, hp, hb]
  split <;> rfl

/-- The turn of a parked agent: `u` is what its un-park step leaves. A cause that is not enabled is that of a cell that has not
changed (log 34). -/
theorem unparks_by_cause {s s1 u : State} {o : Agent} {p : Park} {c : Cause} {after : Nat → View → List Nat → Nat → State}
    (hstep : step s = .next (if s1.unparkEnabled p c then u else s1)) (h : (s1.obs o).pos p.cell ≤ (s1.cell p.cell).newest)
    (hu : ∀ (j : Nat) (view : View) (cs : List Nat) (n : Nat), s1.unpark o p =
      (({ s1 with choices := cs, draws := n } : State).setObs o (((s1.obs o).setPos p.cell j).setView view)).setWq
        p.cell ((s1.wq p.cell).filter (· != o)) → u = after j view cs n) :
    (p.woken = none → c = .changed → (s1.cell p.cell).current = p.expected → step s = .next s1) ∧
    (p.woken ≠ none ∨ c ≠ .changed ∨ (s1.cell p.cell).current ≠ p.expected →
      ∃ (j : Nat) (view : View) (cs : List Nat) (n : Nat), (s1.obs o).pos p.cell ≤ j ∧ j ≤ (s1.cell p.cell).newest ∧
        (p.woken = none → view = (s1.obs o).view) ∧
        (∀ v, p.woken = some v → view = { (s1.obs o).view with seen := (s1.obs o).view.seen.join v }) ∧
        step s = .next (after j view cs n)) := by
  refine ⟨fun hw hc hcur => ?_, fun hen => ?_⟩
  · have hno : ¬ s1.unparkEnabled p c = true := by rw [State.unparkEnabled_iff, hw, hc, hcur]; simp
    rw [hstep, if_neg hno]
  · obtain ⟨j, view, cs, n, hlo, hhi, hnone, hsome, hst⟩ := s1.unpark_spec o p h
    refine ⟨j, view, cs, n, hlo, hhi, hnone, hsome, ?_⟩
    rw [hstep, if_pos ((s1.unparkEnabled_iff p c).mpr hen), hu j view cs n hst]

/-- Settles O25: the peer's un-park, and its response. -/
theorem parkedPeerReturnsByItsCause : Obligations.ParkedPeerReturnsByItsCause := by
  intro s s1 t p hn ho hp hpos
  refine unparks_by_cause (o := .peer) ((step_of_nextTurn hn).trans (State.turn_peer ho hp)) hpos fun j view cs n hst => ?_
  rw [State.unparkPeer, hst, Park.timedOut_eq]
  simp only [decide_eq_true_eq]
  cases p.cell <;> rfl

/-- Settles O46: an endpoint's un-park. -/
theorem parkedEndpointUnparks : Obligations.ParkedEndpointUnparks := by
  intro s s1 t task p hn hb
  refine ⟨fun ho hp hpos => ?_, fun i ho hp hpos => ?_⟩
  · refine unparks_by_cause (o := .writer) ((step_of_nextTurn hn).trans (State.turn_writer_parked ho hb hp)) hpos
      fun j view cs n hst => ?_
    rw [State.unparkWriter, hst, Park.timedOut_eq]
    cases p.cell <;> rfl
  · have hi := State.lt_of_parked hp
    refine unparks_by_cause (o := .reader i) ((step_of_nextTurn hn).trans (State.turn_reader_parked ho hb hp)) hpos
      fun j view cs n hst => ?_
    rw [State.unparkReader, hst, Park.timedOut_eq]
    dsimp only
    rw [State.rd_setWq, State.setRd_setWq, State.setRd_setObs, State.rd_setObs (by exact hi)]
    rfl

/-! ### The wakes (R150, R151) -/

theorem State.wq_answer (s : State) (o : Agent) (r : Response) (c : CellSel) : (s.answer o r).wq c = s.wq c := by
  cases c <;> rfl

theorem State.answer_out (s : State) (o : Agent) (r : Response) : (s.answer o r).out = s.out ++ [{ port := o, resp := r }] := rfl

theorem keptIn_answer (s : State) (o : Agent) (r : Response) (a : Agent) : keptIn s (s.answer o r) a := by
  cases a <;> trivial

/-- A response wakes nobody. -/
theorem wokeFrom_answer {v : Seen} {s t : State} {c : CellSel} {all : Bool} (h : wokeFrom v s t c all) (o : Agent)
    (r : Response) : wokeFrom v s (t.answer o r) c all := by
  have hk : ∀ a, keptIn s t a → keptIn s (t.answer o r) a := fun a ha => keptIn_trans ha (keptIn_answer t o r a)
  have hw : ∀ a, wokenIn v s t a → wokenIn v s (t.answer o r) a := fun a ha => wokenIn_kept ha (keptIn_answer t o r a)
  unfold wokeFrom at h ⊢
  rw [State.wq_answer]
  cases all with
  | true =>
    obtain ⟨hnil, hwoke, hkept⟩ := h
    exact ⟨hnil, fun a ha => hw a (hwoke a ha), fun a ha => hk a (hkept a ha)⟩
  | false =>
    rcases h with ⟨hs, hnil, hkept⟩ | ⟨who, hm, hq, hwoke, hkept⟩
    · exact .inl ⟨hs, hnil, fun a => hk a (hkept a)⟩
    · exact .inr ⟨who, hm, hq, hw who hwoke, fun a ha => hk a (hkept a ha)⟩

theorem onlyWakes_answer {s t : State} {c : CellSel} (h : onlyWakes s t c) (o : Agent) (r : Response) :
    onlyWakes s (t.answer o r) c := by
  obtain ⟨hlen, hrd, hform⟩ := h
  refine ⟨hlen, hrd, ?_⟩
  rw [State.wq_answer]
  refine (congrArg (State.answer o r) hform).trans ?_
  cases c <;> rfl

/-- Any one member of the set is woken, where the environment fixes it: it is taken out, and no other agent is woken. -/
theorem State.wakeOne_of_choices {s : State} {o who : Agent} {c : CellSel} {j : Nat} {cs : List Nat}
    (hj : (s.wq c)[j]? = some who) (hch : s.choices = j :: cs) :
    (s.wakeOne o c).wq c = (s.wq c).filter (· != who) ∧ wokenIn (s.obs o).view.seen s (s.wakeOne o c) who ∧
      ∀ a, a ≠ who → keptIn s (s.wakeOne o c) a := by
  obtain ⟨hlt, hget⟩ := List.getElem?_eq_some_iff.mp hj
  obtain ⟨cs', n, hf⟩ := s.pick_frame (s.wq c).length
  have hwake : s.wakeOne o c =
      State.release (s.obs o).view.seen (({ s with choices := cs', draws := n } : State).dequeue who c) who := by
    rw [State.wakeOne, dif_neg (List.ne_nil_of_length_pos (Nat.zero_lt_of_lt hlt))]
    dsimp only
    rw [State.pick_of_choices hch hlt, hf, List.getD_eq_getElem _ _ hlt, hget]
  have hout : ∀ a, keptIn s (({ s with choices := cs', draws := n } : State).dequeue who c) a := keptIn_draws s cs' n c _
  rw [hwake]
  refine ⟨?_, wokenIn_of_kept (hout who) (State.release_woken _ _ who),
    fun a ha => keptIn_trans (hout a) (State.release_kept _ _ ha)⟩
  rw [State.wq_release, State.dequeue, State.wq_setWq]
  cases c <;> rfl

section
variable {s : State} {c : CellSel} (hp : s.beat.port = .peer) (hw : s.peer.wait = none) (hv : s.cfg.valid = true)
  (hc : c = .rear ∨ s.cfg.thr = true)
include hp hw hv hc

theorem exec_idxWake1_next : exec (.idxWake1 c) s = .next ((s.wakeOne .peer c).answer .peer {}) := by
  rw [exec_idxWake1, State.command_peer hp hw hv hc, State.reply_eq (by simpa using hp)]

theorem exec_idxWakeall_next : exec (.idxWakeall c) s = .next ((s.wakeAll .peer c).answer .peer {}) := by
  rw [exec_idxWakeall, State.command_peer hp hw hv hc, State.reply_eq (by simpa using hp)]

end

/-- Settles O26: both wakes, and the response. -/
theorem idxWakesReleaseMembers : Obligations.IdxWakesReleaseMembers := by
  intro s c hp hw hv
  refine ⟨fun hc ht => ⟨(exec_idxWake1 c s).trans (State.command_peer_refused hp hw hc ht),
    (exec_idxWakeall c s).trans (State.command_peer_refused hp hw hc ht)⟩, fun hc => ⟨?_, fun hq => ?_, fun who hm => ?_, ?_⟩⟩
  · obtain ⟨hwoke, honly, hout⟩ := s.wakeOne_wokeFrom .peer c
    exact ⟨_, exec_idxWake1_next hp hw hv hc, wokeFrom_answer hwoke _ _, onlyWakes_answer honly _ _,
      by rw [State.answer_out, hout]⟩
  · rw [exec_idxWake1_next hp hw hv hc, State.wakeOne_nil hq]
  · obtain ⟨j, hj⟩ := List.mem_iff_getElem?.mp hm
    have hset : ({ s with choices := [j] } : State).wq c = s.wq c := by cases c <;> rfl
    have hsame : ∀ a, keptIn s { s with choices := [j] } a := fun a => by cases a <;> trivial
    obtain ⟨hq, hwoke, hkept⟩ := State.wakeOne_of_choices (s := { s with choices := [j] }) (o := .peer) (hset ▸ hj) rfl
    refine ⟨[j], _, exec_idxWake1_next (s := { s with choices := [j] }) hp hw hv hc, ?_,
      wokenIn_kept (wokenIn_of_kept (hsame who) hwoke) (keptIn_answer _ _ _ _),
      fun a ha => keptIn_trans (keptIn_trans (hsame a) (hkept a ha)) (keptIn_answer _ _ _ _)⟩
    rw [State.wq_answer, hq, hset]
  · obtain ⟨hwoke, honly, hout, hcs, hn⟩ := s.wakeAll_wokeFrom .peer c
    exact ⟨_, exec_idxWakeall_next hp hw hv hc, wokeFrom_answer hwoke _ _, onlyWakes_answer honly _ _, hcs, hn,
      by rw [State.answer_out, hout]⟩

end Sys2Proof.Machine
end

section
/-! PROOF. `SUM`, `DIFF` and `BACK` as arithmetic on frame numbers: every well-formed index is the raw index of a frame number,
along which `SUM` counts up, `BACK` counts `N` down, and whose differences `DIFF` answers (41_base_arith R169, R174 to R179). -/

open Sys2Proof Sys2Proof.Machine

namespace Sys2Proof.Machine

/-! ### The raw position of a frame number (R169) -/

/-- The raw index of frame number `m` before it wraps at 2³². -/
def CfgRegs.rawPos (c : CfgRegs) (m : Nat) : Nat := m / c.cap * c.pow + m % c.cap

theorem CfgRegs.rawOf_eq_ofNat_rawPos (c : CfgRegs) (m : Nat) : c.rawOf m = BitVec.ofNat 32 (c.rawPos m) := rfl

section
variable {c : CfgRegs}

/-- A frame number's raw position exceeds it by the unused slots of the generations passed. -/
theorem CfgRegs.rawPos_eq (c : CfgRegs) (m : Nat) : c.rawPos m = m + m / c.cap * c.fudge := by
  calc c.rawPos m = c.cap * (m / c.cap) + m % c.cap + m / c.cap * c.fudge := by
        rw [CfgRegs.rawPos, ← c.pow_add_fudge]; ring
    _ = m + m / c.cap * c.fudge := by rw [Nat.div_add_mod]

/-- `k` frames are at least `k` raw steps. -/
theorem CfgRegs.rawPos_add_le (c : CfgRegs) (m k : Nat) : c.rawPos m + k ≤ c.rawPos (m + k) := by
  have hgen : m / c.cap * c.fudge ≤ (m + k) / c.cap * c.fudge :=
    Nat.mul_le_mul_right _ (Nat.div_le_div_right (Nat.le_add_right m k))
  rw [CfgRegs.rawPos_eq, CfgRegs.rawPos_eq]
  omega

theorem CfgRegs.rawPos_mono (c : CfgRegs) {m n : Nat} (h : m ≤ n) : c.rawPos m ≤ c.rawPos n := by
  obtain ⟨k, rfl⟩ := Nat.exists_eq_add_of_le h
  exact Nat.le_trans (Nat.le_add_right _ k) (c.rawPos_add_le m k)

/-- Raw positions order the frame numbers. -/
theorem CfgRegs.le_of_rawPos_le {m n : Nat} (h : c.rawPos m ≤ c.rawPos n) : m ≤ n := by
  by_contra hlt
  have hstep := c.rawPos_add_le n 1
  have hmono := c.rawPos_mono (show n + 1 ≤ m by omega)
  omega

/-- The raw advance of `k` frames: an `F` more for each boundary crossed (R172, R179). -/
theorem CfgRegs.rawPos_add (h : 1 ≤ c.cap) (m k : Nat) :
    c.rawPos (m + k) = c.rawPos m + (k + (m % c.cap + k) / c.cap * c.fudge) := by
  have hgen : (m + k) / c.cap = m / c.cap + (m % c.cap + k) / c.cap := by
    conv_lhs => rw [← Nat.div_add_mod m c.cap, Nat.add_assoc, Nat.mul_add_div h]
  rw [CfgRegs.rawPos_eq, CfgRegs.rawPos_eq, hgen]
  ring

/-- `N` frames are one `P` (R172). -/
theorem CfgRegs.rawPos_add_cap (h : 1 ≤ c.cap) (m : Nat) : c.rawPos (m + c.cap) = c.rawPos m + c.pow := by
  rw [CfgRegs.rawPos, Nat.add_div_right _ h, Nat.add_mod_right, CfgRegs.rawPos, Nat.succ_mul]
  omega

/-- Every raw position whose slot field is below `N` is some frame's. -/
theorem CfgRegs.exists_rawPos {i : Nat} (h : i % c.pow < c.cap) : ∃ m, c.rawPos m = i := by
  have hcap : 0 < c.cap := Nat.zero_lt_of_lt h
  refine ⟨i / c.pow * c.cap + i % c.pow, ?_⟩
  rw [CfgRegs.rawPos, Nat.add_comm (i / c.pow * c.cap), Nat.add_mul_div_right _ _ hcap, Nat.div_eq_of_lt h, Nat.zero_add,
    Nat.add_mul_mod_self_right, Nat.mod_eq_of_lt h, Nat.div_add_mod']

theorem CfgRegs.rawOf_of_rawPos {x : Word} {m : Nat} (h : c.rawPos m = x.toNat) : c.rawOf m = x := by
  rw [CfgRegs.rawOf_eq_ofNat_rawPos, h, BitVec.ofNat_toNat, BitVec.setWidth_eq]

/-- Every well-formed index is the raw index of a frame number (R169). -/
theorem CfgRegs.exists_rawOf {x : Word} (h : c.wellFormed x = true) : ∃ m, c.rawOf m = x := by
  obtain ⟨m, hm⟩ := CfgRegs.exists_rawPos ((c.wellFormed_iff x).mp h)
  exact ⟨m, CfgRegs.rawOf_of_rawPos hm⟩

/-- Of two well-formed indices the one that is not behind is so many frames on (R175). -/
theorem CfgRegs.exists_rawOf_of_rawDelta {r f : Word} (hr : c.wellFormed r = true) (hf : c.wellFormed f = true)
    (hd : 0 ≤ rawDelta r f) :
    ∃ m n, m ≤ n ∧ c.rawPos n < c.rawPos m + 2 ^ 31 ∧ c.rawOf n = r ∧ c.rawOf m = f := by
  rw [rawDelta_nonneg_iff] at hd
  have hsum : r = BitVec.ofNat 32 (f.toNat + (r - f).toNat) := by bv_omega
  rw [CfgRegs.wellFormed_iff] at hf
  obtain ⟨m, hm⟩ := CfgRegs.exists_rawPos hf
  rw [CfgRegs.wellFormed_iff, hsum, BitVec.toNat_ofNat, Nat.mod_mod_of_dvd _ c.pow_dvd] at hr
  obtain ⟨n, hn⟩ := CfgRegs.exists_rawPos hr
  have hmn : m ≤ n := CfgRegs.le_of_rawPos_le (c := c) (by omega)
  exact ⟨m, n, hmn, by omega, by rw [CfgRegs.rawOf_eq_ofNat_rawPos, hn, ← hsum], CfgRegs.rawOf_of_rawPos hm⟩

/-! ### `DIFF` counts frames (R175, R179) -/

variable {m n : Nat}

theorem CfgRegs.rawDelta_rawOf (hmn : m ≤ n) (h : c.rawPos n < c.rawPos m + 2 ^ 31) :
    rawDelta (c.rawOf n) (c.rawOf m) = c.rawPos n - c.rawPos m := by
  obtain ⟨d, hd⟩ := Nat.exists_eq_add_of_le (c.rawPos_mono hmn)
  have hsub : (c.rawOf n - c.rawOf m).toNat = d := by
    rw [CfgRegs.rawOf_eq_ofNat_rawPos, CfgRegs.rawOf_eq_ofNat_rawPos, hd, Nat.add_comm, BitVec.ofNat_add,
      BitVec.add_sub_cancel, BitVec.toNat_ofNat, Nat.mod_eq_of_lt (by omega)]
  rw [rawDelta_eq, hsub, if_pos (by omega), hd]
  omega

/-- A difference below the modulus survives the wrap of both numbers. -/
theorem mod_add_sub_mod {g q d : Nat} (h : d < g) : ((q + d) % g + g - q % g) % g = d := by
  have hq := Nat.mod_lt q (Nat.zero_lt_of_lt h)
  rw [← Nat.mod_add_mod]
  generalize q % g = a at *
  rcases Nat.lt_or_ge (a + d) g with hlt | hge
  · rw [Nat.mod_eq_of_lt hlt, show a + d + g - a = d + g by omega, Nat.add_mod_right, Nat.mod_eq_of_lt h]
  · have hwrap : (a + d) % g = a + d - g := by rw [Nat.mod_eq_sub_mod hge, Nat.mod_eq_of_lt (by omega)]
    rw [hwrap, show a + d - g + g - a = d by omega, Nat.mod_eq_of_lt h]

/-- Within a raw advance of 2³¹ the generations do not wrap onto each other, so their difference counts every boundary. -/
theorem CfgRegs.sweeps_rawOf_of_rawPos (hl : c.legal = true) (hmn : m ≤ n) (h : c.rawPos n < c.rawPos m + 2 ^ 31) :
    c.sweeps (c.rawOf n) (c.rawOf m) = n / c.cap - m / c.cap := by
  obtain ⟨h1, -, -, h30⟩ := c.legal_iff.mp hl
  obtain ⟨d, hd⟩ := Nat.exists_eq_add_of_le (Nat.div_le_div_right (c := c.cap) hmn)
  have hlt : d < c.gens := by
    have hm := Nat.mod_lt m h1
    refine Nat.lt_of_mul_lt_mul_left (a := c.pow) ?_
    rw [c.pow_mul_gens, Nat.mul_comm]
    rw [CfgRegs.rawPos, CfgRegs.rawPos, hd, Nat.add_mul] at h
    omega
  rw [CfgRegs.sweeps_eq, CfgRegs.gen_rawOf hl, CfgRegs.gen_rawOf hl, hd, mod_add_sub_mod hlt, Nat.add_sub_cancel_left]

/-- The frames between two raw indices are the difference of their frame numbers. -/
theorem CfgRegs.frames_rawOf (hl : c.legal = true) (hmn : m ≤ n) (h : c.rawPos n < c.rawPos m + 2 ^ 31) :
    c.frames (c.rawOf n) (c.rawOf m) = n - m := by
  rw [CfgRegs.frames, CfgRegs.rawDelta_rawOf hmn h, CfgRegs.sweeps_rawOf_of_rawPos hl hmn h, CfgRegs.rawPos_eq,
    CfgRegs.rawPos_eq, Nat.cast_sub (Nat.div_le_div_right hmn)]
  push_cast
  ring

/-- Two well-formed indices in order are not a negative number of frames apart (R176). -/
theorem CfgRegs.frames_nonneg (hl : c.legal = true) {r f : Word} (hr : c.wellFormed r = true) (hf : c.wellFormed f = true)
    (hd : 0 ≤ rawDelta r f) : 0 ≤ c.frames r f := by
  obtain ⟨m, n, hmn, hlt, rfl, rfl⟩ := CfgRegs.exists_rawOf_of_rawDelta hr hf hd
  rw [CfgRegs.frames_rawOf hl hmn hlt]
  omega

theorem rawDelta_lt (r f : Word) : rawDelta r f < 2 ^ 31 := BitVec.toInt_lt

theorem CfgRegs.frames_le_rawDelta (c : CfgRegs) (r f : Word) : c.frames r f ≤ rawDelta r f := by
  have hskip : (0 : Int) ≤ (c.sweeps r f : Int) * c.fudge := by positivity
  rw [CfgRegs.frames]
  omega

/-! ### The outcomes of `DIFF` (R176, R177) -/

section
variable {r f : Word} {who : Bool}

theorem CfgRegs.diff_of_illFormed (h : c.wellFormed r = false ∨ c.wellFormed f = false) : c.diff r f who = .eio := by
  rcases h with h | h <;> simp [CfgRegs.diff, h]

theorem CfgRegs.diff_of_neg (h : rawDelta r f < 0) : c.diff r f who = .eio := by
  simp [CfgRegs.diff, h]

variable (hr : c.wellFormed r = true) (hf : c.wellFormed f = true) (hd : 0 ≤ rawDelta r f)
include hr hf hd

theorem CfgRegs.diff_of_le (h : c.frames r f ≤ c.cap) : c.diff r f who = .ok (c.frames r f).toNat := by
  simp [CfgRegs.diff, hr, hf, Int.not_lt.mpr hd, Int.not_lt.mpr h]

/-- The writer cannot be lapped: too large a fill is an error of its own. -/
theorem CfgRegs.diff_writer_of_gt (h : c.cap < c.frames r f) : c.diff r f false = .eio := by
  simp [CfgRegs.diff, hr, hf, Int.not_lt.mpr hd, h]

/-- A reader that was lapped is told the exact loss: the clamp is above every signed delta (R177). -/
theorem CfgRegs.diff_reader_of_gt (h : c.cap < c.frames r f) : c.diff r f true = .overflow (c.frames r f - c.cap).toNat := by
  have hle := c.frames_le_rawDelta r f
  have hlt := rawDelta_lt r f
  have hclamp : min (c.frames r f - c.cap) (2 ^ 31 - 1) = c.frames r f - c.cap := min_eq_left (by omega)
  rw [← hclamp]
  simp [CfgRegs.diff, hr, hf, Int.not_lt.mpr hd, h]

end

/-- `DIFF` answers an overflow to a reader only, of indices that pass the tests before it. -/
theorem CfgRegs.of_diff_overflow {r f : Word} {l : Nat} (h : c.diff r f true = .overflow l) :
    c.wellFormed r = true ∧ c.wellFormed f = true ∧ 0 ≤ rawDelta r f ∧ c.frames r f = c.cap + l ∧ 1 ≤ l := by
  rcases c.diff_spec r f true with ⟨-, e⟩ | ⟨hr, hf, ⟨-, e⟩ | ⟨hd, hgt, -⟩ | ⟨-, -, e⟩⟩
  · rw [h] at e; cases e
  · rw [h] at e; cases e
  · rw [CfgRegs.diff_reader_of_gt hr hf hd hgt] at h
    cases h
    exact ⟨hr, hf, hd, by omega, by omega⟩
  · rw [h] at e; cases e

/-! ### `BACK` goes `N` frames back (R178) -/

theorem CfgRegs.rawOf_add_cap (h : 1 ≤ c.cap) (m : Nat) : c.rawOf (m + c.cap) = c.rawOf m + BitVec.ofNat 32 c.pow := by
  rw [CfgRegs.rawOf_eq_ofNat_rawPos, CfgRegs.rawPos_add_cap h, BitVec.ofNat_add, ← CfgRegs.rawOf_eq_ofNat_rawPos]

theorem CfgRegs.back_rawOf (hl : c.legal = true) (m : Nat) : c.back (c.rawOf (m + c.cap)) = some (c.rawOf m) := by
  rw [CfgRegs.back, if_pos (CfgRegs.wellFormed_rawOf hl _), CfgRegs.rawOf_add_cap (c.legal_iff.mp hl).1, BitVec.add_sub_cancel]

/-- `BACK` answers the index that lies `N` frames before. -/
theorem CfgRegs.exists_rawOf_of_back (hl : c.legal = true) {x v : Word} (h : c.back x = some v) :
    ∃ m, c.rawOf m = v ∧ c.rawOf (m + c.cap) = x := by
  obtain ⟨m, rfl⟩ := CfgRegs.exists_rawOf (CfgRegs.wellFormed_of_back h)
  refine ⟨m, rfl, ?_⟩
  rcases c.back_spec x with ⟨-, e⟩ | ⟨-, e⟩
  · rw [h] at e; cases e
  · rw [h] at e
    rw [CfgRegs.rawOf_add_cap (c.legal_iff.mp hl).1, Option.some.inj e, BitVec.sub_add_cancel]

/-- The two laws of `BACK` (R178). -/
theorem CfgRegs.sum_diff_of_back (hl : c.legal = true) {x v : Word} (h : c.back x = some v) :
    c.sum v c.cap = some x ∧ ∀ who, c.diff x v who = .ok c.cap := by
  obtain ⟨m, rfl, rfl⟩ := CfgRegs.exists_rawOf_of_back hl h
  refine ⟨CfgRegs.sum_rawOf hl (Nat.le_refl _), fun who => ?_⟩
  rw [CfgRegs.diff_rawOf hl (Nat.le_add_right m c.cap) (Nat.le_refl _), Nat.add_sub_cancel_left]

/-! ### Chains of `SUM` (R179) -/

theorem CfgRegs.sumAll_rawOf (hl : c.legal = true) {ks : List Nat} (hk : ∀ k ∈ ks, k ≤ c.cap) (m : Nat) :
    c.sumAll (c.rawOf m) ks = some (c.rawOf (m + ks.sum)) := by
  induction ks generalizing m with
  | nil => rfl
  | cons k ks ih =>
    obtain ⟨hk0, hks⟩ := List.forall_mem_cons.mp hk
    rw [CfgRegs.sumAll, CfgRegs.sum_rawOf hl hk0, List.sum_cons, ← Nat.add_assoc]
    exact ih hks (m + k)

/-! ### The frame count of an index (R169, R174) -/

/-- The frames that an index stands for, modulo the wrap of the generation. -/
theorem CfgRegs.frameCount_rawOf (hl : c.legal = true) (m : Nat) :
    (c.rawOf m).toNat / c.pow * c.cap + c.slotNat (c.rawOf m) = m % (c.cap * c.gens) := by
  rw [CfgRegs.gen_rawOf hl, CfgRegs.slotNat_rawOf hl, Nat.mod_mul, Nat.mul_comm, Nat.add_comm]

/-- An advance inside a generation. -/
theorem CfgRegs.rawOf_add_of_lt (hl : c.legal = true) {k : Nat} (h : m % c.cap + k < c.cap) :
    c.slotNat (c.rawOf (m + k)) = m % c.cap + k ∧ (c.rawOf (m + k)).toNat / c.pow = (c.rawOf m).toNat / c.pow := by
  have h1 := (c.legal_iff.mp hl).1
  rw [CfgRegs.slotNat_rawOf hl, CfgRegs.gen_rawOf hl, CfgRegs.gen_rawOf hl, div_add_of_le h1 (by omega),
    if_neg (Nat.not_le.mpr h), ← Nat.mod_add_mod, Nat.mod_eq_of_lt h]
  exact ⟨rfl, rfl⟩

/-- An advance that crosses the end of a generation. -/
theorem CfgRegs.rawOf_add_of_ge (hl : c.legal = true) {k : Nat} (hk : k ≤ c.cap) (h : c.cap ≤ m % c.cap + k) :
    c.slotNat (c.rawOf (m + k)) = m % c.cap + k - c.cap ∧
      (c.rawOf (m + k)).toNat / c.pow = ((c.rawOf m).toNat / c.pow + 1) % c.gens := by
  have h1 := (c.legal_iff.mp hl).1
  have hm := Nat.mod_lt m h1
  rw [CfgRegs.slotNat_rawOf hl, CfgRegs.gen_rawOf hl, CfgRegs.gen_rawOf hl, div_add_of_le h1 hk, if_pos h, Nat.mod_add_mod,
    ← Nat.mod_add_mod m, Nat.mod_eq_sub_mod h, Nat.mod_eq_of_lt (show m % c.cap + k - c.cap < c.cap by omega)]
  exact ⟨rfl, rfl⟩

end

/-! ### The obligations -/

/-- Settles O16: on frame numbers `SUM` is addition. -/
theorem sumLaws : Obligations.SumLaws := by
  intro c x k hl hx hk
  obtain ⟨m, rfl⟩ := CfgRegs.exists_rawOf hx
  refine ⟨c.rawOf (m + k), CfgRegs.sum_rawOf hl hk, CfgRegs.wellFormed_rawOf hl _, ?_, ?_, fun j hj => ?_, ?_⟩
  · rw [CfgRegs.slotNat_rawOf hl m]
    exact CfgRegs.rawOf_add_of_lt hl
  · rw [CfgRegs.slotNat_rawOf hl m]
    exact CfgRegs.rawOf_add_of_ge hl hk
  · rw [CfgRegs.sum_rawOf hl (by omega), CfgRegs.sum_rawOf hl (by omega), Nat.add_assoc]
  · rw [CfgRegs.frameCount_rawOf hl, CfgRegs.frameCount_rawOf hl]
    change _ % (c.cap * c.gens) = _ % (c.cap * c.gens)
    rw [Nat.mod_mod, Nat.mod_add_mod]

/-- Settles O17: a chain of `SUM` steps adds its frames up, and `DIFF` counts them. -/
theorem diffCountsAChainOfSums : Obligations.DiffCountsAChainOfSums := by
  intro c x ks hl hx hks hadv
  obtain ⟨m, rfl⟩ := CfgRegs.exists_rawOf hx
  have hmn : m ≤ m + ks.sum := Nat.le_add_right _ _
  have hlt : c.rawPos (m + ks.sum) < c.rawPos m + 2 ^ 31 := by
    rw [CfgRegs.slotNat_rawOf hl] at hadv
    rw [CfgRegs.rawPos_add (c.legal_iff.mp hl).1]
    exact Nat.add_lt_add_left hadv _
  have hy := CfgRegs.wellFormed_rawOf hl (m + ks.sum)
  have hd : 0 ≤ rawDelta (c.rawOf (m + ks.sum)) (c.rawOf m) := by
    have hmono := c.rawPos_mono hmn
    rw [CfgRegs.rawDelta_rawOf hmn hlt]
    omega
  have hframes : c.frames (c.rawOf (m + ks.sum)) (c.rawOf m) = ks.sum := by
    rw [CfgRegs.frames_rawOf hl hmn hlt]
    omega
  refine ⟨_, CfgRegs.sumAll_rawOf hl hks m, fun hle who => ?_, fun hgt => ⟨?_, ?_⟩⟩
  · rw [CfgRegs.diff_of_le hy hx hd (by omega), hframes, Int.toNat_natCast]
  · rw [CfgRegs.diff_reader_of_gt hy hx hd (by omega), hframes, Int.toNat_sub]
  · exact CfgRegs.diff_writer_of_gt hy hx hd (by omega)

/-- Settles O18: both indices as frame numbers, and `BACK` takes `N` from the rear's. -/
theorem lostCountsTheFramesSkipped : Obligations.LostCountsTheFramesSkipped := by
  intro c r f l hl h
  obtain ⟨hr, hf, hd, hframes, hl1⟩ := CfgRegs.of_diff_overflow h
  refine ⟨hframes.symm, hl1, c.frames_le_rawDelta r f, rawDelta_lt r f, ?_⟩
  obtain ⟨m, n, hmn, hlt, rfl, rfl⟩ := CfgRegs.exists_rawOf_of_rawDelta hr hf hd
  rw [CfgRegs.frames_rawOf hl hmn hlt] at hframes
  obtain rfl : n = m + l + c.cap := by omega
  have hml : m ≤ m + l := Nat.le_add_right _ _
  have hmono := c.rawPos_mono hml
  have hback : c.rawPos (m + l) < c.rawPos m + 2 ^ 31 :=
    Nat.lt_of_le_of_lt (c.rawPos_mono (Nat.le_add_right _ c.cap)) hlt
  refine ⟨c.rawOf (m + l), CfgRegs.back_rawOf hl _, ?_, ?_⟩
  · rw [CfgRegs.frames_rawOf hl hml hback]
    omega
  · rw [CfgRegs.rawDelta_rawOf hml hback]
    omega

end Sys2Proof.Machine
end

section
/-! PROOF. The commands `BASE.*`: what each answers where it is legal, and when it is refused (41_base_arith R170 to R178). -/

open Sys2Proof Sys2Proof.Machine

namespace Sys2Proof.Machine

/-! ### The exponent `p` (00_scope R7) -/

theorem leastPow_pow2Exp (n : Nat) : leastPow n (pow2Exp n) := ⟨le_two_pow_pow2Exp n, fun _ => pow2Exp_le⟩

theorem leastPow.eq_pow2Exp {n p : Nat} (h : leastPow n p) : p = pow2Exp n :=
  Nat.le_antisymm (h.2 _ (le_two_pow_pow2Exp n)) (pow2Exp_le h.1)

/-! ### What the functions answer, as numbers -/

theorem CfgRegs.wellFormed_eq_false_iff (c : CfgRegs) (x : Word) : c.wellFormed x = false ↔ c.cap ≤ x.toNat % c.pow := by
  rw [Bool.eq_false_iff, Ne, CfgRegs.wellFormed_iff, Nat.not_lt]

section
variable {c : CfgRegs} {x : Word}

/-- R172: the advance, and the skip of the unused slots at the end of a generation. -/
theorem CfgRegs.sum_toNat (h : c.wellFormed x = true) (k : Nat) : ∃ v, c.sum x k = some v ∧
    v.toNat = (x.toNat + if c.cap ≤ x.toNat % c.pow + k then k + c.fudge else k) % 2 ^ 32 := by
  refine ⟨_, if_pos h, ?_⟩
  rw [BitVec.toNat_add, BitVec.toNat_ofNat, Nat.add_mod_mod, CfgRegs.slotNat_eq]

theorem CfgRegs.sum_eq_none (h : c.wellFormed x = false) (k : Nat) : c.sum x k = none := if_neg (by simp [h])

/-- R178: one `P` back, modulo 2³². -/
theorem CfgRegs.back_toNat (h : c.wellFormed x = true) :
    ∃ v, c.back x = some v ∧ v.toNat = (x.toNat + 2 ^ 32 - c.pow) % 2 ^ 32 := by
  have hp : c.pow ≤ 2 ^ 32 := Nat.le_of_dvd (Nat.two_pow_pos 32) c.pow_dvd
  refine ⟨_, if_pos h, ?_⟩
  rw [BitVec.toNat_sub, BitVec.toNat_ofNat]
  omega

theorem CfgRegs.back_eq_none (h : c.wellFormed x = false) : c.back x = none := if_neg (by simp [h])

end

/-- The frames between two indices, over the exponent and the generations (R175, line (3)). -/
theorem CfgRegs.frames_eq (c : CfgRegs) (r f : Word) : c.frames r f =
    rawDelta r f - ((r.toNat / c.pow + c.gens - f.toNat / c.pow) % c.gens : Nat) * ((c.pow : Int) - c.cap) := by
  rw [CfgRegs.frames, CfgRegs.sweeps_eq, CfgRegs.fudge, Nat.cast_sub c.cap_le_pow]

/-! ### The commands -/

theorem exec_baseNp2 (n : Word) (s : State) : exec (.baseNp2 n) s =
    s.command (decide (1 ≤ n.toNat) && decide (n.toNat ≤ 2 ^ 31)) fun s =>
      s.reply { val := BitVec.ofNat 32 (nextPow2 n.toNat) } := rfl

section
variable {s : State} (hr : s.ready s.beat.port = true)
include hr

theorem exec_baseSum_refused {k : Word} (h : s.cfg.valid = false ∨ s.cfg.cap < k.toNat) (x : Word) :
    exec (.baseSum x k) s = .next (s.refusedOn s.beat.port) :=
  State.command_illegal hr (by rcases h with h | h <;> simp [h])

variable (hv : s.cfg.valid = true)
include hv

theorem exec_baseSlot (x : Word) : exec (.baseSlot x) s = .next (s.answer s.beat.port { val := s.cfg.slot x }) :=
  State.command_legal hr hv

theorem exec_baseSum {k : Word} (hk : k.toNat ≤ s.cfg.cap) (x : Word) :
    exec (.baseSum x k) s = .next (s.answer s.beat.port (s.wordOrEio (s.cfg.sum x k.toNat))) :=
  State.command_legal hr (by simp [hv, hk])

theorem exec_baseDiff (r f : Word) (rdr lv : Bool) :
    exec (.baseDiff r f rdr lv) s = .next (s.answer s.beat.port (s.diffResponse lv (s.cfg.diff r f rdr))) :=
  State.command_legal hr hv

theorem exec_baseBack (x : Word) :
    exec (.baseBack x) s = .next (s.answer s.beat.port (s.wordOrEio (s.cfg.back x))) :=
  State.command_legal hr hv

end

/-! ### The obligations -/

/-- Settles O11: `pow2Exp` is the exponent, at most 31 for an operand that is accepted. -/
theorem baseNp2AnswersTheLeastPowerOfTwo : Obligations.BaseNp2AnswersTheLeastPowerOfTwo := by
  intro s n hr
  rw [exec_baseNp2]
  refine ⟨fun h1 h31 => ?_, fun h => State.command_illegal hr ?_⟩
  · have hq : pow2Exp n.toNat ≤ 31 := pow2Exp_le h31
    have hlegal : (decide (1 ≤ n.toNat) && decide (n.toNat ≤ 2 ^ 31)) = true := by
      rw [decide_eq_true h1, decide_eq_true h31]; rfl
    refine ⟨pow2Exp n.toNat, _, hq, leastPow_pow2Exp _, ?_, State.command_legal hr hlegal⟩
    rw [BitVec.toNat_ofNat]
    exact Nat.mod_eq_of_lt (Nat.pow_lt_pow_right (by decide) (Nat.lt_succ_of_le hq))
  · rw [← Bool.decide_and]
    exact decide_eq_false (by omega)

/-- Settles O12: the mask is a remainder. -/
theorem baseSlotMasksTheIndex : Obligations.BaseSlotMasksTheIndex := by
  intro s raw p hr hp
  obtain rfl := hp.eq_pow2Exp
  exact ⟨fun hv => ⟨_, s.cfg.slotNat_eq raw, exec_baseSlot hr hv raw⟩, State.command_illegal hr⟩

/-- Settles O13: the refusals come before the test of the slot. -/
theorem baseSumAdvancesAndSkips : Obligations.BaseSumAdvancesAndSkips := by
  intro s x k p hr hp
  obtain rfl := hp.eq_pow2Exp
  refine ⟨fun h => exec_baseSum_refused hr h x, fun hv hk hx => ?_, fun hv hk hx => ?_⟩
  · rw [exec_baseSum hr hv hk, CfgRegs.sum_eq_none ((s.cfg.wellFormed_eq_false_iff x).mpr hx)]
    rfl
  · obtain ⟨v, hsum, hval⟩ := CfgRegs.sum_toNat ((s.cfg.wellFormed_iff x).mpr hx) k.toNat
    exact ⟨v, hval, by rw [exec_baseSum hr hv hk, hsum]; rfl⟩

/-- Settles O15: `BACK` goes `N` frames back. -/
theorem baseBackGoesOneGenerationBack : Obligations.BaseBackGoesOneGenerationBack := by
  intro s x p hr hp
  obtain rfl := hp.eq_pow2Exp
  refine ⟨State.command_illegal hr, fun hv hx => ?_, fun hv hx => ?_⟩
  · rw [exec_baseBack hr hv, CfgRegs.back_eq_none ((s.cfg.wellFormed_eq_false_iff x).mpr hx)]
    rfl
  · obtain ⟨v, hback, hval⟩ := CfgRegs.back_toNat ((s.cfg.wellFormed_iff x).mpr hx)
    exact ⟨v, hval, by rw [exec_baseBack hr hv, hback]; rfl, fun hl => CfgRegs.sum_diff_of_back hl hback⟩

/-- Settles O14: the outcomes of `DIFF` one by one; every count in a response is below 2³¹. -/
theorem baseDiffClassifiesInOrder : Obligations.BaseDiffClassifiesInOrder := by
  intro s r f rdr lv p hr hl hp
  obtain rfl := hp.eq_pow2Exp
  intro N d g frames ends
  have hframes : frames = s.cfg.frames r f := by
    rw [CfgRegs.frames_eq, CfgRegs.pow_eq, Nat.cast_pow]
    rfl
  have hlt : frames < 2 ^ 31 := hframes ▸ Int.lt_of_le_of_lt (s.cfg.frames_le_rawDelta r f) (rawDelta_lt r f)
  have hends : ∀ {res : DiffResult}, s.cfg.valid = true → s.cfg.diff r f rdr = res → ends (s.diffResponse lv res) :=
    fun hv hres => hres ▸ exec_baseDiff hr hv r f rdr lv
  refine ⟨State.command_illegal hr, fun hv => ⟨fun hill => ?_, fun hwr hwf => ?_⟩⟩
  · exact hends hv (CfgRegs.diff_of_illFormed
      (hill.imp (s.cfg.wellFormed_eq_false_iff r).mpr (s.cfg.wellFormed_eq_false_iff f).mpr))
  replace hwr := (s.cfg.wellFormed_iff r).mpr hwr
  replace hwf := (s.cfg.wellFormed_iff f).mpr hwf
  rw [hframes] at hlt ⊢
  refine ⟨fun hneg => hends hv (CfgRegs.diff_of_neg hneg), fun hd hgt hrdr => ?_, fun hd hgt hrdr => ?_, fun hd hle => ?_⟩
  · subst hrdr
    refine ⟨if lv then BitVec.ofNat 32 (s.cfg.frames r f - N).toNat else 0, ?_,
      hends hv (CfgRegs.diff_reader_of_gt hwr hwf hd hgt)⟩
    cases lv with
    | false => rfl
    | true => rw [if_pos rfl, if_pos rfl, BitVec.toNat_ofNat]; omega
  · subst hrdr
    exact hends hv (CfgRegs.diff_writer_of_gt hwr hwf hd hgt)
  · have hnonneg := CfgRegs.frames_nonneg hl hwr hwf hd
    refine ⟨BitVec.ofNat 32 (s.cfg.frames r f).toNat, by rw [BitVec.toNat_ofNat]; omega, ?_⟩
    rw [← Response.frames_small (by omega)]
    exact hends hv (CfgRegs.diff_of_le hwr hwf hd hle)

end Sys2Proof.Machine
end

section
/-! PROOF. Construction and register read-out: what makes a `FIFO.INIT` legal, the state after it, and the words that `CSR.RD`
reads (42_fifo R200 to R204, 10_state R53, R54). -/

open Sys2Proof Sys2Proof.Machine

namespace Sys2Proof.Machine

/-! ### The commands -/

theorem exec_fifoInit (n size : Word) (thr ext : Bool) (s : State) : exec (.fifoInit n size thr ext) s =
    s.command (s.mayConstruct n size thr ext) fun s => (s.constructed n size thr ext).reply {} := rfl

theorem exec_csrRd (sel : BitVec 8) (s : State) : exec (.csrRd sel) s =
    s.command (s.readReg s.beat.port sel).isSome fun s => s.reply { val := (s.readReg s.beat.port sel).getD 0 } := rfl

/-! ### `FIFO.INIT` -/

theorem Phase.accepts_iff (p : Phase) : p.accepts = true ↔ p = .idle ∨ p = .detached := by
  cases p <;> simp [Phase.accepts]

theorem Phase.accepts_iff_not (p : Phase) : p.accepts = true ↔ p.isBusy = false ∧ p.isParked = false := by
  cases p <;> simp [Phase.accepts, Phase.isBusy, Phase.isParked]

theorem Params.cellsAligned_iff (p : Params) (thr : Bool) :
    Params.cellsAligned p thr = true ↔ p.rearAddr % 4 = 0 ∧ (thr = true → p.frontAddr % 4 = 0) := by
  cases thr <;> simp [Params.cellsAligned]

section
variable {s : State} {n size : Word} {thr ext : Bool}

/-- The conditions of a construction, one by one (R201, R203). -/
theorem State.mayConstruct_iff : s.mayConstruct n size thr ext = true ↔
    s.beat.port = .host ∧
    (1 ≤ n.toNat ∧ 1 ≤ size.toNat ∧ n.toNat * size.toNat ≤ 2 ^ 31 - 1 ∧ n.toNat ≤ 2 ^ 30) ∧
    (ext = true → s.par.rearAddr % 4 = 0 ∧ (thr = true → s.par.frontAddr % 4 = 0)) ∧
    (thr = true → s.par.frontBuilt = true) ∧ s.w.ph.accepts = true ∧ ∀ r ∈ s.readers, r.ph.accepts = true := by
  have himp : ∀ (a b : Bool), (!a || b) = true ↔ (a = true → b = true) := by decide
  simp only [State.mayConstruct, Bool.and_eq_true, decide_eq_true_eq, himp, Params.cellsAligned_iff, CfgRegs.legal_iff,
    List.all_eq_true, and_assoc]
  rfl

/-- The writer's levels after a construction are clamped into their ranges (R200). -/
theorem Writer.constructed_levels (w : Writer) (p : Params) (n : Word) :
    (w.constructed p n).hlt.toNat = min (resetLevel p.wHltReset n).toNat n.toNat ∧
    (w.constructed p n).lla.toNat = min (resetLevel p.wLlaReset n).toNat (w.constructed p n).hlt.toNat :=
  ⟨wmin_toNat _ _, wmin_toNat _ _⟩

/-- A reader's levels after a construction are clamped into their ranges (R200). -/
theorem Reader.constructed_levels (r : Reader) (p : Params) (n : Word) :
    (r.constructed p n).hla.toNat = min (resetLevel p.rHlaReset n).toNat n.toNat ∧
    (r.constructed p n).llt.toNat = min (resetLevel p.rLltReset n).toNat (r.constructed p n).hla.toNat :=
  ⟨wmin_toNat _ _, wmin_toNat _ _⟩

/-- The cells after a construction: zeroed, or with the value found, and one value long (R200, R202). -/
theorem State.constructed_cells (s : State) (n size : Word) (thr ext : Bool) :
    (s.constructed n size thr ext).rear = { base := if ext then s.rear.current else 0, pubs := [] } ∧
    (s.constructed n size thr ext).front =
      { base := if ext = false ∧ thr = true then 0 else s.front.current, pubs := [] } := by
  cases thr <;> cases ext <;> exact ⟨rfl, rfl⟩

end

/-- Settles O28: the conditions of R201 and R203 are those of the command, and the registers are read off the state after it. -/
theorem fifoInitGivesTheResetState : Obligations.FifoInitGivesTheResetState := by
  refine ⟨fun s n size thr ext hp hn hsize hbytes hcap hext hthr hw hrd => ?_, fun s n size thr ext hr hbad => ?_⟩ <;>
    rw [exec_fifoInit]
  · have hmay : s.mayConstruct n size thr ext = true := State.mayConstruct_iff.mpr
      ⟨hp, ⟨hn, hsize, hbytes, hcap⟩, hext, hthr, (Phase.accepts_iff _).mpr hw, fun r hm => (Phase.accepts_iff _).mpr (hrd r hm)⟩
    obtain ⟨hrear, hfront⟩ := s.constructed_cells n size thr ext
    have hout : ((s.constructed n size thr ext).reply {}).out = s.out ++ [{ port := .host, resp := {} }] :=
      congrArg (fun o => s.out ++ [{ port := o, resp := {} }]) hp
    have hlen : (s.constructed n size thr ext).readers.length = s.readers.length := by
      simp [State.constructed, State.restartPos]
    refine ⟨_, State.command_legal (by rw [hp]; rfl) hmay, rfl, hrear, hfront, rfl, rfl, rfl, rfl, hout, rfl, rfl, rfl, rfl,
      rfl, rfl, ⟨rfl, rfl, rfl, rfl, rfl, rfl, rfl, s.w.constructed_levels s.par n⟩, ⟨rfl, rfl, rfl, rfl, rfl⟩, hlen,
      fun r hm => ?_⟩
    obtain ⟨r0, -, rfl⟩ := State.mem_constructed hm
    obtain ⟨hhla, hllt⟩ := r0.constructed_levels s.par n
    exact ⟨rfl, rfl, rfl, rfl, rfl, rfl, rfl, rfl, hhla, hllt, rfl, rfl⟩
  · have hno : s.mayConstruct n size thr ext = false := by
      rw [Bool.eq_false_iff, Ne, State.mayConstruct_iff]
      rintro ⟨hp, ⟨hn, hsize, hbytes, hcap⟩, hext, hthr, hw, hrd⟩
      obtain ⟨hbusy, hparked⟩ := (Phase.accepts_iff_not _).mp hw
      rcases hbad with h | h | h | h | h | ⟨he, h⟩ | ⟨ht, h⟩ | h | h | ⟨r, hm, h⟩
      · exact h hp
      · omega
      · omega
      · omega
      · omega
      · obtain ⟨hrear, hfront⟩ := hext he
        rcases h with h | ⟨ht, h⟩
        · exact h hrear
        · exact h (hfront ht)
      · rw [hthr ht] at h; cases h
      · rw [hbusy] at h; cases h
      · rw [hparked] at h; cases h
      · obtain ⟨hb, hk⟩ := (Phase.accepts_iff_not _).mp (hrd r hm)
        rw [hb, hk] at h
        rcases h with h | h <;> cases h
    exact State.command_illegal hr hno

/-! ### The words of the registers -/

theorem Phase.code_lt (p : Phase) : p.code < 4 := by cases p <;> simp [Phase.code]

/-- `CFG_CTL` (R27). -/
theorem CfgRegs.ctl_toNat (c : CfgRegs) : c.ctl.toNat = c.valid.toNat + 2 * c.thr.toNat + 4 + 8 * c.ext.toNat := by
  have hbits : ∀ v t e : Bool, (bitAt v 0 ||| bitAt t 1 ||| bitAt true 2 ||| bitAt e 3).toNat =
    v.toNat + 2 * t.toNat + 4 + 8 * e.toNat := by decide
  exact hbits _ _ _

/-- `W_STS` (R35): the bits and the phase lie apart. -/
theorem Writer.sts_toNat (w : Writer) :
    w.sts.toNat = w.armed.toNat + 2 * w.att.toNat + 4 * w.ph.code + 16 * w.exp.toNat := by
  have hbits : ∀ (r a x : Bool) (k : Fin 4), (bitAt r 0 ||| bitAt a 1 ||| BitVec.ofNat 32 (k.1 * 4) ||| bitAt x 4).toNat =
    r.toNat + 2 * a.toNat + 4 * k.1 + 16 * x.toNat := by decide
  exact hbits _ _ _ ⟨_, w.ph.code_lt⟩

/-- `R_STS` (R43). -/
theorem Reader.sts_toNat (r : Reader) :
    r.sts.toNat = r.armed.toNat + 2 * r.att.toNat + 4 * r.thr.toNat + 8 * r.ph.code + 32 * r.exp.toNat := by
  have hbits : ∀ (m a t x : Bool) (k : Fin 4),
    (bitAt m 0 ||| bitAt a 1 ||| bitAt t 2 ||| BitVec.ofNat 32 (k.1 * 8) ||| bitAt x 5).toNat =
      m.toNat + 2 * a.toNat + 4 * t.toNat + 8 * k.1 + 32 * x.toNat := by decide
  exact hbits _ _ _ _ ⟨_, r.ph.code_lt⟩

section
variable {c : CfgRegs}

/-- `CFG_P` (R26): `P` fits a word. -/
theorem CfgRegs.powReg_toNat (h1 : 1 ≤ c.n.toNat) (h : c.cap ≤ 2 ^ 30) : c.powReg.toNat = 2 ^ c.pexp := by
  have hn : c.n ≠ 0 := fun h0 => by simp [h0] at h1
  have hlt : c.pow < 2 ^ 32 := Nat.pow_lt_pow_right (by decide) (Nat.lt_of_le_of_lt (CfgRegs.pexp_le_30 h) (by decide))
  rw [CfgRegs.powReg, if_neg hn, BitVec.toNat_ofNat, Nat.mod_eq_of_lt hlt, CfgRegs.pow_eq]

/-- `CFG_F` (R26). -/
theorem CfgRegs.fudgeReg_toNat (h1 : 1 ≤ c.n.toNat) : c.fudgeReg.toNat = 2 ^ c.pexp - c.n.toNat := by
  have hn : c.n ≠ 0 := fun h0 => by simp [h0] at h1
  have hlt : c.fudge < 2 ^ 32 := Nat.lt_trans (CfgRegs.fudge_lt h1) c.n.isLt
  rw [CfgRegs.fudgeReg, if_neg hn, BitVec.toNat_ofNat, Nat.mod_eq_of_lt hlt]
  rfl

end

/-! ### `CSR.RD` -/

section
variable {s : State}

/-- A register that a port reads is answered. -/
theorem exec_csrRd_of_readReg {sel : BitVec 8} {u : Word} (hr : s.ready s.beat.port = true)
    (h : s.readReg s.beat.port sel = some u) : exec (.csrRd sel) s = .next (s.answer s.beat.port { val := u }) := by
  rw [exec_csrRd, State.command_legal hr (by rw [h]; rfl), h]
  rfl

theorem State.readReg_of_cfgReg {sel : BitVec 8} {u : Word} (o : Agent) (h : s.cfgReg sel = some u) :
    s.readReg o sel = some u := by
  simp only [State.readReg, h]

theorem State.readReg_writer {sel : BitVec 8} (hv : s.cfg.valid = true) (hsel : 0x05 < sel.toNat) :
    s.readReg .writer sel = s.w.reg sel := by
  simp only [State.readReg, State.cfgReg_eq_none hsel, hv, if_true]

theorem State.readReg_reader {sel : BitVec 8} {i : Nat} (hv : s.cfg.valid = true) (hi : i < s.readers.length)
    (hsel : 0x05 < sel.toNat) : s.readReg (.reader i) sel = (s.rd i).reg sel := by
  simp only [State.readReg, State.cfgReg_eq_none hsel, hv, hi, if_true]

end

/-- Settles O29: the register file of each port, register by register. -/
theorem csrRdReadsTheRegisterTable : Obligations.CsrRdReadsTheRegisterTable := by
  intro s hr reads
  have hcfg : ∀ {sel : BitVec 8} {u : Word} {v : Nat}, s.cfgReg sel = some u → u.toNat = v → reads sel v :=
    fun h hv => ⟨_, hv, exec_csrRd_of_readReg hr (State.readReg_of_cfgReg _ h)⟩
  refine ⟨⟨hcfg rfl rfl, hcfg rfl rfl, hcfg rfl s.cfg.ctl_toNat, fun hlt => hcfg rfl ?_, fun h0 => ⟨hcfg rfl ?_, hcfg rfl ?_⟩,
    fun p h1 h30 hp => ?_⟩, fun ho hv => ?_, fun i ho hi hv => ?_⟩
  · rw [BitVec.toNat_ofNat, Nat.mod_eq_of_lt hlt]
  · rw [CfgRegs.powReg, if_pos h0]; rfl
  · rw [CfgRegs.fudgeReg, if_pos h0]; rfl
  · obtain rfl := hp.eq_pow2Exp
    exact ⟨hcfg rfl (CfgRegs.powReg_toNat h1 h30), hcfg rfl (CfgRegs.fudgeReg_toNat h1)⟩
  · have hw : ∀ {sel : BitVec 8} {u : Word} {v : Nat}, 0x05 < sel.toNat → s.w.reg sel = some u → u.toNat = v → reads sel v :=
      fun hsel h hval => ⟨_, hval, exec_csrRd_of_readReg hr (by rw [ho, State.readReg_writer hv hsel, h])⟩
    exact ⟨hw (by decide) rfl rfl, hw (by decide) rfl rfl, hw (by decide) rfl rfl, hw (by decide) rfl rfl,
      hw (by decide) rfl rfl, hw (by decide) rfl s.w.sts_toNat⟩
  · have hrd : ∀ {sel : BitVec 8} {u : Word} {v : Nat}, 0x05 < sel.toNat → (s.rd i).reg sel = some u → u.toNat = v →
        reads sel v :=
      fun hsel h hval => ⟨_, hval, exec_csrRd_of_readReg hr (by rw [ho, State.readReg_reader hv hi hsel, h])⟩
    exact ⟨hrd (by decide) rfl rfl, hrd (by decide) rfl rfl, hrd (by decide) rfl rfl, hrd (by decide) rfl rfl,
      hrd (by decide) rfl rfl, hrd (by decide) rfl (s.rd i).sts_toNat⟩

end Sys2Proof.Machine
end

section
/-! PROOF. The host's direct access to the frame buffer: the store of one byte, and a load by the order of the writes
(42_fifo R205, R206, 20_memory R84, R85). -/

open Sys2Proof Sys2Proof.Machine

namespace Sys2Proof.Machine

/-! ### The commands -/

theorem exec_bufStb (off : Word) (v : Byte) (s : State) : exec (.bufStb off v) s =
    s.command (s.mayStoreByte && s.cfg.valid && decide (off.toNat < s.cfg.bytes)) fun s =>
      (s.storeByte s.beat.port off.toNat v).reply {} := rfl

theorem exec_bufLdb (off : Word) (s : State) : exec (.bufLdb off) s =
    s.command (s.mayLoadByte && s.cfg.valid && decide (off.toNat < s.cfg.bytes)) fun s =>
      (s.loadByte s.beat.port off.toNat).2.reply { val := (s.loadByte s.beat.port off.toNat).1.setWidth 32 } := rfl

/-- `PORT_W` and `PORT_X` store bytes while the writer is attached (R206, log 17). -/
theorem State.mayStoreByte_eq {s : State} (h : s.beat.port = .writer ∨ s.beat.port = .peer) :
    s.mayStoreByte = !s.w.ph.isDetached := by
  rcases h with h | h <;> simp [State.mayStoreByte, h]

/-! ### `BUF.STB` -/

/-- A store of a byte touches the buffer, the record of its writes, and what its agent knows. -/
theorem State.storeByte_eq (s : State) (o : Agent) (off : Nat) (b : Byte) : s.storeByte o off b =
    ({ s with buf := (s.storeByte o off b).buf, writes := (s.storeByte o off b).writes } : State).setObs o
      { s.obs o with view := { (s.obs o).view with seen := (s.obs o).view.seen.bump (o == .peer) } } := by
  cases o <;> rfl

/-- Settles O31: a store is a write of one key, and it is recorded with its offset and value. -/
theorem bufStbStoresOneByte : Obligations.BufStbStoresOneByte := by
  intro s off v hr hv ho
  rw [exec_bufStb]
  refine ⟨fun hbad => State.command_illegal hr ?_, fun hd hoff => ?_⟩
  · rw [State.mayStoreByte_eq ho]
    rcases hbad with hd | hoff
    · simp [hd]
    · simp [CfgRegs.bytes, CfgRegs.cap, Nat.not_lt.mpr hoff]
  · have hlegal : (s.mayStoreByte && s.cfg.valid && decide (off.toNat < s.cfg.bytes)) = true := by
      rw [State.mayStoreByte_eq ho, hd, hv, decide_eq_true (show off.toNat < s.cfg.bytes from hoff)]
      rfl
    refine ⟨_, State.command_legal hr hlegal, fun a => ?_, fun a => ?_,
      { (s.obs s.beat.port).view with seen := (s.obs s.beat.port).view.seen.bump (s.beat.port == .peer) }, ?_⟩
    · rw [State.reply_buf, State.storeByte_buf, Memory.find_put]
    · rw [State.reply_writes, State.storeByte_writes, lastWrite_append]
      simp only [eq_comm (a := a)]
    · rw [State.reply, State.storeByte_beat]
      exact congrArg (State.answer s.beat.port {}) (s.storeByte_eq s.beat.port off.toNat v)

/-! ### Draws of a byte -/

/-- Every possibility is picked by some draws that the environment fixes. -/
theorem State.exists_pick_eq (s : State) {j n : Nat} (h : j < n) :
    ∃ cs cs', ({ s with choices := cs } : State).pick n = (j, { s with choices := cs' }) := by
  by_cases hn : n ≤ 1
  · obtain rfl : j = 0 := by omega
    exact ⟨[], [], State.pick_one _ hn⟩
  · exact ⟨[j], [], s.pick_fixed [] h (Nat.lt_of_not_le hn)⟩

section
variable {s : State} {ws : List BufWrite} {known : Bool}

theorem State.drawByte_of_some {x : BufWrite} (h : ws[(s.pick (ws.length + if known then 0 else 1)).1]? = some x) :
    s.drawByte ws known = (x.value, (s.pick (ws.length + if known then 0 else 1)).2) := by
  simp only [State.drawByte, h]

theorem State.drawByte_of_none (h : ws[(s.pick (ws.length + if known then 0 else 1)).1]? = none) :
    s.drawByte ws known = (s.pick (ws.length + if known then 0 else 1)).2.freeByte := by
  simp only [State.drawByte, h]

variable (s ws known) in
theorem State.drawByte_frame : ∃ cs n, (s.drawByte ws known).2 = { s with choices := cs, draws := n } := by
  obtain ⟨cs, n, hpick⟩ := s.pick_frame (ws.length + if known then 0 else 1)
  cases h : ws[(s.pick (ws.length + if known then 0 else 1)).1]? with
  | some x => exact ⟨cs, n, by rw [State.drawByte_of_some h, hpick]⟩
  | none =>
    obtain ⟨cs', n', hdraw⟩ := (s.pick (ws.length + if known then 0 else 1)).2.draw_frame
    exact ⟨cs', n', by rw [State.drawByte_of_none h, State.freeByte, hdraw, hpick]⟩

/-- Where a write is sure to have happened, only values of writes are drawn (R85). -/
theorem State.exists_drawByte_eq_value (s : State) (h : ws ≠ []) : ∃ x ∈ ws, (s.drawByte ws true).1 = x.value := by
  have hlt : (s.pick (ws.length + if true then 0 else 1)).1 < ws.length :=
    s.pick_lt (List.length_pos_iff.mpr h)
  exact ⟨_, List.getElem_mem hlt, by rw [State.drawByte_of_some (List.getElem?_eq_getElem hlt)]⟩

/-- The value of each of the writes is drawn, where the environment fixes it. -/
theorem State.exists_drawByte_eq (s : State) (known : Bool) {x : BufWrite} (h : x ∈ ws) :
    ∃ cs cs', ({ s with choices := cs } : State).drawByte ws known = (x.value, { s with choices := cs' }) := by
  obtain ⟨j, hj, hx⟩ := List.getElem_of_mem h
  obtain ⟨cs, cs', hpick⟩ := s.exists_pick_eq (Nat.lt_add_right (if known then 0 else 1) hj)
  refine ⟨cs, cs', ?_⟩
  rw [State.drawByte_of_some (x := x) (by rw [hpick, List.getElem?_eq_getElem hj, hx]), hpick]

/-- Where nothing has written the byte, every value is drawn (10_state R23). -/
theorem State.drawByte_nil (s : State) (v : Byte) (cs : List Nat) :
    ({ s with choices := v.toNat :: cs } : State).drawByte [] false = (v, { s with choices := cs }) := by
  rw [State.drawByte_of_none rfl]
  simp [State.pick, State.freeByte, State.draw]

end

/-! ### The order of the writes of a byte (20_memory R84) -/

section
variable {ws : List BufWrite} {off : Nat} {v : Seen}

theorem knownByte_iff : knownByte ws off v = true ↔ ∃ x ∈ ws, x.off = off ∧ x.knownTo v = true := by
  simp [knownByte]

theorem lastWrite_isSome {x : BufWrite} (hx : x ∈ ws) (ho : x.off = off) : ∃ b, lastWrite ws off = some b := by
  have hne : ws.filter (fun w => w.off == off) ≠ [] := List.ne_nil_of_mem (List.mem_filter.mpr ⟨hx, by simpa using ho⟩)
  exact ⟨_, by rw [lastWrite, List.getLast?_eq_some_getLast hne]; rfl⟩

theorem exists_of_lastWrite {b : Byte} (h : lastWrite ws off = some b) : ∃ x ∈ ws, x.off = off := by
  obtain ⟨x, hx, -⟩ := Option.map_eq_some_iff.mp h
  obtain ⟨hm, ho⟩ := List.mem_filter.mp (List.mem_of_getLast? hx)
  exact ⟨x, hm, by simpa using ho⟩

theorem readable_eq_nil (h : ∀ x ∈ ws, x.off ≠ off) : readable ws off v = [] := by
  have hnil : ws.filter (·.off = off) = [] := List.filter_eq_nil_iff.mpr (by simpa using h)
  rw [readable, hnil]
  rfl

/-- A write that is ordered after another one supersedes it, once both carry their numbers (R84 (i)). -/
theorem BufWrite.supersedes_of_le {x y : BufWrite} (h : y.idx ≤ x.seen.count y.byPeer)
    (hlt : y.byPeer = x.byPeer → y.idx < x.idx) : x.supersedes y = true := by
  have hne : ¬(x.byPeer = y.byPeer ∧ x.idx = y.idx) := fun ⟨hp, hi⟩ => Nat.ne_of_lt (hlt hp.symm) hi.symm
  simp only [BufWrite.supersedes, BufWrite.knownTo, decide_eq_true h, Bool.true_and, Bool.not_eq_true',
    Bool.and_eq_false_iff, beq_eq_false_iff_ne]
  exact Decidable.not_and_iff_not_or_not.mp hne

/-- Where a read knows every write of the byte and each supersedes those before it, only the last is left to read. -/
theorem length_readable_le_one (hk : ∀ x ∈ ws, x.off = off → x.knownTo v = true)
    (hs : (ws.filter (·.off == off)).Pairwise fun x y => y.supersedes x = true) : (readable ws off v).length ≤ 1 := by
  refine length_filter_le_one ((List.Pairwise.and_mem.mp hs).imp fun {x y} h hq => absurd hq ?_)
  obtain ⟨-, hy, hsup⟩ := h
  obtain ⟨hm, ho⟩ := List.mem_filter.mp hy
  have hany : (ws.any fun x' => x'.off == off && x'.knownTo v && x'.supersedes x) = true :=
    List.any_eq_true.mpr ⟨y, hm, by rw [ho, hk y hm (by simpa using ho), hsup]; rfl⟩
  rw [hany]
  decide

end

/-- The writes of one agent are numbered in their order (R84 (i)). -/
theorem State.orderInv.pairwise_idx {s : State} (h : s.orderInv) :
    s.writes.Pairwise fun x y => x.byPeer = y.byPeer → x.idx < y.idx := by
  obtain ⟨hw, hp, -, -⟩ := h
  refine ((List.pairwise_filter.mp hw).and (List.pairwise_filter.mp hp)).imp fun {x y} ⟨h1, h2⟩ he => ?_
  cases hx : x.byPeer with
  | false => exact h1 (by simp [hx]) (by simp [← he, hx])
  | true => exact h2 hx (by rw [← he, hx])

/-! ### Loads of a byte -/

section
variable {s : State} {o : Agent} {off : Nat}

theorem State.loadByte_of_settled {b : Byte} (h : s.settledByte off (s.obs o).view.seen = some b) :
    s.loadByte o off = (b, s) := by
  simp only [State.loadByte, h]

theorem State.loadByte_of_unsettled (h : s.settledByte off (s.obs o).view.seen = none) : s.loadByte o off =
    s.drawByte (readable s.writes off (s.obs o).view.seen) (knownByte s.writes off (s.obs o).view.seen) := by
  simp only [State.loadByte, h]

variable (s o off) in
theorem State.loadByte_frame : ∃ cs n, (s.loadByte o off).2 = { s with choices := cs, draws := n } := by
  cases h : s.settledByte off (s.obs o).view.seen with
  | some b => exact ⟨s.choices, s.draws, by rw [State.loadByte_of_settled h]⟩
  | none => rw [State.loadByte_of_unsettled h]; exact s.drawByte_frame _ _

theorem State.settledByte_of_readable {v : Seen} (hk : knownByte s.writes off v = true)
    (h1 : (readable s.writes off v).length ≤ 1) : s.settledByte off v = s.buf.find off := by
  rw [State.settledByte, hk, decide_eq_true h1]
  rfl

/-- A load that every write of the byte is ordered before, these among themselves, answers the last one (R84). -/
theorem State.settledByte_of_ordered {v : Seen} (hb : s.bufferInv) (hi : s.orderInv)
    (hk : ∀ x ∈ s.writes, x.off = off → x.idx ≤ v.count x.byPeer)
    (hp : (s.writes.filter (·.off == off)).Pairwise fun x y => x.idx ≤ y.seen.count x.byPeer) {b : Byte}
    (hl : lastWrite s.writes off = some b) : s.settledByte off v = some b := by
  have hknown : ∀ x ∈ s.writes, x.off = off → x.knownTo v = true := fun x hx ho => decide_eq_true (hk x hx ho)
  have hsup : (s.writes.filter (·.off == off)).Pairwise fun x y => y.supersedes x = true :=
    (hp.and (hi.pairwise_idx.filter _)).imp fun ⟨hle, hlt⟩ => BufWrite.supersedes_of_le hle hlt
  obtain ⟨x, hx, ho⟩ := exists_of_lastWrite hl
  rw [State.settledByte_of_readable (knownByte_iff.mpr ⟨x, hx, ho, hknown x hx ho⟩) (length_readable_le_one hknown hsup),
    hb off, hl]

/-- A load under a race that some write is ordered before has a write to answer: with none, the byte would be settled. -/
theorem State.readable_ne_nil {v : Seen} (hb : s.bufferInv) (hn : s.settledByte off v = none)
    (hk : knownByte s.writes off v = true) : readable s.writes off v ≠ [] := by
  intro hnil
  obtain ⟨x, hx, ho, -⟩ := knownByte_iff.mp hk
  obtain ⟨b, hl⟩ := lastWrite_isSome hx ho
  rw [State.settledByte_of_readable hk (by simp [hnil]), hb off, hl] at hn
  cases hn

theorem State.settledByte_of_unwritten {v : Seen} (h : ∀ x ∈ s.writes, x.off ≠ off) :
    knownByte s.writes off v = false ∧ s.settledByte off v = none := by
  have hk : knownByte s.writes off v = false := by
    rw [Bool.eq_false_iff, Ne, knownByte_iff]
    exact fun ⟨x, hx, ho, _⟩ => h x hx ho
  exact ⟨hk, by rw [State.settledByte, hk]; rfl⟩

end

/-! ### `BUF.LDB` -/

/-- An attached endpoint, and the foreign peer, load bytes (R205). -/
theorem State.mayLoadByte_of_attached {s : State} (hp : s.hasPort s.beat.port = true) (hh : s.beat.port ≠ .host)
    (hw : s.beat.port = .writer → s.w.ph.isDetached = false)
    (hrd : ∀ i, s.beat.port = .reader i → (s.rd i).ph.isDetached = false) : s.mayLoadByte = true := by
  unfold State.mayLoadByte
  cases ho : s.beat.port with
  | host => exact absurd ho hh
  | writer => simp [hw ho]
  | reader i =>
    rw [ho] at hp
    simp [hrd i ho, show i < s.readers.length by simpa [State.hasPort] using hp]
  | peer => rfl

theorem exec_bufLdb_refused {s : State} {off : Word} (hr : s.ready s.beat.port = true) (h : s.cfg.bytes ≤ off.toNat) :
    exec (.bufLdb off) s = .next (s.refusedOn s.beat.port) := by
  rw [exec_bufLdb, decide_eq_false (Nat.not_lt.mpr h), Bool.and_false]
  exact State.command_illegal hr rfl

/-- A load answers the byte, and leaves what the load of the byte leaves. -/
theorem exec_bufLdb_of_loadByte {s t : State} {off : Word} {v : Byte} (hr : s.ready s.beat.port = true)
    (hm : s.mayLoadByte = true) (hv : s.cfg.valid = true) (hoff : off.toNat < s.cfg.bytes) (hb : t.beat = s.beat)
    (h : s.loadByte s.beat.port off.toNat = (v, t)) :
    exec (.bufLdb off) s = .next (t.answer s.beat.port { val := v.setWidth 32 }) := by
  rw [exec_bufLdb, State.command_legal hr (by rw [hm, hv, decide_eq_true hoff]; rfl), h, State.reply, hb]

/-- Settles O32: the ordered load is settled; every other one is a draw among the readable writes, and any value too where
none of them is sure to have happened. -/
theorem bufLdbLoadsOrDraws : Obligations.BufLdbLoadsOrDraws := by
  intro s off hr hp hv hh hw hrd seen open'
  have hm := State.mayLoadByte_of_attached hp hh hw hrd
  refine ⟨exec_bufLdb_refused hr, fun hoff => ⟨?_, fun hno v => ?_, fun hset x hx => ?_⟩⟩
  · obtain ⟨cs, n, hframe⟩ := s.loadByte_frame s.beat.port off.toNat
    have hload : s.loadByte s.beat.port off.toNat =
      ((s.loadByte s.beat.port off.toNat).1, { s with choices := cs, draws := n }) := Prod.ext rfl hframe
    refine ⟨_, cs, n, exec_bufLdb_of_loadByte hr hm hv hoff rfl hload, fun hb hi hk hord b hl => ?_, fun hb hset hk => ?_⟩
    · have hsettled := State.loadByte_of_settled (State.settledByte_of_ordered hb hi hk hord hl)
      rw [hsettled] at hframe ⊢
      exact ⟨rfl, (congrArg State.choices hframe).symm, (congrArg State.draws hframe).symm⟩
    · rw [State.loadByte_of_unsettled hset, hk]
      exact State.exists_drawByte_eq_value s (State.readable_ne_nil hb hset hk)
  · obtain ⟨hk, hset⟩ := State.settledByte_of_unwritten (v := seen) hno
    have hload : ({ s with choices := [v.toNat] } : State).loadByte s.beat.port off.toNat = (v, { s with choices := [] }) := by
      rw [State.loadByte_of_unsettled (s := { s with choices := [v.toNat] }) hset]
      show State.drawByte (readable s.writes off.toNat seen) (knownByte s.writes off.toNat seen) _ = _
      rw [readable_eq_nil hno, hk]
      exact s.drawByte_nil v []
    exact ⟨_, _, exec_bufLdb_of_loadByte
      (s := { s with choices := [v.toNat] }) (t := { s with choices := [] }) hr hm hv hoff rfl hload⟩
  · obtain ⟨cs, cs', hdraw⟩ := s.exists_drawByte_eq (knownByte s.writes off.toNat seen) hx
    have hload : ({ s with choices := cs } : State).loadByte s.beat.port off.toNat = (x.value, { s with choices := cs' }) :=
      (State.loadByte_of_unsettled (s := { s with choices := cs }) hset).trans hdraw
    exact ⟨cs, cs', exec_bufLdb_of_loadByte
      (s := { s with choices := cs }) (t := { s with choices := cs' }) hr hm hv hoff rfl hload⟩

end Sys2Proof.Machine
end

section
/-! PROOF. The fragments of a grant: they hold whole frames, and those of a well-formed index tile the batch (43_writer R223,
30_encoding R126, 20_memory R73). -/

open Sys2Proof Sys2Proof.Machine

namespace Sys2Proof.Machine

/-! ### Frames in bytes -/

section
variable {c : CfgRegs} (hl : c.legal = true)
include hl

/-- The bytes of up to twice the frames of the buffer fit in a word (42_fifo R201). -/
theorem CfgRegs.toNat_ofNat_mul_size {k : Nat} (hk : k ≤ 2 * c.cap) :
    (BitVec.ofNat 32 (k * c.size.toNat)).toNat = k * c.size.toNat := by
  obtain ⟨-, -, hb, -⟩ := c.legal_iff.mp hl
  have hle : k * c.size.toNat ≤ 2 * c.bytes := by
    rw [CfgRegs.bytes, ← Nat.mul_assoc]
    exact Nat.mul_le_mul_right _ hk
  rw [BitVec.toNat_ofNat, Nat.mod_eq_of_lt (by omega)]

variable {x : Word} {g first : Nat}

theorem CfgRegs.headFrag_len (hf : first ≤ g) (hg : g ≤ c.cap) :
    (c.headFrag x g first).len.toNat = first * c.size.toNat := by
  unfold CfgRegs.headFrag
  split
  · exact CfgRegs.toNat_ofNat_mul_size hl (by omega)
  · obtain rfl : first = 0 := by omega
    simp

theorem CfgRegs.headFrag_off (hg : 1 ≤ g) : (c.headFrag x g first).off.toNat = c.slotNat x * c.size.toNat := by
  have hslot := c.slotNat_lt x
  have hpow := CfgRegs.pow_lt_double (c.legal_iff.mp hl).1
  rw [CfgRegs.headFrag, if_pos (Nat.pos_of_ne_zero (by omega))]
  exact CfgRegs.toNat_ofNat_mul_size hl (by omega)

theorem CfgRegs.tailFrag_len (hg : g ≤ c.cap) : (c.tailFrag g first).len.toNat = (g - first) * c.size.toNat := by
  unfold CfgRegs.tailFrag
  split
  · exact CfgRegs.toNat_ofNat_mul_size hl (by omega)
  · rw [show g - first = 0 by omega, Nat.zero_mul]
    rfl

end

theorem CfgRegs.tailFrag_off (c : CfgRegs) (g first : Nat) : (c.tailFrag g first).off = 0 := by
  unfold CfgRegs.tailFrag
  split <;> rfl

theorem CfgRegs.tailFrag_of_le (c : CfgRegs) {g first : Nat} (h : g ≤ first) : c.tailFrag g first = {} := by
  rw [CfgRegs.tailFrag, if_neg (by omega)]

theorem CfgRegs.first_le (c : CfgRegs) (x : Word) (g : Nat) : c.first x g ≤ g := Nat.min_le_left _ _

/-! ### The places of the bytes of a batch -/

theorem CfgRegs.div_size_lt {c : CfgRegs} {k g : Nat} (h : k < g * c.size.toNat) : k / c.size.toNat < g :=
  Nat.div_lt_of_lt_mul (by rwa [Nat.mul_comm])

section
variable {c : CfgRegs} (hl : c.legal = true) {x : Word} {k : Nat}
include hl

theorem CfgRegs.batchOff_lt : c.batchOff x k < c.bytes := by
  obtain ⟨h1, hs, -, -⟩ := c.legal_iff.mp hl
  have hframe : (c.slotNat x + k / c.size.toNat) % c.cap + 1 ≤ c.cap := Nat.mod_lt _ h1
  have hbyte := Nat.mod_lt k hs
  have hmul := Nat.mul_le_mul_right c.size.toNat hframe
  rw [Nat.succ_mul] at hmul
  rw [CfgRegs.batchOff, CfgRegs.bytes]
  omega

/-- The frame that a byte of the batch lies in, and its number there. -/
theorem CfgRegs.batchOff_div_mod :
    c.batchOff x k / c.size.toNat = (c.slotNat x + k / c.size.toNat) % c.cap ∧
      c.batchOff x k % c.size.toNat = k % c.size.toNat := by
  obtain ⟨-, hs, -, -⟩ := c.legal_iff.mp hl
  have hbyte := Nat.mod_lt k hs
  rw [CfgRegs.batchOff]
  constructor
  · rw [Nat.add_comm, Nat.add_mul_div_right _ _ hs, Nat.div_eq_of_lt hbyte, Nat.zero_add]
  · rw [Nat.add_comm, Nat.add_mul_mod_self_right, Nat.mod_mod]

/-- No two bytes of a batch of at most `N` frames have one place. -/
theorem CfgRegs.batchOff_inj {j g : Nat} (hg : g ≤ c.cap) (hj : j < g * c.size.toNat) (hk : k < g * c.size.toNat)
    (h : c.batchOff x j = c.batchOff x k) : j = k := by
  obtain ⟨hdj, hmj⟩ := CfgRegs.batchOff_div_mod hl (x := x) (k := j)
  obtain ⟨hdk, hmk⟩ := CfgRegs.batchOff_div_mod hl (x := x) (k := k)
  have hframe : j / c.size.toNat ≡ k / c.size.toNat [MOD c.cap] :=
    Nat.ModEq.add_left_cancel' (c.slotNat x) (by rw [Nat.ModEq, ← hdj, ← hdk, h])
  have hdiv : j / c.size.toNat = k / c.size.toNat := Nat.ModEq.eq_of_lt_of_lt hframe
    (Nat.lt_of_lt_of_le (CfgRegs.div_size_lt hj) hg) (Nat.lt_of_lt_of_le (CfgRegs.div_size_lt hk) hg)
  have hmod : j % c.size.toNat = k % c.size.toNat := by rw [← hmj, ← hmk, h]
  rw [← Nat.div_add_mod j c.size.toNat, ← Nat.div_add_mod k c.size.toNat, hdiv, hmod]

/-- The two fragments follow each other along the batch: up to the end of the buffer, and on from its start. -/
theorem Task.byteOff_eq_batchOff {t : Task} {g : Nat} (hx : c.wellFormed x = true) (hg : g ≤ c.cap) (h0 : t.f0 = c.frag0 x g)
    (h1 : t.f1 = c.frag1 x g) (hk : k < g * c.size.toNat) : t.byteOff k = c.batchOff x k := by
  obtain ⟨-, hs, -, -⟩ := c.legal_iff.mp hl
  have hslot : c.slotNat x < c.cap := (c.wellFormed_iff_slotNat x).mp hx
  have hframe := CfgRegs.div_size_lt hk
  have hbyte := Nat.div_add_mod' k c.size.toNat
  have hfirst : k < c.first x g * c.size.toNat ↔ c.slotNat x + k / c.size.toNat < c.cap := by
    rw [← Nat.div_lt_iff_lt_mul hs, CfgRegs.first, Nat.lt_min]
    generalize k / c.size.toNat = q at *
    omega
  rw [Task.byteOff, h0, h1, CfgRegs.frag0, CfgRegs.frag1, CfgRegs.headFrag_len hl (c.first_le x g) hg,
    CfgRegs.headFrag_off hl (Nat.zero_lt_of_lt hframe), CfgRegs.tailFrag_off, CfgRegs.batchOff]
  generalize k / c.size.toNat = q at *
  generalize k % c.size.toNat = r at *
  subst hbyte
  split
  case isTrue hin =>
    rw [Nat.mod_eq_of_lt (hfirst.mp hin), Nat.add_mul, Nat.add_assoc]
  case isFalse hout =>
    rw [hfirst, Nat.not_lt] at hout
    obtain ⟨d, rfl⟩ := Nat.exists_eq_add_of_le (show c.cap - c.slotNat x ≤ q by omega)
    have hcut : c.first x g = c.cap - c.slotNat x := Nat.min_eq_right (by omega)
    rw [Nat.mod_eq_sub_mod hout, Nat.mod_eq_of_lt (by omega), hcut,
      show c.slotNat x + (c.cap - c.slotNat x + d) - c.cap = d by omega, Nat.add_mul, Nat.add_assoc, Nat.add_sub_cancel_left]
    exact Nat.zero_add _

end

/-- Settles O33: lengths and bounds fragment by fragment; the order and the distinct places through the bytes of the batch. -/
theorem fragmentsTileTheBatch : Obligations.FragmentsTileTheBatch := by
  intro c x g t hl hx hg h0 h1
  have hslot : c.slotNat x < c.cap := (c.wellFormed_iff_slotNat x).mp hx
  have hfirst := c.first_le x g
  have hoff : ∀ k, k < g * c.size.toNat → t.byteOff k = c.batchOff x k := fun k =>
    Task.byteOff_eq_batchOff hl hx hg h0 h1
  have hlen0 : t.f0.len.toNat = c.first x g * c.size.toNat := by rw [h0]; exact CfgRegs.headFrag_len hl hfirst hg
  have hlen1 : t.f1.len.toNat = (g - c.first x g) * c.size.toNat := by rw [h1]; exact CfgRegs.tailFrag_len hl hg
  have hoff0 : 1 ≤ g → t.f0.off.toNat = c.slotNat x * c.size.toNat := by rw [h0]; exact CfgRegs.headFrag_off hl
  have hoff1 : t.f1.off = 0 := by rw [h1]; exact CfgRegs.tailFrag_off ..
  refine ⟨?_, ?_, ?_, hoff0, hoff1, fun hend => ?_, hoff, fun j k hj hk h => ?_⟩
  · rw [hlen0, hlen1, ← Nat.add_mul, Nat.add_sub_cancel' hfirst]
  · rcases Nat.eq_zero_or_pos g with rfl | hpos
    · rw [h0]
      exact Nat.zero_le _
    · rw [hoff0 hpos, hlen0, ← Nat.add_mul, CfgRegs.bytes]
      refine Nat.mul_le_mul_right _ ?_
      rw [CfgRegs.first]
      omega
  · rw [hoff1, hlen1, CfgRegs.bytes]
    exact (Nat.zero_add _).trans_le (Nat.mul_le_mul_right _ (by omega))
  · rw [h1]
    exact CfgRegs.tailFrag_of_le c (Nat.le_min.mpr ⟨Nat.le_refl g, by omega⟩)
  · rw [hoff j hj, hoff k hk] at h
    exact CfgRegs.batchOff_inj hl hg hj hk h

end Sys2Proof.Machine
end

section
/-! PROOF. The writer's commands that are no release: `W.ATTACH`, `W.OBTAIN` and the three setters, with the rules that the
passes of `W.WRITE` share with them (43_writer R220 to R224, R228 to R230). -/

open Sys2Proof Sys2Proof.Machine

namespace Sys2Proof.Machine

/-! ### The commands (R220) -/

theorem exec_wAttach (s : State) : exec .wAttach s =
    s.command (decide (s.beat.port = .writer) && s.cfg.valid && !s.w.att) fun s =>
      ({ (s.ldaq .writer .rear).2 with w := { (s.ldaq .writer .rear).2.w with
        lr := (s.ldaq .writer .rear).1, obt := 0, att := true, exp := false } }).endWriter {} := rfl

theorem exec_wObtain (count : Word) (tmo : Timeout) (s : State) : exec (.wObtain count tmo) s =
    s.command s.writerMay fun s => ({ s with w := { s.w with obt := 0 } }).startWriter
      { op := .obtain, count := count, tmo := tmo, point := .load } := rfl

theorem exec_wRelease (k : Word) (s : State) : exec (.wRelease k) s =
    s.command (s.writerMay && decide (k.toNat ≤ s.w.obt.toNat)) fun s => s.startWriter
      { op := .release, count := k, tmo := none, grant := k.toNat, point := .publish } := rfl

theorem exec_wWrite (count : Word) (tmo : Timeout) (s : State) : exec (.wWrite count tmo) s =
    s.command s.writerMay fun s => ({ s with w := { s.w with obt := 0 } }).startWriter
      { op := .transfer, count := count, tmo := tmo, din := s.beat.din, point := .load } := rfl

theorem exec_wSethlt (v : Word) (s : State) : exec (.wSethlt v) s = s.command s.writerMay fun s =>
    s.quickWriter fun w => { w with hlt := wmin v s.cfg.n, lla := wmin w.lla (wmin v s.cfg.n) } := rfl

theorem exec_wSetlla (v : Word) (s : State) : exec (.wSetlla v) s = s.command s.writerMay fun s =>
    s.quickWriter fun w => { w with lla := wmin v w.hlt } := rfl

theorem exec_wSeteff (v : Word) (s : State) : exec (.wSeteff v) s = s.command s.writerMay fun s =>
    s.quickWriter fun w => { w with eff := wmax 1 (wmin v s.cfg.n) } := rfl

section
variable {s : State} (hp : s.beat.port = .writer) (hi : s.w.ph = .idle)
include hp hi

theorem State.ready_writer : s.ready s.beat.port = true := by
  rw [hp, State.ready, hi]
  rfl

variable (hv : s.cfg.valid = true)
include hv

theorem State.writerMay_of_idle : s.writerMay = true := by
  rw [State.writerMay_iff, hi]
  exact ⟨hp, hv, rfl⟩

/-- A command of the attached writer takes effect. -/
theorem State.command_writer {f : State → State} : s.command s.writerMay f = .next (f s) :=
  State.command_legal (State.ready_writer hp hi) (State.writerMay_of_idle hp hi hv)

end

/-- A setter of the idle writer changes its registers, clears the latch and answers 0. -/
theorem State.quickWriter_of_idle {s : State} {f : Writer → Writer} (hi : s.w.ph = .idle) (hf : (f s.w).ph = s.w.ph) :
    s.quickWriter f = ({ s with w := { f s.w with exp := false } } : State).answer .writer {} := by
  rw [State.quickWriter, State.endWriter, ← hi, ← hf]

/-- A new obtain or write: nothing is outstanding, the latch is clear, and the writer stands at its first step (R220, R222). -/
def State.begun (s : State) (t : Task) : State := { s with w := { s.w with obt := 0, exp := false, ph := .busy t } }

/-- The task of `W.OBTAIN` at its first pass. -/
def obtainTask (count : Word) (tmo : Timeout) : Task := { op := .obtain, count := count, tmo := tmo, point := .load }

/-- The task of `W.WRITE` at its first pass. -/
def writeTask (count : Word) (tmo : Timeout) (din : List Byte) : Task :=
  { op := .transfer, count := count, tmo := tmo, din := din, point := .load }

section
variable {s : State} (hp : s.beat.port = .writer) (hi : s.w.ph = .idle) (hv : s.cfg.valid = true) (count : Word) (tmo : Timeout)
include hp hi hv

theorem exec_wObtain_begun : exec (.wObtain count tmo) s =
    .next ((s.begun (obtainTask count tmo)).runWriter (s.beat.burst + 1)) := by
  rw [exec_wObtain, State.command_writer hp hi hv]
  rfl

theorem exec_wWrite_begun : exec (.wWrite count tmo) s =
    .next ((s.begun (writeTask count tmo s.beat.din)).runWriter (s.beat.burst + 1)) := by
  rw [exec_wWrite, State.command_writer hp hi hv]
  rfl

end

/-- Settles O39: the clamps are minima and a maximum of numbers. -/
theorem writerSettersClamp : Obligations.WriterSettersClamp := by
  intro s v hp hi hv
  refine ⟨⟨wmin v s.cfg.n, wmin s.w.lla (wmin v s.cfg.n), wmin_toNat _ _, wmin_toNat _ _, ?_⟩,
    ⟨wmin v s.w.hlt, wmin_toNat _ _, ?_⟩, ⟨wmax 1 (wmin v s.cfg.n), ?_, ?_⟩⟩
  · rw [exec_wSethlt, State.command_writer hp hi hv, State.quickWriter_of_idle hi rfl]
  · rw [exec_wSetlla, State.command_writer hp hi hv, State.quickWriter_of_idle hi rfl]
  · rw [wmax_toNat, wmin_toNat]
    rfl
  · rw [exec_wSeteff, State.command_writer hp hi hv, State.quickWriter_of_idle hi rfl]

/-! ### Lagging loads by the writer (20_memory R88) -/

/-- What a load at position `j` of a cell leaves of the writer: the position, and all that the stores up to it hand over. -/
def State.observed (s : State) (c : CellSel) (j : Nat) (cs : List Nat) (n : Nat) : State :=
  { s with
    choices := cs
    draws := n
    w := { s.w with obs := (s.w.obs.setPos c j).setView (s.w.obs.view.acquire ((s.cell c).handsOver j)) } }

theorem State.ldaq_writer {s : State} {c : CellSel} (h : s.w.obs.pos c ≤ (s.cell c).newest) :
    ∃ (j : Nat) (v : Word) (cs : List Nat) (n : Nat), s.w.obs.pos c ≤ j ∧ (s.cell c).hist[j]? = some v ∧
      (s.par.xing = .sc → j = (s.cell c).newest) ∧ s.ldaq .writer c = (v, s.observed c j cs n) := by
  obtain ⟨j, cs, n, hlo, hhi, hsc, hval, hst⟩ := s.ldaq_spec .writer c h
  exact ⟨j, _, cs, n, hlo, (Cell.hist_getElem?_eq_some_iff _).mpr ⟨hhi, rfl⟩, hsc, Prod.ext hval hst⟩

/-- Settles O34: the load of the rear is the lagging load of any observer, and a writer that is attached is refused. -/
theorem wAttachAdoptsTheRear : Obligations.WAttachAdoptsTheRear := by
  intro s hp hi hv
  have hr : s.ready s.beat.port = true := by
    rw [hp, State.ready]
    rcases hi with hi | hi <;> rw [hi] <;> rfl
  rw [exec_wAttach]
  refine ⟨fun ha => ?_, fun ha hpos => ?_⟩
  · rw [State.command_illegal hr (by simp [ha]), State.refuse_eq, hp]
  · obtain ⟨j, v, cs, n, hlo, hv', hsc, hl⟩ := State.ldaq_writer (s := s) (c := .rear) hpos
    refine ⟨j, v, cs, n, hlo, hv', hsc, ?_⟩
    rw [State.command_legal hr (by simp [hp, hv, ha]), hl]
    rfl

/-! ### Grants (R222, R223) -/

/-- The fragments of a grant: up to slot `N` the rule's, with nothing drawn; above it two parts of whole frames (log 12). -/
theorem State.fragments_split (s : State) (x : Word) (g : Nat) : ∃ (first : Nat) (cs : List Nat) (n : Nat), first ≤ g ∧
    (s.cfg.slotNat x ≤ s.cfg.cap → first = s.cfg.first x g ∧ cs = s.choices ∧ n = s.draws) ∧
    s.fragments x g = ((s.cfg.headFrag x g first, s.cfg.tailFrag g first), { s with choices := cs, draws := n }) := by
  by_cases h : s.cfg.slotNat x ≤ s.cfg.cap
  · exact ⟨_, _, _, s.cfg.first_le x g, fun _ => ⟨rfl, rfl, rfl⟩, State.fragments_of_le h g⟩
  · obtain ⟨first, cs, n, hle, hf⟩ := s.fragments_spec x g
    exact ⟨first, cs, n, hle, fun hc => absurd hc h, hf⟩

/-- A grant to `W.OBTAIN` ends it (R222). -/
theorem State.grantWriter_of_obtain {t : Task} (ht : t.op = .obtain) (s : State) (g : Nat) :
    ∃ (first : Nat) (cs : List Nat) (n : Nat), first ≤ g ∧
      (s.cfg.slotNat s.w.lr ≤ s.cfg.cap → first = s.cfg.first s.w.lr g ∧ cs = s.choices ∧ n = s.draws) ∧
      s.grantWriter t g = ({ s with
        choices := cs
        draws := n
        w := { s.w with obt := BitVec.ofNat 32 g, ph := .idle } } : State).answer .writer
          { ret := BitVec.ofNat 32 g, f0 := s.cfg.headFrag s.w.lr g first, f1 := s.cfg.tailFrag g first } := by
  obtain ⟨first, cs, n, hle, hin, hf⟩ :=
    ({ s with w := { s.w with obt := BitVec.ofNat 32 g } } : State).fragments_split s.w.lr g
  refine ⟨first, cs, n, hle, hin, ?_⟩
  simp only [State.grantWriter, ht, hf]
  rfl

/-- A word holds a number of frames that is at most a word's. -/
theorem toNat_ofNat_min (count : Word) (k : Nat) : (BitVec.ofNat 32 (min count.toNat k)).toNat = min count.toNat k := by
  rw [BitVec.toNat_ofNat, Nat.mod_eq_of_lt (Nat.lt_of_le_of_lt (Nat.min_le_left _ _) count.isLt)]

theorem Task.want_of_obtain {t : Task} (h : t.op = .obtain) : t.want = t.count.toNat := by
  rw [Task.want, h]

theorem Task.want_of_transfer {t : Task} (h : t.op = .transfer) : t.want = t.count.toNat - t.done := by
  rw [Task.want, h]

/-- Settles O35: the one pass grants, and ends the command. -/
theorem wObtainUnthrottledGrants : Obligations.WObtainUnthrottledGrants := by
  intro s count tmo hp hi hv hthr
  have hg := toNat_ofNat_min count s.cfg.cap
  have hcap : min count.toNat s.cfg.cap ≤ s.cfg.cap := Nat.min_le_right _ _
  have hstep : (s.begun (obtainTask count tmo)).stepWriter =
      (s.begun (obtainTask count tmo)).grantWriter (obtainTask count tmo) (min count.toNat s.cfg.cap) :=
    if_neg (Bool.eq_false_iff.mp hthr)
  obtain ⟨first, cs, n, hle, hin, he⟩ :=
    (s.begun (obtainTask count tmo)).grantWriter_of_obtain (t := obtainTask count tmo) rfl (min count.toNat s.cfg.cap)
  refine ⟨BitVec.ofNat 32 (min count.toNat s.cfg.cap), s.cfg.headFrag s.w.lr (min count.toNat s.cfg.cap) first,
    s.cfg.tailFrag (min count.toNat s.cfg.cap) first, cs, n, hg, fun hslot => ?_, fun h0 => ?_, fun hl h1 => ?_, ?_⟩
  · obtain ⟨rfl, rfl, rfl⟩ := hin hslot
    rw [hg]
    exact ⟨rfl, rfl, rfl, rfl⟩
  · have hzero : min count.toNat s.cfg.cap = 0 := by rw [← hg, h0]; rfl
    rw [hzero]
    exact ⟨rfl, s.cfg.tailFrag_of_le (Nat.zero_le _)⟩
  · rw [hg] at h1 ⊢
    rw [CfgRegs.headFrag_off hl h1, CfgRegs.headFrag_len hl hle hcap, CfgRegs.tailFrag_len hl hcap, ← Nat.add_mul,
      Nat.add_sub_cancel' hle]
    exact ⟨rfl, s.cfg.tailFrag_off _ first, Nat.dvd_mul_left _ _, rfl⟩
  · rw [exec_wObtain_begun hp hi hv, State.runWriter_succ rfl, hstep, he, State.runWriter_idle rfl, ← hi]
    rfl

/-! ### The load of a pass (R222) -/

theorem CfgRegs.diff_writer_ne_overflow (c : CfgRegs) (r f : Word) (l : Nat) : c.diff r f false ≠ .overflow l := by
  intro h
  rcases c.diff_spec r f false with ⟨-, e⟩ | ⟨-, -, ⟨-, e⟩ | ⟨-, -, e⟩ | ⟨-, -, e⟩⟩ <;> rw [h] at e <;> cases e

/-- A fill is told of a well-formed rear only (R176). -/
theorem CfgRegs.wellFormed_of_diff {c : CfgRegs} {r f : Word} {who : Bool} {fill : Nat} (h : c.diff r f who = .ok fill) :
    c.wellFormed r = true := by
  by_contra hw
  rw [CfgRegs.diff_of_illFormed (.inl (by simpa using hw))] at h
  cases h

section
variable {s s1 : State} {t : Task} {f : Word}

theorem State.stepWriter_of_load (hp : s.w.ph = .busy t) (ht : t.point = .load) : s.stepWriter = s.loadWriter t := by
  simp only [State.stepWriter, hp, ht]

theorem State.loadWriter_of_unthrottled (hthr : s.cfg.thr = false) : s.loadWriter t = s.grantWriter t (min t.want s.cfg.cap) := by
  rw [State.loadWriter, hthr]
  rfl

variable (hthr : s.cfg.thr = true) (hl : s.ldaq .writer .front = (f, s1))
include hthr hl

theorem State.loadWriter_of_eio (hd : s.cfg.diff s.w.lr f false = .eio) : s.loadWriter t = s1.failWriter t := by
  simp only [State.loadWriter, hthr, hl, hd, if_true]

variable {fill : Nat} (hd : s.cfg.diff s.w.lr f false = .ok fill)
include hd

theorem State.loadWriter_of_waits (hw : s.w.eff.toNat ≤ fill ∧ blocking t.tmo = true ∧ s.w.exp = false) :
    s.loadWriter t = s1.goWriter { t with point := .wait f } := by
  obtain ⟨he, hb, hx⟩ := hw
  simp only [State.loadWriter, hthr, hl, hd, if_true]
  exact if_pos ⟨Nat.sub_eq_zero_of_le he, hb, hx⟩

theorem State.loadWriter_of_grants (hw : ¬(s.w.eff.toNat ≤ fill ∧ blocking t.tmo = true ∧ s.w.exp = false)) :
    s.loadWriter t = s1.grantWriter t (min t.want (s.w.eff.toNat - fill)) := by
  simp only [State.loadWriter, hthr, hl, hd, if_true]
  exact if_neg fun ⟨he, hb, hx⟩ => hw ⟨Nat.sub_eq_zero_iff_le.mp he, hb, hx⟩

end

/-! ### `W.OBTAIN` with throttling (R222, R224) -/

/-- What the pass of an obtain does that observed the front `f` and then stands in `s1`: fail, wait, or grant. -/
theorem State.stepWriter_obtain {s s1 : State} {t : Task} {f : Word} (hp : s.w.ph = .busy t) (ho : t.op = .obtain)
    (ht : t.point = .load) (hthr : s.cfg.thr = true) (hl : s.ldaq .writer .front = (f, s1)) (hw : s1.w.lr = s.w.lr)
    (hc : s1.cfg = s.cfg) (hpar : s1.par = s.par) :
    (s.cfg.diff s.w.lr f false = .eio →
      s.stepWriter = ({ s1 with w := { s1.w with ph := .idle } } : State).answer .writer { ret := s.par.errEio }) ∧
    ∀ fill, s.cfg.diff s.w.lr f false = .ok fill →
      (s.w.eff.toNat ≤ fill ∧ blocking t.tmo = true ∧ s.w.exp = false →
        s.stepWriter = s1.goWriter { t with point := .wait f }) ∧
      (¬(s.w.eff.toNat ≤ fill ∧ blocking t.tmo = true ∧ s.w.exp = false) →
        ∃ g : Word, g.toNat = min t.count.toNat (s.w.eff.toNat - fill) ∧
          s.stepWriter = ({ s1 with w := { s1.w with obt := g, ph := .idle } } : State).answer .writer
            { ret := g, f0 := s.cfg.frag0 s.w.lr g.toNat, f1 := s.cfg.frag1 s.w.lr g.toNat }) := by
  rw [State.stepWriter_of_load hp ht]
  refine ⟨fun hd => ?_, fun fill hd => ⟨fun hwait => State.loadWriter_of_waits hthr hl hd hwait, fun hno => ?_⟩⟩
  · rw [State.loadWriter_of_eio hthr hl hd, State.failWriter, if_neg (by rw [ho]; rintro ⟨h, -⟩; cases h), ← hpar]
    rfl
  · have hslot : s1.cfg.slotNat s1.w.lr ≤ s1.cfg.cap := by
      rw [hw, hc]
      exact Nat.le_of_lt ((s.cfg.wellFormed_iff_slotNat _).mp (CfgRegs.wellFormed_of_diff hd))
    have hg := toNat_ofNat_min t.count (s.w.eff.toNat - fill)
    refine ⟨BitVec.ofNat 32 (min t.count.toNat (s.w.eff.toNat - fill)), hg, ?_⟩
    obtain ⟨first, cs, n, -, hin, he⟩ := State.grantWriter_of_obtain ho s1 (min t.want (s.w.eff.toNat - fill))
    obtain ⟨rfl, rfl, rfl⟩ := hin hslot
    rw [State.loadWriter_of_grants hthr hl hd hno, he, hg, Task.want_of_obtain ho, hw, hc]
    rfl

/-- A compare that finds the value expected parks the writer in the same step, and there its run ends (R224). -/
theorem State.runWriter_parks {s : State} {t : Task} {e : Word} (hp : s.w.ph = .busy t) (ht : t.point = .wait e)
    (h : s.front.current = e) (hq : .writer ∉ s.wqFront) (n : Nat) : s.runWriter (n + 1) = { s with
      wqFront := s.wqFront ++ [.writer]
      w := { s.w with
        ph := .parked t { cell := .front, expected := e, timer := ticks t.tmo }
        obs := s.w.obs.setView (s.w.obs.view.acquire (s.front.handsOver s.front.newest)) } } := by
  obtain ⟨-, hpark⟩ := (compareAndParkIsOneStep s t e ht).1 hp
  rw [State.runWriter_succ (by rw [hp]; rfl), hpark h hq, State.runWriter_idle rfl]
  rfl

/-- Settles O36: the command runs the pass, and a pass that waits goes on with the compare-and-park. -/
theorem wObtainThrottledGrantsOrWaits : Obligations.WObtainThrottledGrantsOrWaits := by
  refine ⟨fun s count tmo hp hi hv => exec_wObtain_begun hp hi hv count tmo, fun s count tmo hp hi hv hthr hpos => ?_,
    fun s task hp ho ht hthr hpos => ?_⟩
  · obtain ⟨j, f, cs, n, hlo, hf, hsc, hl⟩ :=
      State.ldaq_writer (s := s.begun (obtainTask count tmo)) (c := .front) hpos
    obtain ⟨heio, hok⟩ := State.stepWriter_obtain (s := s.begun (obtainTask count tmo)) rfl rfl rfl hthr hl rfl rfl rfl
    have hrun : ∀ u, (s.begun (obtainTask count tmo)).stepWriter = u →
        exec (.wObtain count tmo) s = .next (u.runWriter s.beat.burst) := fun u hu => by
      rw [exec_wObtain_begun hp hi hv, State.runWriter_succ rfl, hu]
    refine ⟨j, f, cs, n, hlo, hf, hsc, fun hd => ?_, s.cfg.diff_writer_ne_overflow s.w.lr f, fun fill hd => ?_⟩
    · rw [hrun _ (heio hd), State.runWriter_idle rfl, ← hi]
      rfl
    · obtain ⟨hwaits, hgrants⟩ := hok fill hd
      refine ⟨fun hfree => ?_, fun hfull hb => hrun _ (hwaits ⟨hfull, hb, rfl⟩), fun hfull hb hcur hburst hq => ?_⟩
      · obtain ⟨g, hg, hst⟩ := hgrants fun ⟨hfull, hb, _⟩ => by
          rcases hfree with hlt | hnb
          · exact absurd hfull (Nat.not_le.mpr hlt)
          · exact absurd (hb.symm.trans hnb) (by decide)
        refine ⟨g, hg, ?_⟩
        rw [hrun _ hst, State.runWriter_idle rfl, ← hi]
        rfl
      · obtain ⟨b, rfl⟩ : ∃ b, tmo = some b := Option.ne_none_iff_exists'.mp fun hnone => by
          rw [hnone] at hb
          cases hb
        obtain ⟨m, hm⟩ := Nat.exists_eq_add_of_le' hburst
        refine ⟨b, rfl, ?_⟩
        rw [hrun _ (hwaits ⟨hfull, hb, rfl⟩), hm]
        refine congrArg Host.Outcome.next (State.runWriter_parks ?_ ?_ ?_ ?_ m)
        exacts [rfl, rfl, hcur.symm, hq]
  · obtain ⟨j, f, cs, n, hlo, hf, hsc, hl⟩ := State.ldaq_writer (s := s) (c := .front) hpos
    exact ⟨j, f, cs, n, hlo, hf, hsc, State.stepWriter_obtain hp ho ht hthr hl rfl rfl rfl⟩

/-! ### The pass after the timeout (R224, R254) -/

/-- The operation has ended, or it goes on at a step that is no wait. -/
def Phase.PastWait (p : Phase) : Prop := p = .idle ∨ ∃ t, p = .busy t ∧ ∀ e, t.point ≠ .wait e

theorem Phase.PastWait.ne_wait {p : Phase} (h : p.PastWait) (t : Task) (e : Word) : p ≠ .busy { t with point := .wait e } := by
  rintro rfl
  rcases h with h | ⟨t', h, hno⟩
  · cases h
  · cases h
    exact hno e rfl

theorem Phase.pastWait_busy {t : Task} (h : ∀ e, t.point ≠ .wait e) : (Phase.busy t).PastWait := .inr ⟨t, rfl, h⟩

theorem State.grantWriter_pastWait (s : State) (t : Task) (g : Nat) : (s.grantWriter t g).w.ph.PastWait := by
  unfold State.grantWriter
  cases t.op with
  | transfer =>
    dsimp only
    split
    · exact .inl rfl
    · exact Phase.pastWait_busy fun _ h => by cases h
  | obtain | release => exact .inl rfl

theorem State.loadWriter_pastWait {s : State} (hx : s.w.exp = true) (t : Task) : (s.loadWriter t).w.ph.PastWait := by
  unfold State.loadWriter
  dsimp only
  split
  · split
    · rw [if_neg (by rw [hx]; rintro ⟨-, -, h⟩; cases h)]
      exact State.grantWriter_pastWait ..
    · exact .inl rfl
  · exact State.grantWriter_pastWait ..

section
variable {s : State} {i : Nat} (hi : i < s.readers.length)
include hi

theorem State.endReader_ph (r : Response) : ((s.endReader i r).rd i).ph = .idle :=
  congrArg Reader.ph (State.rd_setRd_same hi { s.rd i with ph := .idle })

theorem State.goReader_ph (t : Task) : ((s.goReader i t).rd i).ph = .busy t :=
  congrArg Reader.ph (State.rd_setRd_same hi { s.rd i with ph := .busy t })

theorem State.grantReader_pastWait (t : Task) (g : Nat) : ((s.grantReader i t g).rd i).ph.PastWait := by
  have hset : ∀ r, i < (s.setRd i r).readers.length := fun r => by rwa [State.setRd_length]
  unfold State.grantReader
  cases t.op with
  | transfer =>
    dsimp only
    split
    · exact .inl (State.endReader_ph (hset _) _)
    · rw [State.goReader_ph (hset _)]
      exact Phase.pastWait_busy fun _ h => by cases h
  | obtain | release => exact .inl (State.endReader_ph (hset _) _)

theorem State.loadReader_pastWait (hx : (s.rd i).exp = true) (t : Task) : ((s.loadReader i t).rd i).ph.PastWait := by
  have hload : i < (s.ldaq (.reader i) .rear).2.readers.length := by rwa [State.ldaq_length]
  have hset : ∀ r, i < ((s.ldaq (.reader i) .rear).2.setRd i r).readers.length := fun r => by rwa [State.setRd_length]
  unfold State.loadReader
  dsimp only
  split
  · exact .inl (State.endReader_ph hload _)
  · split
    · rw [State.goReader_ph (hset _)]
      exact Phase.pastWait_busy fun _ h => by cases h
    · exact .inl (State.endReader_ph (hset _) _)
  · rw [if_neg (by rw [State.ldaq_rd_exp, hx]; rintro ⟨-, -, h⟩; cases h)]
    exact State.grantReader_pastWait hload _ _

end

/-- Settles O47: only the load of a pass goes to a wait, and it asks that the timeout has not expired. -/
theorem passAfterTimeoutNeverWaits : Obligations.PassAfterTimeoutNeverWaits := by
  intro s task ht
  refine ⟨fun hp hx task' e => ?_, fun i hp hx task' e => ?_⟩
  · rw [State.stepWriter_of_load hp ht]
    exact (State.loadWriter_pastWait hx task).ne_wait task' e
  · have hstep : s.stepReader i = s.loadReader i task := by simp only [State.stepReader, hp, ht]
    rw [hstep]
    exact (State.loadReader_pastWait (State.lt_of_busy hp) hx task).ne_wait task' e

end Sys2Proof.Machine
end

section
/-! PROOF. The release of the writer: the publication, the trigger with its fresh load and its wake, and the end, for
`W.RELEASE` and for a pass of `W.WRITE` (43_writer R225, R226, R231). -/

open Sys2Proof Sys2Proof.Machine

namespace Sys2Proof.Machine

/-! ### The hysteresis of the trigger (R226, R231) -/

theorem writerWakes_iff (armed : Bool) (hlt : Word) (fill : Nat) :
    writerWakes armed hlt fill = true ↔ armed = true ∧ hlt.toNat ≤ fill := by
  simp [writerWakes]

theorem writerArmed_iff (armed : Bool) (hlt lla : Word) (fill : Nat) :
    writerArmed armed hlt lla fill = true ↔ fill ≤ lla.toNat ∨ (armed = true ∧ fill < hlt.toNat) := by
  cases armed <;> simp [writerArmed, writerWakes]

/-- Where the trigger does not wake, an armed writer stays armed. -/
theorem writerArmed_of_not_wakes {armed : Bool} {hlt lla : Word} {fill : Nat} (h : ¬(armed = true ∧ hlt.toNat ≤ fill)) :
    writerArmed armed hlt lla fill = true ↔ fill ≤ lla.toNat ∨ armed = true := by
  rw [writerArmed_iff]
  cases armed with
  | true => simp only [true_and, Nat.not_le] at h; simp [h]
  | false => simp

/-! ### The end of a release (R225, R227) -/

theorem State.releasedWriter_of_release {t : Task} (ho : t.op ≠ .transfer) (s : State) (failed : Bool) :
    s.releasedWriter t failed = ({ s with w := { s.w with ph := .idle } } : State).answer .writer
      { ret := if failed then s.par.errEio else 0 } := by
  unfold State.releasedWriter
  cases hop : t.op with
  | transfer => exact absurd hop ho
  | obtain | release => cases failed <;> rfl

section
variable {t : Task} (ho : t.op = .transfer) (s : State) {failed : Bool}
include ho

theorem State.releasedWriter_of_ends (h : failed = true ∨ t.ends (t.done + t.grant) s.w.exp) :
    s.releasedWriter t failed = ({ s with w := { s.w with obt := 0, ph := .idle } } : State).answer .writer
      (.frames (t.done + t.grant)) := by
  unfold State.releasedWriter
  split
  case h_1 => exact if_pos h
  case h_2 hno => exact absurd ho hno

theorem State.releasedWriter_of_goes_on (h : ¬(failed = true ∨ t.ends (t.done + t.grant) s.w.exp)) :
    s.releasedWriter t failed = { s with w := { s.w with
      obt := 0
      ph := .busy { t with done := t.done + t.grant, grant := 0, point := .load } } } := by
  unfold State.releasedWriter
  split
  case h_1 => exact if_neg h
  case h_2 hno => exact absurd ho hno

end

/-- How a release ends, all of it. -/
theorem State.releasedWriter_writerEnds (s : State) (t : Task) (failed : Bool) :
    s.writerEnds (s.releasedWriter t failed) t failed :=
  ⟨fun ho => State.releasedWriter_of_release ho s failed,
    fun ho h => ⟨_, Response.frames_isCount _, State.releasedWriter_of_ends ho s h⟩,
    fun ho h => State.releasedWriter_of_goes_on ho s h⟩

/-- The end of a release touches the batch, the phase and the responses, and does not look at the step it comes from. -/
theorem State.releasedWriter_frame (s : State) (t : Task) (failed : Bool) :
    ∃ (obt : Word) (ph : Phase) (out : List Answer), (∀ v, ph.wakeUp v = ph) ∧
      s.releasedWriter t failed = { s with w := { s.w with obt := obt, ph := ph }, out := out } := by
  by_cases ho : t.op = .transfer
  · by_cases h : failed = true ∨ t.ends (t.done + t.grant) s.w.exp
    · exact ⟨_, _, _, fun _ => rfl, State.releasedWriter_of_ends ho s h⟩
    · exact ⟨_, _, s.out, fun _ => rfl, State.releasedWriter_of_goes_on ho s h⟩
  · exact ⟨s.w.obt, _, _, fun _ => rfl, State.releasedWriter_of_release ho s failed⟩

theorem State.releasedWriter_point (s : State) (t : Task) (p : Point) (failed : Bool) :
    s.releasedWriter { t with point := p } failed = s.releasedWriter t failed := by
  unfold State.releasedWriter
  cases t.op <;> rfl

/-! ### The publication (R225) -/

/-- What the publication of `nr` leaves: the local index, the cell with all that the writer did handed over, and the batch. -/
def State.published (s : State) (nr : Word) (g : Nat) : State :=
  { s with
    rear := { s.rear with pubs := s.rear.pubs ++ [{ value := nr, seen := s.w.obs.view.seen }] }
    w := { s.w with
      lr := nr
      obt := s.w.obt - BitVec.ofNat 32 g
      obs := s.w.obs.setView s.w.obs.view.fenceRel } }

section
variable {s : State} {t : Task}

theorem State.stepWriter_of_publish (hp : s.w.ph = .busy t) (ht : t.point = .publish) :
    s.stepWriter = s.publishWriter t := by
  simp only [State.stepWriter, hp, ht]

theorem State.stepWriter_of_fresh (hp : s.w.ph = .busy t) (ht : t.point = .fresh) : s.stepWriter = s.freshWriter t := by
  simp only [State.stepWriter, hp, ht]

theorem State.stepWriter_of_wake {fill : Nat} (hp : s.w.ph = .busy t) (ht : t.point = .wake fill) :
    s.stepWriter = s.wakeWriter t fill := by
  simp only [State.stepWriter, hp, ht]

theorem State.publishWriter_of_none (h : s.cfg.sum s.w.lr t.grant = none) : s.publishWriter t = s.releasedWriter t true := by
  simp only [State.publishWriter, h]

variable {nr : Word} (h : s.cfg.sum s.w.lr t.grant = some nr)
include h

theorem State.publishWriter_of_unthrottled (hthr : s.cfg.thr = false) :
    s.publishWriter t = (s.published nr t.grant).releasedWriter t false := by
  simp only [State.publishWriter, h]
  exact if_neg (Bool.eq_false_iff.mp hthr)

theorem State.publishWriter_of_throttled (hthr : s.cfg.thr = true) :
    s.publishWriter t = (s.published nr t.grant).goWriter { t with point := .fresh } := by
  simp only [State.publishWriter, h]
  exact if_pos hthr

end

/-! ### The fresh load of the trigger (R225) -/

section
variable {s s1 : State} {t : Task} {f : Word} (hl : s.ldaq .writer .front = (f, s1))
include hl

theorem State.freshWriter_of_eio (hd : s.cfg.diff s.w.lr f false = .eio) : s.freshWriter t = s1.releasedWriter t true := by
  simp only [State.freshWriter, hl, hd]

variable {fill : Nat} (hd : s.cfg.diff s.w.lr f false = .ok fill)
include hd

theorem State.freshWriter_of_wakes (hw : s.w.armed = true ∧ s.w.hlt.toNat ≤ fill) :
    s.freshWriter t = s1.goWriter { t with point := .wake fill } := by
  simp only [State.freshWriter, hl, hd, (writerWakes_iff _ _ _).mpr hw, if_true]

theorem State.freshWriter_of_not_wakes (hw : ¬(s.w.armed = true ∧ s.w.hlt.toNat ≤ fill)) :
    s.freshWriter t = (s1.armWriter fill).releasedWriter t false := by
  simp only [State.freshWriter, hl, hd]
  exact if_neg fun h => hw ((writerWakes_iff _ _ _).mp h)

end

/-! ### The wake of the trigger (R226, R152) -/

/-- A wake is one between any two states that agree on the parked set and on who was woken and who was not. -/
theorem wokeFrom.imp {v : Seen} {s t s' t' : State} {c : CellSel} {all : Bool} (h : wokeFrom v s t c all)
    (hs : s'.wq c = s.wq c) (ht : t'.wq c = t.wq c) (hw : ∀ o, wokenIn v s t o → wokenIn v s' t' o)
    (hk : ∀ o, keptIn s t o → keptIn s' t' o) : wokeFrom v s' t' c all := by
  unfold wokeFrom at h ⊢
  rw [hs, ht]
  cases all with
  | true =>
    obtain ⟨hnil, hwoke, hkept⟩ := h
    exact ⟨hnil, fun o ho => hw o (hwoke o ho), fun o ho => hk o (hkept o ho)⟩
  | false =>
    rcases h with ⟨hnil, hnil', hkept⟩ | ⟨who, hm, hq, hwoke, hkept⟩
    · exact .inl ⟨hnil, hnil', fun o => hk o (hkept o)⟩
    · exact .inr ⟨who, hm, hq, hw who hwoke, fun o ho => hk o (hkept o ho)⟩

/-- What the last step of a trigger leaves before the release ends. -/
theorem State.wakeOwn_armWriter (s : State) (fill : Nat) :
    wokeFrom s.w.obs.view.seen s ((s.wakeOwn .writer .rear).armWriter fill) .rear (s.par.nReaders != 1) ∧
      onlyWakes { s with w := { s.w with armed := writerArmed s.w.armed s.w.hlt s.w.lla fill } }
        ((s.wakeOwn .writer .rear).armWriter fill) .rear ∧
      ((s.wakeOwn .writer .rear).armWriter fill).out = s.out := by
  obtain ⟨hwoke, ⟨hlen, hrd, hform⟩, hout⟩ := s.wakeOwn_wokeFrom .writer .rear
  refine ⟨hwoke.imp rfl rfl (fun o h => ?_) (fun o h => ?_), ⟨hlen, hrd, ?_⟩, hout⟩
  · cases o <;> exact h
  · cases o <;> exact h
  · exact congrArg (State.armWriter fill) hform

/-! ### The trigger as a whole -/

/-- From `s`, in which the writer has published and comes to its fresh load, to `u`, in which the trigger has run on the front
`f` at position `j` and the release has yet to end: a wake perhaps, and of the writer `W_ARMED` and what the load observed. -/
structure State.Triggered (s u : State) (j : Nat) (f : Word) : Prop where
  frame : onlyWakes { s with w := { s.w with armed := u.w.armed, obs := u.w.obs } } u .rear
  out : u.out = s.out
  ph : u.w.ph = s.w.ph
  obs : u.w.obs = (s.w.obs.setPos .front j).setView (s.w.obs.view.acquire (s.front.handsOver j))
  trigger : writerTriggered s u s.w.lr f

/-- The trigger found no fill: it is skipped. -/
theorem State.triggered_of_eio {s : State} {f : Word} (j : Nat) (cs : List Nat) (n : Nat)
    (hd : s.cfg.diff s.w.lr f false = .eio) : s.Triggered (s.observed .front j cs n) j f where
  frame := ⟨rfl, fun _ => rfl, rfl⟩
  out := rfl
  ph := rfl
  obs := rfl
  trigger := by
    unfold writerTriggered
    rw [hd]
    exact ⟨rfl, rfl, rfl, rfl⟩

/-- The trigger found a fill that it does not wake on. -/
theorem State.triggered_of_not_wakes {s : State} {f : Word} {fill : Nat} (j : Nat) (cs : List Nat) (n : Nat)
    (hd : s.cfg.diff s.w.lr f false = .ok fill) (hw : ¬(s.w.armed = true ∧ s.w.hlt.toNat ≤ fill)) :
    s.Triggered ((s.observed .front j cs n).armWriter fill) j f where
  frame := ⟨rfl, fun _ => rfl, rfl⟩
  out := rfl
  ph := rfl
  obs := rfl
  trigger := by
    unfold writerTriggered
    rw [hd]
    exact ⟨writerArmed_iff _ _ _ _, fun h => absurd h hw, fun _ => ⟨rfl, rfl, rfl⟩⟩

/-- The trigger found a fill that it wakes on; the phase is set back to the one at the load. -/
theorem State.triggered_of_wakes {s : State} {t : Task} {p : Point} {f : Word} {fill : Nat} (j : Nat) (cs : List Nat) (n : Nat)
    (hp : s.w.ph = .busy t) (hd : s.cfg.diff s.w.lr f false = .ok fill) (hw : s.w.armed = true ∧ s.w.hlt.toNat ≤ fill) :
    s.Triggered
      (((((s.observed .front j cs n).goWriter { t with point := p }).wakeOwn .writer .rear).armWriter fill).goWriter t) j f := by
  obtain ⟨hwoke, ⟨hlen, hrd, hform⟩, hout⟩ :=
    ((s.observed .front j cs n).goWriter { t with point := p }).wakeOwn_armWriter fill
  generalize (((s.observed .front j cs n).goWriter { t with point := p }).wakeOwn .writer .rear).armWriter fill = u at *
  have hobs : u.w.obs = (s.observed .front j cs n).w.obs := congrArg (fun x => x.w.obs) hform
  have harmed : u.w.armed = writerArmed s.w.armed s.w.hlt s.w.lla fill := congrArg (fun x => x.w.armed) hform
  refine ⟨⟨hlen, hrd, ?_⟩, hout, hp.symm, hobs, ?_⟩
  · refine (congrArg (State.goWriter t) hform).trans ?_
    simp only [State.goWriter, hobs, harmed]
    rfl
  · unfold writerTriggered
    rw [hd]
    refine ⟨harmed ▸ writerArmed_iff _ _ _ _, fun _ => ?_, fun h => absurd hw h⟩
    have hseen : (u.goWriter t).w.obs.view.seen = (s.observed .front j cs n).w.obs.view.seen := congrArg (fun x => x.view.seen) hobs
    rw [hseen]
    refine hwoke.imp rfl rfl (fun o h => ?_) (fun o h => ?_)
    · cases o with
      | writer => show Phase.busy t = s.w.ph.wakeUp _; rw [hp]; rfl
      | host | reader _ | peer => exact h
    · cases o with
      | writer => exact hp.symm
      | host | reader _ | peer => exact h

/-- All that the trigger may have touched. -/
theorem State.Triggered.form {s u : State} {j : Nat} {f : Word} (h : s.Triggered u j f) :
    ∃ (armed : Bool) (rs : List Reader) (wait : Option Park) (q : List Agent) (cs : List Nat) (n : Nat),
      rs.length = s.readers.length ∧ (∀ i, { u.rd i with ph := (s.rd i).ph } = s.rd i) ∧
      u = { s with
        choices := cs
        draws := n
        readers := rs
        wqRear := q
        peer := { s.peer with wait := wait }
        w := { s.w with
          armed := armed
          obs := (s.w.obs.setPos .front j).setView (s.w.obs.view.acquire (s.front.handsOver j)) } } := by
  obtain ⟨⟨hlen, hrd, hform⟩, hout, hph, hobs, -⟩ := h
  refine ⟨u.w.armed, u.readers, u.peer.wait, u.wqRear, u.choices, u.draws, hlen, hrd, ?_⟩
  rw [hout, hph, hobs] at hform
  exact hform

/-- The fresh load, its test and the wake, as one run: they leave the trigger done, and the release ends. -/
theorem State.runWriter_fresh {s : State} {t : Task} (hp : s.w.ph = .busy t) (ht : t.point = .fresh)
    (hpos : s.w.obs.posFront ≤ s.front.newest) : ∃ (m j : Nat) (f : Word) (u : State) (failed : Bool), m ≤ 2 ∧
      s.w.obs.posFront ≤ j ∧ s.front.hist[j]? = some f ∧ s.Triggered u j f ∧
      (failed = true ↔ s.cfg.diff s.w.lr f false = .eio) ∧ s.runWriter m = u.releasedWriter t failed := by
  obtain ⟨j, f, cs, n, hlo, hf, -, hl⟩ := State.ldaq_writer (s := s) (c := .front) hpos
  have hrun : s.runWriter 1 = s.freshWriter t := by
    rw [State.runWriter_succ (by rw [hp]; rfl), State.stepWriter_of_fresh hp ht]
    rfl
  cases hd : s.cfg.diff s.w.lr f false with
  | overflow l => exact absurd hd (s.cfg.diff_writer_ne_overflow _ _ l)
  | eio =>
    exact ⟨1, j, f, _, true, by omega, hlo, hf, State.triggered_of_eio j cs n hd, by rw [hd]; simp,
      hrun.trans (State.freshWriter_of_eio hl hd)⟩
  | ok fill =>
    have hok : false = true ↔ s.cfg.diff s.w.lr f false = .eio := by rw [hd]; simp
    by_cases hw : s.w.armed = true ∧ s.w.hlt.toNat ≤ fill
    · refine ⟨2, j, f, _, false, Nat.le_refl 2, hlo, hf, State.triggered_of_wakes (p := .wake fill) j cs n hp hd hw, hok, ?_⟩
      rw [State.runWriter_add s 1 1, hrun, State.freshWriter_of_wakes hl hd hw, State.runWriter_succ rfl,
        State.stepWriter_of_wake rfl rfl, State.releasedWriter_goWriter]
      exact State.releasedWriter_point _ t (.wake fill) false
    · exact ⟨1, j, f, _, false, by omega, hlo, hf, State.triggered_of_not_wakes j cs n hd hw, hok,
        hrun.trans (State.freshWriter_of_not_wakes hl hd hw)⟩

/-- The end of the release after a trigger leaves the trigger's outcome as it is. -/
theorem State.Triggered.releasedWriter {s u : State} {j : Nat} {f : Word} (h : s.Triggered u j f) (t : Task) (failed : Bool) :
    writerTriggered { s with w := { s.w with ph := (u.releasedWriter t failed).w.ph } } (u.releasedWriter t failed) s.w.lr f := by
  obtain ⟨obt, ph, out, hph, he⟩ := u.releasedWriter_frame t failed
  have htr := h.trigger
  rw [he]
  unfold writerTriggered at htr ⊢
  dsimp only at htr ⊢
  cases hd : s.cfg.diff s.w.lr f false with
  | eio | overflow => rw [hd] at htr; exact htr
  | ok fill =>
    rw [hd] at htr
    obtain ⟨harmed, hwake, hkeep⟩ := htr
    refine ⟨harmed, fun hw => (hwake hw).imp rfl rfl (fun o ho => ?_) (fun o ho => ?_), hkeep⟩
    · cases o with
      | writer => exact (hph _).symm
      | host | reader _ | peer => exact ho
    · cases o with
      | writer => rfl
      | host | reader _ | peer => exact ho

/-! ### `W.RELEASE` -/

/-- The task of `W.RELEASE` at its publication. -/
def releaseTask (k : Word) : Task := { op := .release, count := k, tmo := none, grant := k.toNat, point := .publish }

theorem releaseTask_op (k : Word) : (releaseTask k).op ≠ .transfer := nofun

theorem State.published_toNat (s : State) (nr k : Word) : s.published nr k.toNat = { s with
    rear := { s.rear with pubs := s.rear.pubs ++ [{ value := nr, seen := s.w.obs.view.seen }] }
    w := { s.w with
      lr := nr
      obt := s.w.obt - k
      obs := s.w.obs.setView s.w.obs.view.fenceRel } } := by
  rw [State.published, BitVec.ofNat_toNat, BitVec.setWidth_eq]

/-- A new release: the latch is clear, and the writer stands at the publication. -/
def State.releasing (s : State) (k : Word) : State := { s with w := { s.w with exp := false, ph := .busy (releaseTask k) } }

/-- More than was obtained is refused (45_provider R282). -/
theorem exec_wRelease_refused {s : State} {k : Word} (hp : s.beat.port = .writer) (hi : s.w.ph = .idle)
    (hk : s.w.obt.toNat < k.toNat) : exec (.wRelease k) s = .next (s.refusedOn .writer) := by
  rw [exec_wRelease, State.command_illegal (State.ready_writer hp hi)
    (by rw [decide_eq_false (Nat.not_le.mpr hk), Bool.and_false]), State.refuse_eq, hp]

section
variable {s : State} {k : Word} (hp : s.beat.port = .writer) (hi : s.w.ph = .idle) (hv : s.cfg.valid = true)
include hp hi hv

theorem exec_wRelease_releasing (hk : k.toNat ≤ s.w.obt.toNat) :
    exec (.wRelease k) s = .next ((s.releasing k).runWriter (s.beat.burst + 1)) := by
  rw [exec_wRelease, State.command_legal (State.ready_writer hp hi)
    (by rw [State.writerMay_of_idle hp hi hv, decide_eq_true hk]; rfl)]
  rfl

/-- The command is over with its first atomic step. -/
theorem exec_wRelease_of_publish {u : State} {failed : Bool} (hk : k.toNat ≤ s.w.obt.toNat)
    (h : (s.releasing k).publishWriter (releaseTask k) = u.releasedWriter (releaseTask k) failed) :
    exec (.wRelease k) s = .next (({ u with w := { u.w with ph := s.w.ph } } : State).answer .writer
      { ret := if failed then u.par.errEio else 0 }) := by
  rw [exec_wRelease_releasing hp hi hv hk, State.runWriter_succ rfl, State.stepWriter_of_publish rfl rfl, h,
    State.releasedWriter_of_release (releaseTask_op k), State.runWriter_idle rfl, hi]

/-- The command with its trigger, all three atomic steps. -/
theorem exec_wRelease_of_throttled (hk : k.toNat ≤ s.w.obt.toNat) {nr : Word} (hs : s.cfg.sum s.w.lr k.toNat = some nr)
    (hthr : s.cfg.thr = true) (hb : 2 ≤ s.beat.burst) (hpos : s.w.obs.posFront ≤ s.front.newest) :
    ∃ (j : Nat) (f : Word) (u : State) (failed : Bool), s.w.obs.posFront ≤ j ∧ s.front.hist[j]? = some f ∧
      (((s.releasing k).published nr k.toNat).goWriter { releaseTask k with point := .fresh }).Triggered u j f ∧
      (failed = true ↔ s.cfg.diff nr f false = .eio) ∧
      exec (.wRelease k) s = .next (u.releasedWriter (releaseTask k) failed) := by
  obtain ⟨m, j, f, u, failed, hm, hlo, hf, htr, hfail, hrun⟩ := State.runWriter_fresh
    (s := ((s.releasing k).published nr k.toNat).goWriter { releaseTask k with point := .fresh }) rfl rfl hpos
  refine ⟨j, f, u, failed, hlo, hf, htr, hfail, ?_⟩
  obtain ⟨d, hd⟩ := Nat.exists_eq_add_of_le (Nat.le_trans hm hb)
  rw [exec_wRelease_releasing hp hi hv hk, State.runWriter_succ rfl, State.stepWriter_of_publish rfl rfl,
    State.publishWriter_of_throttled (s := s.releasing k) (t := releaseTask k) hs hthr, hd, State.runWriter_add]
  refine congrArg Host.Outcome.next ((congrArg (State.runWriter d) hrun).trans ?_)
  rw [State.releasedWriter_point, State.releasedWriter_of_release (releaseTask_op k)]
  exact State.runWriter_idle rfl d

end

/-- Settles O37: the command as a run, and its three atomic steps one by one. -/
theorem wReleasePublishesAndTriggers : Obligations.WReleasePublishesAndTriggers := by
  refine ⟨fun s k hp hi hv => ⟨exec_wRelease_refused hp hi, fun hk hs => ?_, exec_wRelease_releasing hp hi hv,
    fun nr hk hs => ⟨fun hthr => ?_, fun hthr hb hpos => ?_⟩⟩,
    fun s task hp => ⟨fun ht hs => ?_, fun ht nr hs => ⟨fun hthr => ?_,
      fun hthr => ?_⟩, fun ht hpos => ?_, fun fill ht => ?_⟩⟩
  · exact exec_wRelease_of_publish hp hi hv hk (State.publishWriter_of_none hs)
  · rw [exec_wRelease_of_publish hp hi hv hk (State.publishWriter_of_unthrottled hs hthr)]
    change Host.Outcome.next (State.answer _ _ { (s.releasing k).published nr k.toNat with
      w := { ((s.releasing k).published nr k.toNat).w with ph := s.w.ph } }) = _
    rw [State.published_toNat]
    rfl
  · obtain ⟨j, f, u, failed, hlo, hf, htr, hfail, hexec⟩ := exec_wRelease_of_throttled hp hi hv hk hs hthr hb hpos
    have htrig := htr.releasedWriter (releaseTask k) failed
    obtain ⟨armed, rs, wait, q, cs, n, hlen, hrd, hu⟩ := htr.form
    rw [State.releasedWriter_of_release (releaseTask_op k)] at hexec htrig
    rw [State.published_toNat] at hu
    subst hu
    refine ⟨j, f, _, hlo, hf, hexec, rfl, rfl, rfl, rfl, rfl, rfl, rfl, rfl, rfl, hlen, ?_, rfl, rfl, hrd, rfl, ?_, ?_⟩
    · rw [← hi]
      rfl
    · rw [← hi] at htrig ⊢
      exact htrig
    · simp only [hfail]
      rfl
  · rw [State.stepWriter_of_publish hp ht, State.publishWriter_of_none hs]
    exact s.releasedWriter_writerEnds task true
  · rw [State.stepWriter_of_publish hp ht, State.publishWriter_of_unthrottled hs hthr]
    exact State.releasedWriter_writerEnds _ task false
  · rw [State.stepWriter_of_publish hp ht, State.publishWriter_of_throttled hs hthr]
    rfl
  · obtain ⟨j, f, cs, n, hlo, hf, hsc, hl⟩ := State.ldaq_writer (s := s) (c := .front) hpos
    rw [State.stepWriter_of_fresh hp ht]
    refine ⟨j, f, cs, n, hlo, hf, hsc, fun hd => ?_, fun fill hd => ⟨fun hw => ?_, fun hw => ?_⟩⟩
    · rw [State.freshWriter_of_eio hl hd]
      exact State.releasedWriter_writerEnds _ task true
    · exact State.freshWriter_of_wakes hl hd hw
    · refine ⟨writerArmed s.w.armed s.w.hlt s.w.lla fill, writerArmed_of_not_wakes hw, ?_⟩
      rw [State.freshWriter_of_not_wakes hl hd hw]
      exact State.releasedWriter_writerEnds _ task false
  · obtain ⟨hwoke, honly, hout⟩ := s.wakeOwn_armWriter fill
    refine ⟨_, _, writerArmed_iff _ _ _ _, hwoke, honly, hout, ?_⟩
    rw [State.stepWriter_of_wake hp ht]
    exact State.releasedWriter_writerEnds _ task false

end Sys2Proof.Machine
end

section
/-! PROOF. `W.WRITE`: its grant, its copy, its passes with and without throttling, and the command that fits whole (43_writer
R227, with R222 to R226). -/

open Sys2Proof Sys2Proof.Machine

namespace Sys2Proof.Machine

/-! ### The grant of a pass -/

/-- A task that was granted `g` frames in two fragments, at a step after the grant. -/
def Task.granted (t : Task) (g : Nat) (f0 f1 : Frag) (p : Point) : Task :=
  { t with grant := g, f0 := f0, f1 := f1, point := p }

section
variable {t : Task} (ht : t.op = .transfer)
include ht

/-- Nothing to write, or no room: the write ends with the frames done. -/
theorem State.grantWriter_zero (s : State) : s.grantWriter t 0 =
    ({ s with w := { s.w with obt := 0, ph := .idle } } : State).answer .writer { ret := (Response.frames t.done).ret } := by
  unfold State.grantWriter
  split
  case h_1 => rfl
  case h_2 hno => exact absurd ht hno

theorem State.grantWriter_copies (s : State) {g : Nat} (hg : 1 ≤ g) :
    ∃ (first : Nat) (cs : List Nat) (n : Nat), first ≤ g ∧
      (s.cfg.slotNat s.w.lr ≤ s.cfg.cap → first = s.cfg.first s.w.lr g ∧ cs = s.choices ∧ n = s.draws) ∧
      s.grantWriter t g = { s with
        choices := cs
        draws := n
        w := { s.w with
          obt := BitVec.ofNat 32 g
          ph := .busy (t.granted g (s.cfg.headFrag s.w.lr g first) (s.cfg.tailFrag g first)
            (.copy (List.range (g * s.cfg.size.toNat)))) } } := by
  obtain ⟨first, cs, n, hle, hin, hf⟩ :=
    ({ s with w := { s.w with obt := BitVec.ofNat 32 g } } : State).fragments_split s.w.lr g
  refine ⟨first, cs, n, hle, hin, ?_⟩
  unfold State.grantWriter
  split
  case h_1 =>
    simp only [hf, if_neg (show g ≠ 0 by omega)]
    rfl
  case h_2 hno => exact absurd ht hno

/-- An obtain that failed in a pass: the error, or the frames already published (R227). -/
theorem State.failWriter_of_transfer (s : State) : ∃ ret : Word, (t.done = 0 → ret = s.par.errEio) ∧
    (1 ≤ t.done → isCount ret t.done) ∧
    s.failWriter t = ({ s with w := { s.w with ph := .idle } } : State).answer .writer { ret := ret } := by
  rcases Nat.eq_zero_or_pos t.done with h0 | hpos
  · refine ⟨s.par.errEio, fun _ => rfl, fun h => by omega, ?_⟩
    rw [State.failWriter, if_neg fun h => by omega]
    rfl
  · refine ⟨_, fun h => by omega, fun _ => Response.frames_isCount t.done, ?_⟩
    rw [State.failWriter, if_pos ⟨ht, hpos⟩]
    rfl

/-! ### The copy of a pass -/

/-- What the copy of a grant leaves of the state that granted: the bytes and the record of their writes. -/
def State.copied (s : State) (t : Task) (g : Nat) (cs : List Nat) (n : Nat) (buf : Memory) (ws : List BufWrite) (seen : Seen)
    (f0 f1 : Frag) : State :=
  { s with
    choices := cs
    draws := n
    buf := buf
    writes := s.writes ++ ws
    w := { s.w with
      obt := BitVec.ofNat 32 g
      ph := .busy (t.granted g f0 f1 .publish)
      obs := s.w.obs.setView { s.w.obs.view with seen := seen } } }

/-- From a grant to the publication: all atomic steps of the copy. Whatever `W_LR` is, nothing is written beyond the buffer; from
a well-formed one every byte that `DIN` offers comes to its place in the batch, and no other byte changes. -/
theorem State.runWriter_grant {s : State} {g : Nat} (hl : s.cfg.legal = true) (hg1 : 1 ≤ g) (hg : g ≤ s.cfg.cap) :
    ∃ (cs : List Nat) (n : Nat) (buf : Memory) (ws : List BufWrite) (seen : Seen) (f0 f1 : Frag),
      (s.grantWriter t g).runWriter (g * s.cfg.size.toNat) = s.copied t g cs n buf ws seen f0 f1 ∧
      (∀ x ∈ ws, x.byPeer = false ∧ x.idx ≤ seen.writer) ∧
      (∀ a, s.cfg.bytes ≤ a → buf.find a = s.buf.find a) ∧
      (s.cfg.wellFormed s.w.lr = true → ws.length = g * s.cfg.size.toNat ∧
        (∀ k b, k < g * s.cfg.size.toNat → t.din[t.done * s.cfg.size.toNat + k]? = some b →
          buf.find (s.cfg.batchOff s.w.lr k) = some b) ∧
        ∀ a, (∀ k, k < g * s.cfg.size.toNat → s.cfg.batchOff s.w.lr k ≠ a) → buf.find a = s.buf.find a) := by
  obtain ⟨-, hsize, -, -⟩ := s.cfg.legal_iff.mp hl
  obtain ⟨first, cs, n, -, hin, he⟩ := State.grantWriter_copies ht s hg1
  generalize hu : s.grantWriter t g = u at *
  have hne : List.range (g * s.cfg.size.toNat) ≠ [] := by
    rw [Ne, List.range_eq_nil]
    exact Nat.ne_of_gt (Nat.mul_pos hg1 hsize)
  obtain ⟨cs', n', buf, ws, seen, hrun, hlen, -, -, hws, hout, hput⟩ :=
    State.runWriter_copy (t.granted g (s.cfg.headFrag s.w.lr g first) (s.cfg.tailFrag g first)
      (.copy (List.range (g * s.cfg.size.toNat)))) (List.range (g * s.cfg.size.toNat)) hne u (by rw [he]; rfl)
  rw [List.length_range] at hrun hlen
  subst he
  refine ⟨cs', n', buf, ws, seen, _, _, hrun, hws, fun a ha => hout a fun j _ hj he => ?_, fun hx => ?_⟩
  · exact absurd hj (Nat.not_lt.mpr (he ▸ ha))
  · obtain ⟨rfl, -, -⟩ := hin (Nat.le_of_lt ((s.cfg.wellFormed_iff_slotNat _).mp hx))
    have hoff : ∀ k, k < g * s.cfg.size.toNat →
        (t.granted g (s.cfg.frag0 s.w.lr g) (s.cfg.frag1 s.w.lr g)
          (.copy (List.range (g * s.cfg.size.toNat)))).byteOff k = s.cfg.batchOff s.w.lr k := fun k hk =>
      Task.byteOff_eq_batchOff hl hx hg rfl rfl hk
    refine ⟨hlen fun j hj => ?_, fun k b hk hb => ?_, fun a ha => hout a fun j hj _ => ?_⟩
    · exact (hoff j (List.mem_range.mp hj)).trans_lt (CfgRegs.batchOff_lt hl)
    · rw [← hoff k hk]
      refine hput List.nodup_range (fun i hi j hj hij => ?_) k (List.mem_range.mpr hk)
        ((hoff k hk).trans_lt (CfgRegs.batchOff_lt hl)) b hb
      have hi' := List.mem_range.mp hi
      have hj' := List.mem_range.mp hj
      exact CfgRegs.batchOff_inj hl hg hi' hj' ((hoff i hi').symm.trans (hij.trans (hoff j hj')))
    · exact fun hja => ha j (List.mem_range.mp hj) ((hoff j (List.mem_range.mp hj)).symm.trans hja)

end

/-! ### A pass as a run (R227, R225) -/

/-- From `s`, at the start of a pass that granted `g` frames, to `u`, in which they are in the buffer and published as `nr`,
with all that the writer did handed over, and the release has yet to end. -/
structure State.PassPublished (s u : State) (task : Task) (g : Nat) (nr : Word) : Prop where
  bytes : ∀ k b, k < g * s.cfg.size.toNat → task.din[task.done * s.cfg.size.toNat + k]? = some b →
    u.buf.find (s.cfg.batchOff s.w.lr k) = some b
  others : ∀ a, (∀ k, k < g * s.cfg.size.toNat → s.cfg.batchOff s.w.lr k ≠ a) → u.buf.find a = s.buf.find a
  record : ∃ (ws : List BufWrite) (seen : Seen), u.writes = s.writes ++ ws ∧ ws.length = g * s.cfg.size.toNat ∧
    (∀ x ∈ ws, x.byPeer = false ∧ x.idx ≤ seen.writer) ∧
    u.rear = { s.rear with pubs := s.rear.pubs ++ [{ value := nr, seen := seen }] }
  writer : u.w = { s.w with lr := nr, obt := u.w.obt, armed := u.w.armed, ph := u.w.ph, obs := u.w.obs }
  posRear : u.w.obs.posRear = s.w.obs.posRear
  environment : u.front = s.front ∧ u.cfg = s.cfg ∧ u.par = s.par ∧ u.wqFront = s.wqFront ∧ u.inbox = s.inbox ∧
    u.sched = s.sched ∧ u.beat = s.beat
  length : u.readers.length = s.readers.length
  peer : u.peer.obs = s.peer.obs
  readers : ∀ i, { u.rd i with ph := (s.rd i).ph } = s.rd i
  out : u.out = s.out

section
variable {s u v : State} {task : Task} {g : Nat} {nr : Word}

/-- The load before the grant touches nothing that the pass says. -/
theorem State.PassPublished.of_observed {j : Nat} {cs : List Nat} {n : Nat}
    (h : (s.observed .front j cs n).PassPublished u task g nr) : s.PassPublished u task g nr :=
  ⟨h.bytes, h.others, h.record, h.writer, h.posRear, h.environment, h.length, h.peer, h.readers, h.out⟩

/-- The step that the operation comes to is no part of what was published. -/
theorem State.PassPublished.goWriter (h : s.PassPublished u task g nr) (t : Task) :
    s.PassPublished (u.goWriter t) task g nr where
  bytes := h.bytes
  others := h.others
  record := h.record
  writer := congrArg (fun w : Writer => { w with ph := .busy t }) h.writer
  posRear := h.posRear
  environment := h.environment
  length := h.length
  peer := h.peer
  readers := h.readers
  out := h.out

/-- The trigger keeps what was copied and published. -/
theorem State.PassPublished.triggered {j : Nat} {f : Word} (h : s.PassPublished u task g nr) (htr : u.Triggered v j f) :
    s.PassPublished v task g nr := by
  obtain ⟨armed, rs, wait, q, cs, n, hlen, hrd, rfl⟩ := htr.form
  have hw := h.writer
  refine ⟨h.bytes, h.others, h.record, ?_, h.posRear, h.environment, hlen.trans h.length, h.peer, fun i => ?_, h.out⟩
  · dsimp only at hw ⊢
    rw [hw]
  · rw [← h.readers i]
    exact congrArg (fun r : Reader => { r with ph := (s.rd i).ph }) (hrd i)

/-- With the end of the release the pass is over. -/
theorem State.PassPublished.writePass {f0 f1 : Frag} {p : Point} {failed : Bool} {q : Prop} (h : s.PassPublished u task g nr)
    (ht : task.op = .transfer) (hq : failed = true ↔ q) :
    s.writePass (u.releasedWriter (task.granted g f0 f1 p) failed) task g nr q := by
  have hw := h.writer
  have hexp : u.w.exp = s.w.exp := by rw [hw]
  have ht' : (task.granted g f0 f1 p).op = .transfer := ht
  obtain ⟨hfront, hcfg, hpar, hwq, hinbox, hsched, hbeat⟩ := h.environment
  by_cases hend : failed = true ∨ task.ends (task.done + g) u.w.exp
  · rw [State.releasedWriter_of_ends ht' u hend]
    refine ⟨h.bytes, h.others, h.record, ?_, h.posRear, hfront, hcfg, hpar, hwq, hinbox, hsched, hbeat, h.length, h.peer,
      h.readers, fun _ => ⟨rfl, _, Response.frames_isCount _, ?_⟩, fun hno => ?_⟩
    · dsimp only [State.answer]
      rw [hw]
    · exact congrArg (· ++ _) h.out
    · rw [← hexp, ← hq] at hno
      exact absurd hend hno
  · rw [State.releasedWriter_of_goes_on ht' u hend]
    refine ⟨h.bytes, h.others, h.record, ?_, h.posRear, hfront, hcfg, hpar, hwq, hinbox, hsched, hbeat, h.length, h.peer,
      h.readers, fun hyes => ?_, fun _ => ⟨h.out, 0, f0, f1, rfl⟩⟩
    · dsimp only
      rw [hw]
    · rw [← hexp, ← hq] at hyes
      exact absurd hyes hend

/-- From a grant at a well-formed index to the publication that follows the copy. -/
theorem State.exists_passPublished (ht : task.op = .transfer) (hl : s.cfg.legal = true) (hg1 : 1 ≤ g) (hg : g ≤ s.cfg.cap)
    (hx : s.cfg.wellFormed s.w.lr = true) (nr : Word) :
    ∃ (cs : List Nat) (n : Nat) (buf : Memory) (ws : List BufWrite) (seen : Seen) (f0 f1 : Frag),
      (s.grantWriter task g).runWriter (g * s.cfg.size.toNat) = s.copied task g cs n buf ws seen f0 f1 ∧
      s.PassPublished ((s.copied task g cs n buf ws seen f0 f1).published nr g) task g nr := by
  obtain ⟨cs, n, buf, ws, seen, f0, f1, hrun, hws, -, hin⟩ := State.runWriter_grant ht hl hg1 hg
  obtain ⟨hlen, hput, hout⟩ := hin hx
  exact ⟨cs, n, buf, ws, seen, f0, f1, hrun, hput, hout, ⟨ws, seen, rfl, hlen, hws, rfl⟩, rfl, rfl,
    ⟨rfl, rfl, rfl, rfl, rfl, rfl, rfl⟩, rfl, rfl, fun _ => rfl, rfl⟩

end

theorem CfgRegs.exists_sum {c : CfgRegs} {x : Word} (h : c.wellFormed x = true) (k : Nat) : ∃ y, c.sum x k = some y :=
  ⟨_, by rw [CfgRegs.sum, if_pos h]⟩

theorem State.runWriter_zero (s : State) : s.runWriter 0 = s := rfl

/-- A pass that grants runs through its copy to the publication; `s1` is what its load left. -/
theorem State.runWriter_pass {s s1 u : State} {task : Task} {g k : Nat} (hp : s.atWritePass task)
    (hload : s.stepWriter = s1.grantWriter task g) (hcopy : (s1.grantWriter task g).runWriter k = u)
    (hu : u.w.ph.isBusy = true) (m : Nat) : s.runWriter (k + 2 + m) = u.stepWriter.runWriter m := by
  obtain ⟨hph, -, -⟩ := hp
  rw [show k + 2 + m = k + (m + 1) + 1 by omega, State.runWriter_succ (by rw [hph]; rfl), hload, State.runWriter_add, hcopy,
    State.runWriter_succ hu]

section
variable {s : State} {task : Task} (hp : s.atWritePass task)
include hp

theorem State.stepWriter_unthrottled_pass (hthr : s.cfg.thr = false) :
    s.stepWriter = s.grantWriter task (min (task.count.toNat - task.done) s.cfg.cap) := by
  obtain ⟨hph, ht, hload⟩ := hp
  rw [State.stepWriter_of_load hph hload, State.loadWriter_of_unthrottled hthr, Task.want_of_transfer ht]

variable (hl : s.cfg.legal = true) {g : Nat} (hg1 : 1 ≤ g) (hg : g ≤ s.cfg.cap)
include hl hg1 hg

/-- A pass without throttling that grants `g` frames at a well-formed index (R227, R225). -/
theorem State.runWriter_unthrottled_pass (hthr : s.cfg.thr = false) (hload : s.stepWriter = s.grantWriter task g)
    (hx : s.cfg.wellFormed s.w.lr = true) : ∃ (m : Nat) (t : State) (nr : Word), m ≤ g * s.cfg.size.toNat + 4 ∧
      s.runWriter m = t ∧ s.cfg.sum s.w.lr g = some nr ∧ s.writePass t task g nr False ∧ t.w.armed = s.w.armed ∧
      t.w.obs.posFront = s.w.obs.posFront ∧ t.readers = s.readers ∧ t.wqRear = s.wqRear ∧ t.peer = s.peer := by
  obtain ⟨-, ht, -⟩ := id hp
  obtain ⟨nr, hs⟩ := CfgRegs.exists_sum hx g
  obtain ⟨cs, n, buf, ws, seen, f0, f1, hcopy, hpub⟩ := State.exists_passPublished ht hl hg1 hg hx nr
  refine ⟨g * s.cfg.size.toNat + 2 + 0, _, nr, by omega, State.runWriter_pass hp hload hcopy rfl 0, hs, ?_⟩
  rw [State.stepWriter_of_publish (s := s.copied task g cs n buf ws seen f0 f1) rfl rfl,
    State.publishWriter_of_unthrottled (s := s.copied task g cs n buf ws seen f0 f1) (t := task.granted g f0 f1 .publish) hs hthr,
    State.runWriter_zero]
  refine ⟨hpub.writePass ht (by simp), ?_⟩
  obtain ⟨obt, ph, out, -, he⟩ :=
    ((s.copied task g cs n buf ws seen f0 f1).published nr g).releasedWriter_frame (task.granted g f0 f1 .publish) false
  refine (congrArg (fun t : State => t.w.armed = s.w.armed ∧ t.w.obs.posFront = s.w.obs.posFront ∧ t.readers = s.readers ∧
    t.wqRear = s.wqRear ∧ t.peer = s.peer) he).mpr ⟨rfl, rfl, rfl, rfl, rfl⟩

/-- A pass without throttling from an ill-formed index: its release fails, and the write ends (logs 12, 35). -/
theorem State.runWriter_illFormed_pass (hload : s.stepWriter = s.grantWriter task g) (hx : s.cfg.wellFormed s.w.lr = false) :
    ∃ (m : Nat) (t : State) (ret : Word),
      m ≤ g * s.cfg.size.toNat + 4 ∧ s.runWriter m = t ∧ isCount ret (task.done + g) ∧
      t.out = s.out ++ [{ port := .writer, resp := { ret := ret } }] ∧ t.rear = s.rear ∧ t.front = s.front ∧
      t.w = { s.w with obt := 0, ph := .idle, obs := t.w.obs } ∧ t.readers = s.readers ∧ t.wqRear = s.wqRear ∧
      t.wqFront = s.wqFront ∧ t.peer = s.peer ∧ t.cfg = s.cfg ∧ t.par = s.par ∧
      ∀ a, s.cfg.bytes ≤ a → t.buf.find a = s.buf.find a := by
  obtain ⟨-, ht, -⟩ := id hp
  obtain ⟨cs, n, buf, ws, seen, f0, f1, hcopy, -, hout, -⟩ := State.runWriter_grant ht hl hg1 hg
  have hs : s.cfg.sum s.w.lr g = none := by rw [CfgRegs.sum, hx]; rfl
  refine ⟨g * s.cfg.size.toNat + 2 + 0, _, _, by omega, State.runWriter_pass hp hload hcopy rfl 0,
    Response.frames_isCount (task.done + g), ?_⟩
  rw [State.stepWriter_of_publish (s := s.copied task g cs n buf ws seen f0 f1) rfl rfl, 
    State.publishWriter_of_none (s := s.copied task g cs n buf ws seen f0 f1) (t := task.granted g f0 f1 .publish) hs,
    State.releasedWriter_of_ends (t := task.granted g f0 f1 .publish) ht _ (.inl rfl), State.runWriter_zero]
  exact ⟨rfl, rfl, rfl, rfl, rfl, rfl, rfl, rfl, rfl, rfl, hout⟩

/-- A pass with throttling that observed the front `f` at position `j` and grants `g` frames (R222, R225 to R227). -/
theorem State.runWriter_throttled_pass {j n : Nat} {f : Word} {cs : List Nat} (hthr : s.cfg.thr = true)
    (hload : s.stepWriter = (s.observed .front j cs n).grantWriter task g) (hx : s.cfg.wellFormed s.w.lr = true)
    (hj : s.front.hist[j]? = some f) : ∃ (m : Nat) (t : State) (nr : Word) (j' : Nat) (f' : Word),
      m ≤ g * s.cfg.size.toNat + 4 ∧ s.runWriter m = t ∧ s.cfg.sum s.w.lr g = some nr ∧
      j ≤ j' ∧ s.front.hist[j']? = some f' ∧ t.w.obs.posFront = j' ∧
      s.writePass t task g nr (s.cfg.diff nr f' false = .eio) ∧
      writerTriggered { s with w := { s.w with ph := t.w.ph } } t nr f' := by
  obtain ⟨-, ht, -⟩ := id hp
  obtain ⟨nr, hs⟩ := CfgRegs.exists_sum hx g
  obtain ⟨cs', n', buf, ws, seen, f0, f1, hcopy, hpub⟩ :=
    State.exists_passPublished (s := s.observed .front j cs n) ht hl hg1 hg hx nr
  have hpos : j ≤ s.front.newest := ((Cell.hist_getElem?_eq_some_iff _).mp hj).1
  generalize hv : (s.observed .front j cs n).copied task g cs' n' buf ws seen f0 f1 = v at *
  have hcfg : v.cfg = s.cfg := by rw [← hv]; rfl
  have hpublish : v.stepWriter = (v.published nr g).goWriter (task.granted g f0 f1 .fresh) := by
    rw [State.stepWriter_of_publish (t := task.granted g f0 f1 .publish) (by rw [← hv]; rfl) rfl]
    exact State.publishWriter_of_throttled (by rw [← hv]; exact hs) (by rw [hcfg]; exact hthr)
  obtain ⟨m, j', f', u, failed, hm, hlo, hj', htr, hfail, hrun⟩ := State.runWriter_fresh
    (s := (v.published nr g).goWriter (task.granted g f0 f1 .fresh)) rfl rfl (by rw [← hv]; exact hpos)
  have htrig := htr.releasedWriter (task.granted g f0 f1 .fresh) failed
  have hpass := (((hpub.goWriter (task.granted g f0 f1 .fresh)).triggered htr).of_observed).writePass (f0 := f0) (f1 := f1)
    (p := .fresh) ht (q := s.cfg.diff nr f' false = .eio) (by rw [← hcfg]; exact hfail)
  obtain ⟨obt, ph, out, -, he⟩ := u.releasedWriter_frame (task.granted g f0 f1 .fresh) failed
  have hposFront : (u.releasedWriter (task.granted g f0 f1 .fresh) failed).w.obs.posFront = j' := by
    rw [he]
    exact congrArg Observer.posFront htr.obs
  refine ⟨g * s.cfg.size.toNat + 2 + m, _, nr, j', f', by omega, ?_, hs, ?_, ?_, hposFront, hpass, ?_⟩
  · exact (State.runWriter_pass hp hload hcopy (by rw [← hv]; rfl) m).trans (by rw [hpublish, hrun])
  · rw [← hv] at hlo
    exact hlo
  · rw [← hv] at hj'
    exact hj'
  · subst hv
    exact htrig

end

/-! ### The command that fits whole -/

/-- `SUM` of no frames is the index itself (R172). -/
theorem CfgRegs.sum_zero {c : CfgRegs} {x : Word} (h : c.wellFormed x = true) : c.sum x 0 = some x := by
  have hslot : c.slotNat x < c.cap := (c.wellFormed_iff_slotNat x).mp h
  rw [CfgRegs.sum, if_pos h, Nat.add_zero, if_neg (Nat.not_le.mpr hslot)]
  simp

/-- A count of at most `N` frames is the word that `RET` holds. -/
theorem eq_of_isCount {ret count : Word} (h : isCount ret count.toNat) (hc : count.toNat < 2 ^ 31) : ret = count :=
  BitVec.eq_of_toNat_eq (h.2 hc)

/-- A trigger wakes, or it leaves every agent as it is. -/
theorem wokeFrom_of_writerTriggered {s t : State} {nr f : Word} (hph : t.w.ph = s.w.ph) (h : writerTriggered s t nr f) :
    (t.wqRear = s.wqRear ∧ ∀ o, keptIn s t o) ∨ wokeFrom t.w.obs.view.seen s t .rear (s.par.nReaders != 1) := by
  have hkept : t.wqRear = s.wqRear ∧ t.readers = s.readers ∧ t.peer = s.peer →
      t.wqRear = s.wqRear ∧ ∀ o, keptIn s t o := fun ⟨hq, hr, hp⟩ => ⟨hq, fun
    | .host => trivial
    | .writer => hph
    | .reader i => congrArg Reader.ph (State.rd_congr hr i)
    | .peer => congrArg Peer.wait hp⟩
  unfold writerTriggered at h
  split at h
  · obtain ⟨-, hwake, hkeep⟩ := h
    by_cases hw : s.w.armed = true ∧ s.w.hlt.toNat ≤ ‹Nat›
    · exact .inr (hwake hw)
    · exact .inl (hkept (hkeep hw))
  · exact .inl (hkept h.2)

/-- A run that has ended stays so under every longer burst. -/
theorem State.runWriter_of_le {s t : State} {m n : Nat} (h : s.runWriter m = t) (ht : t.w.ph.isBusy = false) (hm : m ≤ n) :
    s.runWriter n = t := by
  obtain ⟨d, rfl⟩ := Nat.exists_eq_add_of_le hm
  rw [State.runWriter_add, h, State.runWriter_idle ht]

/-- From `s`, in which the writer is idle, to `t`, in which the whole write has been answered: its bytes are at their places, its
frames are published, and nothing else has changed but `W_ARMED`, what the writer observed, and whom the trigger woke. -/
def State.wroteWhole (s t : State) (count nr : Word) : Prop :=
  t.out = s.out ++ [{ port := .writer, resp := { ret := count } }] ∧
  t.w = { s.w with lr := nr, obt := 0, exp := false, armed := t.w.armed, obs := t.w.obs } ∧
  t.rear.hist = (if count.toNat = 0 then s.rear.hist else s.rear.hist ++ [nr]) ∧
  (1 ≤ count.toNat → t.rear.current = nr) ∧
  (∀ k, k < count.toNat * s.cfg.size.toNat → t.buf.find (s.cfg.batchOff s.w.lr k) = s.beat.din[k]?) ∧
  (∀ a, (∀ k, k < count.toNat * s.cfg.size.toNat → s.cfg.batchOff s.w.lr k ≠ a) → t.buf.find a = s.buf.find a) ∧
  t.front = s.front ∧ t.cfg = s.cfg ∧ t.par = s.par ∧ t.wqFront = s.wqFront ∧ t.inbox = s.inbox ∧ t.sched = s.sched ∧
  t.readers.length = s.readers.length ∧ t.peer.obs = s.peer.obs ∧
  (s.cfg.thr = false → t.w.armed = s.w.armed ∧ t.readers = s.readers ∧ t.wqRear = s.wqRear ∧ t.peer = s.peer) ∧
  (t.wqRear = s.wqRear ∧ (∀ o, keptIn s t o) ∨ wokeFrom t.w.obs.view.seen s t .rear (s.par.nReaders != 1)) ∧
  ∀ i, { t.rd i with ph := (s.rd i).ph } = s.rd i

section
variable {s : State} {count nr : Word} {tmo : Timeout}

theorem State.begun_atWritePass (s : State) (count : Word) (tmo : Timeout) (din : List Byte) :
    (s.begun (writeTask count tmo din)).atWritePass (writeTask count tmo din) := ⟨rfl, rfl, rfl⟩

/-- A write of no frames ends with its load. -/
theorem State.wroteWhole_zero (hi : s.w.ph = .idle) (hx : s.cfg.wellFormed s.w.lr = true) (cs : List Nat) (n : Nat)
    (x : Observer) (hz : count.toNat = 0) (hs : s.cfg.sum s.w.lr count.toNat = some nr) :
    s.wroteWhole (({ s with
      choices := cs
      draws := n
      w := { s.w with obt := 0, exp := false, ph := .idle, obs := x } } : State).answer .writer { ret := count }) count nr := by
  rw [hz, CfgRegs.sum_zero hx] at hs
  cases hs
  have hno : ∀ {k : Nat}, ¬ k < count.toNat * s.cfg.size.toNat := by simp [hz]
  refine ⟨rfl, by rw [← hi]; rfl, by rw [if_pos hz]; rfl, fun h => by omega, fun k hk => absurd hk hno,
    fun _ _ => rfl, rfl, rfl,
    rfl, rfl, rfl, rfl, rfl, rfl, fun _ => ⟨rfl, rfl, rfl, rfl⟩, .inl ⟨rfl, fun o => ?_⟩, fun _ => rfl⟩
  cases o with
  | writer => exact hi.symm
  | host | reader _ | peer => trivial

/-- The one pass of a write that fits ends it. -/
theorem State.writePass.idle {t : State} {q : Prop}
    (h : (s.begun (writeTask count tmo s.beat.din)).writePass t (writeTask count tmo s.beat.din) count.toNat nr q) :
    t.w.ph = .idle ∧ ∃ ret, isCount ret count.toNat ∧ t.out = s.out ++ [{ port := .writer, resp := { ret := ret } }] := by
  obtain ⟨-, -, -, -, -, -, -, -, -, -, -, -, -, -, -, hend, -⟩ := h
  obtain ⟨hidle, ret, hret, hout⟩ := hend (.inr (.inl (Nat.zero_add _)))
  exact ⟨hidle, ret, Nat.zero_add count.toNat ▸ hret, hout⟩

/-- What the one pass of a write that fits leaves. -/
theorem State.wroteWhole_of_writePass {t : State} {q : Prop} (hi : s.w.ph = .idle)
    (hdin : s.beat.din.length = count.toNat * s.cfg.size.toNat) (hc1 : 1 ≤ count.toNat) (hc : count.toNat < 2 ^ 31)
    (h : (s.begun (writeTask count tmo s.beat.din)).writePass t (writeTask count tmo s.beat.din) count.toNat nr q)
    (hthr : s.cfg.thr = false → t.w.armed = s.w.armed ∧ t.readers = s.readers ∧ t.wqRear = s.wqRear ∧ t.peer = s.peer)
    (hwake : t.w.ph = s.w.ph → (t.wqRear = s.wqRear ∧ ∀ o, keptIn s t o) ∨
      wokeFrom t.w.obs.view.seen s t .rear (s.par.nReaders != 1)) : s.wroteWhole t count nr := by
  obtain ⟨hidle, ret, hret, hout⟩ := h.idle
  obtain ⟨hbytes, hothers, ⟨ws, seen, -, -, -, hrear⟩, hw, -,
    hfront, hcfg, hpar, hwq, hinbox, hsched, -, hlen, hpeer, hrd, -, -⟩ := h
  have hpush : t.rear = s.rear.push { value := nr, seen := seen } := hrear
  rw [eq_of_isCount hret hc] at hout
  refine ⟨hout, ?_, ?_, fun _ => by rw [hpush, Cell.current_push], fun k hk => ?_,
    hothers, hfront, hcfg, hpar, hwq, hinbox, hsched,
    hlen, hpeer, hthr, hwake (hidle.trans hi.symm), hrd⟩
  · rw [hw, hidle, ← hi]
    rfl
  · rw [if_neg (by omega), hpush, Cell.hist_push]
  · have hb : s.beat.din[k]? = some (s.beat.din[k]'(by omega)) := List.getElem?_eq_getElem _
    rw [hb]
    refine hbytes k _ hk ?_
    rw [← hb]
    exact congrArg (s.beat.din[·]?) (by simp [writeTask])

end

section
variable {s : State} {task : Task} (hp : s.atWritePass task) (hthr : s.cfg.thr = true) {s1 : State} {f : Word}
  (hl : s.ldaq .writer .front = (f, s1))
include hp hthr hl

theorem State.stepWriter_pass_of_eio (hd : s.cfg.diff s.w.lr f false = .eio) : s.stepWriter = s1.failWriter task := by
  obtain ⟨hph, -, hload⟩ := hp
  rw [State.stepWriter_of_load hph hload, State.loadWriter_of_eio hthr hl hd]

variable {fill : Nat} (hd : s.cfg.diff s.w.lr f false = .ok fill)
include hd

theorem State.stepWriter_pass_of_waits (hw : s.w.eff.toNat ≤ fill ∧ blocking task.tmo = true ∧ s.w.exp = false) :
    s.stepWriter = s1.goWriter { task with point := .wait f } := by
  obtain ⟨hph, -, hload⟩ := hp
  rw [State.stepWriter_of_load hph hload, State.loadWriter_of_waits hthr hl hd hw]

theorem State.stepWriter_pass_of_grants (hw : ¬(s.w.eff.toNat ≤ fill ∧ blocking task.tmo = true ∧ s.w.exp = false)) :
    s.stepWriter = s1.grantWriter task (min (task.count.toNat - task.done) (s.w.eff.toNat - fill)) := by
  obtain ⟨hph, ht, hload⟩ := hp
  rw [State.stepWriter_of_load hph hload, State.loadWriter_of_grants hthr hl hd hw, Task.want_of_transfer ht]

end

section
variable {s : State} {count nr : Word} {tmo : Timeout} (hi : s.w.ph = .idle) (hl : s.cfg.legal = true)
  (hb : count.toNat * s.cfg.size.toNat + 3 ≤ s.beat.burst) (hdin : s.beat.din.length = count.toNat * s.cfg.size.toNat)
  (hx : s.cfg.wellFormed s.w.lr = true) (hs : s.cfg.sum s.w.lr count.toNat = some nr)
include hi hx hs

/-- A write of no frames, once its load has granted them. -/
theorem State.exists_wroteWhole_of_zero {cs : List Nat} {n : Nat} {x : Observer} (hz : count.toNat = 0)
    (hload : (s.begun (writeTask count tmo s.beat.din)).stepWriter =
      ({ s.begun (writeTask count tmo s.beat.din) with
        choices := cs
        draws := n
        w := { (s.begun (writeTask count tmo s.beat.din)).w with obs := x } } : State).grantWriter
          (writeTask count tmo s.beat.din) 0) :
    ∃ t, (s.begun (writeTask count tmo s.beat.din)).runWriter (s.beat.burst + 1) = t ∧ s.wroteWhole t count nr := by
  have hret : (Response.frames 0).ret = count := eq_of_isCount (hz ▸ Response.frames_isCount 0) (by omega)
  rw [State.runWriter_succ rfl, hload, State.grantWriter_zero rfl, State.runWriter_idle rfl]
  refine ⟨_, rfl, ?_⟩
  have h := State.wroteWhole_zero hi hx cs n x hz hs
  rw [← hret] at h ⊢
  exact h

include hl hb hdin

theorem State.exists_wroteWhole_unthrottled (hthr : s.cfg.thr = false) (hcap : count.toNat ≤ s.cfg.cap) :
    ∃ t, (s.begun (writeTask count tmo s.beat.din)).runWriter (s.beat.burst + 1) = t ∧ s.wroteWhole t count nr := by
  obtain ⟨-, -, -, h30⟩ := s.cfg.legal_iff.mp hl
  have hload : (s.begun (writeTask count tmo s.beat.din)).stepWriter =
      (s.begun (writeTask count tmo s.beat.din)).grantWriter (writeTask count tmo s.beat.din) count.toNat := by
    rw [State.stepWriter_unthrottled_pass (s.begun_atWritePass count tmo s.beat.din) hthr]
    exact congrArg (State.grantWriter _ · _) (Nat.min_eq_left hcap)
  rcases Nat.eq_zero_or_pos count.toNat with hz | hc1
  · rw [hz] at hload
    exact State.exists_wroteWhole_of_zero hi hx hs hz hload
  · obtain ⟨m, t, nr', hm, hrun, hs', hpass, harmed, -, hreaders, hwq, hpeer⟩ :=
      State.runWriter_unthrottled_pass (s.begun_atWritePass count tmo s.beat.din) hl hc1 hcap hthr hload hx
    obtain rfl : nr' = nr := Option.some.inj (hs'.symm.trans hs)
    obtain ⟨hidle, -⟩ := hpass.idle
    refine ⟨t, State.runWriter_of_le hrun (by rw [hidle]; rfl) (Nat.le_trans hm (by exact Nat.succ_le_succ hb)),
      State.wroteWhole_of_writePass hi hdin hc1 (by omega) hpass (fun _ => ⟨harmed, hreaders, hwq, hpeer⟩) fun hph =>
        .inl ⟨hwq, fun o => ?_⟩⟩
    cases o with
    | host => trivial
    | writer => exact hph
    | reader i => exact congrArg Reader.ph (State.rd_congr hreaders i)
    | peer => exact congrArg Peer.wait hpeer

theorem State.exists_wroteWhole_throttled (hthr : s.cfg.thr = true) (hcap : count.toNat ≤ s.cfg.cap)
    (hpos : s.w.obs.posFront ≤ s.front.newest)
    (hfits : ∀ j f, s.w.obs.posFront ≤ j → s.front.hist[j]? = some f →
      ∃ fill, s.cfg.diff s.w.lr f false = .ok fill ∧ fill + count.toNat ≤ s.w.eff.toNat ∧ fill < s.w.eff.toNat) :
    ∃ t, (s.begun (writeTask count tmo s.beat.din)).runWriter (s.beat.burst + 1) = t ∧ s.wroteWhole t count nr := by
  obtain ⟨-, -, -, h30⟩ := s.cfg.legal_iff.mp hl
  obtain ⟨j, f, cs, n, hlo, hf, -, hld⟩ :=
    State.ldaq_writer (s := s.begun (writeTask count tmo s.beat.din)) (c := .front) hpos
  obtain ⟨fill, hd, hroom, hfree⟩ := hfits j f hlo hf
  have hload : (s.begun (writeTask count tmo s.beat.din)).stepWriter =
      ((s.begun (writeTask count tmo s.beat.din)).observed .front j cs n).grantWriter (writeTask count tmo s.beat.din)
        count.toNat := by
    rw [State.stepWriter_pass_of_grants (s.begun_atWritePass count tmo s.beat.din) hthr hld hd
      fun ⟨hfull, _⟩ => absurd hfull (Nat.not_le.mpr hfree)]
    exact congrArg (State.grantWriter _ · _) (Nat.min_eq_left (Nat.le_sub_of_add_le' hroom))
  rcases Nat.eq_zero_or_pos count.toNat with hz | hc1
  · rw [hz] at hload
    exact State.exists_wroteWhole_of_zero hi hx hs hz hload
  · obtain ⟨m, t, nr', j', f', hm, hrun, hs', -, -, -, hpass, htrig⟩ :=
      State.runWriter_throttled_pass (s.begun_atWritePass count tmo s.beat.din) hl hc1 hcap hthr hload hx hf
    obtain rfl : nr' = nr := Option.some.inj (hs'.symm.trans hs)
    obtain ⟨hidle, -⟩ := hpass.idle
    refine ⟨t, State.runWriter_of_le hrun (by rw [hidle]; rfl) (Nat.le_trans hm (by exact Nat.succ_le_succ hb)),
      State.wroteWhole_of_writePass hi hdin hc1 (by omega) hpass (fun h => ?_) fun hph => ?_⟩
    · rw [hthr] at h
      cases h
    · rw [hph] at htrig
      exact wokeFrom_of_writerTriggered hph htrig

end

/-- Settles O38: the write that fits is its one pass; the passes and the copy step are those of the lemmas above. -/
theorem wWriteCopiesAndPublishes : Obligations.WWriteCopiesAndPublishes := by
  refine ⟨fun s count tmo nr hp hi hv hl hpos hb hdin hx hs hcap hfits => ?_,
    fun s count tmo hp hi hv => exec_wWrite_begun hp hi hv count tmo, fun s task hp hl hthr => ⟨fun hg => ?_, fun hg1 hx => ?_,
      fun hg1 hx => ?_⟩, fun s task hp hl hthr heff hpos => ?_, fun s task left hp ht hne => ?_⟩
  · rw [exec_wWrite_begun hp hi hv]
    have hwhole : ∃ t, (s.begun (writeTask count tmo s.beat.din)).runWriter (s.beat.burst + 1) = t ∧ s.wroteWhole t count nr := by
      cases hthr : s.cfg.thr with
      | false => exact State.exists_wroteWhole_unthrottled hi hl hb hdin hx hs hthr hcap
      | true => exact State.exists_wroteWhole_throttled hi hl hb hdin hx hs hthr hcap hpos (hfits hthr)
    obtain ⟨t, hrun, hwrote⟩ := hwhole
    exact ⟨t, congrArg Host.Outcome.next hrun, hwrote⟩
  · obtain ⟨-, ht, -⟩ := id hp
    refine ⟨_, Response.frames_isCount task.done, ?_⟩
    rw [State.stepWriter_unthrottled_pass hp hthr, hg, State.grantWriter_zero ht]
  · exact State.runWriter_unthrottled_pass hp hl hg1 (Nat.min_le_right _ _) hthr (State.stepWriter_unthrottled_pass hp hthr) hx
  · exact State.runWriter_illFormed_pass hp hl hg1 (Nat.min_le_right _ _) (State.stepWriter_unthrottled_pass hp hthr) hx
  · obtain ⟨-, ht, -⟩ := id hp
    obtain ⟨j, f, cs, n, hlo, hf, hsc, hld⟩ := State.ldaq_writer (s := s) (c := .front) hpos
    refine ⟨j, f, cs, n, hlo, hf, hsc, fun hd => ?_, fun fill hd => ⟨fun hw => ?_, fun hw hg => ?_, fun hw hg1 => ?_⟩⟩
    · rw [State.stepWriter_pass_of_eio hp hthr hld hd]
      exact State.failWriter_of_transfer ht (s.observed .front j cs n)
    · exact State.stepWriter_pass_of_waits hp hthr hld hd hw
    · refine ⟨_, Response.frames_isCount task.done, ?_⟩
      rw [State.stepWriter_pass_of_grants hp hthr hld hd hw, hg, State.grantWriter_zero ht]
      rfl
    · exact State.runWriter_throttled_pass hp hl hg1 (Nat.le_trans (Nat.min_le_right _ _) (Nat.le_trans (Nat.sub_le _ _) heff))
        hthr (State.stepWriter_pass_of_grants hp hthr hld hd hw) (CfgRegs.wellFormed_of_diff hd) hf
  · obtain ⟨k, j, b, cs, n, hk, hdin, hstep⟩ := State.stepWriter_copy (t := task) (by rw [hp, ← ht]) hne
    refine ⟨k, j, b, cs, n, hk, hdin, fun hout => ?_, fun hin => ?_⟩
    · rw [hstep, if_neg (Nat.not_lt.mpr hout)]
      simp only [afterCopy, List.isEmpty_iff]
    · rw [hstep, if_pos hin]
      simp only [afterCopy, List.isEmpty_iff]

end Sys2Proof.Machine
end

section
/-! PROOF. The readers' commands that are no release: `R.ATTACH`, `R.OBTAIN` and the setters, with the rules that the passes of
`R.READ` share with them (44_reader R250 to R255, R259, R260). A state in which reader `i` is at work is written
`s.setRd i r`: the registers `r` are spelled out, and `s` says the rest. -/

open Sys2Proof Sys2Proof.Machine

namespace Sys2Proof.Machine

/-! ### The commands (R250) -/

theorem exec_rAttach (i : BitVec 8) (thr : Bool) (s : State) : exec (.rAttach i thr) s =
    s.command (s.mayAttach i.toNat thr) fun s =>
      ((s.ldaq (.reader i.toNat) (if thr then .front else .rear)).2.setRd i.toNat
        { (s.ldaq (.reader i.toNat) (if thr then .front else .rear)).2.rd i.toNat with
          lf := (s.ldaq (.reader i.toNat) (if thr then .front else .rear)).1
          thr := thr
          obt := 0
          lost := 0
          att := true
          exp := false }).endReader i.toNat {} := rfl

theorem exec_rObtain (i : BitVec 8) (count : Word) (tmo : Timeout) (lv : Bool) (s : State) :
    exec (.rObtain i count tmo lv) s = s.command (s.readerMay i.toNat) fun s =>
      (s.clearReader i.toNat).startReader i.toNat
        { op := .obtain, count := count, tmo := tmo, lv := lv, point := .load } := rfl

theorem exec_rRelease (i : BitVec 8) (k : Word) (s : State) : exec (.rRelease i k) s =
    s.command (s.readerMay i.toNat && decide (k.toNat ≤ (s.rd i.toNat).obt.toNat)) fun s =>
      s.startReader i.toNat { op := .release, count := k, tmo := none, grant := k.toNat, point := .publish } := rfl

theorem exec_rRead (i : BitVec 8) (count : Word) (tmo : Timeout) (lv : Bool) (s : State) :
    exec (.rRead i count tmo lv) s = s.command (s.readerMay i.toNat) fun s =>
      (s.clearReader i.toNat).startReader i.toNat
        { op := .transfer, count := count, tmo := tmo, lv := lv, point := .load } := rfl

theorem exec_rSetllt (i : BitVec 8) (v : Word) (s : State) : exec (.rSetllt i v) s =
    s.command (s.readerMay i.toNat) fun s => s.quickReader i.toNat fun r =>
      { r with llt := wmin v s.cfg.n, hla := wmax r.hla (wmin v s.cfg.n) } := rfl

theorem exec_rSethla (i : BitVec 8) (v : Word) (s : State) : exec (.rSethla i v) s =
    s.command (s.readerMay i.toNat) fun s => s.quickReader i.toNat fun r =>
      { r with hla := wmax (wmin v s.cfg.n) r.llt } := rfl

section
variable {s : State} {i : Nat} (hp : s.beat.port = .reader i)
include hp

theorem State.ready_reader (h : (s.rd i).ph = .idle ∨ (s.rd i).ph = .detached) : s.ready s.beat.port = true := by
  rw [hp, State.ready]
  rcases h with h | h <;> rw [h] <;> rfl

variable (hlt : i < s.readers.length) (hi : (s.rd i).ph = .idle) (hv : s.cfg.valid = true)
include hlt hi hv

theorem State.readerMay_of_idle : s.readerMay i = true := by
  rw [State.readerMay_iff, hi]
  exact ⟨hp, hv, hlt, rfl⟩

/-- A command of the attached reader takes effect. -/
theorem State.command_reader {f : State → State} : s.command (s.readerMay i) f = .next (f s) :=
  State.command_legal (State.ready_reader hp (.inl hi)) (State.readerMay_of_idle hp hlt hi hv)

end

/-! ### One step of a reader whose registers are spelled out -/

/-- The state with one more store in `FRONT`, which hands over `seen` (20_memory R82). -/
def State.storedFront (s : State) (v : Word) (seen : Seen) : State :=
  { s with front := { s.front with pubs := s.front.pubs ++ [{ value := v, seen := seen }] } }

/-- A reader after its release fence (R154). -/
def Reader.fenced (r : Reader) : Reader := { r with obs := r.obs.setView r.obs.view.fenceRel }

section
variable {s : State} {i : Nat} {r : Reader} {t : Task}

theorem State.setRd_lt (hlt : i < s.readers.length) : i < (s.setRd i r).readers.length := by rwa [State.setRd_length]

theorem State.goReader_setRd (hlt : i < s.readers.length) :
    (s.setRd i r).goReader i t = s.setRd i { r with ph := .busy t } := by
  rw [State.goReader, State.rd_setRd_same hlt, State.setRd_setRd]

theorem State.endReader_setRd (hlt : i < s.readers.length) (x : Response) :
    (s.setRd i r).endReader i x = (s.setRd i { r with ph := .idle }).answer (.reader i) x := by
  rw [State.endReader, State.rd_setRd_same hlt, State.setRd_setRd]

/-- A run whose reader is idle is over. -/
theorem State.runReader_answer (hlt : i < s.readers.length) (hr : r.ph = .idle) (o : Agent) (x : Response) (n : Nat) :
    ((s.setRd i r).answer o x).runReader i n = (s.setRd i r).answer o x := by
  refine State.runReader_idle ?_ n
  rw [State.rd_congr (State.answer_readers _ o x), State.rd_setRd_same hlt, hr]
  rfl

theorem State.runReader_busy (hp : (s.rd i).ph = .busy t) (n : Nat) :
    s.runReader i (n + 1) = (s.stepReader i).runReader i n :=
  State.runReader_succ (by rw [hp]; rfl) n

theorem State.rd_setRd_ph (hlt : i < s.readers.length) (hr : r.ph = .busy t) : ((s.setRd i r).rd i).ph = .busy t := by
  rw [State.rd_setRd_same hlt, hr]

theorem State.strl_setRd (hlt : i < s.readers.length) (v : Word) : (s.setRd i r).strl (.reader i) .front v =
    (s.storedFront v r.obs.view.seen).setRd i r.fenced := by
  have hobs : (s.setRd i r).obs (.reader i) = r.obs := congrArg Reader.obs (State.rd_setRd_same hlt r)
  rw [State.strl, hobs, State.setObs, State.rd_setRd_same hlt, State.setRd_setRd]
  rfl

end

/-! ### The setters (R259, R260) -/

/-- A setter of the idle reader changes its registers, clears the latch and answers 0. -/
theorem State.quickReader_of_idle {s : State} {i : Nat} {f : Reader → Reader} (hlt : i < s.readers.length)
    (hi : (s.rd i).ph = .idle) (hf : (f (s.rd i)).ph = (s.rd i).ph) :
    s.quickReader i f = (s.setRd i { f (s.rd i) with exp := false }).answer (.reader i) {} := by
  rw [State.quickReader, State.endReader_setRd hlt, ← hi, ← hf]

/-- Settles O45: the clamps are minima and maxima of numbers. -/
theorem readerSettersClamp : Obligations.ReaderSettersClamp := by
  intro s i v hp hlt hi hv r
  refine ⟨⟨wmin v s.cfg.n, wmax r.hla (wmin v s.cfg.n), wmin_toNat _ _, wmax_toNat _ _, ?_⟩,
    ⟨wmax (wmin v s.cfg.n) r.llt, ?_, ?_⟩⟩
  · rw [exec_rSetllt, State.command_reader hp hlt hi hv, State.quickReader_of_idle hlt hi rfl]
  · rw [wmax_toNat, wmin_toNat]
  · rw [exec_rSethla, State.command_reader hp hlt hi hv, State.quickReader_of_idle hlt hi rfl]

/-! ### Lagging loads by a reader (20_memory R88) -/

/-- The state with draws taken. -/
def State.drawn (s : State) (cs : List Nat) (n : Nat) : State := { s with choices := cs, draws := n }

/-- What a load at position `j` of the cell `x` leaves of a reader: the position, and all that the stores up to it hand over. -/
def Reader.loaded (r : Reader) (c : CellSel) (x : Cell) (j : Nat) : Reader :=
  { r with obs := (r.obs.setPos c j).setView (r.obs.view.acquire (x.handsOver j)) }

theorem State.ldaq_reader {s : State} {i : Nat} {c : CellSel} (h : (s.rd i).obs.pos c ≤ (s.cell c).newest) :
    ∃ (j : Nat) (v : Word) (cs : List Nat) (n : Nat), (s.rd i).obs.pos c ≤ j ∧ (s.cell c).hist[j]? = some v ∧
      (s.par.xing = .sc → j = (s.cell c).newest) ∧
      s.ldaq (.reader i) c = (v, (s.drawn cs n).setRd i ((s.rd i).loaded c (s.cell c) j)) := by
  obtain ⟨j, cs, n, hlo, hhi, hsc, hval, hst⟩ := s.ldaq_spec (.reader i) c h
  exact ⟨j, _, cs, n, hlo, (Cell.hist_getElem?_eq_some_iff _).mpr ⟨hhi, rfl⟩, hsc, Prod.ext hval hst⟩

theorem State.ldaq_setRd {s : State} {i : Nat} {r : Reader} (hlt : i < s.readers.length) (h : r.obs.posRear ≤ s.rear.newest) :
    ∃ (j : Nat) (v : Word) (cs : List Nat) (n : Nat), r.obs.posRear ≤ j ∧ s.rear.hist[j]? = some v ∧
      (s.par.xing = .sc → j = s.rear.newest) ∧
      (s.setRd i r).ldaq (.reader i) .rear = (v, (s.drawn cs n).setRd i (r.loaded .rear s.rear j)) := by
  have hr : (s.setRd i r).rd i = r := State.rd_setRd_same hlt r
  obtain ⟨j, v, cs, n, hlo, hv, hsc, hl⟩ := State.ldaq_reader (s := s.setRd i r) (i := i) (c := .rear) (by rw [hr]; exact h)
  refine ⟨j, v, cs, n, by rwa [hr] at hlo, hv, hsc, ?_⟩
  rw [hl, hr]
  exact congrArg (Prod.mk v) (State.setRd_setRd (s.drawn cs n) i r (r.loaded .rear s.rear j))

/-- A reader under `XING = sc`, or one whose position is the newest, observes the current rear, with nothing drawn (R89). -/
theorem State.ldaq_setRd_newest {s : State} {i : Nat} {r : Reader} (hlt : i < s.readers.length)
    (h : s.par.xing = .sc ∨ r.obs.posRear = s.rear.newest) : (s.setRd i r).ldaq (.reader i) .rear =
      (s.rear.current, (s.drawn s.choices s.draws).setRd i (r.loaded .rear s.rear s.rear.newest)) := by
  have hr : (s.setRd i r).rd i = r := State.rd_setRd_same hlt r
  have hpos : (s.setRd i r).lagPos (.reader i) .rear = (s.rear.newest, s.setRd i r) := by
    unfold State.lagPos
    rcases h with hsc | hnew
    · exact if_pos hsc
    · have hone : s.rear.newest + 1 - ((s.setRd i r).obs (.reader i)).pos .rear ≤ 1 := by
        show s.rear.newest + 1 - ((s.setRd i r).rd i).obs.posRear ≤ 1
        rw [hr]
        omega
      have hsame : ((s.setRd i r).obs (.reader i)).pos .rear = s.rear.newest := by
        show ((s.setRd i r).rd i).obs.posRear = _
        rw [hr, hnew]
      split
      · rfl
      · dsimp only
        rw [show ((s.setRd i r).cell .rear).newest = s.rear.newest from rfl, State.pick_one _ hone, hsame]
        simp
  have hobs : (s.setRd i r).obs (.reader i) = r.obs := congrArg Reader.obs hr
  simp only [State.ldaq, hpos, hobs, State.setObs, hr, State.setRd_setRd]
  rfl

/-! ### `R.ATTACH` (R251) -/

theorem State.mayAttach_iff {s : State} {i : Nat} {thr : Bool} (hp : s.beat.port = .reader i) (hv : s.cfg.valid = true)
    (hlt : i < s.readers.length) : s.mayAttach i thr = true ↔
      (s.rd i).att = false ∧ (thr = true → s.cfg.thr = true ∧ ∀ j, (s.rd j).thr = true → j = i) := by
  cases thr <;> simp [State.mayAttach, hp, hv, hlt, State.noOtherThrottles_iff]

/-- Settles O40: the load is the lagging load of any observer, of the front or of the rear. -/
theorem rAttachAdoptsAnIndex : Obligations.RAttachAdoptsAnIndex := by
  intro s i thr hp hlt hph hv r c
  have hr : s.ready s.beat.port = true := State.ready_reader hp hph
  rw [exec_rAttach]
  refine ⟨fun hno => ?_, fun ha ht hpos => ?_⟩
  · rw [State.command_illegal hr, State.refuse_eq, hp]
    rw [Bool.eq_false_iff, Ne, State.mayAttach_iff hp hv hlt]
    rintro ⟨ha, ht⟩
    rcases hno with hatt | ⟨hthr, hnone | ⟨j, hj, hother⟩⟩
    · exact absurd (hatt.symm.trans ha) (by decide)
    · exact absurd ((ht hthr).1.symm.trans hnone) (by decide)
    · exact hj ((ht hthr).2 j hother)
  · obtain ⟨j, v, cs, n, hlo, hval, hsc, hl⟩ := State.ldaq_reader (s := s) (i := i.toNat) (c := c) hpos
    refine ⟨j, v, cs, n, hlo, hval, hsc, ?_⟩
    rw [State.command_legal hr ((State.mayAttach_iff hp hv hlt).mpr ⟨ha, fun hthr => ⟨(ht hthr).1, fun k hk => ?_⟩⟩)]
    · refine congrArg Host.Outcome.next ?_
      rw [show (if thr then CellSel.front else CellSel.rear) = c from rfl, hl,
        State.rd_setRd_same (s := s.drawn cs n) hlt, State.setRd_setRd,
        State.endReader_setRd (s := s.drawn cs n) hlt]
      rfl
    · by_contra hne
      exact absurd (hk.symm.trans ((ht hthr).2 k hne)) (by decide)

/-! ### The beginning of an operation (R250, R252) -/

/-- The registers of a reader that begins an obtain or a read: nothing is outstanding or lost, the latch is clear, and it
stands at its first step. -/
def Reader.begun (r : Reader) (t : Task) : Reader := { r with obt := 0, lost := 0, exp := false, ph := .busy t }

/-- The task of `R.OBTAIN` at a step of its first pass. -/
def rObtainTask (count : Word) (tmo : Timeout) (lv : Bool) (p : Point) : Task :=
  { op := .obtain, count := count, tmo := tmo, lv := lv, point := p }

/-- The task of `R.READ` at its first pass. -/
def rReadTask (count : Word) (tmo : Timeout) (lv : Bool) : Task :=
  { op := .transfer, count := count, tmo := tmo, lv := lv, point := .load }

theorem State.startReader_clearReader {s : State} {i : Nat} (hlt : i < s.readers.length) (t : Task) :
    (s.clearReader i).startReader i t = (s.setRd i ((s.rd i).begun t)).runReader i (s.beat.burst + 1) := by
  rw [State.startReader, State.clearReader, State.rd_setRd_same hlt, State.setRd_setRd]
  rfl

section
variable {s : State} {i : BitVec 8} (hp : s.beat.port = .reader i.toNat) (hlt : i.toNat < s.readers.length)
  (hi : (s.rd i.toNat).ph = .idle) (hv : s.cfg.valid = true) (count : Word) (tmo : Timeout) (lv : Bool)
include hp hlt hi hv

theorem exec_rObtain_begun : exec (.rObtain i count tmo lv) s = .next ((s.setRd i.toNat
    ((s.rd i.toNat).begun (rObtainTask count tmo lv .load))).runReader i.toNat (s.beat.burst + 1)) := by
  rw [exec_rObtain, State.command_reader hp hlt hi hv, State.startReader_clearReader hlt]
  rfl

theorem exec_rRead_begun : exec (.rRead i count tmo lv) s = .next ((s.setRd i.toNat
    ((s.rd i.toNat).begun (rReadTask count tmo lv))).runReader i.toNat (s.beat.burst + 1)) := by
  rw [exec_rRead, State.command_reader hp hlt hi hv, State.startReader_clearReader hlt]
  rfl

end

/-! ### The load of a pass (R252, R255) -/

/-- The response to an obtain that failed: the error, with the loss where it is asked for, or the frames done (R252, R258). -/
def Task.failure (t : Task) (p : Params) (k : ErrKind) (lost : Nat) : Response :=
  if t.op = .transfer ∧ 0 < t.done then t.readDone t.done else .error p k (if t.lv then BitVec.ofNat 32 lost else 0)

theorem Task.failure_of_obtain {t : Task} (ho : t.op = .obtain) (p : Params) (k : ErrKind) (lost : Nat) :
    t.failure p k lost = { ret := errCode p k, lost := if t.lv then BitVec.ofNat 32 lost else 0 } := by
  rw [Task.failure, if_neg (by rw [ho]; rintro ⟨h, -⟩; cases h)]
  rfl

theorem Task.failure_of_first {t : Task} (h : t.done = 0) (p : Params) (k : ErrKind) (lost : Nat) :
    t.failure p k lost = { ret := errCode p k, lost := if t.lv then BitVec.ofNat 32 lost else 0 } := by
  rw [Task.failure, if_neg (by rw [h]; rintro ⟨-, h⟩; cases h)]
  rfl

theorem Task.readDone_isCount (t : Task) (n : Nat) :
    ∃ ret, isCount ret n ∧ t.readDone n = { ret := ret, dout := t.dout.map Prod.snd } :=
  ⟨_, Response.frames_isCount n, rfl⟩

theorem Task.failure_of_done {t : Task} (ho : t.op = .transfer) (h : 1 ≤ t.done) (p : Params) (k : ErrKind) (lost : Nat) :
    ∃ ret, isCount ret t.done ∧ t.failure p k lost = { ret := ret, dout := t.dout.map Prod.snd } := by
  rw [Task.failure, if_pos ⟨ho, h⟩]
  exact t.readDone_isCount t.done

/-- An overflow has a resynchronised front, and the register holds the loss (R177, R255). -/
theorem CfgRegs.exists_back_of_overflow {c : CfgRegs} {rear f : Word} {lost : Nat} (h : c.diff rear f true = .overflow lost) :
    ∃ back, c.back rear = some back ∧ (BitVec.ofNat 32 lost).toNat = lost := by
  obtain ⟨hr, -, -, hframes, -⟩ := CfgRegs.of_diff_overflow h
  have hle := c.frames_le_rawDelta rear f
  have hlt := rawDelta_lt rear f
  refine ⟨_, if_pos hr, ?_⟩
  rw [BitVec.toNat_ofNat, Nat.mod_eq_of_lt (by omega)]

section
variable {s u : State} {i : Nat} {r : Reader} {t : Task}

theorem State.stepReader_of_load (hp : (s.rd i).ph = .busy t) (ht : t.point = .load) : s.stepReader i = s.loadReader i t := by
  simp only [State.stepReader, hp, ht]

theorem State.stepReader_of_resync {lost : Nat} (hp : (s.rd i).ph = .busy t) (ht : t.point = .resync lost) :
    s.stepReader i = s.resyncReader i t lost := by
  simp only [State.stepReader, hp, ht]

variable (hlt : i < u.readers.length)
include hlt

theorem State.failReader_setRd (k : ErrKind) (lost : Nat) : (u.setRd i r).failReader i t k lost =
    (u.setRd i { r with ph := .idle }).answer (.reader i) (t.failure u.par k lost) :=
  State.endReader_setRd hlt _

/-- The store of a resynchronised front (R255). -/
theorem State.resyncReader_setRd (lost : Nat) : (u.setRd i r).resyncReader i t lost =
    ((u.storedFront r.lf r.obs.view.seen).setRd i { r.fenced with ph := .idle }).answer (.reader i)
      (t.failure u.par .eoverflow lost) := by
  rw [State.resyncReader, State.strl_setRd hlt, State.rd_setRd_same hlt]
  exact State.failReader_setRd (u := u.storedFront r.lf r.obs.view.seen) hlt _ _

variable {rear : Word} (hl : s.ldaq (.reader i) .rear = (rear, u.setRd i r)) (hc : u.cfg = s.cfg)
include hl hc

omit hc in
theorem State.loadReader_of_eio (hd : s.cfg.diff rear r.lf true = .eio) : s.loadReader i t =
    (u.setRd i { r with ph := .idle }).answer (.reader i) (t.failure u.par .eio 0) := by
  simp only [State.loadReader, hl, State.rd_setRd_same hlt, hd, State.failReader_setRd hlt]

section
variable {lost : Nat} {back : Word} (hd : s.cfg.diff rear r.lf true = .overflow lost) (hb : s.cfg.back rear = some back)
include hd hb

theorem State.loadReader_of_lapped (hthr : r.thr = false) : s.loadReader i t =
    (u.setRd i { r with lf := back, lost := BitVec.ofNat 32 lost, ph := .idle }).answer (.reader i)
      (t.failure u.par .eoverflow lost) := by
  simp only [State.loadReader, hl, State.rd_setRd_same hlt, hd, hthr, State.setRd_cfg, hc, hb, Option.getD_some,
    State.setRd_setRd]
  exact State.failReader_setRd hlt .eoverflow lost

theorem State.loadReader_of_lapped_throttling (hthr : r.thr = true) : s.loadReader i t =
    u.setRd i { r with lf := back, lost := BitVec.ofNat 32 lost, ph := .busy { t with point := .resync lost } } := by
  simp only [State.loadReader, hl, State.rd_setRd_same hlt, hd, hthr, State.setRd_cfg, hc, hb, Option.getD_some,
    State.setRd_setRd]
  exact State.goReader_setRd hlt

end

variable {fill : Nat} (hd : s.cfg.diff rear r.lf true = .ok fill)
include hd

omit hc in
theorem State.loadReader_of_waits (hw : fill = 0 ∧ blocking t.tmo = true ∧ r.exp = false) :
    s.loadReader i t = u.setRd i { r with ph := .busy { t with point := .wait rear } } := by
  simp only [State.loadReader, hl, State.rd_setRd_same hlt, hd, if_pos hw, State.goReader_setRd hlt]

omit hc in
theorem State.loadReader_of_grants (hw : ¬(fill = 0 ∧ blocking t.tmo = true ∧ r.exp = false)) :
    s.loadReader i t = (u.setRd i r).grantReader i t (min t.want fill) := by
  simp only [State.loadReader, hl, State.rd_setRd_same hlt, hd, if_neg hw]

end

/-! ### `R.OBTAIN` (R252 to R255) -/

/-- A grant to `R.OBTAIN` ends it (R252, R253). -/
theorem State.grantReader_of_obtain {u : State} {i : Nat} {r : Reader} {t : Task} (hlt : i < u.readers.length)
    (ho : t.op = .obtain) (g : Nat) : (u.setRd i r).grantReader i t g =
      (u.setRd i { r with obt := BitVec.ofNat 32 g, ph := .idle }).answer (.reader i)
        { ret := BitVec.ofNat 32 g, f0 := u.cfg.frag0 r.lf g, f1 := u.cfg.frag1 r.lf g } := by
  simp only [State.grantReader, ho, State.rd_setRd_same hlt, State.setRd_setRd, State.endReader_setRd hlt]
  rfl

/-- What the pass of an obtain does that observed `rear` and then stands in `u` with the registers `r`: fail, move the front
on, wait, or grant. -/
theorem State.stepReader_obtain {s u : State} {i : Nat} {r : Reader} {t : Task} {rear : Word} (hp : (s.rd i).ph = .busy t)
    (ho : t.op = .obtain) (ht : t.point = .load) (hlt : i < u.readers.length)
    (hl : s.ldaq (.reader i) .rear = (rear, u.setRd i r)) (hc : u.cfg = s.cfg) (hpar : u.par = s.par) :
    (s.cfg.diff rear r.lf true = .eio →
      s.stepReader i = (u.setRd i { r with ph := .idle }).answer (.reader i) { ret := s.par.errEio }) ∧
    (∀ lost, s.cfg.diff rear r.lf true = .overflow lost →
      ∃ back l : Word, s.cfg.back rear = some back ∧ l.toNat = lost ∧
        (r.thr = false →
          s.stepReader i = (u.setRd i { r with lf := back, lost := l, ph := .idle }).answer (.reader i)
            { ret := s.par.errEoverflow, lost := if t.lv then l else 0 }) ∧
        (r.thr = true → s.stepReader i = u.setRd i { r with
          lf := back
          lost := l
          ph := .busy { t with point := .resync lost } })) ∧
    ∀ fill, s.cfg.diff rear r.lf true = .ok fill →
      (fill = 0 ∧ blocking t.tmo = true ∧ r.exp = false →
        s.stepReader i = u.setRd i { r with ph := .busy { t with point := .wait rear } }) ∧
      (¬(fill = 0 ∧ blocking t.tmo = true ∧ r.exp = false) → ∃ g : Word, g.toNat = min t.count.toNat fill ∧
        s.stepReader i = (u.setRd i { r with obt := g, ph := .idle }).answer (.reader i)
          { ret := g, f0 := s.cfg.frag0 r.lf g.toNat, f1 := s.cfg.frag1 r.lf g.toNat }) := by
  rw [State.stepReader_of_load hp ht]
  refine ⟨fun hd => ?_, fun lost hd => ?_, fun fill hd => ⟨State.loadReader_of_waits hlt hl hd, fun hno => ?_⟩⟩
  · rw [State.loadReader_of_eio hlt hl hd, Task.failure_of_obtain ho, hpar]
    cases t.lv <;> rfl
  · obtain ⟨back, hb, hlost⟩ := CfgRegs.exists_back_of_overflow hd
    refine ⟨back, BitVec.ofNat 32 lost, hb, hlost, fun hthr => ?_, State.loadReader_of_lapped_throttling hlt hl hc hd hb⟩
    rw [State.loadReader_of_lapped hlt hl hc hd hb hthr, Task.failure_of_obtain ho, hpar]
    rfl
  · have hg := toNat_ofNat_min t.count fill
    refine ⟨BitVec.ofNat 32 (min t.count.toNat fill), hg, ?_⟩
    rw [State.loadReader_of_grants hlt hl hd hno, State.grantReader_of_obtain hlt ho, hg, Task.want_of_obtain ho, hc]

/-- The store of a resynchronised front, and there the run ends (R255). -/
theorem State.runReader_resync {u : State} {i : Nat} {r : Reader} {t : Task} {lost n : Nat} (hlt : i < u.readers.length)
    (hr : r.ph = .busy t) (ht : t.point = .resync lost) (hn : 1 ≤ n) : (u.setRd i r).runReader i n =
      ((u.storedFront r.lf r.obs.view.seen).setRd i { r.fenced with ph := .idle }).answer (.reader i)
        (t.failure u.par .eoverflow lost) := by
  have hp := State.rd_setRd_ph hlt hr
  obtain ⟨m, rfl⟩ := Nat.exists_eq_add_of_le' hn
  rw [State.runReader_busy hp, State.stepReader_of_resync hp ht, State.resyncReader_setRd hlt]
  exact State.runReader_answer (s := u.storedFront r.lf r.obs.view.seen) hlt rfl _ _ m

/-- A compare that finds the value expected parks the reader in the same step, and there its run ends (R254). -/
theorem State.runReader_parks {u : State} {i : Nat} {r : Reader} {t : Task} {e : Word} (hlt : i < u.readers.length)
    (hr : r.ph = .busy t) (ht : t.point = .wait e) (h : u.rear.current = e) (hq : .reader i ∉ u.wqRear) (n : Nat) :
    (u.setRd i r).runReader i (n + 1) = ({ u with wqRear := u.wqRear ++ [.reader i] } : State).setRd i { r with
      ph := .parked t { cell := .rear, expected := e, timer := ticks t.tmo }
      obs := r.obs.setView (r.obs.view.acquire (u.rear.handsOver u.rear.newest)) } := by
  have hp := State.rd_setRd_ph hlt hr
  have hpark := ((compareAndParkIsOneStep (u.setRd i r) t e ht).2 i hp).2 h hq
  rw [State.rd_setRd_same hlt] at hpark
  rw [State.runReader_busy hp, hpark, State.runReader_idle]
  · exact State.setRd_setRd { u with wqRear := u.wqRear ++ [.reader i] } i r _
  · exact congrArg (fun x : Reader => x.ph.isBusy)
      (State.rd_setRd_same (s := ({ u with wqRear := u.wqRear ++ [.reader i] } : State).setRd i r) (State.setRd_lt hlt) _)

/-- The command's run, once its first atomic step is known. -/
theorem exec_rObtain_of_step {s u : State} {i : BitVec 8} {count : Word} {tmo : Timeout} {lv : Bool}
    (hp : s.beat.port = .reader i.toNat) (hlt : i.toNat < s.readers.length) (hi : (s.rd i.toNat).ph = .idle)
    (hv : s.cfg.valid = true)
    (hu : (s.setRd i.toNat ((s.rd i.toNat).begun (rObtainTask count tmo lv .load))).stepReader i.toNat = u) :
    exec (.rObtain i count tmo lv) s = .next (u.runReader i.toNat s.beat.burst) := by
  rw [exec_rObtain_begun hp hlt hi hv, State.runReader_busy (State.rd_setRd_ph hlt rfl), hu]

theorem exists_of_blocking {tmo : Timeout} (h : blocking tmo = true) : ∃ b, tmo = some b :=
  Option.ne_none_iff_exists'.mp fun hnone => by
    rw [hnone] at h
    cases h

/-- Settles O41: the command runs the pass; a pass that waits goes on with the compare-and-park, and one that was lapped with
the store of its front. -/
theorem rObtainGrantsResyncsOrWaits : Obligations.RObtainGrantsResyncsOrWaits := by
  refine ⟨fun s i count tmo lv hp hlt hi hv => exec_rObtain_begun hp hlt hi hv count tmo lv,
    ?_, ?_, ?_⟩
  · intro s i count tmo lv hp hlt hi hv r hpos
    obtain ⟨j, rear, cs, n, hlo, hrear, hsc, hl⟩ :=
      State.ldaq_setRd (s := s) (i := i.toNat) (r := r.begun (rObtainTask count tmo lv .load)) hlt hpos
    have hlt' : i.toNat < (s.drawn cs n).readers.length := hlt
    obtain ⟨heio, hlap, hok⟩ := State.stepReader_obtain (State.rd_setRd_ph hlt rfl) rfl rfl hlt' hl rfl rfl
    have hrun := fun u hu => exec_rObtain_of_step (u := u) (count := count) (tmo := tmo) (lv := lv) hp hlt hi hv hu
    refine ⟨j, rear, cs, n, hlo, hrear, hsc, fun hd => ?_, fun lost hd => ?_, fun fill hd => ?_⟩
    · rw [hrun _ (heio hd), State.runReader_answer hlt' rfl, ← hi]
      rfl
    · obtain ⟨back, l, hb, hlost, hend, hgo⟩ := hlap lost hd
      refine ⟨back, l, hb, hlost, fun hthr => ?_, fun hthr => hrun _ (hgo hthr), fun hthr hburst => ?_⟩
      · rw [hrun _ (hend hthr), State.runReader_answer hlt' rfl, ← hi]
        rfl
      · obtain rfl : l = BitVec.ofNat 32 lost := by rw [← hlost, BitVec.ofNat_toNat, BitVec.setWidth_eq]
        rw [hrun _ (hgo hthr), State.runReader_resync hlt' rfl rfl hburst, ← hi, Task.failure_of_obtain rfl]
        rfl
    · obtain ⟨hwaits, hgrants⟩ := hok fill hd
      refine ⟨fun hsome => ?_, fun h0 hb => hrun _ (hwaits ⟨h0, hb, rfl⟩), fun h0 hb hcur hburst hq => ?_⟩
      · obtain ⟨g, hg, hst⟩ := hgrants fun ⟨h0, hb, _⟩ => by
          rcases hsome with h1 | hnb
          · omega
          · exact absurd (hb.symm.trans hnb) (by decide)
        refine ⟨g, hg, ?_⟩
        rw [hrun _ hst, State.runReader_answer hlt' rfl, ← hi]
        rfl
      · obtain ⟨b, rfl⟩ := exists_of_blocking hb
        obtain ⟨m, hm⟩ := Nat.exists_eq_add_of_le' hburst
        refine ⟨b, rfl, ?_⟩
        rw [hrun _ (hwaits ⟨h0, hb, rfl⟩), hm]
        exact congrArg Host.Outcome.next (State.runReader_parks hlt' rfl rfl hcur.symm hq m)
  · intro s i task hp ho ht hlt r hpos
    obtain ⟨j, rear, cs, n, hlo, hrear, hsc, hl⟩ := State.ldaq_reader (s := s) (i := i) (c := .rear) hpos
    exact ⟨j, rear, cs, n, hlo, hrear, hsc, State.stepReader_obtain (u := s.drawn cs n) hp ho ht hlt hl rfl rfl⟩
  · intro s i task lost hp ho ht hlt r
    rw [State.stepReader_of_resync hp ht]
    conv_lhs => rw [← State.setRd_rd s i, State.resyncReader_setRd hlt, Task.failure_of_obtain ho]
    rfl

/-! ### After an overflow (R255) -/

section
variable {s : State} {i : BitVec 8} {count : Word} {tmo : Timeout} {lv : Bool} (hp : s.beat.port = .reader i.toNat)
  (hlt : i.toNat < s.readers.length) (hi : (s.rd i.toNat).ph = .idle) (hv : s.cfg.valid = true)
  (hnew : s.par.xing = .sc ∨ (s.rd i.toNat).obs.posRear = s.rear.newest)
include hp hlt hi hv hnew

/-- An obtain that sees the newest rear and was lapped: the front is resynchronised, published where the reader throttles, and
the loss reported. -/
theorem exec_rObtain_lapped {lost : Nat} (hb : 1 ≤ s.beat.burst)
    (hd : s.cfg.diff s.rear.current (s.rd i.toNat).lf true = .overflow lost) :
    ∃ (u : State) (r : Reader), exec (.rObtain i count tmo lv) s = .next ((u.setRd i.toNat r).answer (.reader i.toNat)
        { ret := s.par.errEoverflow, lost := if lv then BitVec.ofNat 32 lost else 0 }) ∧
      s.cfg.back s.rear.current = some r.lf ∧ r.ph = .idle ∧ r.obs.posRear = s.rear.newest ∧
      u.readers = s.readers ∧ u.beat = s.beat ∧ u.cfg = s.cfg ∧ u.rear = s.rear ∧ u.out = s.out := by
  have hl := State.ldaq_setRd_newest (r := (s.rd i.toNat).begun (rObtainTask count tmo lv .load)) hlt hnew
  obtain ⟨-, hlap, -⟩ :=
    State.stepReader_obtain (u := s.drawn s.choices s.draws) (State.rd_setRd_ph hlt rfl) rfl rfl hlt hl rfl rfl
  obtain ⟨back, l, hback, hlost, hend, hgo⟩ := hlap lost hd
  obtain rfl : l = BitVec.ofNat 32 lost := by rw [← hlost, BitVec.ofNat_toNat, BitVec.setWidth_eq]
  have hlt' : i.toNat < (s.drawn s.choices s.draws).readers.length := hlt
  cases hthr : (s.rd i.toNat).thr with
  | false =>
    exact ⟨_, _, (exec_rObtain_of_step hp hlt hi hv (hend hthr)).trans
      (congrArg Host.Outcome.next (State.runReader_answer hlt' rfl _ _ _)), hback, rfl, rfl, rfl, rfl, rfl, rfl, rfl⟩
  | true =>
    have hrun := State.runReader_resync (u := s.drawn s.choices s.draws)
      (r := { ((s.rd i.toNat).begun (rObtainTask count tmo lv .load)).loaded .rear s.rear s.rear.newest with
        lf := back, lost := BitVec.ofNat 32 lost, ph := .busy (rObtainTask count tmo lv (.resync lost)) }) hlt' rfl rfl hb
    rw [Task.failure_of_obtain rfl] at hrun
    exact ⟨_, _, (exec_rObtain_of_step hp hlt hi hv (hgo hthr)).trans (congrArg Host.Outcome.next hrun), hback,
      rfl, rfl, rfl, rfl, rfl, rfl, rfl⟩

/-- An obtain that sees the newest rear and finds frames is granted them. -/
theorem exec_rObtain_granted {fill : Nat} (hf : 1 ≤ fill)
    (hd : s.cfg.diff s.rear.current (s.rd i.toNat).lf true = .ok fill) :
    ∃ (t : State) (g : Word) (f0 f1 : Frag), exec (.rObtain i count tmo lv) s = .next t ∧ g.toNat = min count.toNat fill ∧
      t.out = s.out ++ [{ port := .reader i.toNat, resp := { ret := g, f0 := f0, f1 := f1 } }] ∧
      (t.rd i.toNat).lost = 0 ∧ (t.rd i.toNat).obt = g ∧ (t.rd i.toNat).lf = (s.rd i.toNat).lf := by
  have hl := State.ldaq_setRd_newest (r := (s.rd i.toNat).begun (rObtainTask count tmo lv .load)) hlt hnew
  obtain ⟨-, -, hok⟩ :=
    State.stepReader_obtain (u := s.drawn s.choices s.draws) (State.rd_setRd_ph hlt rfl) rfl rfl hlt hl rfl rfl
  obtain ⟨g, hg, hst⟩ := (hok fill hd).2 fun ⟨h0, _⟩ => by omega
  have hlt' : i.toNat < (s.drawn s.choices s.draws).readers.length := hlt
  have hexec := (exec_rObtain_of_step hp hlt hi hv hst).trans
    (congrArg Host.Outcome.next (State.runReader_answer hlt' rfl _ _ _))
  refine ⟨_, g, _, _, hexec, hg, rfl, ?_⟩
  rw [State.rd_congr (State.answer_readers _ _ _), State.rd_setRd_same hlt']
  exact ⟨rfl, rfl, rfl⟩

end

/-- Settles O42: the resynchronised front lies `N` frames behind the rear that the next obtain sees. -/
theorem overflowThenNextObtainSucceeds : Obligations.OverflowThenNextObtainSucceeds := by
  intro s s1 i count count' tmo tmo' lv lv' lost hp hlt hi hv hl hb hnew hd he
  obtain ⟨u, r, hexec, hback, hph, hpos, hrd, hbeat, hcfg, hrear, hout⟩ :=
    exec_rObtain_lapped (count := count) (tmo := tmo) (lv := lv) hp hlt hi hv hnew hb hd
  obtain ⟨hsum, hfill⟩ := CfgRegs.sum_diff_of_back hl hback
  obtain ⟨h1, -⟩ := s.cfg.legal_iff.mp hl
  have hltu : i.toNat < u.readers.length := by rwa [hrd]
  have hr1 : s1.rd i.toNat = r := by
    rw [← Host.Outcome.next.inj (hexec.symm.trans he), State.rd_congr (State.answer_readers _ _ _), State.rd_setRd_same hltu]
  obtain rfl := Host.Outcome.next.inj (hexec.symm.trans he)
  obtain ⟨t, g, f0, f1, hexec', hg, hout', hlost, hobt, hlf⟩ :=
    exec_rObtain_granted (s := (u.setRd i.toNat r).answer (.reader i.toNat) _)
      (count := count') (tmo := tmo') (lv := lv') (fill := s.cfg.cap) (by rw [← hp, ← hbeat]; rfl)
      (State.setRd_lt hltu) (by rw [hr1, hph]) (by rw [← hv, ← hcfg]; rfl)
      (.inr (by rw [hr1, hpos, ← hrear]; rfl)) h1
      (by rw [hr1, State.answer_cfg, State.setRd_cfg, hcfg, State.answer_rear, State.setRd_rear, hrear, hfill])
  refine ⟨t, g, f0, f1, hexec', hg, ?_, hlost, hobt, ?_⟩
  · rw [hout', State.answer_out, State.setRd_out, hout, List.append_assoc]
    rfl
  · rw [hlf, hr1]
    exact hsum

end Sys2Proof.Machine
end

section
/-! PROOF. The release of a reader: the publication, the trigger with its fresh load and its wake, and the end, for `R.RELEASE`
and for a pass of `R.READ` (44_reader R256, R257, R261). -/

open Sys2Proof Sys2Proof.Machine

namespace Sys2Proof.Machine

/-! ### The hysteresis of the trigger (R257, R261) -/

theorem readerWakes_iff (armed : Bool) (llt : Word) (fill : Nat) :
    readerWakes armed llt fill = true ↔ armed = true ∧ fill ≤ llt.toNat := by
  simp [readerWakes]

theorem readerArmed_iff (armed : Bool) (llt hla : Word) (fill : Nat) :
    readerArmed armed llt hla fill = true ↔ hla.toNat ≤ fill ∨ (armed = true ∧ llt.toNat < fill) := by
  cases armed <;> simp [readerArmed, readerWakes]

/-- Where the trigger does not wake, an armed reader stays armed. -/
theorem readerArmed_of_not_wakes {armed : Bool} {llt hla : Word} {fill : Nat} (h : ¬(armed = true ∧ fill ≤ llt.toNat)) :
    readerArmed armed llt hla fill = true ↔ hla.toNat ≤ fill ∨ armed = true := by
  rw [readerArmed_iff]
  cases armed with
  | true => simp only [true_and, Nat.not_le] at h; simp [h]
  | false => simp

/-! ### The end of a release (R256, R258) -/

section
variable {u : State} {i : Nat} {r : Reader} {t : Task} {failed : Bool} (hlt : i < u.readers.length)
include hlt

theorem State.releasedReader_of_release (ho : t.op ≠ .transfer) : (u.setRd i r).releasedReader i t failed =
    (u.setRd i { r with ph := .idle }).answer (.reader i) { ret := if failed then u.par.errEio else 0 } := by
  unfold State.releasedReader
  cases hop : t.op with
  | transfer => exact absurd hop ho
  | obtain | release =>
    dsimp only
    rw [State.endReader_setRd hlt]
    cases failed <;> rfl

theorem State.releasedReader_of_ends (ho : t.op = .transfer) (h : failed = true ∨ t.ends (t.done + t.grant) r.exp) :
    (u.setRd i r).releasedReader i t failed =
      (u.setRd i { r with obt := 0, ph := .idle }).answer (.reader i) (t.readDone (t.done + t.grant)) := by
  simp only [State.releasedReader, ho, State.rd_setRd_same hlt, State.setRd_setRd, State.endReader_setRd hlt]
  exact if_pos h

theorem State.releasedReader_of_goes_on (ho : t.op = .transfer) (h : ¬(failed = true ∨ t.ends (t.done + t.grant) r.exp)) :
    (u.setRd i r).releasedReader i t failed = u.setRd i { r with
      obt := 0
      lost := 0
      ph := .busy { t with done := t.done + t.grant, grant := 0, point := .load } } := by
  simp only [State.releasedReader, ho, State.rd_setRd_same hlt, State.setRd_setRd, State.goReader_setRd hlt]
  exact if_neg h

/-- How a release ends, all of it. -/
theorem State.releasedReader_readerEnds (r : Reader) (t : Task) (failed : Bool) :
    (u.setRd i r).readerEnds i ((u.setRd i r).releasedReader i t failed) t failed := by
  unfold State.readerEnds
  rw [State.rd_setRd_same hlt]
  dsimp only
  rw [State.setRd_setRd, State.setRd_setRd, State.setRd_setRd]
  refine ⟨State.releasedReader_of_release hlt, fun ho h => ?_, State.releasedReader_of_goes_on hlt⟩
  obtain ⟨ret, hret, he⟩ := t.readDone_isCount (t.done + t.grant)
  exact ⟨ret, hret, (State.releasedReader_of_ends hlt ho h).trans (by rw [he])⟩

/-- The end of a release touches the batch, the loss, the phase and the responses. -/
theorem State.releasedReader_frame (r : Reader) (t : Task) (failed : Bool) :
    ∃ (obt lost : Word) (ph : Phase) (out : List Answer), (∀ v, ph.wakeUp v = ph) ∧
      (u.setRd i r).releasedReader i t failed =
        ({ u with out := out } : State).setRd i { r with obt := obt, lost := lost, ph := ph } := by
  by_cases ho : t.op = .transfer
  · by_cases h : failed = true ∨ t.ends (t.done + t.grant) r.exp
    · exact ⟨0, r.lost, .idle, u.out ++ _, fun _ => rfl, State.releasedReader_of_ends hlt ho h⟩
    · exact ⟨0, 0, .busy _, u.out, fun _ => rfl, State.releasedReader_of_goes_on hlt ho h⟩
  · exact ⟨r.obt, r.lost, .idle, u.out ++ _, fun _ => rfl, State.releasedReader_of_release hlt ho⟩

end

theorem State.releasedReader_point (s : State) (i : Nat) (t : Task) (p : Point) (failed : Bool) :
    s.releasedReader i { t with point := p } failed = s.releasedReader i t failed := by
  unfold State.releasedReader
  cases t.op <;> rfl

/-! ### The publication (R256) -/

/-- A reader whose release of `g` frames advanced its front to `nf`. -/
def Reader.advanced (r : Reader) (nf : Word) (g : Nat) : Reader := { r with lf := nf, obt := r.obt - BitVec.ofNat 32 g }

/-- A throttling reader that has published `nf` and comes to the fresh load. -/
def Reader.published (r : Reader) (nf : Word) (t : Task) : Reader :=
  { (r.advanced nf t.grant).fenced with ph := .busy { t with point := .fresh } }

section
variable {u : State} {i : Nat} {r : Reader} {t : Task}

theorem State.stepReader_of_publish (hp : (u.rd i).ph = .busy t) (ht : t.point = .publish) :
    u.stepReader i = u.publishReader i t := by
  simp only [State.stepReader, hp, ht]

theorem State.stepReader_of_fresh (hp : (u.rd i).ph = .busy t) (ht : t.point = .fresh) :
    u.stepReader i = u.freshReader i t := by
  simp only [State.stepReader, hp, ht]

theorem State.stepReader_of_wake {fill : Nat} (hp : (u.rd i).ph = .busy t) (ht : t.point = .wake fill) :
    u.stepReader i = u.wakeReader i t fill := by
  simp only [State.stepReader, hp, ht]

variable (hlt : i < u.readers.length)
include hlt

theorem State.publishReader_of_none (h : u.cfg.sum r.lf t.grant = none) :
    (u.setRd i r).publishReader i t = (u.setRd i r).releasedReader i t true := by
  simp only [State.publishReader, State.rd_setRd_same hlt, State.setRd_cfg, h]

variable {nf : Word} (h : u.cfg.sum r.lf t.grant = some nf)
include h

theorem State.publishReader_of_quiet (hthr : r.thr = false) :
    (u.setRd i r).publishReader i t = (u.setRd i (r.advanced nf t.grant)).releasedReader i t false := by
  simp only [State.publishReader, State.rd_setRd_same hlt, State.setRd_cfg, h, State.setRd_setRd]
  exact if_neg (Bool.eq_false_iff.mp hthr)

theorem State.publishReader_of_throttling (hthr : r.thr = true) : (u.setRd i r).publishReader i t =
    (u.storedFront nf r.obs.view.seen).setRd i (r.published nf t) := by
  simp only [State.publishReader, State.rd_setRd_same hlt, State.setRd_cfg, h, State.setRd_setRd]
  rw [if_pos hthr, State.strl_setRd hlt]
  exact State.goReader_setRd (s := u.storedFront nf r.obs.view.seen) hlt

end

/-! ### The fresh load of the trigger (R256) -/

section
variable {s u : State} {i : Nat} {r : Reader} {t : Task} {rear : Word} (hlt : i < u.readers.length)
  (hl : s.ldaq (.reader i) .rear = (rear, u.setRd i r))
include hlt hl

theorem State.freshReader_of_eio (hd : s.cfg.diff rear r.lf true = .eio) :
    s.freshReader i t = (u.setRd i r).releasedReader i t true := by
  simp only [State.freshReader, hl, State.rd_setRd_same hlt, hd]

theorem State.freshReader_of_lapped {lost : Nat} (hd : s.cfg.diff rear r.lf true = .overflow lost) :
    s.freshReader i t = (u.setRd i r).releasedReader i t false := by
  simp only [State.freshReader, hl, State.rd_setRd_same hlt, hd]

variable {fill : Nat} (hd : s.cfg.diff rear r.lf true = .ok fill)
include hd

theorem State.freshReader_of_wakes (hw : r.armed = true ∧ fill ≤ r.llt.toNat) :
    s.freshReader i t = u.setRd i { r with ph := .busy { t with point := .wake fill } } := by
  simp only [State.freshReader, hl, State.rd_setRd_same hlt, hd, (readerWakes_iff _ _ _).mpr hw, if_true,
    State.goReader_setRd hlt]

theorem State.freshReader_of_not_wakes (hw : ¬(r.armed = true ∧ fill ≤ r.llt.toNat)) : s.freshReader i t =
    (u.setRd i { r with armed := readerArmed r.armed r.llt r.hla fill }).releasedReader i t false := by
  simp only [State.freshReader, hl, State.rd_setRd_same hlt, hd, State.armReader, State.setRd_setRd]
  exact if_neg fun h => hw ((readerWakes_iff _ _ _).mp h)

end

/-! ### Two states that agree but for one reader -/

/-- The states agree in all that a wake of `FRONT` may touch and in the configuration, but for the registers of reader `i`. -/
def State.agreesBeside (s s' : State) (i : Nat) : Prop :=
  s'.cfg = s.cfg ∧ s'.w = s.w ∧ s'.peer = s.peer ∧ s'.wqFront = s.wqFront ∧ ∀ m, m ≠ i → s'.rd m = s.rd m

theorem State.agreesBeside_setRd (s : State) (i : Nat) (r : Reader) : s.agreesBeside (s.setRd i r) i :=
  ⟨rfl, rfl, rfl, rfl, fun _ hm => State.rd_setRd_ne (Ne.symm hm) r⟩

theorem State.agreesBeside.symm {s s' : State} {i : Nat} (h : s.agreesBeside s' i) : s'.agreesBeside s i := by
  obtain ⟨hc, hw, hp, hq, hrd⟩ := h
  exact ⟨hc.symm, hw.symm, hp.symm, hq.symm, fun m hm => (hrd m hm).symm⟩

theorem State.agreesBeside.trans {s s' s'' : State} {i : Nat} (h : s.agreesBeside s' i) (h' : s'.agreesBeside s'' i) :
    s.agreesBeside s'' i := by
  obtain ⟨hc, hw, hp, hq, hrd⟩ := h
  obtain ⟨hc', hw', hp', hq', hrd'⟩ := h'
  exact ⟨hc'.trans hc, hw'.trans hw, hp'.trans hp, hq'.trans hq, fun m hm => (hrd' m hm).trans (hrd m hm)⟩

/-- From `s` to `t` one waiter of `FRONT` was woken, by an agent that hands over `v`, or every agent is left as it is. -/
def wokenAtMost (v : Seen) (s t : State) : Prop :=
  t.wqFront = s.wqFront ∧ (∀ o, keptIn s t o) ∨ wokeFrom v s t .front false

section
variable {i : Nat} {s t s' t' : State} (hs : s.agreesBeside s' i) (ht : t.agreesBeside t' i)
  (hph : (t'.rd i).ph = (s'.rd i).ph) (hstays : ∀ v, (s'.rd i).ph.wakeUp v = (s'.rd i).ph)
include hs ht hph

/-- Who is left as it is, is so whatever the registers of a reader that is not asleep. -/
theorem keptIn.beside {o : Agent} (h : keptIn s t o) : keptIn s' t' o := by
  obtain ⟨-, hw, hp, -, hrd⟩ := hs
  obtain ⟨-, hw', hp', -, hrd'⟩ := ht
  cases o with
  | host => trivial
  | writer => exact (congrArg Writer.ph hw').trans (h.trans (congrArg Writer.ph hw.symm))
  | peer => exact (congrArg Peer.wait hp').trans (h.trans (congrArg Peer.wait hp.symm))
  | reader m =>
    by_cases hm : m = i
    · subst hm
      exact hph
    · show (t'.rd m).ph = (s'.rd m).ph
      rw [hrd' m hm, hrd m hm]
      exact h

include hstays

/-- A wake of `FRONT` is one whatever the phase of a reader that is not asleep. -/
theorem wokeFrom.beside {v : Seen} (h : wokeFrom v s t .front false) : wokeFrom v s' t' .front false := by
  obtain ⟨-, hw, hp, hq, hrd⟩ := id hs
  obtain ⟨-, hw', hp', hq', hrd'⟩ := id ht
  refine h.imp hq hq' (fun o ho => ?_) (fun o ho => keptIn.beside hs ht hph ho)
  cases o with
  | host => trivial
  | writer => exact (congrArg Writer.ph hw').trans (ho.trans (congrArg (fun w : Writer => w.ph.wakeUp v) hw.symm))
  | peer => exact (congrArg Peer.wait hp').trans (ho.trans (congrArg (fun p : Peer => p.wait.map _) hp.symm))
  | reader m =>
    by_cases hm : m = i
    · subst hm
      exact hph.trans (hstays v).symm
    · show (t'.rd m).ph = (s'.rd m).ph.wakeUp v
      rw [hrd' m hm, hrd m hm]
      exact ho

theorem wokenAtMost.beside {v : Seen} (h : wokenAtMost v s t) : wokenAtMost v s' t' := by
  obtain ⟨-, -, -, hq, -⟩ := id hs
  obtain ⟨-, -, -, hq', -⟩ := id ht
  rcases h with ⟨hfront, hkept⟩ | hwoke
  · exact .inl ⟨hq'.trans (hfront.trans hq.symm), fun o => keptIn.beside hs ht hph (hkept o)⟩
  · exact .inr (wokeFrom.beside hs ht hph hstays hwoke)

/-- The outcome of a trigger does not depend on the reader's other registers, nor on a phase that is not asleep. -/
theorem readerTriggered.beside {nf rear : Word} (h : readerTriggered i s t nf rear)
    (hr : (s'.rd i).armed = (s.rd i).armed ∧ (s'.rd i).hla = (s.rd i).hla ∧ (s'.rd i).llt = (s.rd i).llt)
    (hr' : (t'.rd i).armed = (t.rd i).armed ∧ (t'.rd i).obs = (t.rd i).obs) : readerTriggered i s' t' nf rear := by
  obtain ⟨harmed, hhla, hllt⟩ := hr
  obtain ⟨harmed', hobs'⟩ := hr'
  obtain ⟨hcfg, hw, hp, hq, -⟩ := id hs
  obtain ⟨-, hw', hp', hq', -⟩ := id ht
  unfold readerTriggered at h ⊢
  dsimp only at h ⊢
  rw [hcfg, harmed, hhla, hllt, harmed', hobs', hq', hq, hw', hw, hp', hp]
  cases hd : s.cfg.diff rear nf true with
  | eio | overflow => rw [hd] at h; exact h
  | ok fill =>
    rw [hd] at h
    obtain ⟨ha, hwake, hkeep⟩ := h
    exact ⟨ha, fun hw => (hwake hw).beside hs ht hph hstays, hkeep⟩

end

/-! ### The wake of the trigger (R257, R152) -/

/-- An agent that is at work when it wakes others keeps its registers. -/
theorem State.rd_wakeOwn {s : State} {i : Nat} {t : Task} (hp : (s.rd i).ph = .busy t) :
    (s.wakeOwn (.reader i) .front).rd i = s.rd i := by
  obtain ⟨hwoke, ⟨-, hrd, -⟩, -⟩ := s.wakeOwn_wokeFrom (.reader i) .front
  have hph : ((s.wakeOwn (.reader i) .front).rd i).ph = (s.rd i).ph := by
    rcases hwoke with ⟨-, -, hk⟩ | ⟨who, -, -, hw, hk⟩
    · exact hk (.reader i)
    · by_cases hwho : who = .reader i
      · subst hwho
        exact Eq.trans hw (by rw [hp]; rfl)
      · exact hk (.reader i) (Ne.symm hwho)
  exact Eq.trans (by rw [← hph]) (hrd i)

/-- What the last step of a trigger leaves before the release ends. -/
theorem State.wakeOwn_setRd {s : State} {i : Nat} {t : Task} {r : Reader} (hp : (s.rd i).ph = .busy t)
    (hr : r.ph = (s.rd i).ph) :
    wokeFrom (s.rd i).obs.view.seen s ((s.wakeOwn (.reader i) .front).setRd i r) .front false ∧
      onlyWakes (s.setRd i r) ((s.wakeOwn (.reader i) .front).setRd i r) .front ∧
      ((s.wakeOwn (.reader i) .front).setRd i r).out = s.out := by
  have hlt := State.lt_of_busy hp
  obtain ⟨hwoke, ⟨hlen, hrd, hform⟩, hout⟩ := s.wakeOwn_wokeFrom (.reader i) .front
  have hlt' : i < (s.wakeOwn (.reader i) .front).readers.length := by rwa [hlen]
  refine ⟨?_, ⟨?_, fun m => ?_, ?_⟩, hout⟩
  · refine wokeFrom.beside (i := i) ⟨rfl, rfl, rfl, rfl, fun _ _ => rfl⟩ (State.agreesBeside_setRd _ i r) ?_ ?_ hwoke
    · rw [State.rd_setRd_same hlt', hr]
    · rw [hp]
      exact fun _ => rfl
  · rw [State.setRd_length, State.setRd_length, hlen]
  · by_cases hm : i = m
    · subst hm
      rw [State.rd_setRd_same hlt, State.rd_setRd_same hlt']
    · rw [State.rd_setRd_ne hm, State.rd_setRd_ne hm]
      exact hrd m
  · exact congrArg (State.setRd · i r) hform

/-! ### The trigger as a whole -/

/-- From `s`, in which reader `i` has published and comes to its fresh load, to `u`, in which the trigger has run on the rear
`rear` at position `j` and the release has yet to end: a wake perhaps, and of the reader `R_ARMED` and what the load observed. -/
structure State.TriggeredBy (s u : State) (i j : Nat) (rear : Word) : Prop where
  length : u.readers.length = s.readers.length
  reader : u.rd i = { (s.rd i).loaded .rear s.rear j with armed := (u.rd i).armed }
  others : ∀ m, m ≠ i → { u.rd m with ph := (s.rd m).ph } = s.rd m
  frame : u = { s with
    choices := u.choices
    draws := u.draws
    readers := u.readers
    wqFront := u.wqFront
    w := { s.w with ph := u.w.ph }
    peer := { s.peer with wait := u.peer.wait } }
  trigger : readerTriggered i s u (s.rd i).lf rear
  woken : wokenAtMost (u.rd i).obs.view.seen s u

section
variable {s : State} {i j n : Nat} {cs : List Nat} {rear : Word} (hlt : i < s.readers.length)
include hlt

/-- A trigger that does not wake sets `R_ARMED`, or is skipped. -/
theorem State.triggeredBy_of_quiet {armed : Bool}
    (h : readerTriggered i s ((s.drawn cs n).setRd i { (s.rd i).loaded .rear s.rear j with armed := armed }) (s.rd i).lf rear) :
    s.TriggeredBy ((s.drawn cs n).setRd i { (s.rd i).loaded .rear s.rear j with armed := armed }) i j rear where
  length := State.setRd_length _ i _
  reader := by rw [State.rd_setRd_same (s := s.drawn cs n) hlt]
  others m hm := by rw [State.rd_setRd_ne (Ne.symm hm)]; rfl
  frame := rfl
  trigger := h
  woken := .inl ⟨rfl, fun o => keptIn.beside (s := s) (s' := s) ⟨rfl, rfl, rfl, rfl, fun _ _ => rfl⟩
    (State.agreesBeside_setRd (s.drawn cs n) i _)
    (by rw [State.rd_setRd_same (s := s.drawn cs n) hlt]; rfl) (keptIn_refl s o)⟩

/-- The trigger found no fill: it is skipped. -/
theorem State.triggeredBy_of_no_fill (hd : ∀ fill, s.cfg.diff rear (s.rd i).lf true ≠ .ok fill) :
    s.TriggeredBy ((s.drawn cs n).setRd i ((s.rd i).loaded .rear s.rear j)) i j rear := by
  refine State.triggeredBy_of_quiet (armed := (s.rd i).armed) hlt ?_
  unfold readerTriggered
  dsimp only
  rw [State.rd_setRd_same (s := s.drawn cs n) hlt]
  cases h : s.cfg.diff rear (s.rd i).lf true with
  | eio | overflow => exact ⟨rfl, rfl, rfl, rfl⟩
  | ok fill => exact absurd h (hd fill)

variable {fill : Nat} (hd : s.cfg.diff rear (s.rd i).lf true = .ok fill)
include hd

/-- The trigger found a fill that it does not wake on. -/
theorem State.triggeredBy_of_not_wakes (hw : ¬((s.rd i).armed = true ∧ fill ≤ (s.rd i).llt.toNat)) :
    s.TriggeredBy ((s.drawn cs n).setRd i { (s.rd i).loaded .rear s.rear j with
      armed := readerArmed (s.rd i).armed (s.rd i).llt (s.rd i).hla fill }) i j rear := by
  refine State.triggeredBy_of_quiet hlt ?_
  unfold readerTriggered
  dsimp only
  rw [State.rd_setRd_same (s := s.drawn cs n) hlt, hd]
  exact ⟨readerArmed_iff _ _ _ _, fun h => absurd h hw, fun _ => ⟨rfl, rfl, rfl⟩⟩

/-- The trigger found a fill that it wakes on; `r` are the reader's registers at the wake, and its phase is set back to the one
at the load. -/
theorem State.triggeredBy_of_wakes {t : Task} {r : Reader} (hp : (s.rd i).ph = .busy t)
    (hr : r.obs = ((s.rd i).loaded .rear s.rear j).obs) (hw : (s.rd i).armed = true ∧ fill ≤ (s.rd i).llt.toNat) :
    s.TriggeredBy ((((s.drawn cs n).setRd i r).wakeOwn (.reader i) .front).setRd i
      { (s.rd i).loaded .rear s.rear j with armed := readerArmed (s.rd i).armed (s.rd i).llt (s.rd i).hla fill }) i j rear := by
  have hseen : (((s.drawn cs n).setRd i r).obs (.reader i)).view.seen = ((s.rd i).loaded .rear s.rear j).obs.view.seen := by
    rw [← hr, State.obs, State.rd_setRd_same (s := s.drawn cs n) hlt]
  obtain ⟨hwoke, ⟨hlen, hrd, hform⟩, hout⟩ :=
    ((s.drawn cs n).setRd i r).wakeOwn_wokeFrom (.reader i) .front
  generalize hu : ((s.drawn cs n).setRd i r).wakeOwn (.reader i) .front = u at *
  have hltu : i < u.readers.length := by rw [hlen, State.setRd_length]; exact hlt
  have hwake : wokeFrom ((s.rd i).loaded .rear s.rear j).obs.view.seen s (u.setRd i
      { (s.rd i).loaded .rear s.rear j with armed := readerArmed (s.rd i).armed (s.rd i).llt (s.rd i).hla fill }) .front false := by
    rw [hseen] at hwoke
    refine wokeFrom.beside (State.agreesBeside_setRd (s.drawn cs n) i _).symm (State.agreesBeside_setRd u i _) ?_ ?_ hwoke
    · rw [State.rd_setRd_same hltu]
      rfl
    · intro v
      show (s.rd i).ph.wakeUp v = (s.rd i).ph
      rw [hp]
      rfl
  refine ⟨by rw [State.setRd_length, hlen, State.setRd_length]; rfl, by rw [State.rd_setRd_same hltu], fun m hm => ?_, ?_, ?_,
    .inr (by rw [State.rd_setRd_same hltu]; exact hwake)⟩
  · have h := hrd m
    rw [State.rd_setRd_ne (Ne.symm hm)] at h ⊢
    exact h
  · rw [hout] at hform
    exact congrArg (State.setRd · i _) hform
  · unfold readerTriggered
    dsimp only
    rw [State.rd_setRd_same hltu, hd]
    exact ⟨readerArmed_iff _ _ _ _, fun _ => hwake, fun h => absurd hw h⟩

end

/-- What the trigger leaves alone. -/
theorem State.TriggeredBy.environment {s u : State} {i j : Nat} {rear : Word} (h : s.TriggeredBy u i j rear) :
    u.rear = s.rear ∧ u.front = s.front ∧ u.buf = s.buf ∧ u.writes = s.writes ∧ u.cfg = s.cfg ∧ u.par = s.par ∧
      u.wqRear = s.wqRear ∧ u.inbox = s.inbox ∧ u.sched = s.sched ∧ u.beat = s.beat ∧ u.out = s.out ∧
      u.peer.obs = s.peer.obs ∧ { u.w with ph := s.w.ph } = s.w := by
  obtain ⟨ph, rs, wait, q, cs, n, rfl⟩ : ∃ ph rs wait q cs n, u = { s with
      choices := cs, draws := n, readers := rs, wqFront := q, w := { s.w with ph := ph }, peer := { s.peer with wait := wait } } :=
    ⟨_, _, _, _, _, _, h.frame⟩
  exact ⟨rfl, rfl, rfl, rfl, rfl, rfl, rfl, rfl, rfl, rfl, rfl, rfl, rfl⟩

/-- The last atomic step of a trigger; the phase is set back to the one at the load. -/
theorem State.runReader_wake {s : State} {i fill : Nat} {r : Reader} {t : Task} (hlt : i < s.readers.length)
    (hr : r.ph = .busy { t with point := .wake fill }) : (s.setRd i r).runReader i 1 =
      (((s.setRd i r).wakeOwn (.reader i) .front).setRd i
        { r with armed := readerArmed r.armed r.llt r.hla fill, ph := .busy t }).releasedReader i t false := by
  have hp := State.rd_setRd_ph hlt hr
  have hltw : i < ((s.setRd i r).wakeOwn (.reader i) .front).readers.length := by
    rw [State.wakeOwn_length, State.setRd_length]
    exact hlt
  rw [State.runReader_busy hp, State.stepReader_of_wake hp rfl, State.wakeReader, State.releasedReader_point, State.armReader,
    State.rd_wakeOwn hp, State.rd_setRd_same hlt, ← State.releasedReader_goReader (State.setRd_lt hltw) t t,
    State.goReader_setRd hltw]
  rfl

/-- The fresh load, its test and the wake, as one run: they leave the trigger done, and the release ends. -/
theorem State.runReader_fresh {s : State} {i : Nat} {t : Task} (hp : (s.rd i).ph = .busy t) (ht : t.point = .fresh)
    (hpos : (s.rd i).obs.posRear ≤ s.rear.newest) : ∃ (m j : Nat) (rear : Word) (u : State) (failed : Bool), m ≤ 2 ∧
      (s.rd i).obs.posRear ≤ j ∧ s.rear.hist[j]? = some rear ∧ s.TriggeredBy u i j rear ∧
      (failed = true ↔ s.cfg.diff rear (s.rd i).lf true = .eio) ∧ s.runReader i m = u.releasedReader i t failed := by
  have hlt := State.lt_of_busy hp
  obtain ⟨j, rear, cs, n, hlo, hrear, -, hl⟩ := State.ldaq_reader (s := s) (i := i) (c := .rear) hpos
  have hlt1 : i < (s.drawn cs n).readers.length := hlt
  have hrun : s.runReader i 1 = s.freshReader i t := by
    rw [State.runReader_busy hp, State.stepReader_of_fresh hp ht]
    rfl
  cases hd : s.cfg.diff rear (s.rd i).lf true with
  | eio =>
    exact ⟨1, j, rear, _, true, by omega, hlo, hrear, State.triggeredBy_of_no_fill hlt (by simp [hd]), by rw [hd]; simp,
      hrun.trans (State.freshReader_of_eio hlt1 hl hd)⟩
  | overflow lost =>
    exact ⟨1, j, rear, _, false, by omega, hlo, hrear, State.triggeredBy_of_no_fill hlt (by simp [hd]), by rw [hd]; simp,
      hrun.trans (State.freshReader_of_lapped hlt1 hl hd)⟩
  | ok fill =>
    have hok : false = true ↔ s.cfg.diff rear (s.rd i).lf true = .eio := by rw [hd]; simp
    by_cases hw : (s.rd i).armed = true ∧ fill ≤ (s.rd i).llt.toNat
    · obtain ⟨r, hr⟩ : ∃ r : Reader, r = { (s.rd i).loaded .rear s.rear j with ph := .busy { t with point := .wake fill } } :=
        ⟨_, rfl⟩
      have htr := State.triggeredBy_of_wakes (cs := cs) (n := n) (j := j) (r := r) hlt hd hp (by rw [hr]) hw
      have hfresh : s.freshReader i t = (s.drawn cs n).setRd i r := hr ▸ State.freshReader_of_wakes hlt1 hl hd hw
      refine ⟨2, j, rear, _, false, Nat.le_refl 2, hlo, hrear, htr, hok, ?_⟩
      rw [State.runReader_add s i 1 1, hrun, hfresh, State.runReader_wake (t := t) (fill := fill) hlt1 (by rw [hr]), hr, ← hp]
      rfl
    · exact ⟨1, j, rear, _, false, by omega, hlo, hrear, State.triggeredBy_of_not_wakes hlt hd hw, hok,
        hrun.trans (State.freshReader_of_not_wakes hlt1 hl hd hw)⟩

/-- All three atomic steps of a throttling reader's release, up to its end. -/
theorem State.runReader_publish {u : State} {i : Nat} {r : Reader} {t : Task} {nf : Word} (hlt : i < u.readers.length)
    (hr : r.ph = .busy t) (ht : t.point = .publish) (h : u.cfg.sum r.lf t.grant = some nf) (hthr : r.thr = true)
    (hpos : r.obs.posRear ≤ u.rear.newest) : ∃ (m j : Nat) (rear : Word) (v : State) (failed : Bool), m ≤ 2 ∧
      r.obs.posRear ≤ j ∧ u.rear.hist[j]? = some rear ∧
      ((u.storedFront nf r.obs.view.seen).setRd i (r.published nf t)).TriggeredBy v i j rear ∧
      (failed = true ↔ u.cfg.diff rear nf true = .eio) ∧
      (u.setRd i r).runReader i (m + 1) = v.releasedReader i t failed := by
  have hp := State.rd_setRd_ph hlt hr
  have hrd := State.rd_setRd_same (s := u.storedFront nf r.obs.view.seen) hlt (r.published nf t)
  obtain ⟨m, j, rear, v, failed, hm, hlo, hrear, htr, hfail, hrun⟩ :=
    State.runReader_fresh (s := (u.storedFront nf r.obs.view.seen).setRd i (r.published nf t)) (congrArg Reader.ph hrd) rfl
      (by rw [hrd]; exact hpos)
  rw [hrd] at hlo hfail
  refine ⟨m, j, rear, v, failed, hm, hlo, hrear, htr, hfail, ?_⟩
  rw [State.runReader_busy hp, State.stepReader_of_publish hp ht, State.publishReader_of_throttling hlt h hthr, hrun,
    State.releasedReader_point]

section
variable {s u s0 : State} {i j : Nat} {rear : Word} {t : Task} {failed : Bool} (h : s.TriggeredBy u i j rear)
  (hlt : i < s.readers.length) (hs : s.agreesBeside s0 i) (hph : ((u.releasedReader i t failed).rd i).ph = (s0.rd i).ph)
include h hlt

/-- The end of the release after a trigger: the batch, the loss and the phase, and a response. -/
theorem State.TriggeredBy.released : u.agreesBeside (u.releasedReader i t failed) i ∧
    ∃ (obt lost : Word) (ph : Phase), (∀ v, ph.wakeUp v = ph) ∧
      (u.releasedReader i t failed).rd i = { u.rd i with obt := obt, lost := lost, ph := ph } := by
  have hltu : i < u.readers.length := h.length ▸ hlt
  obtain ⟨obt, lost, ph, out, hstays, he⟩ := State.releasedReader_frame hltu (u.rd i) t failed
  rw [State.setRd_rd] at he
  rw [he]
  exact ⟨⟨rfl, rfl, rfl, rfl, fun m hm => State.rd_setRd_ne (s := { u with out := out }) (Ne.symm hm) _⟩, obt, lost, ph, hstays,
    State.rd_setRd_same (s := { u with out := out }) hltu _⟩

include hs hph

/-- The end of the release after a trigger leaves the trigger's outcome as it is, told from any state that is the one at the
load but for the reader's place in its operation. -/
theorem State.TriggeredBy.readerTriggered
    (hr : (s0.rd i).armed = (s.rd i).armed ∧ (s0.rd i).hla = (s.rd i).hla ∧ (s0.rd i).llt = (s.rd i).llt) :
    readerTriggered i s0 (u.releasedReader i t failed) (s.rd i).lf rear := by
  obtain ⟨hu, obt, lost, ph, hstays, hrd⟩ := h.released (t := t) (failed := failed) hlt
  refine h.trigger.beside hs hu hph (fun v => ?_) hr ?_
  · rw [← hph, hrd]
    exact hstays v
  · rw [hrd]
    exact ⟨rfl, rfl⟩

/-- Nor does it change whom the trigger woke. -/
theorem State.TriggeredBy.released_woken :
    wokenAtMost ((u.releasedReader i t failed).rd i).obs.view.seen s0 (u.releasedReader i t failed) := by
  obtain ⟨hu, obt, lost, ph, hstays, hrd⟩ := h.released (t := t) (failed := failed) hlt
  have hseen : ((u.releasedReader i t failed).rd i).obs = (u.rd i).obs := by rw [hrd]
  rw [hseen]
  refine wokenAtMost.beside hs hu hph (fun v => ?_) h.woken
  rw [← hph, hrd]
  exact hstays v

end

/-! ### `R.RELEASE` (R256) -/

/-- A reader that begins a release: the latch is clear, and it stands at the publication. -/
def Reader.releasing (r : Reader) (k : Word) : Reader := { r with exp := false, ph := .busy (releaseTask k) }

theorem Reader.advanced_toNat (r : Reader) (nf k : Word) : r.advanced nf k.toNat = { r with lf := nf, obt := r.obt - k } := by
  rw [Reader.advanced, BitVec.ofNat_toNat, BitVec.setWidth_eq]

section
variable {s : State} {i : BitVec 8} {k : Word} (hp : s.beat.port = .reader i.toNat) (hi : (s.rd i.toNat).ph = .idle)
include hp hi

/-- More than was obtained is refused (45_provider R282). -/
theorem exec_rRelease_refused (hk : (s.rd i.toNat).obt.toNat < k.toNat) :
    exec (.rRelease i k) s = .next (s.refusedOn (.reader i.toNat)) := by
  rw [exec_rRelease, State.command_illegal (State.ready_reader hp (.inl hi))
    (by rw [decide_eq_false (Nat.not_le.mpr hk), Bool.and_false]), State.refuse_eq, hp]

variable (hlt : i.toNat < s.readers.length) (hv : s.cfg.valid = true) (hk : k.toNat ≤ (s.rd i.toNat).obt.toNat)
include hlt hv hk

theorem exec_rRelease_releasing : exec (.rRelease i k) s =
    .next ((s.setRd i.toNat ((s.rd i.toNat).releasing k)).runReader i.toNat (s.beat.burst + 1)) := by
  rw [exec_rRelease, State.command_legal (State.ready_reader hp (.inl hi))
    (by rw [State.readerMay_of_idle hp hlt hi hv, decide_eq_true hk]; rfl)]
  rfl

/-- The command is over with its first atomic step. -/
theorem exec_rRelease_of_publish {r : Reader} {failed : Bool}
    (h : (s.setRd i.toNat ((s.rd i.toNat).releasing k)).publishReader i.toNat (releaseTask k) =
      (s.setRd i.toNat r).releasedReader i.toNat (releaseTask k) failed) :
    exec (.rRelease i k) s = .next ((s.setRd i.toNat { r with ph := (s.rd i.toNat).ph }).answer (.reader i.toNat)
      { ret := if failed then s.par.errEio else 0 }) := by
  have hph := State.rd_setRd_ph hlt (r := (s.rd i.toNat).releasing k) rfl
  rw [exec_rRelease_releasing hp hi hlt hv hk, State.runReader_busy hph, State.stepReader_of_publish hph rfl, h,
    State.releasedReader_of_release hlt (releaseTask_op k), State.runReader_answer hlt rfl, hi]

/-- The command with its trigger, all three atomic steps. -/
theorem exec_rRelease_of_throttling {nf : Word} (hs : s.cfg.sum (s.rd i.toNat).lf k.toNat = some nf)
    (hthr : (s.rd i.toNat).thr = true) (hb : 2 ≤ s.beat.burst) (hpos : (s.rd i.toNat).obs.posRear ≤ s.rear.newest) :
    ∃ (j : Nat) (rear : Word) (u : State) (failed : Bool), (s.rd i.toNat).obs.posRear ≤ j ∧ s.rear.hist[j]? = some rear ∧
      ((s.storedFront nf (s.rd i.toNat).obs.view.seen).setRd i.toNat
        (((s.rd i.toNat).releasing k).published nf (releaseTask k))).TriggeredBy u i.toNat j rear ∧
      (failed = true ↔ s.cfg.diff rear nf true = .eio) ∧
      u.releasedReader i.toNat (releaseTask k) failed =
        (u.setRd i.toNat { u.rd i.toNat with ph := .idle }).answer (.reader i.toNat)
          { ret := if failed then u.par.errEio else 0 } ∧
      exec (.rRelease i k) s = .next (u.releasedReader i.toNat (releaseTask k) failed) := by
  obtain ⟨m, j, rear, u, failed, hm, hlo, hrear, htr, hfail, hrun⟩ :=
    State.runReader_publish (r := (s.rd i.toNat).releasing k) hlt rfl rfl hs hthr hpos
  have hltu : i.toNat < u.readers.length := by rw [htr.length, State.setRd_length]; exact hlt
  have hend := State.releasedReader_of_release (r := u.rd i.toNat) (failed := failed) hltu (releaseTask_op k)
  rw [State.setRd_rd] at hend
  obtain ⟨d, hd⟩ : ∃ d, s.beat.burst + 1 = m + 1 + d := Nat.exists_eq_add_of_le (by omega)
  refine ⟨j, rear, u, failed, hlo, hrear, htr, hfail, hend, ?_⟩
  rw [exec_rRelease_releasing hp hi hlt hv hk, hd, State.runReader_add, hrun, hend, State.runReader_answer hltu rfl]

end

/-- Settles O43: the command as a run, and its three atomic steps one by one. -/
theorem rReleaseAdvancesAndTriggers : Obligations.RReleaseAdvancesAndTriggers := by
  refine ⟨?_, ?_⟩
  · intro s i k hp hlt hi hv r run
    refine ⟨exec_rRelease_refused hp hi, fun hk hs => ?_, exec_rRelease_releasing hp hi hlt hv,
      fun nf hk hs => ⟨fun hthr => ?_, fun hthr hb hpos => ?_⟩⟩
    · exact exec_rRelease_of_publish hp hi hlt hv hk (State.publishReader_of_none hlt hs)
    · have h := exec_rRelease_of_publish hp hi hlt hv hk
        (State.publishReader_of_quiet (r := (s.rd i.toNat).releasing k) (t := releaseTask k) hlt hs hthr)
      rw [show (releaseTask k).grant = k.toNat from rfl, Reader.advanced_toNat] at h
      exact h
    · obtain ⟨j, rear, u, failed, hlo, hrear, htr, hfail, hend, hexec⟩ :=
        exec_rRelease_of_throttling hp hi hlt hv hk hs hthr hb hpos
      have hrd1 := State.rd_setRd_same (s := s.storedFront nf r.obs.view.seen) hlt ((r.releasing k).published nf (releaseTask k))
      have hltu : i.toNat < u.readers.length := by rw [htr.length, State.setRd_length]; exact hlt
      have hrd := State.rd_setRd_same hltu { u.rd i.toNat with ph := .idle }
      obtain ⟨armed, hru⟩ : ∃ armed, u.rd i.toNat = { ((r.releasing k).published nf (releaseTask k)).loaded .rear s.rear j with
        armed := armed } := ⟨_, htr.reader.trans (by rw [hrd1]; rfl)⟩
      have htrig := htr.readerTriggered (s0 := s) (t := releaseTask k) (failed := failed) (State.setRd_lt hlt)
        (State.agreesBeside_setRd (s.storedFront nf r.obs.view.seen) i.toNat _).symm
        (by rw [hend, State.rd_congr (State.answer_readers _ _ _), hrd, hi])
        (by rw [hrd1]; exact ⟨rfl, rfl, rfl⟩)
      rw [hend] at hexec htrig
      rw [hrd1] at htrig
      obtain ⟨erear, efront, ebuf, ewrites, ecfg, epar, ewq, einbox, esched, -, eout, epeer, ew⟩ := htr.environment
      refine ⟨j, rear, _, hlo, hrear, hexec, efront, erear, ebuf, ewrites, ecfg, epar, ewq, einbox, esched, ?_, ?_, ?_, ?_, ew,
        fun m hm => ?_, epeer, htrig, ?_⟩
      · rw [State.answer_readers, State.setRd_length, htr.length, State.setRd_length]
        rfl
      · have hobt : (r.releasing k).advanced nf (releaseTask k).grant = { r.releasing k with lf := nf, obt := r.obt - k } :=
          Reader.advanced_toNat _ nf k
        rw [State.rd_congr (State.answer_readers _ _ _), hrd, hru, Reader.published, hobt, ← hi]
        rfl
      · rw [State.rd_congr (State.answer_readers _ _ _), hrd, hru]
        rfl
      · rw [State.rd_congr (State.answer_readers _ _ _), hrd, hru]
        rfl
      · have h := htr.others m hm
        rw [State.rd_setRd_ne (Ne.symm hm)] at h
        rw [State.rd_congr (State.answer_readers _ _ _), State.rd_setRd_ne (Ne.symm hm)]
        exact h
      · simp only [hfail, epar, State.answer_out, State.setRd_out, eout]
        rfl
  · intro s i task hp hlt r
    have hself := s.setRd_rd i
    refine ⟨fun ht hs => ?_, fun ht nf hs => ⟨fun hthr => ?_, fun hthr => ?_⟩, fun ht hpos => ?_, fun fill ht => ?_⟩
    · have h := State.publishReader_of_none (r := s.rd i) hlt hs
      have hend := State.releasedReader_readerEnds hlt (s.rd i) task true
      rw [hself] at h hend
      rwa [State.stepReader_of_publish hp ht, h]
    · have h := State.publishReader_of_quiet (r := s.rd i) hlt hs hthr
      rw [hself] at h
      rw [State.stepReader_of_publish hp ht, h]
      exact State.releasedReader_readerEnds hlt (r.advanced nf task.grant) task false
    · have h := State.publishReader_of_throttling (r := s.rd i) hlt hs hthr
      rw [hself] at h
      rw [State.stepReader_of_publish hp ht, h]
      rfl
    · obtain ⟨j, rear, cs, n, hlo, hrear, hsc, hl⟩ := State.ldaq_reader (s := s) (i := i) (c := .rear) hpos
      have hlt1 : i < (s.drawn cs n).readers.length := hlt
      rw [State.stepReader_of_fresh hp ht]
      refine ⟨j, rear, cs, n, hlo, hrear, hsc, fun hd => ?_, fun lost hd => ?_, fun fill hd => ⟨fun hw => ?_, fun hw => ?_⟩⟩
      · rw [State.freshReader_of_eio hlt1 hl hd]
        exact State.releasedReader_readerEnds hlt1 _ task true
      · rw [State.freshReader_of_lapped hlt1 hl hd]
        exact State.releasedReader_readerEnds hlt1 _ task false
      · exact State.freshReader_of_wakes hlt1 hl hd hw
      · refine ⟨readerArmed r.armed r.llt r.hla fill, readerArmed_of_not_wakes hw, ?_⟩
        rw [State.freshReader_of_not_wakes hlt1 hl hd hw]
        exact State.releasedReader_readerEnds hlt1 _ task false
    · obtain ⟨hwoke, honly, hout⟩ := State.wakeOwn_setRd hp (r := { r with armed := readerArmed r.armed r.llt r.hla fill }) rfl
      refine ⟨_, _, readerArmed_iff _ _ _ _, hwoke, honly, hout, ?_⟩
      rw [State.stepReader_of_wake hp ht, State.wakeReader, State.armReader, State.rd_wakeOwn hp]
      exact State.releasedReader_readerEnds (by rwa [State.wakeOwn_length]) _ task false

end Sys2Proof.Machine
end

section
/-! PROOF. `R.READ`: its grant, its copy, its passes with and without throttling, and the read that may not block (44_reader
R258, with R252 to R257). -/

open Sys2Proof Sys2Proof.Machine

namespace Sys2Proof.Machine

/-! ### Bytes put at the end of a stream -/

/-- Write the bytes one after another. -/
def Memory.putAll (m : Memory) (q : List Host.Cell) : Memory := q.foldl (fun m x => m.put x.1 x.2) m

theorem Memory.put_perm {m : Memory} {a : Nat} (h : a ∉ m.map Prod.fst) (v : Byte) : List.Perm (m.put a v) ((a, v) :: m) := by
  induction m with
  | nil => exact List.Perm.refl _
  | cons x m ih =>
    obtain ⟨c, y⟩ := x
    rw [List.map_cons, List.mem_cons, not_or] at h
    obtain ⟨hne, hm⟩ := h
    unfold Memory.put
    rw [if_neg hne]
    split
    · exact List.Perm.refl _
    · exact ((ih hm).cons _).trans (List.Perm.swap _ _ _)

/-- A byte whose key is above those of `p` does not touch `p`. -/
theorem Memory.put_append {p m : Memory} {a : Nat} (h : ∀ x ∈ p, x.1 < a) (v : Byte) :
    Memory.put (p ++ m) a v = p ++ m.put a v := by
  induction p with
  | nil => rfl
  | cons x p ih =>
    obtain ⟨c, y⟩ := x
    have hc : c < a := h _ List.mem_cons_self
    rw [List.cons_append, Memory.put, if_neg (by omega), if_neg (by omega), ih fun x hx => h x (List.mem_cons_of_mem _ hx)]
    rfl

theorem Memory.putAll_append {p : Memory} {q : List Host.Cell} (h : ∀ x ∈ p, ∀ y ∈ q, x.1 < y.1) (m : Memory) :
    Memory.putAll (p ++ m) q = p ++ m.putAll q := by
  induction q generalizing m with
  | nil => rfl
  | cons y q ih =>
    rw [Memory.putAll, List.foldl_cons, Memory.put_append fun x hx => h x hx y List.mem_cons_self]
    exact ih (fun x hx z hz => h x hx z (List.mem_cons_of_mem _ hz)) _

theorem Memory.putAll_wf {m : Memory} (h : m.wf) (q : List Host.Cell) : (m.putAll q).wf := by
  induction q generalizing m with
  | nil => exact h
  | cons y q ih => exact ih (Memory.put_wf h y.1 y.2)

theorem Memory.putAll_perm {m : Memory} {q : List Host.Cell} (h : (q.map Prod.fst ++ m.map Prod.fst).Nodup) :
    List.Perm (m.putAll q) (q ++ m) := by
  induction q generalizing m with
  | nil => exact List.Perm.refl _
  | cons y q ih =>
    rw [List.map_cons, List.cons_append, List.nodup_cons, List.mem_append, not_or] at h
    obtain ⟨⟨hq, hm⟩, hnd⟩ := h
    have hput := Memory.put_perm hm y.2
    have hkeys := (hput.map Prod.fst).append_left (q.map Prod.fst)
    have hnd' : (q.map Prod.fst ++ y.1 :: m.map Prod.fst).Nodup :=
      List.perm_middle.nodup_iff.mpr (List.nodup_cons.mpr ⟨fun h => (List.mem_append.mp h).elim hq hm, hnd⟩)
    exact (ih (hkeys.nodup_iff.mpr hnd')).trans ((hput.append_left q).trans List.perm_middle)

/-- The bytes of a copy behind a stream of `a` bytes: the stream goes on with them, each at its place. -/
theorem Memory.putAll_stream {m : Memory} {q : List Host.Cell} {a n : Nat} (hm : m.map Prod.fst = List.range a)
    (hq : List.Perm (q.map Prod.fst) (List.range' a n)) : m <+: m.putAll q ∧ (m.putAll q).map Prod.fst = List.range (a + n) ∧
      ∀ k, k < n → ∃ b, (a + k, b) ∈ q ∧ ((m.putAll q).map Prod.snd)[a + k]? = some b := by
  have hlow : ∀ x ∈ m, x.1 < a := fun x hx => List.mem_range.mp (hm ▸ List.mem_map_of_mem hx)
  have hhigh : ∀ y ∈ q, a ≤ y.1 := fun y hy =>
    (List.mem_range'_1.mp (hq.subset (List.mem_map_of_mem hy))).1
  have hsplit : m.putAll q = m ++ Memory.putAll [] q := by
    have h := Memory.putAll_append (fun x hx y hy => Nat.lt_of_lt_of_le (hlow x hx) (hhigh y hy)) []
    rwa [List.append_nil] at h
  have hperm : List.Perm (Memory.putAll [] q) q := by
    have h := Memory.putAll_perm (m := []) (q := q) (by
      rw [List.map_nil, List.append_nil]
      exact hq.nodup_iff.mpr List.nodup_range')
    rwa [List.append_nil] at h
  have hkeys : (Memory.putAll [] q).map Prod.fst = List.range' a n := by
    have hwf : (Memory.putAll [] q).wf := Memory.putAll_wf List.Pairwise.nil q
    exact ((hperm.map _).trans hq).eq_of_pairwise (fun x y _ _ hxy hyx => absurd hxy (Nat.lt_asymm hyx))
      (List.pairwise_map.mpr hwf) List.pairwise_lt_range'
  have hlen : (Memory.putAll [] q).length = n := by
    simpa using congrArg List.length hkeys
  have hlena : m.length = a := by simpa using congrArg List.length hm
  refine ⟨hsplit ▸ List.prefix_append _ _, ?_, fun k hk => ?_⟩
  · rw [hsplit, List.map_append, hm, hkeys, List.range_eq_range', List.range_eq_range', ← List.range'_append_1, Nat.zero_add]
  · obtain ⟨x, hx⟩ : ∃ x, (Memory.putAll [] q)[k]? = some x := ⟨_, List.getElem?_eq_getElem (by rwa [hlen])⟩
    have hkey : x.1 = a + k := by
      have h := congrArg (·[k]?) hkeys
      simpa [hx, List.getElem?_range', hk] using h
    refine ⟨x.2, ?_, ?_⟩
    · rw [← hkey]
      exact hperm.subset (List.mem_of_getElem? hx)
    · rw [hsplit, List.map_append, List.getElem?_append_right (by rw [List.length_map, hlena]; omega), List.length_map, hlena,
        Nat.add_sub_cancel_left, List.getElem?_map, hx]
      rfl

/-! ### The grant of a pass (R258) -/

section
variable {u : State} {i : Nat} {r : Reader} {t : Task} (hlt : i < u.readers.length)
include hlt

/-- Nothing to read: the read ends with the frames done. -/
theorem State.grantReader_zero (ht : t.op = .transfer) : (u.setRd i r).grantReader i t 0 =
    (u.setRd i { r with obt := 0, ph := .idle }).answer (.reader i) (t.readDone t.done) := by
  simp only [State.grantReader, ht, State.setRd_setRd, State.rd_setRd_same hlt, if_true, State.endReader_setRd hlt]
  rfl

theorem State.grantReader_copies (ht : t.op = .transfer) {g : Nat} (hg : 1 ≤ g) : (u.setRd i r).grantReader i t g =
    u.setRd i { r with
      obt := BitVec.ofNat 32 g
      ph := .busy (t.granted g (u.cfg.frag0 r.lf g) (u.cfg.frag1 r.lf g) (.copy (List.range (g * u.cfg.size.toNat)))) } := by
  unfold State.grantReader
  split
  case h_1 =>
    simp only [State.setRd_setRd, State.rd_setRd_same hlt, if_neg (show g ≠ 0 by omega), State.goReader_setRd hlt]
    rfl
  case h_2 hno => exact absurd ht hno

/-! ### The copy of a pass (R258) -/

/-- The reader loads one of the bytes left. -/
theorem State.stepReader_copy {left : List Nat} (hr : r.ph = .busy t) (ht : t.point = .copy left) (hne : left ≠ []) :
    ∃ (k j : Nat) (b : Byte) (cs : List Nat) (n : Nat), left[k]? = some j ∧
      (∀ v, u.settledByte (t.byteOff j) r.obs.view.seen = some v → b = v) ∧
      (u.setRd i r).stepReader i = (u.drawn cs n).setRd i { r with
        ph := .busy { t with
          dout := t.dout.put (t.done * u.cfg.size.toNat + j) b
          point := afterCopy (left.eraseIdx k) } } := by
  have hk := (u.setRd i r).pick_lt (List.length_pos_iff.mpr hne)
  obtain ⟨cs, n, hpick⟩ := (u.setRd i r).pick_frame left.length
  obtain ⟨j, hj⟩ : ∃ j, left[((u.setRd i r).pick left.length).1]? = some j := ⟨_, List.getElem?_eq_getElem hk⟩
  obtain ⟨cs', n', hload⟩ := State.loadByte_frame (s := ((u.drawn cs n).setRd i r)) (o := .reader i) (off := t.byteOff j)
  refine ⟨_, j, (((u.drawn cs n).setRd i r).loadByte (.reader i) (t.byteOff j)).1, cs', n', hj, fun v hv => ?_, ?_⟩
  · have hobs : ((u.drawn cs n).setRd i r).obs (.reader i) = r.obs :=
      congrArg Reader.obs (State.rd_setRd_same (s := u.drawn cs n) hlt r)
    rw [State.loadByte_of_settled (by rw [hobs]; exact hv)]
  · have hpick' : ((u.setRd i r).pick left.length).2 = (u.drawn cs n).setRd i r := hpick
    have hload' : (((u.drawn cs n).setRd i r).loadByte (.reader i) (t.byteOff j)).2 = (u.drawn cs' n').setRd i r := hload
    have hstep : (u.setRd i r).stepReader i = (u.setRd i r).copyReader i t left := by
      simp only [State.stepReader, State.rd_setRd_ph hlt hr, ht]
    rw [hstep]
    simp only [State.copyReader, hj, hpick', hload']
    exact State.goReader_setRd (s := u.drawn cs' n') hlt

end

/-- All atomic steps of a copy, in any order: each byte left is loaded once, and nothing but the stream has changed. -/
theorem State.runReader_copy (m : Nat) : ∀ (left : List Nat) (u : State) (i : Nat) (r : Reader) (t : Task), left.length = m →
    i < u.readers.length → r.ph = .busy { t with point := afterCopy left } →
    ∃ (cs : List Nat) (n : Nat) (q : List Host.Cell),
      List.Perm (q.map Prod.fst) (left.map (t.done * u.cfg.size.toNat + ·)) ∧
      (∀ j b v, (t.done * u.cfg.size.toNat + j, b) ∈ q →
        u.settledByte (t.byteOff j) r.obs.view.seen = some v → b = v) ∧
      (u.setRd i r).runReader i m = (u.drawn cs n).setRd i { r with
        ph := .busy { t with dout := t.dout.putAll q, point := .publish } } := by
  induction m with
  | zero =>
    intro left u i r t hm hlt hr
    obtain rfl := List.length_eq_zero_iff.mp hm
    exact ⟨u.choices, u.draws, [], List.Perm.refl _, fun j b v h => (nomatch h),
      congrArg (fun p => u.setRd i { r with ph := p }) hr⟩
  | succ m ih =>
    intro left u i r t hm hlt hr
    have hne : left ≠ [] := fun h => by rw [h] at hm; cases hm
    have hpoint : afterCopy left = .copy left := by
      rw [afterCopy, List.isEmpty_eq_false_iff.mpr hne]
      rfl
    obtain ⟨k, j, b, cs, n, hk, hb, hstep⟩ := State.stepReader_copy hlt hr hpoint hne
    obtain ⟨hkl, hkj⟩ := List.getElem?_eq_some_iff.mp hk
    obtain ⟨cs', n', q, hq, hset, hrun⟩ := ih (left.eraseIdx k) (u.drawn cs n) i
      { r with ph := .busy { t with
          dout := t.dout.put (t.done * u.cfg.size.toNat + j) b, point := afterCopy (left.eraseIdx k) } }
      { t with dout := t.dout.put (t.done * u.cfg.size.toNat + j) b }
      (by rw [List.length_eraseIdx_of_lt hkl]; omega) hlt rfl
    refine ⟨cs', n', (t.done * u.cfg.size.toNat + j, b) :: q, ?_, fun j' b' v hmem hv => ?_, ?_⟩
    · have hperm : List.Perm (j :: left.eraseIdx k) left := hkj ▸ List.getElem_cons_eraseIdx_perm hkl
      exact (hq.cons _).trans (hperm.map (t.done * u.cfg.size.toNat + ·))
    · rcases List.mem_cons.mp hmem with he | hmem
      · obtain ⟨hj', rfl⟩ := Prod.mk.inj he
        obtain rfl : j' = j := by omega
        exact hb v hv
      · exact hset j' b' v hmem hv
    · rw [State.runReader_busy (State.rd_setRd_ph hlt hr), hstep, hrun]
      rfl

/-! ### The stream of a pass (R258) -/

/-- `dout` goes on from the bytes the task has produced with those of a grant of `g` frames from the index `x`, each the newest
byte where a load after `seen` is ordered after every write of it. -/
def State.streamed (s : State) (task : Task) (g : Nat) (x : Word) (seen : Seen) (dout : Memory) : Prop :=
  task.dout <+: dout ∧ dout.map Prod.fst = List.range ((task.done + g) * s.cfg.size.toNat) ∧
  ∀ k b, k < g * s.cfg.size.toNat → s.settledByte (s.cfg.batchOff x k) seen = some b →
    (dout.map Prod.snd)[task.done * s.cfg.size.toNat + k]? = some b

/-- A task whose grant of `g` frames has been copied. -/
def Task.copied (t : Task) (g : Nat) (f0 f1 : Frag) (dout : Memory) : Task :=
  { t.granted g f0 f1 .publish with dout := dout }

/-- A reader that has copied a grant of `g` frames and comes to the release. -/
def Reader.copied (r : Reader) (t : Task) (g : Nat) (f0 f1 : Frag) (dout : Memory) : Reader :=
  { r with obt := BitVec.ofNat 32 g, ph := .busy (t.copied g f0 f1 dout) }

/-- From a grant to the release: all atomic steps of the copy. -/
theorem State.runReader_grant {u : State} {i : Nat} {r : Reader} {t : Task} {g : Nat} (hlt : i < u.readers.length)
    (ht : t.op = .transfer) (hdout : t.dout.map Prod.fst = List.range (t.done * u.cfg.size.toNat)) (hl : u.cfg.legal = true)
    (hg1 : 1 ≤ g) (hg : g ≤ u.cfg.cap) (hx : u.cfg.wellFormed r.lf = true) :
    ∃ (cs : List Nat) (n : Nat) (f0 f1 : Frag) (dout : Memory), u.streamed t g r.lf r.obs.view.seen dout ∧
      ((u.setRd i r).grantReader i t g).runReader i (g * u.cfg.size.toNat) =
        (u.drawn cs n).setRd i (r.copied t g f0 f1 dout) := by
  obtain ⟨-, hsize, -, -⟩ := u.cfg.legal_iff.mp hl
  have hne : afterCopy (List.range (g * u.cfg.size.toNat)) = .copy (List.range (g * u.cfg.size.toNat)) := by
    have hpos : 0 < g * u.cfg.size.toNat := Nat.mul_pos hg1 hsize
    simp only [afterCopy, List.isEmpty_iff, List.range_eq_nil, if_neg (Nat.ne_of_gt hpos)]
  obtain ⟨cs, n, q, hq, hset, hrun⟩ := State.runReader_copy _ (List.range (g * u.cfg.size.toNat)) u i
    { r with
      obt := BitVec.ofNat 32 g
      ph := .busy (t.granted g (u.cfg.frag0 r.lf g) (u.cfg.frag1 r.lf g) (.copy (List.range (g * u.cfg.size.toNat)))) }
    (t.granted g (u.cfg.frag0 r.lf g) (u.cfg.frag1 r.lf g) (.copy (List.range (g * u.cfg.size.toNat))))
    List.length_range hlt (by rw [hne]; rfl)
  have hkeys : List.Perm (q.map Prod.fst) (List.range' (t.done * u.cfg.size.toNat) (g * u.cfg.size.toNat)) := by
    rw [List.range'_eq_map_range]
    exact hq
  obtain ⟨hpre, hall, hat⟩ := Memory.putAll_stream hdout hkeys
  refine ⟨cs, n, u.cfg.frag0 r.lf g, u.cfg.frag1 r.lf g, t.dout.putAll q, ⟨hpre, by rw [hall, Nat.add_mul],
    fun k b hk hb => ?_⟩, ?_⟩
  · obtain ⟨b', hmem, hplace⟩ := hat k hk
    obtain rfl : b' = b := hset k b' b hmem (by
      rw [Task.byteOff_eq_batchOff hl hx hg rfl rfl hk]
      exact hb)
    exact hplace
  · rw [State.grantReader_copies hlt ht hg1]
    exact hrun

/-! ### A pass as a run (R258, R256) -/

/-- From `s`, at the start of a pass that granted `g` frames, to `u`, in which reader `i` has produced `dout`, advanced its front
to `nf` and published it where it throttles, and the release has yet to end. -/
structure State.PassRead (i : Nat) (s u : State) (task : Task) (g : Nat) (nf : Word) (seen : Seen) (dout : Memory) : Prop where
  environment : u.rear = s.rear ∧ u.buf = s.buf ∧ u.writes = s.writes ∧ u.cfg = s.cfg ∧ u.par = s.par ∧ u.wqRear = s.wqRear ∧
    u.inbox = s.inbox ∧ u.sched = s.sched ∧ u.beat = s.beat
  length : u.readers.length = s.readers.length
  peer : u.peer.obs = s.peer.obs
  writer : { u.w with ph := s.w.ph } = s.w
  others : ∀ m, m ≠ i → { u.rd m with ph := (s.rd m).ph } = s.rd m
  reader : u.rd i = { s.rd i with
    lf := nf, obt := (u.rd i).obt, armed := (u.rd i).armed, ph := (u.rd i).ph, obs := (u.rd i).obs }
  posFront : (u.rd i).obs.posFront = (s.rd i).obs.posFront
  front : u.front = if (s.rd i).thr = true then (s.storedFront nf seen).front else s.front
  stream : s.streamed task g (s.rd i).lf seen dout
  out : u.out = s.out

section
variable {i g : Nat} {s u v : State} {task : Task} {nf : Word} {seen : Seen} {dout : Memory}

/-- The trigger keeps what was copied and published. -/
theorem State.PassRead.triggered {j : Nat} {rear : Word} (h : s.PassRead i u task g nf seen dout)
    (htr : u.TriggeredBy v i j rear) : s.PassRead i v task g nf seen dout := by
  obtain ⟨erear, efront, ebuf, ewrites, ecfg, epar, ewq, einbox, esched, ebeat, eout, epeer, ew⟩ := htr.environment
  obtain ⟨hrear, hbuf, hwrites, hcfg, hpar, hwq, hinbox, hsched, hbeat⟩ := h.environment
  refine ⟨⟨erear.trans hrear, ebuf.trans hbuf, ewrites.trans hwrites, ecfg.trans hcfg, epar.trans hpar, ewq.trans hwq,
    einbox.trans hinbox, esched.trans hsched, ebeat.trans hbeat⟩, htr.length.trans h.length, epeer.trans h.peer, ?_,
    fun m hm => ?_, ?_, ?_, efront.trans h.front, h.stream, eout.trans h.out⟩
  · rw [← h.writer]
    exact congrArg (fun w : Writer => { w with ph := s.w.ph }) ew
  · rw [← h.others m hm]
    exact congrArg (fun r : Reader => { r with ph := (s.rd m).ph }) (htr.others m hm)
  · rw [htr.reader, h.reader]
    rfl
  · rw [htr.reader]
    exact h.posFront

/-- A pass is over where the reader has answered the frames done, or has come to the next pass. -/
theorem State.PassRead.ended {lost : Word} {ph : Phase} {out : List Answer} {q : Prop} (h : s.PassRead i u task g nf seen dout)
    (hlt : i < s.readers.length)
    (hends : q ∨ task.ends (task.done + g) (s.rd i).exp → ph = .idle ∧ lost = (s.rd i).lost ∧ ∃ ret, isCount ret (task.done + g) ∧
      out = s.out ++ [{ port := .reader i, resp := { ret := ret, dout := dout.map Prod.snd } }])
    (hgoes : ¬(q ∨ task.ends (task.done + g) (s.rd i).exp) → out = s.out ∧ lost = 0 ∧ ∃ (grant : Nat) (f0 f1 : Frag),
      ph = .busy { task with done := task.done + g, grant := grant, f0 := f0, f1 := f1, dout := dout, point := .load }) :
    s.readPass i (({ u with out := out } : State).setRd i { u.rd i with obt := 0, lost := lost, ph := ph }) task g nf seen q := by
  have hltu : i < ({ u with out := out } : State).readers.length := h.length ▸ hlt
  have hself := State.rd_setRd_same hltu { u.rd i with obt := 0, lost := lost, ph := ph }
  obtain ⟨hrear, hbuf, hwrites, hcfg, hpar, hwq, hinbox, hsched, hbeat⟩ := h.environment
  obtain ⟨hpre, hkeys, hbytes⟩ := h.stream
  unfold State.readPass
  dsimp only
  rw [hself]
  refine ⟨hrear, hbuf, hwrites, hcfg, hpar, hwq, hinbox, hsched, hbeat, (State.setRd_length ..).trans h.length, h.peer, h.writer,
    fun m hm => ?_, ?_, h.posFront, fun hthr => h.front.trans (if_pos hthr),
    fun hthr => h.front.trans (if_neg (Bool.eq_false_iff.mp hthr)), dout, hpre, hkeys, hbytes, hends, hgoes⟩
  · rw [State.rd_setRd_ne (Ne.symm hm)]
    exact h.others m hm
  · rw [h.reader]

/-- With the end of the release the pass is over. -/
theorem State.PassRead.readPass {f0 f1 : Frag} {failed : Bool} {q : Prop} (h : s.PassRead i u task g nf seen dout)
    (hlt : i < s.readers.length) (ht : task.op = .transfer) (hq : failed = true ↔ q) :
    s.readPass i (u.releasedReader i (task.copied g f0 f1 dout) failed) task g nf seen q := by
  have hltu : i < u.readers.length := h.length ▸ hlt
  have ht' : (task.copied g f0 f1 dout).op = .transfer := ht
  have hexp : (u.rd i).exp = (s.rd i).exp := by rw [h.reader]
  have hlost : (u.rd i).lost = (s.rd i).lost := by rw [h.reader]
  rw [← u.setRd_rd i]
  by_cases hend : failed = true ∨ task.ends (task.done + g) (u.rd i).exp
  · rw [State.releasedReader_of_ends hltu ht' hend]
    refine h.ended hlt (fun _ => ⟨rfl, hlost, _, Response.frames_isCount _, congrArg (· ++ _) h.out⟩) fun hno => ?_
    rw [← hexp, ← hq] at hno
    exact absurd hend hno
  · rw [State.releasedReader_of_goes_on hltu ht' hend]
    refine h.ended hlt (fun hyes => ?_) fun _ => ⟨h.out, rfl, 0, f0, f1, rfl⟩
    rw [← hexp, ← hq] at hyes
    exact absurd hyes hend

end

section
variable {s : State} {i g j n : Nat} {cs : List Nat} {task : Task} {nf : Word} {f0 f1 : Frag} {dout : Memory}

/-- What the load of a pass orders before its byte loads (20_memory R84). -/
def Reader.seenAt (r : Reader) (x : Cell) (j : Nat) : Seen := (r.obs.view.acquire (x.handsOver j)).seen

/-- A pass comes to the end of its release in a state that differs from its start in draws, `FRONT` and the reader. -/
theorem State.passRead_of_front {u : State} {r : Reader} {seen : Seen} {front : Cell} (hlt : i < s.readers.length)
    (hu : u = { s with choices := cs, draws := n, front := front })
    (hfront : front = if (s.rd i).thr = true then (s.storedFront nf seen).front else s.front)
    (hr : r = { s.rd i with lf := nf, obt := r.obt, armed := r.armed, ph := r.ph, obs := r.obs })
    (hpos : r.obs.posFront = (s.rd i).obs.posFront) (hstream : s.streamed task g (s.rd i).lf seen dout) :
    s.PassRead i (u.setRd i r) task g nf seen dout := by
  subst hu
  have hself := State.rd_setRd_same (s := { s with choices := cs, draws := n, front := front }) hlt r
  refine ⟨⟨rfl, rfl, rfl, rfl, rfl, rfl, rfl, rfl, rfl⟩, State.setRd_length .., rfl, rfl, fun m hm => ?_, ?_, ?_, hfront, hstream,
    rfl⟩
  · rw [State.rd_setRd_ne (Ne.symm hm)]
    rfl
  · rw [hself]
    exact hr
  · rw [hself]
    exact hpos

variable (hp : s.atReadPass i task) (hl : s.cfg.legal = true) (hg1 : 1 ≤ g) (hg : g ≤ s.cfg.cap)
  (hx : s.cfg.wellFormed (s.rd i).lf = true)
  (hload : s.stepReader i = ((s.drawn cs n).setRd i ((s.rd i).loaded .rear s.rear j)).grantReader i task g)
include hp hl hg1 hg hx hload

/-- A pass that grants, through its copy. -/
theorem State.runReader_copied : ∃ (cs' : List Nat) (n' : Nat) (f0 f1 : Frag) (dout : Memory) (r : Reader),
    s.runReader i (g * s.cfg.size.toNat + 1) = (s.drawn cs' n').setRd i r ∧
    r = { s.rd i with obt := r.obt, ph := .busy (task.copied g f0 f1 dout), obs := r.obs } ∧
    r.obs = ((s.rd i).loaded .rear s.rear j).obs ∧ s.streamed task g (s.rd i).lf r.obs.view.seen dout := by
  obtain ⟨hph, ht, -, hlt, hdout⟩ := hp
  obtain ⟨cs', n', f0, f1, dout, hstream, hrun⟩ := State.runReader_grant (u := s.drawn cs n)
    (r := (s.rd i).loaded .rear s.rear j) hlt ht hdout hl hg1 hg hx
  refine ⟨cs', n', f0, f1, dout, ((s.rd i).loaded .rear s.rear j).copied task g f0 f1 dout, ?_, rfl, rfl, hstream⟩
  rw [State.runReader_busy hph, hload]
  exact hrun

variable (hs : s.cfg.sum (s.rd i).lf g = some nf)
include hs

/-- A pass that grants `g` frames to a reader that does not throttle. -/
theorem State.runReader_quiet_pass (hthr : (s.rd i).thr = false) : ∃ (m : Nat) (t : State), m ≤ g * s.cfg.size.toNat + 4 ∧
    s.runReader i m = t ∧ s.readPass i t task g nf ((s.rd i).seenAt s.rear j) False ∧ (t.rd i).armed = (s.rd i).armed ∧
    (t.rd i).obs.posRear = j ∧ t.wqFront = s.wqFront ∧ t.w = s.w ∧ t.peer = s.peer ∧
    ∀ s0, s.agreesBeside s0 i → (t.rd i).ph = (s0.rd i).ph → wokenAtMost (t.rd i).obs.view.seen s0 t := by
  obtain ⟨-, ht, -, hlt, -⟩ := id hp
  obtain ⟨cs', n', f0, f1, dout, r, hrun, hr, hobs, hstream⟩ := State.runReader_copied hp hl hg1 hg hx hload
  have hlf : r.lf = (s.rd i).lf := by rw [hr]
  have hposF : r.obs.posFront = (s.rd i).obs.posFront := by rw [hobs]; rfl
  have hlt' : i < (s.drawn cs' n').readers.length := hlt
  have hph := State.rd_setRd_ph hlt' (r := r) (t := task.copied g f0 f1 dout) (by rw [hr])
  have hpub := State.publishReader_of_quiet (t := task.copied g f0 f1 dout) hlt' (by rw [hlf]; exact hs) (by rw [hr]; exact hthr)
  have hpass : s.PassRead i ((s.drawn cs' n').setRd i (r.advanced nf g)) task g nf r.obs.view.seen dout :=
    State.passRead_of_front hlt rfl (if_neg (Bool.eq_false_iff.mp hthr)).symm (by rw [hr]; rfl) hposF
      hstream
  obtain ⟨obt, lost, ph, out, -, he⟩ :=
    State.releasedReader_frame hlt' (r.advanced nf g) (task.copied g f0 f1 dout) false
  have hself := State.rd_setRd_same (s := { s.drawn cs' n' with out := out }) hlt'
    { r.advanced nf g with obt := obt, lost := lost, ph := ph }
  rw [hobs] at hpass
  refine ⟨g * s.cfg.size.toNat + 1 + 1, _, by omega, ?_, hpass.readPass (f0 := f0) (f1 := f1) (failed := false) hlt ht (by simp),
    ?_⟩
  · rw [State.runReader_add, hrun, State.runReader_busy hph, State.stepReader_of_publish hph rfl, hpub]
    rfl
  · rw [he, hself]
    refine ⟨by rw [hr]; rfl, congrArg Observer.posRear hobs, rfl, rfl, rfl, fun s0 hs0 hph0 => .inl ⟨?_, fun o => ?_⟩⟩
    · obtain ⟨-, -, -, hq, -⟩ := hs0
      exact hq.symm
    · exact keptIn.beside (s := s) hs0 (State.agreesBeside_setRd { s.drawn cs' n' with out := out } i _)
        ((congrArg Reader.ph hself).trans hph0) (keptIn_refl s o)

/-- A pass that grants `g` frames to the throttling reader: the copy, the publication and the trigger. -/
theorem State.runReader_throttling_pass (hthr : (s.rd i).thr = true) (hj : j ≤ s.rear.newest) :
    ∃ (m : Nat) (t : State) (j' : Nat) (rear' : Word), m ≤ g * s.cfg.size.toNat + 4 ∧ s.runReader i m = t ∧ j ≤ j' ∧
      s.rear.hist[j']? = some rear' ∧ (t.rd i).obs.posRear = j' ∧
      s.readPass i t task g nf ((s.rd i).seenAt s.rear j) (s.cfg.diff rear' nf true = .eio) ∧
      readerTriggered i (s.setRd i { s.rd i with ph := (t.rd i).ph }) t nf rear' ∧
      ∀ s0, s.agreesBeside s0 i → (t.rd i).ph = (s0.rd i).ph → wokenAtMost (t.rd i).obs.view.seen s0 t := by
  obtain ⟨-, ht, -, hlt, -⟩ := id hp
  obtain ⟨cs', n', f0, f1, dout, r, hrun, hr, hobs, hstream⟩ := State.runReader_copied hp hl hg1 hg hx hload
  have hlf : r.lf = (s.rd i).lf := by rw [hr]
  have hposF : r.obs.posFront = (s.rd i).obs.posFront := by rw [hobs]; rfl
  have hlt' : i < (s.drawn cs' n').readers.length := hlt
  have hposj : r.obs.posRear = j := congrArg Observer.posRear hobs
  obtain ⟨m, j', rear', v, failed, hm, hlo, hrear, htr, hfail, hpub⟩ := State.runReader_publish (nf := nf) (r := r)
    (t := task.copied g f0 f1 dout) hlt' (by rw [hr]) rfl (by rw [hlf]; exact hs) (by rw [hr]; exact hthr)
    (by rw [hposj]; exact hj)
  have hself := State.rd_setRd_same (s := (s.drawn cs' n').storedFront nf r.obs.view.seen) hlt'
    (r.published nf (task.copied g f0 f1 dout))
  have hpub1 : s.PassRead i (((s.drawn cs' n').storedFront nf r.obs.view.seen).setRd i
      (r.published nf (task.copied g f0 f1 dout))) task g nf r.obs.view.seen dout :=
    State.passRead_of_front (front := (s.storedFront nf r.obs.view.seen).front) hlt rfl (if_pos hthr).symm
      (by rw [hr]; rfl) hposF hstream
  have hpass := hpub1.triggered htr
  obtain ⟨-, obt, lost, ph, -, hend⟩ := htr.released (t := task.copied g f0 f1 dout) (failed := failed) (State.setRd_lt hlt')
  have hbeside : State.agreesBeside (((s.drawn cs' n').storedFront nf r.obs.view.seen).setRd i
      (r.published nf (task.copied g f0 f1 dout))) s i :=
    (State.agreesBeside_setRd ((s.drawn cs' n').storedFront nf r.obs.view.seen) i _).symm
  have hph0 := State.rd_setRd_same hlt { s.rd i with ph := ((v.releasedReader i (task.copied g f0 f1 dout) failed).rd i).ph }
  have htrig := htr.readerTriggered (State.setRd_lt hlt') (hbeside.trans (State.agreesBeside_setRd s i _)) (by rw [hph0])
    (by rw [hself, hph0, hr]; exact ⟨rfl, rfl, rfl⟩)
  rw [hself] at htrig
  refine ⟨g * s.cfg.size.toNat + 1 + (m + 1), _, j', rear', by omega, ?_, hposj ▸ hlo, hrear, ?_, ?_, htrig,
    fun s0 hs0 hph0 => htr.released_woken (State.setRd_lt hlt') (hbeside.trans hs0) hph0⟩
  · rw [State.runReader_add, hrun, hpub]
  · rw [hend, htr.reader]
    rfl
  · rw [hobs] at hpass
    exact hpass.readPass hlt ht hfail

/-- A pass that grants `g` frames to any reader. -/
theorem State.runReader_pass (hj : j ≤ s.rear.newest) : ∃ (m : Nat) (t : State) (q : Prop), m ≤ g * s.cfg.size.toNat + 4 ∧
    s.runReader i m = t ∧ s.readPass i t task g nf ((s.rd i).seenAt s.rear j) q ∧
    ((s.rd i).thr = false → t.wqFront = s.wqFront ∧ t.w = s.w) ∧
    ∀ s0, s.agreesBeside s0 i → (t.rd i).ph = (s0.rd i).ph → wokenAtMost (t.rd i).obs.view.seen s0 t := by
  cases hthr : (s.rd i).thr with
  | false =>
    obtain ⟨m, t, hm, hrun, hpass, -, -, hq, hw, -, hwoken⟩ := State.runReader_quiet_pass hp hl hg1 hg hx hload hs hthr
    exact ⟨m, t, False, hm, hrun, hpass, fun _ => ⟨hq, hw⟩, hwoken⟩
  | true =>
    obtain ⟨m, t, j', rear', hm, hrun, -, -, -, hpass, -, hwoken⟩ :=
      State.runReader_throttling_pass hp hl hg1 hg hx hload hs hthr hj
    exact ⟨m, t, _, hm, hrun, hpass, fun h => (nomatch h), hwoken⟩

end

/-! ### How a pass ends without frames (R252, R255) -/

theorem CfgRegs.wellFormed_front_of_diff {c : CfgRegs} {r f : Word} {who : Bool} {fill : Nat} (h : c.diff r f who = .ok fill) :
    c.wellFormed f = true := by
  by_contra hw
  rw [CfgRegs.diff_of_illFormed (.inr (by simpa using hw))] at h
  cases h

/-- A read that failed: the error, or the frames done with their bytes (R258). -/
theorem Task.failure_of_transfer {t : Task} (ht : t.op = .transfer) (p : Params) (k : ErrKind) (lost : Nat) :
    (t.done = 0 → t.failure p k lost = { ret := errCode p k, lost := if t.lv then BitVec.ofNat 32 lost else 0 }) ∧
    (1 ≤ t.done → ∃ ret, isCount ret t.done ∧ t.failure p k lost = { ret := ret, dout := t.dout.map Prod.snd }) :=
  ⟨fun h => Task.failure_of_first h p k lost, fun h => Task.failure_of_done ht h p k lost⟩

/-- The rules of the load, for a pass of `R.READ`. -/
theorem State.stepReader_pass_of_grants {s u : State} {i : Nat} {r : Reader} {t : Task} {rear : Word} {fill : Nat}
    (hp : s.atReadPass i t) (hlt : i < u.readers.length) (hl : s.ldaq (.reader i) .rear = (rear, u.setRd i r))
    (hd : s.cfg.diff rear r.lf true = .ok fill) (hw : ¬(fill = 0 ∧ blocking t.tmo = true ∧ r.exp = false)) :
    s.stepReader i = (u.setRd i r).grantReader i t (min (t.count.toNat - t.done) fill) := by
  obtain ⟨hph, ht, hload, -, -⟩ := hp
  rw [State.stepReader_of_load hph hload, State.loadReader_of_grants hlt hl hd hw, Task.want_of_transfer ht]

/-! ### The read that may not block -/

/-- A run that has ended stays so under every longer burst. -/
theorem State.runReader_of_le {s t : State} {i m n : Nat} (h : s.runReader i m = t) (ht : (t.rd i).ph.isBusy = false)
    (hm : m ≤ n) : s.runReader i n = t := by
  obtain ⟨d, rfl⟩ := Nat.exists_eq_add_of_le hm
  rw [State.runReader_add, h, State.runReader_idle ht]

/-- The state in which reader `i` begins a read. -/
abbrev State.reading (s : State) (i : Nat) (count : Word) (tmo : Timeout) (lv : Bool) : State :=
  s.setRd i ((s.rd i).begun (rReadTask count tmo lv))

theorem State.reading_atReadPass {s : State} {i : Nat} (hlt : i < s.readers.length) (count : Word) (tmo : Timeout) (lv : Bool) :
    (s.reading i count tmo lv).atReadPass i (rReadTask count tmo lv) :=
  ⟨State.rd_setRd_ph hlt rfl, rfl, rfl, State.setRd_lt hlt,
    by rw [show (rReadTask count tmo lv).done = 0 from rfl, Nat.zero_mul]; rfl⟩

/-- From `s`, in which reader `i` is idle, to `t`, in which its read has been answered: nothing has changed but `FRONT`, the
reader's registers, the responses, and whom a trigger woke. -/
structure State.ReadEnded (i : Nat) (s t : State) : Prop where
  environment : t.rear = s.rear ∧ t.buf = s.buf ∧ t.writes = s.writes ∧ t.cfg = s.cfg ∧ t.par = s.par ∧ t.wqRear = s.wqRear ∧
    t.inbox = s.inbox ∧ t.sched = s.sched ∧ t.peer.obs = s.peer.obs
  length : t.readers.length = s.readers.length
  writer : { t.w with ph := s.w.ph } = s.w
  others : ∀ m, m ≠ i → { t.rd m with ph := (s.rd m).ph } = s.rd m
  obt : (t.rd i).obt = 0
  idle : (t.rd i).ph = .idle
  woken : wokenAtMost (t.rd i).obs.view.seen s t

/-- The read from `s` to `t` was granted `g` frames: their bytes come out in order, each the newest byte where a load after
`seen` is ordered after every write of it, and the front has advanced over them. -/
def State.readGranted (i : Nat) (s t : State) (g : Nat) (seen : Seen) : Prop :=
  ∃ dout : List Byte, t.out = s.out ++ [{ port := .reader i, resp := { ret := BitVec.ofNat 32 g, dout := dout } }] ∧
    dout.length = g * s.cfg.size.toNat ∧ s.cfg.sum (s.rd i).lf g = some (t.rd i).lf ∧ (t.rd i).lost = 0 ∧
    ((s.rd i).thr = false → t.front = s.front ∧ t.wqFront = s.wqFront ∧ t.w = s.w) ∧
    ((s.rd i).thr = true → 1 ≤ g → t.front.hist = s.front.hist ++ [(t.rd i).lf]) ∧
    ∀ k b, k < g * s.cfg.size.toNat → s.settledByte (s.cfg.batchOff (s.rd i).lf k) seen = some b → dout[k]? = some b

/-- What a read that may not block answers, by the rear it observed, and what it leaves of `R_LF` and `R_LOST`. -/
def State.readOutcome (i : Nat) (s t : State) (count : Word) (lv : Bool) (rear : Word) (seen : Seen) : Prop :=
  match s.cfg.diff rear (s.rd i).lf true with
  | .eio =>
    t.out = s.out ++ [{ port := .reader i, resp := { ret := s.par.errEio } }] ∧ (t.rd i).lf = (s.rd i).lf ∧ (t.rd i).lost = 0
  | .overflow lost =>
    t.out = s.out ++ [{ port := .reader i, resp :=
      { ret := s.par.errEoverflow, lost := if lv then BitVec.ofNat 32 lost else 0 } }] ∧
    s.cfg.back rear = some (t.rd i).lf ∧ (t.rd i).lost = BitVec.ofNat 32 lost
  | .ok fill => s.readGranted i t (min count.toNat fill) seen

section
variable {s : State} {i : Nat} (hlt : i < s.readers.length) (hi : (s.rd i).ph = .idle)
include hlt hi

/-- A read that ends with a response and no trigger. -/
theorem State.readEnded_answer {t u : State} {r : Reader} {cs : List Nat} {n : Nat} {front : Cell} {x : Response}
    (ht : t = (u.setRd i r).answer (.reader i) x) (hu : u = { s with choices := cs, draws := n, front := front })
    (hobt : r.obt = 0) (hr : r.ph = .idle) : s.ReadEnded i t ∧ t.rd i = r ∧
      t.out = s.out ++ [{ port := .reader i, resp := x }] ∧ t.front = front ∧ t.wqFront = s.wqFront ∧ t.w = s.w := by
  subst hu ht
  have hlt' : i < ({ s with choices := cs, draws := n, front := front } : State).readers.length := hlt
  have hself := (State.rd_congr (State.answer_readers _ (.reader i) x) i).trans (State.rd_setRd_same hlt' r)
  refine ⟨⟨⟨rfl, rfl, rfl, rfl, rfl, rfl, rfl, rfl, rfl⟩, State.setRd_length .., rfl, fun m hm => ?_, by rw [hself, hobt],
    by rw [hself, hr], .inl ⟨rfl, fun o => ?_⟩⟩, hself, rfl, rfl, rfl, rfl⟩
  · rw [State.rd_congr (State.answer_readers _ _ _), State.rd_setRd_ne (Ne.symm hm)]
    rfl
  · exact keptIn.beside (s := s) (s' := s) ⟨rfl, rfl, rfl, rfl, fun _ _ => rfl⟩
      (State.agreesBeside_setRd { s with choices := cs, draws := n, front := front } i r)
      ((congrArg Reader.ph hself).trans (hr.trans hi.symm)) (keptIn_refl s o)

variable {count nf : Word} {tmo : Timeout} {lv : Bool} (htmo : blocking tmo = false)
include htmo

/-- The one pass of a read that may not block ends it, with the bytes of the frames. -/
theorem State.readEnded_of_readPass {t : State} {g : Nat} {seen : Seen} {q : Prop}
    (h : (s.reading i count tmo lv).readPass i t (rReadTask count tmo lv) g nf seen q)
    (hwoken : ∀ s0, (s.reading i count tmo lv).agreesBeside s0 i → (t.rd i).ph = (s0.rd i).ph →
      wokenAtMost (t.rd i).obs.view.seen s0 t) :
    s.ReadEnded i t ∧ (t.rd i).lf = nf ∧ (t.rd i).lost = 0 ∧
      ((s.rd i).thr = true → t.front.hist = s.front.hist ++ [nf]) ∧ ((s.rd i).thr = false → t.front = s.front) ∧
      ∃ (dout : List Byte) (ret : Word), isCount ret g ∧ dout.length = g * s.cfg.size.toNat ∧
        t.out = s.out ++ [{ port := .reader i, resp := { ret := ret, dout := dout } }] ∧
        ∀ k b, k < g * s.cfg.size.toNat → s.settledByte (s.cfg.batchOff (s.rd i).lf k) seen = some b → dout[k]? = some b := by
  unfold State.readPass at h
  dsimp only at h
  rw [State.rd_setRd_same hlt] at h
  obtain ⟨hrear, hbuf, hwrites, hcfg, hpar, hwq, hinbox, hsched, -, hlen, hpeer, hw, hothers, hrd, -, hpub, hquiet, dout,
    -, hkeys, hbytes, hends, -⟩ := h
  have hdone : (rReadTask count tmo lv).done = 0 := rfl
  rw [hdone, Nat.zero_add] at hkeys hends
  rw [hdone, Nat.zero_mul] at hbytes
  obtain ⟨hidle, hlost, ret, hret, hout⟩ := hends (.inr (.inr (.inl htmo)))
  refine ⟨⟨⟨hrear, hbuf, hwrites, hcfg, hpar, hwq, hinbox, hsched, hpeer⟩, hlen.trans (State.setRd_length ..), hw, fun m hm => ?_,
    by rw [hrd], hidle, hwoken s (State.agreesBeside_setRd s i _).symm (hidle.trans hi.symm)⟩, by rw [hrd], hlost, fun hthr => ?_,
    hquiet, dout.map Prod.snd, ret, hret, ?_, hout, fun k b hk hb => ?_⟩
  · have h := hothers m hm
    rwa [State.rd_setRd_ne (Ne.symm hm)] at h
  · have hpush : t.front = s.front.push { value := nf, seen := seen } := hpub hthr
    rw [hpush, Cell.hist_push]
  · have h := congrArg List.length hkeys
    rw [List.length_map, List.length_range] at h
    exact (List.length_map _).trans h
  · have h := hbytes k b hk hb
    rwa [Nat.zero_add] at h

variable (hl : s.cfg.legal = true) (hb : s.cfg.bytes + 3 ≤ s.beat.burst)
include hl hb

/-- The command, once its load has granted `g` frames. -/
theorem State.readEnded_of_grant {cs : List Nat} {n j g : Nat} (hj : j ≤ s.rear.newest) (hg : g ≤ s.cfg.cap)
    (hx : s.cfg.wellFormed (s.rd i).lf = true)
    (hgrant : (s.reading i count tmo lv).stepReader i =
      ((s.drawn cs n).setRd i (((s.rd i).begun (rReadTask count tmo lv)).loaded .rear s.rear j)).grantReader i
        (rReadTask count tmo lv) g) :
    ∃ t, (s.reading i count tmo lv).runReader i (s.beat.burst + 1) = t ∧ s.ReadEnded i t ∧
      s.readGranted i t g ((s.rd i).seenAt s.rear j) := by
  obtain ⟨-, -, -, h30⟩ := s.cfg.legal_iff.mp hl
  have hlt' : i < (s.drawn cs n).readers.length := hlt
  have hph := State.rd_setRd_ph hlt (r := (s.rd i).begun (rReadTask count tmo lv)) rfl
  refine ⟨_, rfl, ?_⟩
  rcases Nat.eq_zero_or_pos g with rfl | hg1
  · have hrun := State.runReader_busy hph s.beat.burst
    rw [hgrant, State.grantReader_zero hlt' rfl, State.runReader_answer hlt' rfl] at hrun
    obtain ⟨hended, hself, hout, hfront, hq, hw⟩ := State.readEnded_answer hlt hi hrun rfl rfl rfl
    refine ⟨hended, [], hout, by rw [Nat.zero_mul]; rfl, by rw [hself]; exact CfgRegs.sum_zero hx, by rw [hself]; rfl,
      fun _ => ⟨hfront, hq, hw⟩, fun _ h => (nomatch h), fun k b hk => by omega⟩
  · obtain ⟨nf, hs⟩ := CfgRegs.exists_sum hx g
    have hself := State.rd_setRd_same hlt ((s.rd i).begun (rReadTask count tmo lv))
    obtain ⟨m, t, q, hm, hrun, hpass, hquiet, hwoken⟩ := State.runReader_pass
      (s := s.reading i count tmo lv) (task := rReadTask count tmo lv) (cs := cs) (n := n) (nf := nf)
      (State.reading_atReadPass hlt count tmo lv) hl hg1 hg (by rw [hself]; exact hx)
      (by
        rw [hgrant, hself]
        exact congrArg (State.grantReader i _ _) (State.setRd_setRd (s.drawn cs n) i _ _).symm)
      (by rw [hself]; exact hs) hj
    rw [hself] at hpass hquiet
    obtain ⟨hended, hlf, hlost, hpub, hstill, dout, ret, hret, hlen, hout, hbytes⟩ :=
      State.readEnded_of_readPass hlt hi htmo hpass hwoken
    have hsteps : g * s.cfg.size.toNat ≤ s.cfg.bytes := Nat.mul_le_mul_right _ hg
    have hword : (BitVec.ofNat 32 g).toNat = g := Nat.mod_eq_of_lt (by omega)
    rw [State.runReader_of_le hrun (by rw [hended.idle]; rfl)
      (Nat.le_trans hm (Nat.succ_le_succ (Nat.le_trans (Nat.add_le_add_right hsteps 3) hb)))]
    rw [← hword] at hret
    rw [eq_of_isCount hret (by omega)] at hout
    refine ⟨hended, dout, hout, hlen, by rw [hlf, hs], hlost, fun hthr => ⟨hstill hthr, hquiet hthr⟩, fun hthr _ => ?_, hbytes⟩
    rw [hlf]
    exact hpub hthr

/-- The command, for every rear that its load may observe. -/
theorem State.exists_readEnded (hpos : (s.rd i).obs.posRear ≤ s.rear.newest) : ∃ (j : Nat) (rear : Word) (t : State),
    (s.rd i).obs.posRear ≤ j ∧ s.rear.hist[j]? = some rear ∧ (s.par.xing = .sc → j = s.rear.newest) ∧
    (s.reading i count tmo lv).runReader i (s.beat.burst + 1) = t ∧ s.ReadEnded i t ∧
    s.readOutcome i t count lv rear ((s.rd i).seenAt s.rear j) := by
  obtain ⟨j, rear, cs, n, hlo, hrear, hsc, hld⟩ :=
    State.ldaq_setRd (r := (s.rd i).begun (rReadTask count tmo lv)) hlt hpos
  have hlt' : i < (s.drawn cs n).readers.length := hlt
  have hph := State.rd_setRd_ph hlt (r := (s.rd i).begun (rReadTask count tmo lv)) rfl
  have hstep := State.stepReader_of_load hph rfl
  have hrun := State.runReader_busy hph s.beat.burst
  refine ⟨j, rear, _, hlo, hrear, hsc, rfl, ?_⟩
  unfold State.readOutcome
  cases hd : s.cfg.diff rear (s.rd i).lf true with
  | eio =>
    rw [hstep, State.loadReader_of_eio hlt' hld hd, State.runReader_answer hlt' rfl, Task.failure_of_first rfl] at hrun
    obtain ⟨hended, hself, hout, -⟩ := State.readEnded_answer hlt hi hrun rfl rfl rfl
    refine ⟨hended, ?_, by rw [hself]; rfl, by rw [hself]; rfl⟩
    rw [hout]
    cases lv <;> rfl
  | overflow lost =>
    obtain ⟨back, hback, -⟩ := CfgRegs.exists_back_of_overflow hd
    cases hthr : (s.rd i).thr with
    | false =>
      rw [hstep, State.loadReader_of_lapped hlt' hld rfl hd hback hthr, State.runReader_answer hlt' rfl,
        Task.failure_of_first rfl] at hrun
      obtain ⟨hended, hself, hout, -⟩ := State.readEnded_answer hlt hi hrun rfl rfl rfl
      exact ⟨hended, hout, by rw [hself]; exact hback, by rw [hself]⟩
    | true =>
      rw [hstep, State.loadReader_of_lapped_throttling hlt' hld rfl hd hback hthr,
        State.runReader_resync hlt' rfl rfl (by omega), Task.failure_of_first rfl] at hrun
      obtain ⟨hended, hself, hout, -⟩ := State.readEnded_answer hlt hi hrun rfl rfl rfl
      exact ⟨hended, hout, by rw [hself]; exact hback, by rw [hself]; rfl⟩
  | ok fill =>
    have hgrant := State.loadReader_of_grants (t := rReadTask count tmo lv) hlt' hld hd
      fun ⟨_, hb, _⟩ => absurd (hb.symm.trans htmo) (by decide)
    rw [Task.want_of_transfer rfl] at hgrant
    obtain ⟨t, ht, hended, hgranted⟩ := State.readEnded_of_grant hlt hi htmo hl hb
      ((Cell.hist_getElem?_eq_some_iff _).mp hrear).1 (Nat.le_trans (Nat.min_le_right _ _) (CfgRegs.diff_ok_le hd))
      (CfgRegs.wellFormed_front_of_diff hd) (hstep.trans hgrant)
    subst ht
    exact ⟨hended, hgranted⟩

end

/-- Settles O44: the read that may not block is its one pass; the passes and the copy step are those of the lemmas above. -/
theorem rReadCopiesAndReleases : Obligations.RReadCopiesAndReleases := by
  refine ⟨?_, fun s i count tmo lv hp hlt hi hv => exec_rRead_begun hp hlt hi hv count tmo lv, ?_, ?_, ?_⟩
  · intro s i count tmo lv hp hlt hi hv hl hb htmo r hpos
    obtain ⟨j, rear, t, hlo, hrear, hsc, hrun, hended, houtcome⟩ :=
      State.exists_readEnded (count := count) (lv := lv) hlt hi htmo hl hb hpos
    obtain ⟨⟨hr, hbuf, hwrites, hcfg, hpar, hwq, hinbox, hsched, hpeer⟩, hlen, hw, hothers, hobt, hidle, hwoken⟩ := hended
    refine ⟨j, rear, t, hlo, hrear, hsc, ?_, hr, hbuf, hwrites, hcfg, hpar, hwq, hinbox, hsched, hpeer, hlen, hw, hothers, hobt,
      hidle, hwoken, houtcome⟩
    rw [exec_rRead_begun hp hlt hi hv, hrun]
  · intro s i task hp hl r hpos
    obtain ⟨hph, ht, hload, hlt, -⟩ := id hp
    obtain ⟨j, rear, cs, n, hlo, hrear, hsc, hld⟩ := State.ldaq_reader (s := s) (i := i) (c := .rear) hpos
    have hlt' : i < (s.drawn cs n).readers.length := hlt
    have hstep := State.stepReader_of_load hph hload
    refine ⟨j, rear, cs, n, hlo, hrear, hsc, fun hd => ?_, fun lost hd => ?_, fun fill hd => ⟨fun hw => ?_, fun hw hg => ?_,
      fun hw hg1 => ?_⟩⟩
    · obtain ⟨h0, h1⟩ := Task.failure_of_transfer ht s.par .eio 0
      refine ⟨_, fun hdone => ?_, h1, hstep.trans (State.loadReader_of_eio hlt' hld hd)⟩
      rw [h0 hdone]
      cases task.lv <;> rfl
    · obtain ⟨back, hback, hlost⟩ := CfgRegs.exists_back_of_overflow hd
      obtain ⟨h0, h1⟩ := Task.failure_of_transfer ht s.par .eoverflow lost
      refine ⟨back, BitVec.ofNat 32 lost, _, hback, hlost, h0, h1,
        fun hthr => hstep.trans (State.loadReader_of_lapped hlt' hld rfl hd hback hthr), fun hthr => ?_⟩
      have hresync := hstep.trans (State.loadReader_of_lapped_throttling hlt' hld rfl hd hback hthr)
      refine ⟨hresync, ?_⟩
      rw [State.runReader_busy hph, hresync, State.runReader_resync hlt' rfl rfl (Nat.le_refl 1)]
      rfl
    · exact hstep.trans (State.loadReader_of_waits hlt' hld hd hw)
    · refine ⟨_, Response.frames_isCount task.done, ?_⟩
      rw [State.stepReader_pass_of_grants hp hlt' hld hd hw, hg, State.grantReader_zero hlt' ht]
      rfl
    · have hx := CfgRegs.wellFormed_front_of_diff hd
      have hcap := Nat.le_trans (Nat.min_le_right (task.count.toNat - task.done) fill) (CfgRegs.diff_ok_le hd)
      have hgrant := State.stepReader_pass_of_grants hp hlt' hld hd hw
      obtain ⟨nf, hs⟩ := CfgRegs.exists_sum hx (min (task.count.toNat - task.done) fill)
      rcases Bool.eq_false_or_eq_true r.thr with hthr | hthr
      · obtain ⟨m, t, j', rear', hm, hrun, hlo', hrear', hposj, hpass, htrig, -⟩ :=
          State.runReader_throttling_pass hp hl hg1 hcap hx hgrant hs hthr ((Cell.hist_getElem?_eq_some_iff _).mp hrear).1
        exact ⟨m, t, nf, hm, hrun, hs, fun h => absurd (hthr.symm.trans h) (by decide),
          fun _ => ⟨j', rear', hlo', hrear', hposj, hpass, htrig⟩⟩
      · obtain ⟨m, t, hm, hrun, hpass, harmed, hposj, hq, hw, hpeer, -⟩ :=
          State.runReader_quiet_pass hp hl hg1 hcap hx hgrant hs hthr
        exact ⟨m, t, nf, hm, hrun, hs, fun _ => ⟨hpass, harmed, hposj, hq, hw, hpeer⟩,
          fun h => absurd (hthr.symm.trans h) (by decide)⟩
  · intro s i task lost hph ht hpt hlt r
    obtain ⟨h0, h1⟩ := Task.failure_of_transfer ht s.par .eoverflow lost
    refine ⟨_, h0, h1, ?_⟩
    rw [State.stepReader_of_resync hph hpt]
    conv_lhs => rw [← State.setRd_rd s i, State.resyncReader_setRd hlt]
    rfl
  · intro s i task left hph hpt hne hlt
    obtain ⟨k, j, b, cs, n, hk, hb, hstep⟩ := State.stepReader_copy hlt hph hpt hne
    rw [State.setRd_rd] at hstep
    refine ⟨k, j, b, cs, n, hk, hb, hstep.trans ?_⟩
    simp only [afterCopy, List.isEmpty_iff]
    rfl

end Sys2Proof.Machine
end

section
/-! PROOF. Whose change it is: every operation is a chain of changes each of which its own agent may make (60_exceptions R304).
`Moves` does not say which agent moves, so the operations are followed here by agent. A command is refused, or it is such a
chain, and no change of a chain answers `REFUSED` (R296). -/

open Sys2Proof Sys2Proof.Machine

namespace Sys2Proof.Machine

/-! ### The changes of one agent -/

/-- The reader may come to store `FRONT`: it throttles, or stands before the store of a resynchronisation (44_reader R255, R256). -/
def Reader.storesFront (r : Reader) : Bool := r.thr || r.ph.resyncing

/-- Who stores which cell (20_memory R82): the writer `REAR`, a throttling reader `FRONT`, the foreign peer either. -/
def State.mayStore (s : State) : Agent → CellSel → Prop
  | .writer, .rear => True
  | .reader i, .front => (s.rd i).storesFront = true
  | .peer, _ => True
  | _, _ => False

/-- One change that agent `o` makes. `attaches` says whether a reader may begin to throttle among the changes. -/
inductive Deed (attaches : Prop) : Agent → State → State → Prop
  /-- The schedule, the ports and the draws go on. -/
  | environment (o : Agent) (s : State) (b : Beat) (rest : List Command) (q : List Turn) (cs : List Nat) (n : Nat) :
      Deed attaches o s { s with beat := b, inbox := rest, sched := q, choices := cs, draws := n }
  /-- An accepted command is answered. -/
  | answer (o : Agent) (s : State) (port : Agent) (r : Response) (hr : r.refused = false) : Deed attaches o s (s.answer port r)
  /-- It observes. -/
  | observe (o : Agent) (s : State) (x : Observer) : Deed attaches o s (s.setObs o x)
  /-- A parked set changes. -/
  | setWq (o : Agent) (s : State) (c : CellSel) (q : List Agent) : Deed attaches o s (s.setWq c q)
  /-- It releases an agent by a wake. -/
  | release (o : Agent) (s : State) (v : Seen) (a : Agent) : Deed attaches o s (State.release v s a)
  /-- It stores a byte of the buffer. -/
  | storeByte (o : Agent) (s : State) (off : Nat) (b : Byte) (ho : o = .writer ∨ o = .peer) :
      Deed attaches o s (s.storeByte o off b)
  /-- It stores a cell. -/
  | storeCell (o : Agent) (s : State) (c : CellSel) (p : Pub) (hc : s.mayStore o c) :
      Deed attaches o s (s.setCell c ((s.cell c).push p))
  /-- The writer changes its registers. -/
  | writer (s : State) (w : Writer) : Deed attaches .writer s { s with w := w }
  /-- A reader changes its registers. -/
  | reader (s : State) (i : Nat) (r : Reader) (hr : attaches ∨ ((s.rd i).storesFront = false → r.storesFront = false)) :
      Deed attaches (.reader i) s (s.setRd i r)
  /-- The foreign peer begins or ends a wait. -/
  | wait (s : State) (p : Option Park) : Deed attaches .peer s { s with peer := { s.peer with wait := p } }
  /-- The host initialises a cell. -/
  | initCell (s : State) (c : CellSel) : Deed attaches .host s ((s.setCell c (Cell.restart 0)).restartPos c)
  /-- The host constructs the FIFO. -/
  | construct (s : State) (n size : Word) (thr ext : Bool) : Deed attaches .host s (s.constructed n size thr ext)

/-- A chain of changes that agent `o` makes. -/
abbrev Deeds (attaches : Prop) (o : Agent) : State → State → Prop := Relation.ReflTransGen (Deed attaches o)

section
variable {attaches : Prop} {o : Agent} {s t u : State}

theorem Deeds.single (h : Deed attaches o s t) : Deeds attaches o s t := Relation.ReflTransGen.single h

theorem Deeds.trans (h : Deeds attaches o s t) (k : Deeds attaches o t u) : Deeds attaches o s u :=
  Relation.ReflTransGen.trans h k

theorem Deeds.keeps {I : State → Prop} (hd : ∀ {s t}, Deed attaches o s t → I s → I t) (h : Deeds attaches o s t)
    (hs : I s) : I t := by
  induction h with
  | refl => exact hs
  | tail _ h ih => exact hd h ih

/-! ### The operations that agents share -/

theorem Deeds.draws (s : State) (cs : List Nat) (n : Nat) : Deeds attaches o s { s with choices := cs, draws := n } :=
  .single (.environment o s s.beat s.inbox s.sched cs n)

theorem Deeds.answer (s : State) (port : Agent) {r : Response} (hr : r.refused = false) : Deeds attaches o s (s.answer port r) :=
  .single (.answer o s port r hr)

theorem Deeds.reply (s : State) {r : Response} (hr : r.refused = false) : Deeds attaches o s (s.reply r) := .answer s _ hr

theorem Deeds.replied (h : Deeds attaches o s t) {r : Response} (hr : r.refused = false) : Deeds attaches o s (t.reply r) :=
  h.trans (.reply t hr)

theorem Deeds.observe (s : State) (o : Agent) (x : Observer) : Deeds attaches o s (s.setObs o x) := .single (.observe o s x)

theorem Deeds.setWq (s : State) (c : CellSel) (q : List Agent) : Deeds attaches o s (s.setWq c q) := .single (.setWq o s c q)

theorem Deeds.pick (s : State) (k : Nat) : Deeds attaches o s (s.pick k).2 := by
  obtain ⟨cs, n, h⟩ := s.pick_frame k
  rw [h]; exact .draws s cs n

theorem Deeds.freeByte (s : State) : Deeds attaches o s s.freeByte.2 := by
  obtain ⟨cs, n, h⟩ := s.draw_frame
  rw [State.freeByte, h]; exact .draws s cs n

theorem Deeds.loadByte (s : State) (a : Agent) (off : Nat) : Deeds attaches o s (s.loadByte a off).2 := by
  unfold State.loadByte State.drawByte
  split
  · exact .refl
  · dsimp only
    split
    · exact .pick s _
    · exact (Deeds.pick s _).trans (.freeByte _)

theorem Deeds.ldaq (s : State) (o : Agent) (c : CellSel) : Deeds attaches o s (s.ldaq o c).2 := by
  obtain ⟨cs, n, h⟩ := s.lagPos_frame o c
  simp only [State.ldaq, h]
  exact (Deeds.draws s cs n).trans (.observe _ o _)

theorem Deeds.readNow (s : State) (o : Agent) (c : CellSel) : Deeds attaches o s (s.readNow o c) := .observe s o _

theorem Deeds.readParking (s : State) (o : Agent) (c : CellSel) : Deeds attaches o s (s.readParking o c) := .observe s o _

theorem State.setObs_storesFront (s : State) (o : Agent) (x : Observer) (i : Nat) :
    ((s.setObs o x).rd i).storesFront = (s.rd i).storesFront := by
  simp [Reader.storesFront]

/-- An observation takes nobody's right to store. -/
theorem State.mayStore.setObs {a : Agent} {c : CellSel} (h : s.mayStore a c) (x : Observer) : (s.setObs o x).mayStore a c := by
  cases a with
  | reader i =>
    cases c with
    | rear => exact h
    | front => exact (s.setObs_storesFront o x i).trans h
  | host | writer | peer => cases c <;> exact h

theorem Deeds.strl (s : State) (o : Agent) (c : CellSel) (h : s.mayStore o c) (v : Word) : Deeds attaches o s (s.strl o c v) := by
  unfold State.strl
  rw [← State.cell_setObs s o ((s.obs o).setView (s.obs o).view.fenceRel) c]
  exact (Deeds.observe s o _).tail (.storeCell o _ c _ (h.setObs _))

theorem Deeds.releaseAll (v : Seen) (q : List Agent) (s : State) : Deeds attaches o s (q.foldl (State.release v) s) := by
  induction q generalizing s with
  | nil => exact .refl
  | cons a q ih => exact .head (.release o s v a) (ih _)

theorem Deeds.wakeAll (s : State) (a : Agent) (c : CellSel) : Deeds attaches o s (s.wakeAll a c) :=
  (Deeds.releaseAll _ _ s).trans (.setWq _ c [])

theorem Deeds.wakeOne (s : State) (a : Agent) (c : CellSel) : Deeds attaches o s (s.wakeOne a c) := by
  obtain ⟨cs, n, v, q, -, e⟩ := s.wakeOne_eq a c
  rw [e]
  exact (Deeds.draws s cs n).trans ((Deeds.releaseAll v q _).trans (.setWq _ c _))

theorem Deeds.wakeOwn (s : State) (a : Agent) (c : CellSel) : Deeds attaches o s (s.wakeOwn a c) := by
  unfold State.wakeOwn
  split
  · exact .wakeOne s a c
  · exact .wakeAll s a c

theorem Deeds.unpark (s : State) (o : Agent) (p : Park) : Deeds attaches o s (s.unpark o p) := by
  obtain ⟨cs, n, x, -, e⟩ := s.unpark_eq o p
  rw [e]
  exact (Deeds.setWq s p.cell _).trans ((Deeds.draws _ cs n).trans (.observe _ o x))

end

/-! ### The writer -/

section
variable {attaches : Prop}

theorem Deeds.setW (s : State) (w : Writer) : Deeds attaches .writer s { s with w := w } := .single (.writer s w)

theorem Deeds.goWriter (s : State) (t : Task) : Deeds attaches .writer s (s.goWriter t) := .setW s _

theorem Deeds.endWriter (s : State) {r : Response} (hr : r.refused = false) : Deeds attaches .writer s (s.endWriter r) :=
  (Deeds.setW s _).trans (.answer _ _ hr)

theorem Deeds.grantWriter (s : State) (t : Task) (g : Nat) : Deeds attaches .writer s (s.grantWriter t g) := by
  unfold State.grantWriter
  refine (Deeds.setW s { s.w with obt := BitVec.ofNat 32 g }).trans ?_
  generalize ({ s with w := { s.w with obt := BitVec.ofNat 32 g } } : State) = s1
  obtain ⟨k, cs, n, -, hf⟩ := s1.fragments_spec s1.w.lr g
  have hd : Deeds attaches .writer s1 _ := .draws s1 cs n
  simp only [hf]
  cases t.op with
  | transfer =>
    dsimp only
    split
    · exact .endWriter s1 rfl
    · exact hd.trans (.goWriter _ _)
  | obtain | release => exact hd.trans (.endWriter _ rfl)

theorem Deeds.failWriter (s : State) (t : Task) : Deeds attaches .writer s (s.failWriter t) :=
  .endWriter s (by split <;> rfl)

theorem Deeds.loadWriter (s : State) (t : Task) : Deeds attaches .writer s (s.loadWriter t) := by
  have hl : Deeds attaches .writer s _ := .ldaq s .writer .front
  unfold State.loadWriter
  dsimp only
  split
  · split
    · split
      · exact hl.trans (.goWriter _ _)
      · exact hl.trans (.grantWriter _ _ _)
    · exact hl.trans (.failWriter _ _)
  · exact .grantWriter s t _

theorem Deeds.waitWriter (s : State) (t : Task) (e : Word) : Deeds attaches .writer s (s.waitWriter t e) := by
  unfold State.waitWriter
  split
  · exact (Deeds.readNow s .writer .front).trans (.goWriter _ _)
  · exact (Deeds.readParking s .writer .front).trans ((Deeds.setWq _ .front _).trans (.setW _ _))

theorem Deeds.copyByteWriter (s : State) (t : Task) (j : Nat) : Deeds attaches .writer s (s.copyByteWriter t j) := by
  have hb : ∀ p : Byte × State, Deeds attaches .writer s p.2 → Deeds attaches .writer s
      (if t.byteOff j < s.cfg.bytes then p.2.storeByte .writer (t.byteOff j) p.1 else p.2) := fun p hp => by
    split
    · exact hp.tail (.storeByte .writer _ _ _ (.inl rfl))
    · exact hp
  unfold State.copyByteWriter
  split
  · exact hb (_, s) .refl
  · exact hb _ (.freeByte s)

theorem Deeds.copyWriter (s : State) (t : Task) (left : List Nat) : Deeds attaches .writer s (s.copyWriter t left) := by
  have hk : Deeds attaches .writer s _ := .pick s left.length
  unfold State.copyWriter
  dsimp only
  split
  · exact hk.trans ((Deeds.copyByteWriter _ t _).trans (.goWriter _ _))
  · exact hk.trans (.goWriter _ _)

theorem Deeds.releasedWriter (s : State) (t : Task) (failed : Bool) : Deeds attaches .writer s (s.releasedWriter t failed) := by
  unfold State.releasedWriter
  cases t.op with
  | transfer =>
    have hw : Deeds attaches .writer s _ := .setW s { s.w with obt := 0 }
    dsimp only
    split
    · exact hw.trans (.endWriter _ rfl)
    · exact hw.trans (.goWriter _ _)
  | obtain | release => exact .endWriter s (by cases failed <;> rfl)

theorem Deeds.publishWriter (s : State) (t : Task) : Deeds attaches .writer s (s.publishWriter t) := by
  unfold State.publishWriter
  split
  · exact .releasedWriter s t true
  · rename_i nr _
    have hw : Deeds attaches .writer s _ := .setW s { s.w with lr := nr, obt := s.w.obt - BitVec.ofNat 32 t.grant }
    have hp := hw.trans (.strl _ .writer .rear trivial nr)
    dsimp only
    split
    · exact hp.trans (.goWriter _ _)
    · exact hp.trans (.releasedWriter _ t false)

theorem Deeds.armedWriter (s : State) (t : Task) (fill : Nat) :
    Deeds attaches .writer s ((s.armWriter fill).releasedWriter t false) :=
  (Deeds.setW s _).trans (.releasedWriter _ t false)

theorem Deeds.freshWriter (s : State) (t : Task) : Deeds attaches .writer s (s.freshWriter t) := by
  have hl : Deeds attaches .writer s _ := .ldaq s .writer .front
  unfold State.freshWriter
  dsimp only
  split
  · split
    · exact hl.trans (.goWriter _ _)
    · exact hl.trans (.armedWriter _ t _)
  · exact hl.trans (.releasedWriter _ t true)

/-- Every atomic step of the writer is a chain of its own changes. -/
theorem Deeds.stepWriter (s : State) : Deeds attaches .writer s s.stepWriter := by
  unfold State.stepWriter
  split
  · rename_i t _
    split
    · exact .loadWriter s t
    · exact .waitWriter s t _
    · exact .copyWriter s t _
    · exact .publishWriter s t
    · exact .freshWriter s t
    · exact (Deeds.wakeOwn s .writer .rear).trans (.armedWriter _ t _)
    · exact .refl
  · exact .refl

theorem Deeds.runWriter (s : State) (n : Nat) : Deeds attaches .writer s (s.runWriter n) :=
  State.runWriter_keeps (I := Deeds attaches .writer s) (fun u _ h => h.trans (.stepWriter u)) n s .refl

theorem Deeds.unparkWriter (s : State) (t : Task) (p : Park) (c : Cause) : Deeds attaches .writer s (s.unparkWriter t p c) :=
  (Deeds.unpark s .writer p).trans (.setW _ _)

theorem Deeds.startWriter (s : State) (t : Task) : Deeds attaches .writer s (s.startWriter t) :=
  (Deeds.setW s _).trans (.runWriter _ _)

theorem Deeds.quickWriter (s : State) (f : Writer → Writer) : Deeds attaches .writer s (s.quickWriter f) :=
  (Deeds.setW s _).trans (.endWriter _ rfl)

end

/-! ### A reader -/

section
variable {attaches : Prop} {i : Nat}

theorem Reader.storesFront_eq_false_iff (r : Reader) : r.storesFront = false ↔ r.thr = false ∧ r.ph.resyncing = false := by
  simp [Reader.storesFront]

theorem Reader.storesFront_of_thr {r : Reader} (h : r.thr = true) : r.storesFront = true := by
  simp [Reader.storesFront, h]

/-- A change of registers that leaves the phase and does not begin to throttle. -/
theorem Deeds.setRd {s : State} {r : Reader} (ht : r.thr = (s.rd i).thr) (hp : r.ph = (s.rd i).ph) :
    Deeds attaches (.reader i) s (s.setRd i r) :=
  .single (.reader s i r (.inr fun h => by rw [Reader.storesFront, ht, hp]; exact h))

/-- A reader that goes over to a phase that is no resynchronisation. -/
theorem Deeds.setPhase (s : State) {r : Reader} (ht : r.thr = (s.rd i).thr) (hp : r.ph.resyncing = false) :
    Deeds attaches (.reader i) s (s.setRd i r) :=
  .single (.reader s i r (.inr fun h => by
    obtain ⟨hthr, -⟩ := (Reader.storesFront_eq_false_iff _).mp h
    exact (Reader.storesFront_eq_false_iff _).mpr ⟨ht.trans hthr, hp⟩))

theorem Deeds.goReader (s : State) {t : Task} (h : (Phase.busy t).resyncing = false) :
    Deeds attaches (.reader i) s (s.goReader i t) := .setPhase s rfl h

theorem Deeds.endReader (s : State) {r : Response} (hr : r.refused = false) : Deeds attaches (.reader i) s (s.endReader i r) :=
  (Deeds.setPhase s (r := { s.rd i with ph := .idle }) rfl rfl).trans (.answer _ _ hr)

theorem Deeds.grantReader (s : State) (t : Task) (g : Nat) : Deeds attaches (.reader i) s (s.grantReader i t g) := by
  have hg : Deeds attaches (.reader i) s (s.setRd i { s.rd i with obt := BitVec.ofNat 32 g }) := .setRd rfl rfl
  unfold State.grantReader
  cases t.op with
  | transfer =>
    dsimp only
    split
    · exact hg.trans (.endReader _ rfl)
    · exact hg.trans (.goReader _ rfl)
  | obtain | release => exact hg.trans (.endReader _ rfl)

theorem Deeds.failReader (s : State) (t : Task) (k : ErrKind) (lost : Nat) :
    Deeds attaches (.reader i) s (s.failReader i t k lost) := .endReader s (by split <;> rfl)

/-- A reader that keeps on throttling while its other registers change. -/
theorem State.thr_of_setRd {s : State} {r : Reader} (ht : r.thr = (s.rd i).thr) : ((s.setRd i r).rd i).thr = (s.rd i).thr := by
  rw [State.rd_setRd]
  split
  · exact ht
  · rfl

theorem Deeds.loadReader (s : State) (t : Task) : Deeds attaches (.reader i) s (s.loadReader i t) := by
  unfold State.loadReader
  refine (Deeds.ldaq s (.reader i) .rear).trans ?_
  dsimp only
  generalize (s.ldaq (.reader i) .rear).1 = v
  generalize (s.ldaq (.reader i) .rear).2 = s1
  split
  · exact .failReader s1 t _ _
  · rename_i lost _
    generalize hr : ({ s1.rd i with
      lf := (s1.cfg.back v).getD (s1.rd i).lf, lost := BitVec.ofNat 32 lost } : Reader) = r
    have hthr : r.thr = (s1.rd i).thr := by rw [← hr]
    have hlap : Deeds attaches (.reader i) s1 (s1.setRd i r) := .setRd hthr (by rw [← hr])
    split
    · rename_i hon
      refine hlap.tail (.reader _ i _ (.inr fun h => ?_))
      rw [Reader.storesFront_of_thr ((State.thr_of_setRd hthr).trans hon)] at h
      cases h
    · exact hlap.trans (.failReader _ t _ _)
  · split
    · exact .goReader s1 rfl
    · exact .grantReader s1 t _

theorem Deeds.waitReader (s : State) (t : Task) (e : Word) : Deeds attaches (.reader i) s (s.waitReader i t e) := by
  unfold State.waitReader
  split
  · exact (Deeds.readNow s (.reader i) .rear).trans (.goReader _ rfl)
  · refine (Deeds.readParking s (.reader i) .rear).trans (Deeds.trans (.setWq _ .rear _) (.setPhase _ ?_ rfl))
    rfl

theorem Deeds.resyncReader {s : State} {t : Task} {lost : Nat} (hp : (s.rd i).ph = .busy t) (ht : t.point = .resync lost) :
    Deeds attaches (.reader i) s (s.resyncReader i t lost) := by
  have hstore : (s.rd i).storesFront = true := by simp [Reader.storesFront, hp, Phase.resyncing, ht]
  exact (Deeds.strl s (.reader i) .front hstore _).trans (.failReader _ t _ _)

theorem Deeds.copyReader (s : State) (t : Task) (left : List Nat) : Deeds attaches (.reader i) s (s.copyReader i t left) := by
  have hk : Deeds attaches (.reader i) s _ := .pick s left.length
  unfold State.copyReader
  dsimp only
  split
  · exact hk.trans ((Deeds.loadByte _ (.reader i) _).trans (.goReader _ (Phase.resyncing_afterCopy _ _ _)))
  · exact hk.trans (.goReader _ rfl)

theorem Deeds.releasedReader (s : State) (t : Task) (failed : Bool) :
    Deeds attaches (.reader i) s (s.releasedReader i t failed) := by
  unfold State.releasedReader
  cases t.op with
  | transfer =>
    have hr : Deeds attaches (.reader i) s (s.setRd i { s.rd i with obt := 0 }) := .setRd rfl rfl
    dsimp only
    split
    · exact hr.trans (.endReader _ rfl)
    · refine hr.trans (Deeds.trans ?_ (.goReader _ rfl))
      exact .setRd rfl rfl
  | obtain | release => exact .endReader s (by cases failed <;> rfl)

theorem Deeds.publishReader (s : State) (t : Task) : Deeds attaches (.reader i) s (s.publishReader i t) := by
  unfold State.publishReader
  dsimp only
  split
  · exact .releasedReader s t true
  · rename_i nf _
    have hr : Deeds attaches (.reader i) s
      (s.setRd i { s.rd i with lf := nf, obt := (s.rd i).obt - BitVec.ofNat 32 t.grant }) := .setRd rfl rfl
    split
    · rename_i hon
      refine hr.trans ((Deeds.strl _ (.reader i) .front ?_ nf).trans (.goReader _ rfl))
      refine Reader.storesFront_of_thr ((State.thr_of_setRd ?_).trans hon)
      rfl
    · exact hr.trans (.releasedReader _ t false)

theorem Deeds.armedReader (s : State) (t : Task) (fill : Nat) :
    Deeds attaches (.reader i) s ((s.armReader i fill).releasedReader i t false) := by
  refine Deeds.trans ?_ (.releasedReader _ t false)
  exact .setRd rfl rfl

theorem Deeds.freshReader (s : State) (t : Task) : Deeds attaches (.reader i) s (s.freshReader i t) := by
  have hl : Deeds attaches (.reader i) s _ := .ldaq s (.reader i) .rear
  unfold State.freshReader
  dsimp only
  split
  · exact hl.trans (.releasedReader _ t true)
  · exact hl.trans (.releasedReader _ t false)
  · split
    · exact hl.trans (.goReader _ rfl)
    · exact hl.trans (.armedReader _ t _)

/-- Every atomic step of a reader is a chain of its own changes. -/
theorem Deeds.stepReader (i : Nat) (s : State) : Deeds attaches (.reader i) s (s.stepReader i) := by
  unfold State.stepReader
  split
  · rename_i t hp
    split
    · exact .loadReader s t
    · exact .waitReader s t _
    · exact .resyncReader hp ‹_›
    · exact .copyReader s t _
    · exact .publishReader s t
    · exact .freshReader s t
    · exact (Deeds.wakeOwn s (.reader i) .front).trans (.armedReader _ t _)
  · exact .refl

theorem Deeds.runReader (s : State) (i n : Nat) : Deeds attaches (.reader i) s (s.runReader i n) :=
  State.runReader_keeps (I := Deeds attaches (.reader i) s) i (fun u _ h => h.trans (.stepReader i u)) n s .refl

theorem Deeds.unparkReader (s : State) (t : Task) (p : Park) (c : Cause) :
    Deeds attaches (.reader i) s (s.unparkReader i t p c) := by
  refine (Deeds.unpark s (.reader i) p).trans ?_
  exact .setPhase _ rfl rfl

/-- An operation does not begin at a resynchronisation. -/
theorem Deeds.startReader (s : State) {t : Task} (h : (Phase.busy t).resyncing = false) :
    Deeds attaches (.reader i) s (s.startReader i t) := by
  refine Deeds.trans ?_ (.runReader _ i _)
  exact .setPhase s rfl h

/-- A change of a reader's levels, with its response. -/
theorem Deeds.quickReader (s : State) {f : Reader → Reader} (ht : (f (s.rd i)).thr = (s.rd i).thr)
    (hp : (f (s.rd i)).ph = (s.rd i).ph) : Deeds attaches (.reader i) s (s.quickReader i f) := by
  refine Deeds.trans ?_ (.endReader _ rfl)
  exact .setRd ht hp

end

/-! ### The foreign peer -/

section
variable {attaches : Prop}

theorem Deeds.setWait (s : State) (p : Option Park) : Deeds attaches .peer s { s with peer := { s.peer with wait := p } } :=
  .single (.wait s p)

theorem Deeds.strlPeer (s : State) (c : CellSel) (v : Word) : Deeds attaches .peer s (s.strl .peer c v) :=
  .strl s .peer c (by cases c <;> trivial) v

theorem Deeds.cas (s : State) (c : CellSel) (e d : Word) : Deeds attaches .peer s (s.cas c e d) := by
  have hr : Deeds attaches .peer s _ := .readNow s .peer c
  unfold State.cas
  dsimp only
  split
  · exact hr.trans ((Deeds.strlPeer _ c d).trans ((Deeds.observe _ .peer _).replied rfl))
  · exact hr.replied rfl

theorem Deeds.waitPeer (s : State) (c : CellSel) (e : Word) (tmo : Timeout) : Deeds attaches .peer s (s.waitPeer c e tmo) := by
  unfold State.waitPeer
  split
  · exact .reply s rfl
  · split
    · exact (Deeds.readNow s .peer c).replied rfl
    · exact (Deeds.readParking s .peer c).trans ((Deeds.setWq _ c _).trans (.setWait _ _))

theorem Deeds.unparkPeer (s : State) (p : Park) (c : Cause) : Deeds attaches .peer s (s.unparkPeer p c) :=
  (Deeds.unpark s .peer p).trans ((Deeds.setWait _ _).trans (.answer _ _ rfl))

end

/-! ### Commands -/

/-- Is the command the attachment of a reader, the one command after which it may throttle (44_reader R251)? -/
def attachesReader (i : Instr) : Prop := ∃ sel thr, i = .rAttach sel thr

/-- A command that names the port of `o` is refused, or it is a chain of changes of `o`. -/
theorem Deeds.command {attaches : Prop} {s t : State} {o : Agent} {legal : Bool} {f : State → State}
    (h : s.command legal f = .next t) (ho : legal = true → s.beat.port = o) (hf : Deeds attaches o s (f s)) :
    t = s.refuse ∨ Deeds attaches s.beat.port s t := by
  obtain ⟨-, ⟨-, rfl⟩ | ⟨hl, rfl⟩⟩ := State.command_next h
  · exact .inl rfl
  · rw [ho hl]
    exact .inr hf

theorem State.port_of_peerMay {s : State} {c : CellSel} (h : s.peerMay c = true) : s.beat.port = .peer :=
  ((s.peerMay_iff c).mp h).1

theorem State.port_of_writerMay {s : State} (h : s.writerMay = true) : s.beat.port = .writer := (s.writerMay_iff.mp h).1

theorem State.port_of_readerMay {s : State} {i : Nat} (h : s.readerMay i = true) : s.beat.port = .reader i :=
  ((s.readerMay_iff i).mp h).1

theorem State.port_of_mayAttach {s : State} {i : Nat} {thr : Bool} (h : s.mayAttach i thr = true) :
    s.beat.port = .reader i := by
  simp only [State.mayAttach, Bool.and_eq_true, decide_eq_true_eq] at h
  obtain ⟨⟨⟨⟨hport, -⟩, -⟩, -⟩, -⟩ := h
  exact hport

theorem State.port_of_mayStoreByte {s : State} (h : s.mayStoreByte = true) : s.beat.port = .writer ∨ s.beat.port = .peer := by
  simp only [State.mayStoreByte, Bool.and_eq_true, Bool.or_eq_true, decide_eq_true_eq] at h
  exact h.1

theorem State.wordOrEio_accepted (s : State) (x : Option Word) : (s.wordOrEio x).refused = false := by cases x <;> rfl

theorem State.diffResponse_accepted (s : State) (lv : Bool) (d : DiffResult) : (s.diffResponse lv d).refused = false := by
  cases d <;> rfl

/-- The attachment of a reader: it observes a cell, takes over its registers, and answers. -/
theorem Deeds.attachReader {attaches : Prop} (h : attaches) (s : State) (i : Nat) (c : CellSel) (f : Reader → Word → Reader) :
    Deeds attaches (.reader i) s
      (((s.ldaq (.reader i) c).2.setRd i (f ((s.ldaq (.reader i) c).2.rd i) (s.ldaq (.reader i) c).1)).endReader i {}) :=
  (Deeds.ldaq s (.reader i) c).trans ((Deeds.single (.reader _ i _ (.inl h))).trans (.endReader _ rfl))

/-- A command is refused, or it is a chain of changes of the agent on whose port it came. -/
theorem deeds_of_exec {s t : State} {i : Instr} (h : exec i s = .next t) :
    t = s.refuse ∨ Deeds (attachesReader i) s.beat.port s t := by
  cases i with dsimp only [exec] at h
  | idxInit c => exact Deeds.command h State.port_of_mayInitCell ((Deeds.single (.initCell s c)).replied rfl)
  | fifoInit n size thr ext =>
    exact Deeds.command h State.port_of_mayConstruct ((Deeds.single (.construct s n size thr ext)).replied rfl)
  | idxLdaq c => exact Deeds.command h State.port_of_peerMay ((Deeds.ldaq s .peer c).replied rfl)
  | idxStrl c v => exact Deeds.command h State.port_of_peerMay ((Deeds.strlPeer s c v).replied rfl)
  | idxCas c e d => exact Deeds.command h State.port_of_peerMay (.cas s c e d)
  | idxWait c e tmo => exact Deeds.command h State.port_of_peerMay (.waitPeer s c e tmo)
  | idxWake1 c => exact Deeds.command h State.port_of_peerMay ((Deeds.wakeOne s .peer c).replied rfl)
  | idxWakeall c => exact Deeds.command h State.port_of_peerMay ((Deeds.wakeAll s .peer c).replied rfl)
  | baseNp2 | baseSlot | csrRd | xgEnc | xgDec => exact Deeds.command h (fun _ => rfl) (.reply s rfl)
  | baseSum | baseBack => exact Deeds.command h (fun _ => rfl) (.reply s (s.wordOrEio_accepted _))
  | baseDiff => exact Deeds.command h (fun _ => rfl) (.reply s (s.diffResponse_accepted _ _))
  | wAttach =>
    refine Deeds.command h (fun hl => ?_) ((Deeds.ldaq s .writer .rear).trans ((Deeds.setW _ _).trans (.endWriter _ rfl)))
    simp only [Bool.and_eq_true, decide_eq_true_eq] at hl
    exact hl.1.1
  | wObtain n tmo | wWrite n tmo =>
    exact Deeds.command h State.port_of_writerMay ((Deeds.setW s _).trans (.startWriter _ _))
  | wRelease k =>
    exact Deeds.command h (fun hl => State.port_of_writerMay (Bool.and_eq_true_iff.mp hl).1) (.startWriter s _)
  | wSethlt l | wSetlla l | wSeteff e => exact Deeds.command h State.port_of_writerMay (.quickWriter s _)
  | rAttach sel thr =>
    exact Deeds.command h State.port_of_mayAttach (.attachReader ⟨sel, thr, rfl⟩ s _ _ fun r v =>
      { r with lf := v, thr := thr, obt := 0, lost := 0, att := true, exp := false })
  | rObtain sel n tmo lv | rRead sel n tmo lv =>
    refine Deeds.command h State.port_of_readerMay (Deeds.trans ?_ (.startReader _ rfl))
    exact .setRd rfl rfl
  | rRelease sel k =>
    exact Deeds.command h (fun hl => State.port_of_readerMay (Bool.and_eq_true_iff.mp hl).1) (.startReader s rfl)
  | rSetllt sel l | rSethla sel l => exact Deeds.command h State.port_of_readerMay (.quickReader s rfl rfl)
  | bufLdb off => exact Deeds.command h (fun _ => rfl) ((Deeds.loadByte s _ _).replied rfl)
  | bufStb off v =>
    obtain ⟨-, ⟨-, rfl⟩ | ⟨hl, rfl⟩⟩ := State.command_next h
    · exact .inl rfl
    · have hm := (Bool.and_eq_true_iff.mp (Bool.and_eq_true_iff.mp hl).1).1
      exact .inr ((Deeds.single (.storeByte _ s _ v (State.port_of_mayStoreByte hm))).replied rfl)
  | fenceAcq | fenceRel => exact Deeds.command h (fun _ => rfl) ((Deeds.observe s _ _).replied rfl)

/-! ### A refusal (R296) -/

/-- No change of a chain answers `REFUSED`. -/
theorem Deeds.out {attaches : Prop} {o : Agent} {s t : State} (h : Deeds attaches o s t) :
    ∃ l, t.out = s.out ++ l ∧ ∀ a ∈ l, a.resp.refused = false := by
  refine h.keeps (I := fun u => ∃ l, u.out = s.out ++ l ∧ ∀ a ∈ l, a.resp.refused = false) ?_ ⟨[], by simp, by simp⟩
  rintro u u' hd ⟨l, hl, hacc⟩
  cases hd with
  | answer _ _ port r hr =>
    refine ⟨l ++ [⟨port, r⟩], by rw [State.answer_out, hl, List.append_assoc], fun a ha => ?_⟩
    rcases List.mem_append.mp ha with ha | ha
    · exact hacc a ha
    · rw [List.mem_singleton.mp ha]; exact hr
  | _ => exact ⟨l, by simpa [State.constructed] using hl, hacc⟩

/-- Settles O10: a command that is not refused is a chain of changes, none of which answers `REFUSED`. -/
theorem refusalChangesNothing : Obligations.RefusalChangesNothing := by
  intro i s t o r h hout hr
  rcases deeds_of_exec h with rfl | hd
  · exact s.refuse_eq
  · obtain ⟨l, hl, hacc⟩ := hd.out
    have hmem : (⟨o, r⟩ : Answer) ∈ l := by
      rw [← List.append_cancel_left (hout.symm.trans hl)]
      exact List.mem_singleton_self _
    exact absurd (hacc _ hmem) (by simp [hr])

end Sys2Proof.Machine
end

section
/-! PROOF. What each agent's changes leave alone: every part of the state has one agent that writes it, and of another endpoint a
turn can at most mark a parked phase woken (60_exceptions R304, 44_reader R250). -/

open Sys2Proof Sys2Proof.Machine

namespace Sys2Proof.Machine

/-! ### What a wake marks -/

theorem Phase.Woken.trans {p q r : Phase} (h : p.Woken q) (k : q.Woken r) : p.Woken r := by
  rcases k with rfl | ⟨v, rfl⟩
  · exact h
  · rcases h with rfl | ⟨u, rfl⟩
    · exact .inr ⟨v, rfl⟩
    · exact .inr ⟨v, by cases p <;> rfl⟩

/-- Of the writer at most the phase has changed, by a wake. -/
def Writer.Marked (w w' : Writer) : Prop := { w' with ph := w.ph } = w ∧ w.ph.Woken w'.ph

/-- The same for a reader. -/
def Reader.Marked (r r' : Reader) : Prop := { r' with ph := r.ph } = r ∧ r.ph.Woken r'.ph

/-- Of the foreign peer at most the wait has changed, by a wake. -/
def Peer.Marked (p p' : Peer) : Prop :=
  p'.obs = p.obs ∧ (p'.wait = p.wait ∨ ∃ v, p'.wait = p.wait.map fun k => { k with woken := some v })

theorem Writer.Marked.refl (w : Writer) : w.Marked w := ⟨rfl, .inl rfl⟩

theorem Reader.Marked.refl (r : Reader) : r.Marked r := ⟨rfl, .inl rfl⟩

theorem Peer.Marked.refl (p : Peer) : p.Marked p := ⟨rfl, .inl rfl⟩

theorem Writer.Marked.trans {w w' w'' : Writer} (h : w.Marked w') (k : w'.Marked w'') : w.Marked w'' := by
  obtain ⟨hregs, hph⟩ := h
  obtain ⟨kregs, kph⟩ := k
  exact ⟨(congrArg (fun x : Writer => { x with ph := w.ph }) kregs).trans hregs, hph.trans kph⟩

theorem Reader.Marked.trans {r r' r'' : Reader} (h : r.Marked r') (k : r'.Marked r'') : r.Marked r'' := by
  obtain ⟨hregs, hph⟩ := h
  obtain ⟨kregs, kph⟩ := k
  exact ⟨(congrArg (fun x : Reader => { x with ph := r.ph }) kregs).trans hregs, hph.trans kph⟩

theorem Peer.Marked.trans {p p' p'' : Peer} (h : p.Marked p') (k : p'.Marked p'') : p.Marked p'' := by
  obtain ⟨hobs, hwait⟩ := h
  obtain ⟨kobs, kwait⟩ := k
  refine ⟨kobs.trans hobs, ?_⟩
  rcases kwait with e | ⟨v, e⟩
  · rw [e]; exact hwait
  · refine .inr ⟨v, e.trans ?_⟩
    rcases hwait with e' | ⟨u, e'⟩ <;> rw [e']
    rw [Option.map_map]
    rfl

section
variable (v : Seen) (s : State) (a : Agent)

theorem State.release_marks_writer : s.w.Marked (State.release v s a).w := by
  cases a with
  | writer => exact ⟨rfl, .inr ⟨v, rfl⟩⟩
  | host | reader _ | peer => exact .refl _

theorem State.release_marks_reader (i : Nat) : (s.rd i).Marked ((State.release v s a).rd i) := by
  refine ⟨State.release_rd v s a i, ?_⟩
  by_cases h : Agent.reader i = a
  · subst h; exact .inr ⟨v, State.release_woken v s (.reader i)⟩
  · exact .inl (State.release_kept v s h)

theorem State.release_marks_peer : s.peer.Marked (State.release v s a).peer := by
  cases a with
  | peer => exact ⟨rfl, .inr ⟨v, rfl⟩⟩
  | host | writer | reader _ => exact .refl _

/-- A wake gives no reader a reason to store `FRONT`. -/
theorem State.release_storesFront (i : Nat) : ((State.release v s a).rd i).storesFront = (s.rd i).storesFront := by
  have hph : ((State.release v s a).rd i).ph.resyncing = (s.rd i).ph.resyncing := by
    obtain ⟨-, e | ⟨u, e⟩⟩ := s.release_marks_reader v a i
    · rw [e]
    · rw [e]; cases (s.rd i).ph <;> rfl
  rw [Reader.storesFront, Reader.storesFront, hph, State.release_rd_thr]

end

/-! ### What the view of another agent is no part of -/

section
variable {s : State} {o : Agent} (x : Observer)

theorem State.setObs_w (h : o ≠ .writer) : (s.setObs o x).w = s.w := by
  cases o with
  | writer => exact absurd rfl h
  | host | reader _ | peer => rfl

theorem State.setObs_rd {i : Nat} (h : o ≠ .reader i) : (s.setObs o x).rd i = s.rd i := by
  cases o with
  | reader j => exact State.rd_setRd_ne (fun e => h (congrArg Agent.reader e)) _
  | host | writer | peer => rfl

theorem State.setObs_peer (h : o ≠ .peer) : (s.setObs o x).peer = s.peer := by
  cases o with
  | peer => exact absurd rfl h
  | host | writer | reader _ => rfl

end

/-! ### What one change leaves alone -/

section
variable {attaches : Prop} {o : Agent} {s t : State}

theorem Deed.par (h : Deed attaches o s t) : t.par = s.par := by
  cases h with
  | construct => rfl
  | _ => simp

theorem Deed.length (h : Deed attaches o s t) : t.readers.length = s.readers.length := by
  cases h with
  | initCell c | construct => simp [State.restartPos, State.constructed]
  | _ => simp

/-- Only the host constructs the FIFO. -/
theorem Deed.cfg (h : Deed attaches o s t) (ho : o ≠ .host) : t.cfg = s.cfg := by
  cases h with
  | initCell | construct => exact absurd rfl ho
  | _ => simp

/-- Only the host, the writer and the foreign peer store `REAR`. -/
theorem Deed.rear (h : Deed attaches o s t) (hh : o ≠ .host) (hw : o ≠ .writer) (hp : o ≠ .peer) : t.rear = s.rear := by
  cases h with
  | initCell | construct => exact absurd rfl hh
  | storeCell _ _ c p hc =>
    cases c with
    | front => rfl
    | rear =>
      cases o with
      | reader i => exact hc.elim
      | host => exact absurd rfl hh
      | writer => exact absurd rfl hw
      | peer => exact absurd rfl hp
  | _ => simp

/-- The writer does not store `FRONT`. -/
theorem Deed.front_of_writer (h : Deed attaches .writer s t) : t.front = s.front := by
  cases h with
  | storeCell _ _ c p hc =>
    cases c with
    | rear => rfl
    | front => exact hc.elim
  | _ => simp

/-- A reader that does not throttle neither stores `FRONT` nor comes to throttle. -/
theorem Deed.front_of_reader {i : Nat} (h : Deed attaches (.reader i) s t) (ha : ¬ attaches)
    (hs : (s.rd i).storesFront = false) : t.front = s.front ∧ (t.rd i).storesFront = false := by
  cases h with
  | environment | answer => exact ⟨rfl, hs⟩
  | setWq _ _ c _ => cases c <;> exact ⟨rfl, hs⟩
  | observe _ _ x => exact ⟨State.setObs_front s _ x, (s.setObs_storesFront _ x i).trans hs⟩
  | release _ _ v a => exact ⟨State.release_front v s a, (s.release_storesFront v a i).trans hs⟩
  | storeByte _ _ off b ho => exact absurd ho (by simp)
  | storeCell _ _ c p hc =>
    cases c with
    | rear => exact hc.elim
    | front => exact absurd (hs.symm.trans hc) (by decide)
  | reader _ _ r hr =>
    refine ⟨rfl, ?_⟩
    rw [State.rd_setRd]
    split
    · exact (hr.resolve_left ha) hs
    · exact hs

/-- Only the writer and the foreign peer store bytes. -/
theorem Deed.buf (h : Deed attaches o s t) (hw : o ≠ .writer) (hp : o ≠ .peer) : t.buf = s.buf ∧ t.writes = s.writes := by
  cases h with
  | storeByte _ _ off b ho => exact absurd ho (not_or.mpr ⟨hw, hp⟩)
  | construct => exact ⟨rfl, rfl⟩
  | _ => simp

/-- Of the writer, another agent marks at most the phase. -/
theorem Deed.writer_marked (h : Deed attaches o s t) (hh : o ≠ .host) (hw : o ≠ .writer) : s.w.Marked t.w := by
  cases h with
  | initCell | construct => exact absurd rfl hh
  | writer => exact absurd rfl hw
  | release _ _ v a => exact s.release_marks_writer v a
  | observe _ _ x => rw [State.setObs_w x hw]; exact .refl _
  | storeByte _ _ off b _ => rw [State.storeByte, State.setObs_w _ hw]; exact .refl _
  | setWq _ _ c _ | storeCell _ _ c _ _ => cases c <;> exact .refl _
  | environment | answer | reader | wait => exact .refl _

/-- Of a reader, another agent marks at most the phase. -/
theorem Deed.reader_marked {i : Nat} (h : Deed attaches o s t) (hh : o ≠ .host) (hi : o ≠ .reader i) :
    (s.rd i).Marked (t.rd i) := by
  cases h with
  | initCell | construct => exact absurd rfl hh
  | reader _ j r _ => rw [State.rd_setRd_ne fun e => hi (congrArg Agent.reader e)]; exact .refl _
  | release _ _ v a => exact s.release_marks_reader v a i
  | observe _ _ x => rw [State.setObs_rd x hi]; exact .refl _
  | storeByte _ _ off b _ =>
    have e : (s.storeByte o off b).rd i = s.rd i := State.setObs_rd _ hi
    rw [e]
    exact .refl _
  | setWq _ _ c _ | storeCell _ _ c _ _ => cases c <;> exact .refl _
  | environment | answer | writer | wait => exact .refl _

/-- Of the foreign peer, another agent marks at most the wait. -/
theorem Deed.peer_marked (h : Deed attaches o s t) (hh : o ≠ .host) (hp : o ≠ .peer) : s.peer.Marked t.peer := by
  cases h with
  | initCell | construct => exact absurd rfl hh
  | wait => exact absurd rfl hp
  | release _ _ v a => exact s.release_marks_peer v a
  | observe _ _ x => rw [State.setObs_peer x hp]; exact .refl _
  | storeByte _ _ off b _ => rw [State.storeByte, State.setObs_peer _ hp]; exact .refl _
  | setWq _ _ c _ | storeCell _ _ c _ _ => cases c <;> exact .refl _
  | environment | answer | writer | reader => exact .refl _

end

/-! ### What a chain leaves alone -/

section
variable {attaches : Prop} {o : Agent} {s t : State} (h : Deeds attaches o s t)
include h

theorem Deeds.par : t.par = s.par :=
  h.keeps (I := fun u => u.par = s.par) (fun d e => d.par.trans e) rfl

theorem Deeds.length : t.readers.length = s.readers.length :=
  h.keeps (I := fun u => u.readers.length = s.readers.length) (fun d e => d.length.trans e) rfl

theorem Deeds.cfg (ho : o ≠ .host) : t.cfg = s.cfg :=
  h.keeps (I := fun u => u.cfg = s.cfg) (fun d e => (d.cfg ho).trans e) rfl

theorem Deeds.rear (hh : o ≠ .host) (hw : o ≠ .writer) (hp : o ≠ .peer) : t.rear = s.rear :=
  h.keeps (I := fun u => u.rear = s.rear) (fun d e => (d.rear hh hw hp).trans e) rfl

theorem Deeds.front_of_writer (ho : o = .writer) : t.front = s.front := by
  subst ho
  exact h.keeps (I := fun u => u.front = s.front) (fun d e => d.front_of_writer.trans e) rfl

theorem Deeds.front_of_reader {i : Nat} (ho : o = .reader i) (ha : ¬ attaches) (hs : (s.rd i).storesFront = false) :
    t.front = s.front := by
  subst ho
  have hkept : t.front = s.front ∧ (t.rd i).storesFront = false :=
    h.keeps (I := fun u => u.front = s.front ∧ (u.rd i).storesFront = false)
      (fun d ⟨e, hq⟩ => ⟨(d.front_of_reader ha hq).1.trans e, (d.front_of_reader ha hq).2⟩) ⟨rfl, hs⟩
  exact hkept.1

theorem Deeds.buf (hw : o ≠ .writer) (hp : o ≠ .peer) : t.buf = s.buf ∧ t.writes = s.writes :=
  h.keeps (I := fun u => u.buf = s.buf ∧ u.writes = s.writes)
    (fun d ⟨eb, ew⟩ => ⟨(d.buf hw hp).1.trans eb, (d.buf hw hp).2.trans ew⟩) ⟨rfl, rfl⟩

theorem Deeds.writer_marked (hh : o ≠ .host) (hw : o ≠ .writer) : s.w.Marked t.w :=
  h.keeps (I := fun u => s.w.Marked u.w) (fun d e => e.trans (d.writer_marked hh hw)) (.refl _)

theorem Deeds.reader_marked {i : Nat} (hh : o ≠ .host) (hi : o ≠ .reader i) : (s.rd i).Marked (t.rd i) :=
  h.keeps (I := fun u => (s.rd i).Marked (u.rd i)) (fun d e => e.trans (d.reader_marked hh hi)) (.refl _)

theorem Deeds.peer_marked (hh : o ≠ .host) (hp : o ≠ .peer) : s.peer.Marked t.peer :=
  h.keeps (I := fun u => s.peer.Marked u.peer) (fun d e => e.trans (d.peer_marked hh hp)) (.refl _)

end

/-! ### Turns -/

/-- An attachment stores no cell. -/
theorem front_of_attachesReader {s t : State} {i : Instr} (ha : attachesReader i) (h : exec i s = .next t) :
    t.front = s.front := by
  obtain ⟨sel, thr, rfl⟩ := ha
  dsimp only [exec] at h
  obtain ⟨-, ⟨-, rfl⟩ | ⟨-, rfl⟩⟩ := State.command_next h
  · rfl
  · simp

/-- A turn is a chain of changes of its agent, but for its responses; one in which a reader attaches leaves `FRONT`. -/
theorem TurnDid.deeds {s s' : State} {o : Agent} (h : TurnDid s o s') :
    ∃ (attaches : Prop) (u : State) (out : List Answer), Deeds attaches o s u ∧ (attaches → u.front = s.front) ∧
      s' = { u with out := out } := by
  have hbeat : ∀ (attaches : Prop) (c : Command) rest burst, Deeds attaches c.port s (s.beatOf c rest burst) :=
    fun _ c rest burst => .single (.environment c.port s _ rest s.sched s.choices s.draws)
  have hown : ∀ {u}, Deeds False o s u → ∃ (attaches : Prop) (v : State) (out : List Answer), Deeds attaches o s v ∧
      (attaches → v.front = s.front) ∧ u = { v with out := out } := fun {u} hd => ⟨False, u, u.out, hd, False.elim, rfl⟩
  cases h with
  | idle => exact hown .refl
  | illegal c rest burst => exact ⟨False, _, _, hbeat False c rest burst, False.elim, rfl⟩
  | ran c rest burst i _ _ _ _ _ he =>
    rcases deeds_of_exec he with rfl | hd
    · exact ⟨False, _, _, hbeat False c rest burst, False.elim, rfl⟩
    · exact ⟨attachesReader i, s', s'.out, (hbeat _ c rest burst).trans hd, fun ha => (front_of_attachesReader ha he :), rfl⟩
  | writer t n => exact hown (.runWriter s n)
  | writerWoke t p c n => exact hown ((Deeds.unparkWriter s t p c).trans (.runWriter _ n))
  | reader i t n => exact hown (.runReader s i n)
  | readerWoke i t p c n => exact hown ((Deeds.unparkReader s t p c).trans (.runReader _ i n))
  | peerWoke p c => exact hown (.unparkPeer s p c)

theorem step_deeds {s s' s1 : State} {t : Turn} (hn : s.nextTurn = some (t, s1)) (h : step s = .next s') :
    ∃ (attaches : Prop) (u : State) (out : List Answer), Deeds attaches t.who s u ∧ (attaches → u.front = s.front) ∧
      s' = { u with out := out } := by
  rcases step_cases h with rfl | ⟨t', s2, hn', hd⟩
  · exact ⟨False, s', s'.out, .refl, False.elim, rfl⟩
  · obtain ⟨rfl, rfl⟩ : t' = t ∧ s2 = s1 := by simpa using hn'.symm.trans hn
    obtain ⟨q, cs, n, rfl⟩ := State.nextTurn_frame hn
    obtain ⟨attaches, u, out, hu, hfront, e⟩ := hd.deeds
    exact ⟨attaches, u, out, (Deeds.single (.environment _ s s.beat s.inbox q cs n)).trans hu, hfront, e⟩

/-! ### The obligation -/

/-- Only a throttling reader stands before the store of a resynchronised front (44_reader R255). -/
theorem State.attachInv.storesFront {s : State} (h : s.attachInv) {i : Nat} (ht : (s.rd i).thr = false) :
    (s.rd i).storesFront = false := by
  obtain ⟨-, hr⟩ := (s.attachInv_iff).mp h
  obtain ⟨-, hresync⟩ := (State.forall_readers_iff_rd (P := Reader.Attached) ⟨rfl, nofun⟩).mp hr i
  exact (Reader.storesFront_eq_false_iff _).mpr ⟨ht, Bool.eq_false_iff.mpr fun hq => by simp [hresync hq] at ht⟩

/-- Settles O50: a turn is a chain of changes of its agent, and each kind of change leaves alone what others own. -/
theorem everyStateHasOneWriter : Obligations.EveryStateHasOneWriter := by
  intro s s' s1 t hn h
  obtain ⟨attaches, u, out, hd, hfront, rfl⟩ := step_deeds hn h
  refine ⟨hd.par, hd.length, hd.cfg, hd.rear, hd.front_of_writer, fun i hi ht ha => ?_, hd.buf, hd.writer_marked,
    fun i => hd.reader_marked, hd.peer_marked⟩
  by_cases hatt : attaches
  · exact hfront hatt
  · exact hd.front_of_reader hi hatt (ha.storesFront ht)

end Sys2Proof.Machine
end

section
/-! PROOF. The round trip of P3: what one `W.WRITE` publishes, what a reader that had read all before it may observe, and the bytes
it reads (70_reset R349, 20_memory R82 to R84). -/

open Sys2Proof Sys2Proof.Machine

namespace Sys2Proof.Machine

/-! ### What one store of a cell hands over (20_memory R82, R83) -/

theorem Cell.handsOver_push (x : Cell) (p : Pub) :
    (x.push p).handsOver (x.push p).newest = (x.handsOver x.newest).join p.seen := by
  have hall : ∀ y : Cell, y.handsOver y.newest = y.pubs.foldl (fun a q => a.join q.seen) {} := fun y => by
    rw [Cell.handsOver, Cell.newest, List.take_length]
  rw [hall, hall, Cell.push, List.foldl_append]
  rfl

theorem Seen.le_join_right (a b : Seen) : b.writer ≤ (a.join b).writer := Nat.le_max_right _ _

/-- A reader that observes the newest store knows every write that the writer knew at that store. -/
theorem Reader.le_seenAt_push (r : Reader) (x : Cell) (p : Pub) :
    p.seen.writer ≤ (r.seenAt (x.push p) (x.push p).newest).writer := by
  have hall : p.seen.writer ≤ ((x.push p).handsOver (x.push p).newest).writer := by
    rw [Cell.handsOver_push]
    exact Seen.le_join_right _ _
  exact (hall.trans (Seen.le_join_right r.obs.view.acq _)).trans (Seen.le_join_right r.obs.view.seen _)

/-- After a store, an observer that knew the newest value before it observes that value again, or the one stored. -/
theorem Cell.observed_push {x : Cell} {p : Pub} {j : Nat} {v : Word} (hlo : x.newest ≤ j) (hv : (x.push p).hist[j]? = some v) :
    j = x.newest ∧ v = x.current ∨ j = (x.push p).newest ∧ v = p.value := by
  obtain ⟨hhi, -⟩ := (Cell.hist_getElem?_eq_some_iff _).mp hv
  have hlen := x.hist_length
  rw [Cell.newest_push] at hhi ⊢
  rw [Cell.hist_push] at hv
  rcases Nat.eq_or_lt_of_le hlo with rfl | hlt
  · have hcur : x.hist[x.newest]? = some x.current := (Cell.hist_getElem?_eq_some_iff x).mpr ⟨Nat.le_refl _, rfl⟩
    rw [List.getElem?_append_left (by omega), hcur] at hv
    exact .inl ⟨rfl, (Option.some.inj hv).symm⟩
  · obtain rfl : j = x.newest + 1 := by omega
    rw [List.getElem?_append_right (by omega), hlen, Nat.sub_self] at hv
    exact .inr ⟨rfl, (Option.some.inj hv).symm⟩

/-- `DIFF` undoes `SUM` (R172, R175). -/
theorem CfgRegs.diff_sum {c : CfgRegs} (hl : c.legal = true) {x y : Word} {k : Nat} (hx : c.wellFormed x = true) (hk : k ≤ c.cap)
    (h : c.sum x k = some y) (who : Bool) : c.diff y x who = .ok k := by
  obtain ⟨m, rfl⟩ := CfgRegs.exists_rawOf hx
  obtain rfl : c.rawOf (m + k) = y := Option.some.inj ((CfgRegs.sum_rawOf hl hk).symm.trans h)
  rw [CfgRegs.diff_rawOf hl (Nat.le_add_right m k) (Nat.add_le_add_left hk m), Nat.add_sub_cancel_left]

/-! ### Bytes that one agent wrote (20_memory R84) -/

/-- An agent numbers its writes upwards, so one who knows the last of them knows all. -/
theorem State.orderInv.idx_le {s : State} (h : s.orderInv) (hpeer : ∀ x ∈ s.writes, x.byPeer = false) {old ws : List BufWrite}
    (hw : s.writes = old ++ ws) (hne : ws ≠ []) {n : Nat} (hn : ∀ x ∈ ws, x.idx ≤ n) : ∀ x ∈ s.writes, x.idx ≤ n := by
  intro x hx
  have hord := h.pairwise_idx
  rw [hw] at hord hx
  obtain ⟨y, hy⟩ := List.exists_mem_of_ne_nil ws hne
  rcases List.mem_append.mp hx with hold | hnew
  · have hsame : x.byPeer = y.byPeer :=
      (hpeer x (hw ▸ hx)).trans (hpeer y (hw ▸ List.mem_append_right _ hy)).symm
    obtain ⟨-, -, hacross⟩ := List.pairwise_append.mp hord
    exact (Nat.le_of_lt (hacross x hold y hy hsame)).trans (hn y hy)
  · exact hn x hnew

/-- Where the writer alone has written, a load that knows all its writes answers the byte in the buffer. -/
theorem State.settledByte_of_writer {s : State} {off : Nat} {v : Seen} {b : Byte} (hb : s.bufferInv) (ho : s.orderInv)
    (hk : ∀ x ∈ s.writes, x.byPeer = false ∧ x.idx ≤ v.writer) (hf : s.buf.find off = some b) :
    s.settledByte off v = some b := by
  refine State.settledByte_of_ordered hb ho (fun x hx _ => ?_) ?_ ((hb off).symm.trans hf)
  · obtain ⟨hpeer, hle⟩ := hk x hx
    rw [hpeer]
    exact hle
  · refine (List.Pairwise.and_mem.mp ho.pairwise_idx).filter _ |>.imp fun {x y} ⟨hx, hy, hlt⟩ => ?_
    obtain ⟨hpx, -⟩ := hk x hx
    obtain ⟨hpy, -⟩ := hk y hy
    have hle := Nat.le_of_lt (hlt (hpx.trans hpy.symm))
    rw [BufWrite.idx.eq_def y, hpy] at hle
    rwa [hpx]

/-! ### What the write publishes (43_writer R227) -/

/-- The newest store of `REAR` in `t`, after those of `x`, published as `nr` the `k` frames from the index `lr`, which hold the
bytes of `din`; it handed over every write of the buffer, all of them the writer's. -/
structure State.PublishedLast (t : State) (x : Cell) (lr : Word) (k : Nat) (din : List Byte) (nr : Word) (seen : Seen) : Prop where
  sum : t.cfg.sum lr k = some nr
  rear : t.rear = x.push { value := nr, seen := seen }
  length : din.length = k * t.cfg.size.toNat
  bytes : ∀ a, a < k * t.cfg.size.toNat → t.buf.find (t.cfg.batchOff lr a) = din[a]?
  handed : ∀ y ∈ t.writes, y.byPeer = false ∧ y.idx ≤ seen.writer

/-- The state in which the writer begins a write without timeout. -/
abbrev State.writing (s : State) (count : Word) : State := s.begun (writeTask count none s.beat.din)

/-- The run of that write is one pass, which was granted every frame. -/
def State.WritesInOnePass (s : State) (count : Word) : Prop :=
  ∃ (nr : Word) (q : Prop), s.cfg.sum s.w.lr count.toNat = some nr ∧ (s.writing count).writePass
    ((s.writing count).runWriter (s.beat.burst + 1)) (writeTask count none s.beat.din) count.toNat nr q

/-- A write that ends at its load gives its one response. -/
theorem State.out_of_ends_at_load {s u : State} {k ret : Word} (hstep : (s.writing k).stepWriter = u.answer .writer { ret := ret })
    (hi : u.w.ph = .idle) (ho : u.out = s.out) (n : Nat) :
    ((s.writing k).runWriter (n + 1)).out = s.out ++ [{ port := .writer, resp := { ret := ret } }] := by
  have hidle : (u.answer .writer { ret := ret }).w.ph.isBusy = false := by
    rw [State.answer, hi]
    rfl
  rw [State.runWriter_succ rfl, hstep, State.runWriter_idle hidle, State.answer, ho]

theorem ret_of_answered {s t : State} {k ret : Word} (hout : t.out = s.out ++ [{ port := .writer, resp := { ret := k } }])
    (hans : t.out = s.out ++ [{ port := .writer, resp := { ret := ret } }]) : k = ret := by
  simpa using hout.symm.trans hans

theorem Params.errEio_negative {p : Params} (h : p.legal = true) : p.errEio.msb = true := by
  simp only [Params.legal, Bool.and_eq_true] at h
  obtain ⟨⟨⟨-, hneg⟩, -⟩, -⟩ := h
  exact hneg

section
variable {s : State} {k : Word} (hl : s.cfg.legal = true) (hcap : k.toNat ≤ s.cfg.cap)
  (hb : k.toNat * s.cfg.size.toNat + 3 ≤ s.beat.burst)
include hl hcap hb

/-- A pass that a write without timeout was granted is its only one (R227). -/
theorem State.answered_pass {t : State} {g m : Nat} {nr : Word} {q : Prop} (hg : g ≤ k.toNat)
    (hm : m ≤ g * s.cfg.size.toNat + 4) (hrun : (s.writing k).runWriter m = t)
    (hpass : (s.writing k).writePass t (writeTask k none s.beat.din) g nr q) :
    (s.writing k).runWriter (s.beat.burst + 1) = t ∧
      (t.out = s.out ++ [{ port := .writer, resp := { ret := k } }] → k.toNat = g) := by
  obtain ⟨-, -, -, h30⟩ := s.cfg.legal_iff.mp hl
  obtain ⟨-, -, -, -, -, -, -, -, -, -, -, -, -, -, -, hend, -⟩ := hpass
  obtain ⟨hidle, ret, hret, hans⟩ := hend (.inr (.inr (.inl rfl)))
  have hsteps : g * s.cfg.size.toNat ≤ k.toNat * s.cfg.size.toNat := Nat.mul_le_mul_right _ hg
  refine ⟨State.runWriter_of_le hrun (by rw [hidle]; rfl) (by omega), fun hout => ?_⟩
  rw [ret_of_answered hout hans]
  exact (Nat.zero_add g ▸ hret).2 (by omega)

variable (hc1 : 1 ≤ k.toNat) (hx : s.cfg.wellFormed s.w.lr = true)
include hc1 hx

theorem State.writesInOnePass_unthrottled (hthr : s.cfg.thr = false) : s.WritesInOnePass k := by
  have hload : (s.writing k).stepWriter = (s.writing k).grantWriter (writeTask k none s.beat.din) k.toNat := by
    rw [State.stepWriter_unthrottled_pass (s.begun_atWritePass k none s.beat.din) hthr]
    exact congrArg (State.grantWriter _ · _) (Nat.min_eq_left hcap)
  obtain ⟨m, t, nr, hm, hrun, hs, hpass, -⟩ :=
    State.runWriter_unthrottled_pass (s.begun_atWritePass k none s.beat.din) hl hc1 hcap hthr hload hx
  obtain ⟨hwhole, -⟩ := State.answered_pass hl hcap hb (Nat.le_refl _) hm hrun hpass
  exact ⟨nr, False, hs, by rw [hwhole]; exact hpass⟩

/-- With throttling, a write that answers `k` was granted `k` frames: an error is negative, and a short grant answers less. -/
theorem State.writesInOnePass_throttled (hthr : s.cfg.thr = true) (hpar : s.par.legal = true)
    (hpos : s.w.obs.posFront ≤ s.front.newest)
    (hout : ((s.writing k).runWriter (s.beat.burst + 1)).out = s.out ++ [{ port := .writer, resp := { ret := k } }]) :
    s.WritesInOnePass k := by
  obtain ⟨-, -, -, h30⟩ := s.cfg.legal_iff.mp hl
  have hp := s.begun_atWritePass k none s.beat.din
  obtain ⟨j, f, cs, n, -, hf, -, hld⟩ := State.ldaq_writer (s := s.writing k) (c := .front) hpos
  cases hd : s.cfg.diff s.w.lr f false with
  | overflow lost => exact absurd hd (s.cfg.diff_writer_ne_overflow _ _ _)
  | eio =>
    obtain ⟨ret, herr, -, hfail⟩ := State.failWriter_of_transfer (t := writeTask k none s.beat.din) rfl
      ((s.writing k).observed .front j cs n)
    have hend := State.out_of_ends_at_load ((State.stepWriter_pass_of_eio hp hthr hld hd).trans hfail) rfl rfl s.beat.burst
    have hk : k = s.par.errEio := (ret_of_answered hout hend).trans (herr rfl)
    have hneg : k.msb = true := hk ▸ Params.errEio_negative hpar
    rw [BitVec.msb_eq_true_iff_two_mul_ge] at hneg
    omega
  | ok fill =>
    have hgrant : (s.writing k).stepWriter = ((s.writing k).observed .front j cs n).grantWriter (writeTask k none s.beat.din)
        (min k.toNat (s.w.eff.toNat - fill)) :=
      State.stepWriter_pass_of_grants hp hthr hld hd fun ⟨_, hblock, _⟩ => nomatch hblock
    have hg : min k.toNat (s.w.eff.toNat - fill) ≤ k.toNat := Nat.min_le_left _ _
    generalize min k.toNat (s.w.eff.toNat - fill) = g at hgrant hg
    rcases Nat.eq_zero_or_pos g with rfl | hg1
    · have hend := State.out_of_ends_at_load (hgrant.trans (State.grantWriter_zero rfl _)) rfl rfl s.beat.burst
      have hzero : k.toNat = 0 := by
        rw [ret_of_answered hout hend]
        exact (Response.frames_isCount 0).2 (by decide)
      omega
    · obtain ⟨m, t, nr, j', f', hm, ht, hs, -, -, -, hpass, -⟩ :=
        State.runWriter_throttled_pass hp hl hg1 (hg.trans hcap) hthr hgrant hx hf
      obtain ⟨hwhole, hcount⟩ := State.answered_pass hl hcap hb hg hm ht hpass
      rw [hwhole] at hout
      rw [← hcount hout, ← hwhole] at hpass
      exact ⟨nr, _, hcount hout ▸ hs, hpass⟩

/-- What the whole write has published. -/
theorem State.exists_publishedLast (hpar : s.par.legal = true) (hpos : s.w.obs.posFront ≤ s.front.newest)
    (hord : s.orderInv) (hpeer : ∀ x ∈ s.writes, x.byPeer = false)
    (hdin : s.beat.din.length = k.toNat * s.cfg.size.toNat)
    (hout : ((s.writing k).runWriter (s.beat.burst + 1)).out = s.out ++ [{ port := .writer, resp := { ret := k } }]) :
    ∃ (nr : Word) (seen : Seen), ((s.writing k).runWriter (s.beat.burst + 1)).PublishedLast s.rear s.w.lr k.toNat s.beat.din
      nr seen := by
  obtain ⟨-, hsize, -, -⟩ := s.cfg.legal_iff.mp hl
  have honce : s.WritesInOnePass k := by
    cases hthr : s.cfg.thr with
    | false => exact State.writesInOnePass_unthrottled hl hcap hb hc1 hx hthr
    | true => exact State.writesInOnePass_throttled hl hcap hb hc1 hx hthr hpar hpos hout
  obtain ⟨nr, q, hs, hbytes, -, ⟨ws, seen, hw, hlen, hws, hrear⟩, -, -, -, hcfg, -⟩ := honce
  have hord' := Moves.keeps (init := True) Move.orderInv (Moves.runWriter (s.beat.burst + 1) (s.writing k)) hord
  generalize (s.writing k).runWriter (s.beat.burst + 1) = t at *
  have hcfg : t.cfg = s.cfg := hcfg
  have hne : ws ≠ [] := List.length_pos_iff.mp (hlen ▸ Nat.mul_pos hc1 hsize)
  have hpeer' : ∀ x ∈ t.writes, x.byPeer = false := fun x hm =>
    (List.mem_append.mp (hw ▸ hm)).elim (hpeer x) fun hnew => (hws x hnew).1
  have hidx := hord'.idx_le hpeer' hw hne fun y hy => (hws y hy).2
  refine ⟨nr, seen, by rw [hcfg, hs], hrear, by rw [hcfg, hdin], fun a ha => ?_, fun x hm => ⟨hpeer' x hm, hidx x hm⟩⟩
  rw [hcfg] at ha ⊢
  have hd : s.beat.din[a]? = some (s.beat.din[a]'(by omega)) := List.getElem?_eq_getElem _
  rw [hd]
  refine hbytes a _ ha ?_
  rw [← hd]
  exact congrArg (s.beat.din[·]?) (by simp [writeTask])

end

/-! ### What the reader reads (44_reader R258) -/

/-- Every byte that the newest store published is settled for a load that this store is ordered before. -/
theorem State.PublishedLast.settledByte {t : State} {x : Cell} {lr nr : Word} {k a : Nat} {din : List Byte} {seen v : Seen}
    (h : t.PublishedLast x lr k din nr seen) (hbuf : t.bufferInv) (hord : t.orderInv) (hv : seen.writer ≤ v.writer)
    (ha : a < k * t.cfg.size.toNat) : t.settledByte (t.cfg.batchOff lr a) v = din[a]? := by
  have hd : din[a]? = some (din[a]'(h.length ▸ ha)) := List.getElem?_eq_getElem _
  rw [hd]
  refine State.settledByte_of_writer hbuf hord (fun y hy => ?_) ((h.bytes a ha).trans hd)
  obtain ⟨hpeer, hle⟩ := h.handed y hy
  exact ⟨hpeer, hle.trans hv⟩

/-- The read of a reader that had read all before the newest store: it observes the rear before it and reads nothing, or that
store and reads what it published. -/
theorem State.PublishedLast.exists_read {s : State} {i : Nat} {k nr : Word} {x : Cell} {seen : Seen} {din : List Byte}
    (h : s.PublishedLast x (s.rd i).lf k.toNat din nr seen) (hbuf : s.bufferInv) (hord : s.orderInv)
    (hlt : i < s.readers.length) (hi : (s.rd i).ph = .idle) (hl : s.cfg.legal = true) (hb : s.cfg.bytes + 3 ≤ s.beat.burst)
    (hcap : k.toNat ≤ s.cfg.cap) (hx : s.cfg.wellFormed (s.rd i).lf = true) (hpos : (s.rd i).obs.posRear = x.newest)
    (hcur : x.current = (s.rd i).lf) :
    ∃ t, (s.reading i k none false).runReader i (s.beat.burst + 1) = t ∧
      (t.out = s.out ++ [{ port := .reader i, resp := { ret := k, dout := din } }] ∨
        (s.par.xing = .lagging ∧ t.out = s.out ++ [{ port := .reader i, resp := {} }])) := by
  have hposle : (s.rd i).obs.posRear ≤ s.rear.newest := by
    rw [hpos, h.rear, Cell.newest_push]
    exact Nat.le_succ _
  obtain ⟨j, rear, t, hlo, hv, hsc, hrun, -, hanswer⟩ :=
    State.exists_readEnded (count := k) (tmo := none) (lv := false) hlt hi rfl hl hb hposle
  refine ⟨t, hrun, ?_⟩
  rw [hpos] at hlo
  rw [h.rear] at hv hsc hanswer
  unfold State.readOutcome at hanswer
  rcases Cell.observed_push hlo hv with ⟨rfl, hrear⟩ | ⟨rfl, hrear⟩
  · rw [hrear, hcur, CfgRegs.diff_sum hl hx (Nat.zero_le _) (CfgRegs.sum_zero hx)] at hanswer
    obtain ⟨dout, hout, hlen, -⟩ := hanswer
    obtain rfl : dout = [] := List.length_eq_zero_iff.mp (by simpa using hlen)
    refine .inr ⟨?_, by simpa using hout⟩
    cases hxing : s.par.xing with
    | lagging => rfl
    | sc => exact absurd (hsc hxing) (by rw [Cell.newest_push]; omega)
  · rw [hrear, CfgRegs.diff_sum hl hx hcap h.sum] at hanswer
    obtain ⟨dout, hout, hlen, -, -, -, -, hread⟩ := hanswer
    rw [Nat.min_self] at hout hlen hread
    have hsettled := fun a => h.settledByte (a := a) hbuf hord (Reader.le_seenAt_push (s.rd i) x { value := nr, seen := seen })
    have hdin : dout = din := by
      refine List.ext_getElem (hlen.trans h.length.symm) fun a ha hd => ?_
      have hbyte := hread a din[a] (hlen ▸ ha) ((hsettled a (hlen ▸ ha)).trans (List.getElem?_eq_getElem hd))
      exact Option.some.inj ((List.getElem?_eq_getElem ha).symm.trans hbyte)
    rw [hdin] at hout
    exact .inl (by simpa using hout)

/-! ### The obligation -/

/-- A reader that is idle is left as it is by all that the writer does. -/
theorem Reader.Marked.eq_of_idle {r r' : Reader} (h : r.Marked r') (hi : r.ph = .idle) : r' = r := by
  obtain ⟨hregs, hph⟩ := h
  have hidle : r'.ph = r.ph := by
    rcases hph with e | ⟨v, e⟩
    · exact e
    · rw [e, hi]
      rfl
  rw [← hregs, ← hidle]

/-- Settles O49: the write hands over all its bytes with the store of `REAR`; the reader's load of `REAR` answers the value before
it, and nothing is read, or the value stored, and then every byte read is settled. -/
theorem readReturnsTheBytesWritten : Obligations.ReadReturnsTheBytesWritten := by
  intro s s1 i k b hp hw hv hl hlt hi hbuf hord hpos hpeer hpar hc1 hcap hdin hburst hb hx hcur hlf hposr hexec hout
  rw [exec_wWrite_begun hp hw hv] at hexec
  obtain rfl := Host.Outcome.next.inj hexec
  obtain ⟨⟨-, hposf⟩, -⟩ := hpos
  obtain ⟨nr, seen, hpub⟩ := State.exists_publishedLast hl hcap hburst hc1 hx hpar hposf hord hpeer hdin hout
  have hmoves := Moves.runWriter (init := True) (s.beat.burst + 1) (s.writing k)
  have hdeeds := Deeds.runWriter (attaches := False) (s.writing k) (s.beat.burst + 1)
  generalize (s.writing k).runWriter (s.beat.burst + 1) = t at *
  have hbuf' : t.bufferInv := Moves.keeps Move.bufferInv hmoves hbuf
  have hord' : t.orderInv := Moves.keeps Move.orderInv hmoves hord
  have hrd : t.rd i.toNat = s.rd i.toNat := (hdeeds.reader_marked nofun nofun).eq_of_idle hi
  have hcfg : t.cfg = s.cfg := hdeeds.cfg nofun
  have hpar' : t.par = s.par := hdeeds.par
  have hlen : t.readers.length = s.readers.length := hdeeds.length
  rw [← hcfg] at hv hl hcap hb hx
  rw [← hlen] at hlt
  rw [← hrd] at hi hlf hposr
  rw [← hlf] at hcur hx hpub
  rw [← hpar']
  have hexec' := exec_rRead_begun (s := { t with beat := { port := .reader i.toNat, burst := b } }) rfl hlt hi hv k none false
  obtain ⟨u, hrun, hread⟩ := State.PublishedLast.exists_read
    (s := { t with beat := { port := .reader i.toNat, burst := b } })
    ⟨hpub.sum, hpub.rear, hpub.length, hpub.bytes, hpub.handed⟩ hbuf' hord' hlt hi hl hb hcap hx hposr hcur
  exact ⟨u, hexec'.trans (congrArg Host.Outcome.next hrun), hread⟩

end Sys2Proof.Machine
end
